-- ==== Sys2Proof/Word.lean ====
section
/-!
DEFINITION. The plain number types of the PB-3140: bytes, frame numbers, slots and sectors (0-6).
-/

namespace Sys2Proof

/-- One byte of a frame, of a record on the wire or of a ladder bank. -/
abbrev Byte := BitVec 8

/-- A frame number: per sector, modulo 65536 (0-6, 0-8). -/
abbrev FrameNo := BitVec 16

/-- A terminal slot, 0..319 (2-1). -/
abbrev Slot := Fin 320

/-- A sector index, 0..11 (3-1). -/
abbrev Sector := Fin 12

/-- One frame as a list of its bytes, offset 0 first. -/
abbrev Frame := List Byte

end Sys2Proof
end

