-- ==== Sys2Proof/Syntax.lean ====
section
/-!
DEFINITION. The commands of the PB-3140: one constructor of `Instr` for each row of
spec/opcode_table.json, with the operands the row's event carries.
-/

namespace Sys2Proof

/-- The causes of a device reset that reach the part from outside (R160). The third cause, a RESTART
request, is a command of its own (`Instr.restart`). -/
inductive ResetInput where
  | power
  | line
  deriving DecidableEq, Repr

/-- The three patterns of the start-up check, in the order of its passes (R161). -/
inductive TestPattern where
  | p5555
  | pAAAA
  | p0000
  deriving DecidableEq, Repr

/-- The first word of a region whose read value the check found different from the pattern (R161, R162):
the pass, the word offset from the start of the region, and the value read. -/
structure WordRead where
  pattern : TestPattern
  offset : BitVec 16
  value : BitVec 16
  deriving DecidableEq, Repr

/-- What a MGMT frame carries after its function code (10-1): the tag, the declared parameter length,
and the bytes of the frame that follow the management header. -/
structure Request where
  tag : BitVec 16
  length : Byte
  bytes : List Byte
  deriving DecidableEq, Repr

/-- The commands of the part: the steps of spec/opcode_table.json, each whole and indivisible. -/
inductive Instr where
  /-- DEVICE_RESET (R160): power-up or an assertion of the reset line. -/
  | deviceReset (cause : ResetInput)
  /-- STARTUP_CHECK_END (R162): region 12 has been tested; the operand is its first failing word, if any. -/
  | startupCheckEnd (failing : Option WordRead)
  /-- DOWNSTREAM_FRAME (R1): a frame arrives on the controller link. -/
  | downstreamFrame (frame : Frame)
  /-- SECTOR_FRAME_REACTION (R44): the sector controller's reaction to an offered sector frame. -/
  | sectorFrameReaction (j : Sector)
  /-- BLIND_ENTRY (R55): the reaction of R44 at the frame that sends the sector to BLIND. -/
  | blindEntry (j : Sector)
  /-- PROBE (R49): the reaction of R44 at the frame where the probe timer reaches 0. -/
  | probe (j : Sector)
  /-- PROGRESS_NOTICE (R62): the reaction of R44 at the frame where the progress counter gives an item. -/
  | progressNotice (j : Sector)
  /-- RE_ENTRY_SCHEDULER_REACTION (R110): the re-entry scheduler's reaction to an offered sector frame. -/
  | reEntrySchedulerReaction (j : Sector)
  /-- BACKOFF_EXPIRY (R112): the reaction of R110 at the frame where the backoff of slot `k` reaches 0. -/
  | backoffExpiry (k : Slot)
  /-- SHIFT_MATURITY (R102): the report evaluator examines the announced shift of slot `k` of sector `j`
  at an offered sector frame. -/
  | shiftMaturity (j : Sector) (k : Slot)
  /-- SLOT_FILLING (R146): the control inserter fills the sector's oldest unfilled sector frame. -/
  | slotFilling (j : Sector)
  /-- UPSTREAM_FRAME (R6): a frame arrives on the radio link. `noticesFirst` says whether the notice queue
  is checked (R168) before or after the frame's own offers reach it; R168 allows either order. -/
  | upstreamFrame (frame : Frame) (noticesFirst : Bool)
  /-- DESCRIPTOR_WALK_STEP (R14): the next step of the descriptor walk of the sector's evaluation. -/
  | descriptorWalkStep (j : Sector)
  /-- WINDOW_SWEEP_STEP (R15): the next step of the window sweep of the sector's evaluation. -/
  | windowSweepStep (j : Sector)
  /-- EVALUATION_COMPLETION (R16): the sector's evaluation completes. -/
  | evaluationCompletion (j : Sector)
  /-- UNKNOWN_FUNCTION (R154): a request whose function code is not one of the 22. -/
  | unknownFunction (code : Byte) (r : Request)
  /-- ECHO (R157). -/
  | echo (r : Request)
  /-- READ STARTUP (R165). -/
  | readStartup (r : Request)
  /-- RESTART (R166). -/
  | restart (r : Request)
  /-- READ FAULT LATCH (R158). -/
  | readFaultLatch (r : Request)
  /-- PROVISION TERMINAL (R34). -/
  | provisionTerminal (r : Request)
  /-- REMOVE TERMINAL (R35). -/
  | removeTerminal (r : Request)
  /-- READ TERMINAL (R36). -/
  | readTerminal (r : Request)
  /-- CLEAR HEALTH (R37). -/
  | clearHealth (r : Request)
  /-- SET SECTOR (R39). -/
  | setSector (r : Request)
  /-- READ SECTOR (R41). -/
  | readSector (r : Request)
  /-- ENABLE SECTOR (R42). -/
  | enableSector (r : Request)
  /-- DISABLE SECTOR (R43). -/
  | disableSector (r : Request)
  /-- SUSPEND SECTOR (R57). -/
  | suspendSector (r : Request)
  /-- RESUME SECTOR (R59). -/
  | resumeSector (r : Request)
  /-- RESET SECTOR (R61). -/
  | resetSector (r : Request)
  /-- FORCE OUTAGE (R60). -/
  | forceOutage (r : Request)
  /-- LOAD LADDER BLOCK (R82). -/
  | loadLadderBlock (r : Request)
  /-- ACTIVATE LADDER (R85). -/
  | activateLadder (r : Request)
  /-- READ LADDER (R90). -/
  | readLadder (r : Request)
  /-- HOLD TERMINAL (R123). -/
  | holdTerminal (r : Request)
  /-- RELEASE TERMINAL (R125). -/
  | releaseTerminal (r : Request)
  /-- READ QUEUE (R126). -/
  | readQueue (r : Request)
  /-- REGION_TEST_END (R161): the check has tested the next of regions 0 to 11; the operand is that region's
  first failing word, if any. -/
  | regionTestEnd (failing : Option WordRead)
  deriving DecidableEq, Repr

end Sys2Proof
end

