-- ==== Sys2Proof/Decode.lean ====
section
/-!
DEFINITION. The command a word of spec/opcode_table.json spells. No row of the table gives bits, so no word spells one: the
part's commands arrive as frames, line events and internal events, and their operands are read in Machine/Operands.lean.
-/

namespace Sys2Proof

/-- The command spelled by `nbits` table bits `w`: none, since no row of the table gives bits.
DESIGN CHOICE, safe (log entry 2). -/
def decodeTableWord (_nbits _w : Nat) : Option Instr := none

end Sys2Proof
end

