-- ==== Sys2Proof/Config.lean ====
section
/-!
DEFINITION. What the PB-3140 fixes once for every part: its identifier and revision (R164) and the capacities of
its collections (0-9). The spec leaves no value open, so there is no free value here.
-/

namespace Sys2Proof.Config

/-- The part identifier of the READY item and of READ STARTUP (R164, R165). -/
def partIdentifier : BitVec 16 := 0x3140

/-- The revision code of the READY item and of READ STARTUP (R164, R165). -/
def revisionCode : Byte := 0x01

/-- The most non-EMPTY slots of one sector (R19). -/
def populationLimit : Nat := 64

/-- The most entries of a loss log (R46). -/
def lossLogLimit : Nat := 64

/-- The most entries of a control queue (R140). -/
def controlQueueLimit : Nat := 48

/-- The most entries of a history (R68). -/
def historyLimit : Nat := 8

/-- The value at which the blind counter stops rising (R44). -/
def blindCounterLimit : Nat := 64

/-- The value at which the attempt count stops rising (R119). -/
def attemptCountLimit : Nat := 15

/-- The most result bytes of one reply segment (R156). -/
def segmentLimit : Nat := 192

/-- The most items of one NOTICE frame (R168). -/
def noticeFrameLimit : Nat := 8

/-- The most bursts an upstream frame may declare (R6). -/
def burstLimit : Nat := 96

end Sys2Proof.Config
end

