-- ==== Sys2Proof/Machine/State.lean ====
section
/-!
DEFINITION. The state of the PB-3140 as plain data: every register, collection, counter and mode the spec names,
with its value after device reset as the default of its field, and the model's own fields, each marked as such.
-/

namespace Sys2Proof.Machine

/-! ## Codes and small records -/

/-- The eleven recovery states of a terminal (2-3). -/
inductive TermState where
  | empty | held | inService | fading | quiet | waiting | deferred | ranging | verifying | ramping | climbing
  deriving DecidableEq, Repr

/-- The six states of a sector (3-3). -/
inductive SectorState where
  | disabled | clear | outage | recovering | blind | suspended
  deriving DecidableEq, Repr

/-- The values a prior state and a working state can take (R38). -/
inductive WorkState where
  | clear | outage | recovering
  deriving DecidableEq, Repr

/-- The part modes (R159). -/
inductive Mode where
  | starting | running | bypass
  deriving DecidableEq, Repr

/-- The recorded causes of a device reset (R160). -/
inductive ResetCause where
  | power | line | restart
  deriving DecidableEq, Repr

/-- The fault kinds of the latch (1-3). -/
inductive FaultKind where
  | marker | sector | count | length | stale | sequence | overrun
  deriving DecidableEq, Repr

/-- The outcomes of a verification exchange (R27). -/
inductive VerifyOutcome where
  | none | clean | degraded | failed | aborted
  deriving DecidableEq, Repr

/-- The kinds of message a control queue entry can name (9-1). -/
inductive MsgKind where
  | correct | verify | power | shift
  deriving DecidableEq, Repr

/-- The classes of the control queue, served in this order (R140). -/
inductive MsgClass where
  | a | b | c | d
  deriving DecidableEq, Repr

/-- The burst kinds of a descriptor (11-3); `unknown` is every other kind byte (R173). -/
inductive BurstKind where
  | report | ranging | verify | traffic | unknown
  deriving DecidableEq, Repr

/-- The status codes of a reply (R155). -/
inductive Status where
  | ok | unknownFunction | badLength | badParameter | wrongState | busy | noSpace | conflict | imageRejected
  | starting | bypassed
  deriving DecidableEq, Repr

/-- The 22 requests (10-2). -/
inductive RequestKind where
  | echo | readStartup | restart | readFaultLatch
  | provisionTerminal | removeTerminal | readTerminal | clearHealth
  | setSector | readSector | enableSector | disableSector | suspendSector | resumeSector | resetSector | forceOutage
  | loadLadderBlock | activateLadder | readLadder
  | holdTerminal | releaseTerminal | readQueue
  deriving DecidableEq, Repr

/-! ## Terminal records (Chapter 2) -/

/-- A pending shift (R23): queued while `effective` is absent, announced once it is present. -/
structure PendingShift where
  target : Nat
  effective : Option FrameNo := none
  deriving DecidableEq, Repr

/-- The first fault of a verification (R130). -/
structure FirstFault where
  block : Nat
  offset : Nat
  expected : Byte
  received : Option Byte
  deriving DecidableEq, Repr

/-- The verification record (R27). -/
structure VerificationRecord where
  started : Bool := false
  completed : Bool := false
  outcome : VerifyOutcome := .none
  startFrame : FrameNo := 0
  failedBlocks : Nat := 0
  firstFault : Option FirstFault := none
  deriving DecidableEq, Repr

/-- The sticky health fields (R31). -/
structure StickyHealth where
  ceiling : Bool := false
  degraded : Bool := false
  rampUnsettled : Bool := false
  exhausted : Bool := false
  onsetDrop : Bool := false
  deriving DecidableEq, Repr

/-- The per-report health fields (R32). -/
structure PerReportHealth where
  belowDrop : Bool := false
  noHeadroom : Bool := false
  timingOut : Bool := false
  deriving DecidableEq, Repr

/-- The owed kinds of a terminal (R28, R143). -/
structure OwedKinds where
  correct : Bool := false
  verify : Bool := false
  power : Bool := false
  shift : Bool := false
  deriving DecidableEq, Repr

/-- One terminal record (2-2). The defaults are the empty values, which are also the values after device
reset (R33). The slot field of the spec is the record's index in the table. -/
structure Terminal where
  sector : Sector := 0
  linkAddress : BitVec 12 := 0
  priority : Fin 4 := 0
  maxRung : Nat := 0
  state : TermState := .empty
  rung : Nat := 0
  pendingShift : Option PendingShift := none
  restoreRung : Option Nat := none
  lossF : Option Nat := none
  filtered : Option Nat := none
  history : List Nat := []
  lastHeadroom : Nat := 0
  power : Int := 0
  pendingAdjust : Option Int := none
  missRun : Nat := 0
  floorRun : Nat := 0
  climbDwell : Nat := 0
  rampSettle : Nat := 0
  phaseReports : Nat := 0
  attemptCount : Nat := 0
  roundCount : Nat := 0
  expectedBurst : Option FrameNo := none
  backoff : Nat := 0
  probed : Bool := false
  verification : VerificationRecord := {}
  sticky : StickyHealth := {}
  perReport : PerReportHealth := {}
  -- the degraded_cap bound of a DEGRADED that has been cleared: it stands until the next report (R31, R37, R104)
  capKept : Bool := false
  owed : OwedKinds := {}
  noticePending : Bool := false
  deriving DecidableEq, Repr

/-! ## Sector records (Chapters 1, 2, 3, 7 and 9) -/

/-- The 29 configuration parameters of a sector in the order of 3-2, with their defaults. -/
structure SectorConfig where
  windowSize : Nat := 2
  grantLead : Nat := 2
  filterShift : Nat := 2
  fadeHorizon : Nat := 4
  targetMargin : Nat := 12
  deadband : Nat := 8
  maxStep : Nat := 4
  timingTolerance : Nat := 4
  lossLimit : Nat := 3
  climbDwell : Nat := 16
  recoveryDwell : Nat := 4
  climbTimeout : Nat := 64
  rampSettle : Nat := 2
  rampLimit : Nat := 16
  shiftDelay : Nat := 4
  rangingRounds : Nat := 4
  attemptLimit : Nat := 6
  backoffBase : Nat := 8
  backoffCap : Nat := 400
  verifyBlocks : Nat := 8
  verifyTolerance : Nat := 1
  degradedCap : Nat := 1
  outageCount : Nat := 4
  outageWindow : Nat := 200
  probeInterval : Nat := 50
  probeRotate : Nat := 3
  releaseBatch : Nat := 4
  blindLimit : Nat := 8
  progressInterval : Nat := 24
  deriving DecidableEq, Repr

/-- One entry of a loss log: a slot and the number of the frame whose evaluation declared the loss (R46). -/
structure LossEntry where
  slot : Slot
  frame : FrameNo
  deriving DecidableEq, Repr

/-- One entry of a control queue (9-1). -/
structure ControlEntry where
  slot : Slot
  kind : MsgKind
  cls : MsgClass
  deriving DecidableEq, Repr

/-- One burst of an upstream frame: its descriptor and its payload (11-3, R173). -/
structure Burst where
  address : BitVec 12
  kind : BurstKind
  received : Bool
  snr : Byte
  timing : Byte
  headroom : Byte
  payload : List Byte
  deriving DecidableEq, Repr

/-- What an intake bank holds of an upstream frame that passed intake: its number and its bursts (1-4). -/
structure BankedFrame where
  number : FrameNo
  bursts : List Burst
  deriving DecidableEq, Repr

/-- The two intake banks of a sector (1-4). -/
inductive IntakeBank where
  | a | b
  deriving DecidableEq, Repr

/-- An evaluation in flight (1-5): the intake bank it occupies, its frame, the ladder bank it holds (R13), and
its place (R17). The place is the number of descriptors walked, the slots the walk handed a ranging or
verification burst of, and the present window members the sweep has taken. DEDUCED, unsafe (log entry 19). -/
structure Evaluation where
  bank : IntakeBank
  frame : BankedFrame
  held : Fin 2
  walked : Nat := 0
  handed : List Slot := []
  swept : List Slot := []
  deriving DecidableEq, Repr

/-- Everything the part keeps per sector. The defaults are the values after device reset (R8, R12, R19, R20, R38,
R140, 7-1). -/
structure SectorRec where
  -- the sector record of R38
  state : SectorState := .disabled
  prior : Option WorkState := none
  suspendPending : Bool := false
  config : SectorConfig := {}
  lossLog : List LossEntry := []
  lead : Option Slot := none
  leadFailures : Nat := 0
  probeTimer : Nat := 0
  releaseCursor : Option Slot := none
  blindCounter : Nat := 0
  progressCounter : Nat := 0
  -- the terminal table's population and address map (R19, R20)
  population : Nat := 0
  addressMap : List (BitVec 12 × Slot) := []
  -- the upstream intake unit (R8, 1-4)
  lastEvaluated : Option FrameNo := none
  evaluation : Option Evaluation := none
  waitingBank : Option BankedFrame := none
  -- the re-entry scheduler (7-1) and the control inserter (9-1)
  queue : List Slot := []
  window : List Slot := []
  controlQueue : List ControlEntry := []
  -- MODEL'S OWN: the tag of the pending SUSPEND SECTOR, which its later reply echoes (R153)
  suspendTag : BitVec 16 := 0
  -- MODEL'S OWN: offered sector frames whose reactions have not been taken yet (R2, R44)
  controllerDue : Nat := 0
  schedulerDue : Nat := 0
  maturityDue : List (FrameNo × Slot) := []
  deriving DecidableEq, Repr

/-! ## Ladder store, fault latch, start-up record, notices (Chapters 1, 5 and 10) -/

/-- One ladder bank: its 96 bytes and its hold count (R79). -/
structure LadderBank where
  bytes : Vector Byte 96 := Vector.replicate 96 0
  holds : Nat := 0
  deriving DecidableEq, Repr

/-- The profile ladder store (R79). -/
structure LadderStore where
  active : Option (Fin 2) := none
  banks : Vector LadderBank 2 := Vector.replicate 2 {}
  staged : Vector Bool 3 := Vector.replicate 3 false
  deriving DecidableEq, Repr

/-- The fault record of a LOCKED latch (R9). -/
structure FaultRecord where
  kind : FaultKind
  sector : Byte
  frame : FrameNo
  burst : Option Nat
  deriving DecidableEq, Repr

/-- The first failure of a start-up check (R162). -/
structure FirstFailure where
  region : Nat
  offset : BitVec 16
  expected : BitVec 16
  value : BitVec 16
  deriving DecidableEq, Repr

/-- The start-up record (R161). -/
structure StartUpRecord where
  progress : BitVec 16 := 0
  failure : BitVec 16 := 0
  firstFailure : Option FirstFailure := none
  passed : Option Bool := none
  cause : ResetCause := .power
  deriving DecidableEq, Repr

/-- One item of the notice queue (R167). -/
inductive NoticeItem where
  | terminal (k : Slot)
  | sector (j : Sector)
  deriving DecidableEq, Repr

/-- MODEL'S OWN: a downstream frame that has arrived and has not left on the radio link. `fill` names the sector
whose control inserter has still to fill its free slots (R2, R4). DESIGN CHOICE, safe (log entries 4 and 16). -/
structure Transit where
  frame : Frame
  fill : Option Sector
  deriving DecidableEq, Repr

/-! ## The state -/

/-- The state of the part. -/
structure State where
  mode : Mode
  startUp : StartUpRecord
  terminals : Vector Terminal 320
  sectors : Vector SectorRec 12
  ladder : LadderStore
  /-- The fault latch (R9): `none` is EMPTY, a record is LOCKED. -/
  latch : Option FaultRecord
  notices : List NoticeItem
  /-- MODEL'S OWN: frames on their way to the radio link, oldest first. -/
  transit : List Transit
  /-- MODEL'S OWN: every frame that has left on the controller link, in order (R3). -/
  controllerOut : List Frame
  /-- MODEL'S OWN: every frame that has left on the radio link, in order (R4). -/
  radioOut : List Frame
  /-- MODEL'S OWN: the commands that wait, first in, first out. -/
  pending : List Instr
  deriving DecidableEq, Repr

/-- Why the part stops. No command of the spec stops it, so there is no fault. -/
inductive Fault where
  deriving DecidableEq, Repr

/-- Why the model gives no meaning. -/
inductive Refusal where
  /-- Raised by an arm of `exec` whose command has no meaning yet; safe, since nothing can be proved of it. No arm
  raises it now. -/
  | notModelled (mnemonic : String)
  deriving DecidableEq, Repr

/-- The outcome of one command. -/
abbrev Result := Host.Outcome State Fault Refusal

/-- The part right after a power-up reset (R33, R38, R79, R159 to R161): STARTING, with the start-up check about to
test region 0. DEDUCED, unsafe (log entry 27). -/
def State.reset : State where
  mode := .starting
  startUp := {}
  terminals := Vector.replicate 320 {}
  sectors := Vector.replicate 12 {}
  ladder := {}
  latch := none
  notices := []
  transit := []
  controllerOut := []
  radioOut := []
  pending := []

end Sys2Proof.Machine
end

