-- ==== Sys2Proof/Machine/Operands.lean ====
section
/-!
DEFINITION. Reading what arrives: the byte fields of frames, burst descriptors and request parameters
(11-1 to 11-3, R170, R172, R173).
-/

namespace Sys2Proof.Machine

/-! ## Byte fields -/

/-- The byte at an offset; a byte that is missing reads as 0 (R6 says so of a short header). -/
def byteAt (bs : List Byte) (i : Nat) : Byte := bs.getD i 0

/-- A one-byte unsigned field (R170). -/
def nat8 (bs : List Byte) (i : Nat) : Nat := (byteAt bs i).toNat

/-- A two-byte field, high byte first (R170). -/
def word16 (bs : List Byte) (i : Nat) : BitVec 16 := byteAt bs i ++ byteAt bs (i + 1)

/-- A two-byte unsigned field, high byte first (R170). -/
def nat16 (bs : List Byte) (i : Nat) : Nat := (word16 bs i).toNat

/-! ## Downstream frames (11-2) -/

/-- A downstream frame is recognised as MGMT by its marker and its class (R1). -/
def isMgmt (fr : Frame) : Bool :=
  decide (2 ≤ fr.length) && byteAt fr 0 == 0x6C && byteAt fr 1 == 0x02

/-- A sector index read from a byte, present when the byte is in 0..11. -/
def sectorOfByte (b : Byte) : Option Sector :=
  if h : b.toNat < 12 then some ⟨b.toNat, h⟩ else none

/-- The sector of which a downstream frame is a sector frame, if it is one (the four conditions of R2). -/
def sectorFrame (fr : Frame) : Option Sector :=
  if 70 ≤ fr.length ∧ byteAt fr 0 = 0x6C ∧ byteAt fr 1 = 0x01 then sectorOfByte (byteAt fr 2) else none

/-- The frame number in the common header (11-2, 11-3). -/
def frameNumber (fr : Frame) : FrameNo := word16 fr 3

/-- The declared free-slot count as it is read: a value above 8 is taken as 8 (R172). -/
def freeSlots (fr : Frame) : Nat := min (nat8 fr 5) 8

/-- The request of a MGMT frame: its function code and what follows it; absent when the frame is too short for the
management header (R152). -/
def requestOf (fr : Frame) : Option (Byte × Request) :=
  if fr.length < 9 then none
  else some (byteAt fr 5, { tag := word16 fr 6, length := byteAt fr 8, bytes := fr.drop 9 })

/-! ## Upstream frames (11-3) -/

/-- A kind byte of a burst descriptor (R173). -/
def burstKindOf (b : Byte) : BurstKind :=
  if b = 0x01 then .report
  else if b = 0x02 then .ranging
  else if b = 0x03 then .verify
  else if b = 0x04 then .traffic
  else .unknown

/-- The declared payload length of descriptor `i`. -/
def payloadLength (fr : Frame) (i : Nat) : Nat := nat16 fr (6 + 9 * i + 7)

/-- The kind of descriptor `i`. -/
def descriptorKind (fr : Frame) (i : Nat) : BurstKind := burstKindOf (byteAt fr (6 + 9 * i + 2))

/-- The first of descriptors `i`, `i + 1`, ... (`todo` of them) whose descriptor or payload does not fit within the
frame; `off` is where the payload of descriptor `i` begins (check 3 of R6). A payload of no bytes always fits.
DEDUCED, unsafe (log entry 12). -/
def firstUnfit (fr : Frame) : (todo i off : Nat) → Option Nat
  | 0, _, _ => none
  | todo + 1, i, off =>
    if fr.length < 6 + 9 * (i + 1) then some i
    else if 0 < payloadLength fr i ∧ fr.length < off + payloadLength fr i then some i
    else firstUnfit fr todo (i + 1) (off + payloadLength fr i)

/-- Whether a declared payload length is right for its burst kind (check 4 of R6). -/
def lengthFits (kind : BurstKind) (len : Nat) : Bool :=
  match kind with
  | .report => decide (len = 0)
  | .ranging => decide (len = 0)
  | .verify => decide (16 ≤ len ∧ len ≤ 512 ∧ len % 16 = 0)
  | .traffic => true
  | .unknown => true

/-- The first of the first `n` descriptors whose payload length is wrong for its kind (check 4 of R6). -/
def firstWrongLength (fr : Frame) (n : Nat) : Option Nat :=
  (List.range n).find? fun i => !lengthFits (descriptorKind fr i) (payloadLength fr i)

/-- Checks 3 and 4 of R6: the fault and the burst index it records, if one of them fails. -/
def layoutFault (fr : Frame) : Option (FaultKind × Option Nat) :=
  let n := nat8 fr 5
  if Config.burstLimit < n then some (.count, none)
  else match firstUnfit fr n 0 (6 + 9 * n) with
    | some i => some (.count, some i)
    | none =>
      match firstWrongLength fr n with
      | some i => some (.length, some i)
      | none => none

/-- Burst `i` of a frame, its payload beginning at `off` (R173). -/
def burstAt (fr : Frame) (i off : Nat) : Burst :=
  { address := (word16 fr (6 + 9 * i)).setWidth 12
    kind := descriptorKind fr i
    received := byteAt fr (6 + 9 * i + 3) == 0x01
    snr := byteAt fr (6 + 9 * i + 4)
    timing := byteAt fr (6 + 9 * i + 5)
    headroom := byteAt fr (6 + 9 * i + 6)
    payload := (fr.drop off).take (payloadLength fr i) }

/-- Bursts `i`, `i + 1`, ... of a frame (`todo` of them), the payload of burst `i` beginning at `off` (11-3). -/
def burstsFrom (fr : Frame) : (todo i off : Nat) → List Burst
  | 0, _, _ => []
  | todo + 1, i, off => burstAt fr i off :: burstsFrom fr todo (i + 1) (off + payloadLength fr i)

/-- What an intake bank holds of a frame that passed intake. -/
def bankedFrame (fr : Frame) : BankedFrame :=
  { number := frameNumber fr, bursts := burstsFrom fr (nat8 fr 5) 0 (6 + 9 * nat8 fr 5) }

/-! ## Frame numbers (0-8) -/

/-- The distance `(N − E) mod 65536` of a frame number past an expected one. -/
def distance (n e : FrameNo) : Nat := (n - e).toNat

/-- `N` is before `E` by 1 to 15 frames: what the sweep and the maturity test wait for (R15, R102). -/
def shortlyBefore (n e : FrameNo) : Bool := decide (65521 ≤ distance n e)

/-- The frame number `d` frames later (R148). -/
def later (n : FrameNo) (d : Nat) : FrameNo := n + BitVec.ofNat 16 d

/-! ## Requests (10-2) -/

/-- The request a function code names (10-2). -/
def requestKindOf (code : Byte) : Option RequestKind :=
  match code.toNat with
  | 0x01 => some .echo
  | 0x02 => some .readStartup
  | 0x03 => some .restart
  | 0x04 => some .readFaultLatch
  | 0x10 => some .provisionTerminal
  | 0x11 => some .removeTerminal
  | 0x12 => some .readTerminal
  | 0x13 => some .clearHealth
  | 0x20 => some .setSector
  | 0x21 => some .readSector
  | 0x22 => some .enableSector
  | 0x23 => some .disableSector
  | 0x24 => some .suspendSector
  | 0x25 => some .resumeSector
  | 0x26 => some .resetSector
  | 0x27 => some .forceOutage
  | 0x30 => some .loadLadderBlock
  | 0x31 => some .activateLadder
  | 0x32 => some .readLadder
  | 0x40 => some .holdTerminal
  | 0x41 => some .releaseTerminal
  | 0x42 => some .readQueue
  | _ => none

/-- The function code of a request (10-2). -/
def functionCode : RequestKind → Byte
  | .echo => 0x01
  | .readStartup => 0x02
  | .restart => 0x03
  | .readFaultLatch => 0x04
  | .provisionTerminal => 0x10
  | .removeTerminal => 0x11
  | .readTerminal => 0x12
  | .clearHealth => 0x13
  | .setSector => 0x20
  | .readSector => 0x21
  | .enableSector => 0x22
  | .disableSector => 0x23
  | .suspendSector => 0x24
  | .resumeSector => 0x25
  | .resetSector => 0x26
  | .forceOutage => 0x27
  | .loadLadderBlock => 0x30
  | .activateLadder => 0x31
  | .readLadder => 0x32
  | .holdTerminal => 0x40
  | .releaseTerminal => 0x41
  | .readQueue => 0x42

/-- Whether a declared parameter length is the one the request takes (10-2). -/
def takesLength (f : RequestKind) (len : Nat) : Bool :=
  match f with
  | .echo => decide (len ≤ 64)
  | .readStartup => decide (len = 0)
  | .restart => decide (len = 0)
  | .readFaultLatch => decide (len = 1)
  | .provisionTerminal => decide (len = 7)
  | .removeTerminal => decide (len = 2)
  | .readTerminal => decide (len = 2)
  | .clearHealth => decide (len = 2)
  | .setSector => decide (len = 34)
  | .readSector => decide (len = 1)
  | .enableSector => decide (len = 1)
  | .disableSector => decide (len = 1)
  | .suspendSector => decide (len = 1)
  | .resumeSector => decide (len = 1)
  | .resetSector => decide (len = 1)
  | .forceOutage => decide (len = 1)
  | .loadLadderBlock => decide (len = 33)
  | .activateLadder => decide (len = 0)
  | .readLadder => decide (len = 1)
  | .holdTerminal => decide (len = 2)
  | .releaseTerminal => decide (len = 2)
  | .readQueue => decide (len = 1)

/-- The parameters of a request whose length was accepted: bytes beyond the declared length are ignored (R154). -/
def parameters (r : Request) : List Byte := r.bytes.take r.length.toNat

/-- The slot parameter at an offset, present when it is in 0..319. -/
def slotAt (ps : List Byte) (i : Nat) : Option Slot :=
  if h : nat16 ps i < 320 then some ⟨nat16 ps i, h⟩ else none

/-- The sector parameter at an offset, present when it is in 0..11. -/
def sectorAt (ps : List Byte) (i : Nat) : Option Sector := sectorOfByte (byteAt ps i)

/-- The configuration carried by SET SECTOR after its sector byte, in the order of 3-2; climb_timeout, backoff_cap,
outage_window and probe_interval take two bytes (10-2). -/
def configOf (ps : List Byte) : SectorConfig :=
  { windowSize := nat8 ps 1
    grantLead := nat8 ps 2
    filterShift := nat8 ps 3
    fadeHorizon := nat8 ps 4
    targetMargin := nat8 ps 5
    deadband := nat8 ps 6
    maxStep := nat8 ps 7
    timingTolerance := nat8 ps 8
    lossLimit := nat8 ps 9
    climbDwell := nat8 ps 10
    recoveryDwell := nat8 ps 11
    climbTimeout := nat16 ps 12
    rampSettle := nat8 ps 14
    rampLimit := nat8 ps 15
    shiftDelay := nat8 ps 16
    rangingRounds := nat8 ps 17
    attemptLimit := nat8 ps 18
    backoffBase := nat8 ps 19
    backoffCap := nat16 ps 20
    verifyBlocks := nat8 ps 22
    verifyTolerance := nat8 ps 23
    degradedCap := nat8 ps 24
    outageCount := nat8 ps 25
    outageWindow := nat16 ps 26
    probeInterval := nat16 ps 28
    probeRotate := nat8 ps 30
    releaseBatch := nat8 ps 31
    blindLimit := nat8 ps 32
    progressInterval := nat8 ps 33 }

/-- Every parameter within its range in 3-2 (check 2 of R39). -/
def SectorConfig.inRange (c : SectorConfig) : Bool :=
  decide (1 ≤ c.windowSize ∧ c.windowSize ≤ 8) && decide (1 ≤ c.grantLead ∧ c.grantLead ≤ 8)
    && decide (c.filterShift ≤ 4) && decide (c.fadeHorizon ≤ 8) && decide (c.targetMargin ≤ 40)
    && decide (c.deadband ≤ 32) && decide (1 ≤ c.maxStep ∧ c.maxStep ≤ 12) && decide (c.timingTolerance ≤ 31)
    && decide (1 ≤ c.lossLimit ∧ c.lossLimit ≤ 16) && decide (1 ≤ c.climbDwell ∧ c.climbDwell ≤ 64)
    && decide (1 ≤ c.recoveryDwell ∧ c.recoveryDwell ≤ 64) && decide (1 ≤ c.climbTimeout ∧ c.climbTimeout ≤ 1024)
    && decide (1 ≤ c.rampSettle ∧ c.rampSettle ≤ 8) && decide (1 ≤ c.rampLimit ∧ c.rampLimit ≤ 64)
    && decide (2 ≤ c.shiftDelay ∧ c.shiftDelay ≤ 15) && decide (1 ≤ c.rangingRounds ∧ c.rangingRounds ≤ 8)
    && decide (1 ≤ c.attemptLimit ∧ c.attemptLimit ≤ 15) && decide (1 ≤ c.backoffBase ∧ c.backoffBase ≤ 64)
    && decide (1 ≤ c.backoffCap ∧ c.backoffCap ≤ 4096) && decide (1 ≤ c.verifyBlocks ∧ c.verifyBlocks ≤ 32)
    && decide (c.verifyTolerance ≤ 32) && decide (c.degradedCap ≤ 15)
    && decide (1 ≤ c.outageCount ∧ c.outageCount ≤ 64) && decide (1 ≤ c.outageWindow ∧ c.outageWindow ≤ 4096)
    && decide (1 ≤ c.probeInterval ∧ c.probeInterval ≤ 1024) && decide (1 ≤ c.probeRotate ∧ c.probeRotate ≤ 8)
    && decide (c.releaseBatch ≤ 16) && decide (1 ≤ c.blindLimit ∧ c.blindLimit ≤ 64)
    && decide (c.progressInterval ≤ 254)

end Sys2Proof.Machine
end

