-- ==== Sys2Proof/Machine/Ops.lean ====
section
/-!
DEFINITION. The named operations by which the meanings read and write the state: terminal records, sector records,
the address map, the fault latch, the two links, and the device reset (Chapters 1, 2, 3, 10).
-/

namespace Sys2Proof.Machine

/-! ## Terminal and sector records -/

/-- The record of a slot. -/
def State.term (s : State) (k : Slot) : Terminal := s.terminals[k.val]

/-- Writes the record of a slot. -/
def State.setTerm (s : State) (k : Slot) (t : Terminal) : State :=
  { s with terminals := s.terminals.set k.val t }

/-- Changes the record of a slot. -/
def State.modTerm (s : State) (k : Slot) (f : Terminal → Terminal) : State := s.setTerm k (f (s.term k))

/-- The record of a sector. -/
def State.sec (s : State) (j : Sector) : SectorRec := s.sectors[j.val]

/-- Writes the record of a sector. -/
def State.setSec (s : State) (j : Sector) (r : SectorRec) : State :=
  { s with sectors := s.sectors.set j.val r }

/-- Changes the record of a sector. -/
def State.modSec (s : State) (j : Sector) (f : SectorRec → SectorRec) : State := s.setSec j (f (s.sec j))

/-- The sector a slot belongs to. -/
def State.sectorOf (s : State) (k : Slot) : Sector := (s.term k).sector

/-- The configuration of a sector. -/
def State.cfg (s : State) (j : Sector) : SectorConfig := (s.sec j).config

/-- All slots in increasing order. -/
def allSlots : List Slot := List.finRange 320

/-- A slot is one of a sector's terminals: it is not EMPTY and its sector is that one (R19). -/
def State.belongs (s : State) (j : Sector) (k : Slot) : Bool :=
  (s.term k).state != .empty && (s.term k).sector == j

/-- The terminals of a sector in slot order (R19). -/
def State.slotsOf (s : State) (j : Sector) : List Slot := allSlots.filter (s.belongs j)

/-- The terminals of a sector that are in one state, in slot order. -/
def State.slotsIn (s : State) (j : Sector) (st : TermState) : List Slot :=
  (s.slotsOf j).filter fun k => (s.term k).state == st

/-- The carrying states (2-3). -/
def TermState.carrying : TermState → Bool
  | .inService => true
  | .fading => true
  | .ramping => true
  | .climbing => true
  | .empty => false
  | .held => false
  | .quiet => false
  | .waiting => false
  | .deferred => false
  | .ranging => false
  | .verifying => false

/-- The states an outage declaration moves to QUIET (R47). -/
def TermState.reEntering : TermState → Bool
  | .waiting => true
  | .deferred => true
  | .ranging => true
  | .verifying => true
  | .empty => false
  | .held => false
  | .inService => false
  | .fading => false
  | .quiet => false
  | .ramping => false
  | .climbing => false

/-! ## Sector states -/

/-- A working state as the sector state it is. -/
def WorkState.toSector : WorkState → SectorState
  | .clear => .clear
  | .outage => .outage
  | .recovering => .recovering

/-- The working state a sector state is, for the three states that are one. -/
def SectorState.work : SectorState → Option WorkState
  | .clear => some .clear
  | .outage => some .outage
  | .recovering => some .recovering
  | .disabled => none
  | .blind => none
  | .suspended => none

/-- The working state of a sector (R38): the present state if it is one, the prior state while BLIND or SUSPENDED,
none while DISABLED. -/
def SectorRec.working (r : SectorRec) : Option WorkState :=
  match r.state with
  | .clear => some .clear
  | .outage => some .outage
  | .recovering => some .recovering
  | .blind => r.prior
  | .suspended => r.prior
  | .disabled => none

/-- Sector frames are offered and upstream frames checked in every state but DISABLED and SUSPENDED (R2, R5). -/
def SectorState.served : SectorState → Bool
  | .clear => true
  | .outage => true
  | .recovering => true
  | .blind => true
  | .disabled => false
  | .suspended => false

/-! ## The address map (R20) -/

/-- The slot an address is paired with in the sector's address map, if any. DESIGN CHOICE, safe (log entry 20). -/
def State.resolve (s : State) (j : Sector) (address : BitVec 12) : Option Slot :=
  ((s.sec j).addressMap.find? fun p => p.1 == address).map Prod.snd

/-! ## The fault latch (R9) -/

/-- Offers a fault to the latch: an EMPTY latch records it, a LOCKED one is unchanged. -/
def State.offerFault (s : State) (r : FaultRecord) : State :=
  match s.latch with
  | none => { s with latch := some r }
  | some _ => s

/-! ## The two links (R3, R4) -/

/-- Emits a frame on the controller link: a forwarded upstream frame or one the part built.
DESIGN CHOICE, safe (log entry 16). -/
def State.emit (s : State) (fr : Frame) : State := { s with controllerOut := s.controllerOut ++ [fr] }

/-- Frames leave on the radio link in arrival order: every frame ahead of the first unfilled one leaves. -/
def State.release (s : State) : State :=
  { s with
    radioOut := s.radioOut ++ (s.transit.takeWhile fun t => t.fill.isNone).map Transit.frame
    transit := s.transit.dropWhile fun t => t.fill.isNone }

/-- A frame is put on its way to the radio link. -/
def State.forward (s : State) (fr : Frame) (fill : Option Sector) : State :=
  State.release { s with transit := s.transit ++ [{ frame := fr, fill := fill }] }

/-! ## Device reset (R160) -/

/-- The device reset, one event over the whole part: every block takes its value after device reset, the reset
cause is recorded, and the start-up check begins. Frames that have left stay out, and frames on their way to the
radio link leave as they came. DESIGN CHOICE, unsafe (log entry 7); DESIGN CHOICE, safe (log entry 16). -/
def State.deviceReset (s : State) (cause : ResetCause) : State :=
  { State.reset with
    startUp := { cause := cause }
    controllerOut := s.controllerOut
    radioOut := s.radioOut ++ s.transit.map Transit.frame
    pending := s.pending }

end Sys2Proof.Machine
end

