-- ==== Sys2Proof/Machine/Flags.lean ====
section
/-!
DEFINITION. Marks and offers: the notice queue's offers (R29, R62, R167), the state changes that make them, and the
health fields (R31, R32).
-/

namespace Sys2Proof.Machine

/-! ## Offers to the notice queue (R167) -/

/-- Offers a terminal: it joins at the tail unless it is a member, and its notice pending becomes yes (R28). -/
def State.offerTerminal (s : State) (k : Slot) : State :=
  if .terminal k ∈ s.notices then s
  else State.modTerm { s with notices := s.notices ++ [.terminal k] } k fun t => { t with noticePending := true }

/-- Offers a sector: it joins at the tail unless it is a member. -/
def State.offerSector (s : State) (j : Sector) : State :=
  if .sector j ∈ s.notices then s else { s with notices := s.notices ++ [.sector j] }

/-! ## State changes -/

/-- A terminal's state takes a value; a change offers the terminal, and an event that leaves the state as it was
offers nothing (R29). An EMPTY slot takes no state here: PROVISION TERMINAL alone fills it (R29).
DESIGN CHOICE, unsafe (log entry 18). -/
def State.toState (s : State) (k : Slot) (st : TermState) : State :=
  if (s.term k).state = st ∨ (s.term k).state = .empty then s
  else (s.modTerm k fun t => { t with state := st }).offerTerminal k

/-- A sector's state takes a value, without the offer; the progress counter returns to 0 at a change (R62). A DISABLED
sector takes no state here: ENABLE SECTOR alone brings it into service (R42).
DEDUCED, unsafe (log entry 13); DESIGN CHOICE, unsafe (log entry 18). -/
def SectorRec.enter (r : SectorRec) (st : SectorState) : SectorRec :=
  if r.state = st ∨ r.state = .disabled then r else { r with state := st, progressCounter := 0 }

/-- A sector's state takes a value; a change offers the sector (R62). DESIGN CHOICE, unsafe (log entry 18). -/
def State.enterSector (s : State) (j : Sector) (st : SectorState) : State :=
  if (s.sec j).state = st ∨ (s.sec j).state = .disabled then s
  else (s.modSec j fun r => r.enter st).offerSector j

/-- A sector's working state takes a value: its state, or its prior state while it is BLIND or SUSPENDED. The sector
is offered for the change (R48, R50, R62). -/
def State.enterWorking (s : State) (j : Sector) (w : WorkState) : State :=
  if (s.sec j).state = .blind ∨ (s.sec j).state = .suspended then
    (s.modSec j fun r => { r with prior := some w }).offerSector j
  else s.enterSector j w.toSector

/-! ## Health -/

/-- DEGRADED is about to be cleared: its degraded_cap bound stands until the terminal's next report (R31, R37, R104). -/
def Terminal.keepCap (t : Terminal) : Terminal := { t with capKept := t.capKept || t.sticky.degraded }

/-- Sets DEGRADED; going from clear to set offers the terminal (R31). -/
def State.setDegraded (s : State) (k : Slot) : State :=
  if (s.term k).sticky.degraded then s
  else (s.modTerm k fun t => { t with sticky := { t.sticky with degraded := true } }).offerTerminal k

/-- Sets EXHAUSTED; going from clear to set offers the terminal (R31). -/
def State.setExhausted (s : State) (k : Slot) : State :=
  if (s.term k).sticky.exhausted then s
  else (s.modTerm k fun t => { t with sticky := { t.sticky with exhausted := true } }).offerTerminal k

end Sys2Proof.Machine
end

