-- ==== Sys2Proof/Machine/Wire.lean ====
section
/-!
DEFINITION. The bytes the part builds: codes (11-6), field encodings (R170), replies and their segments (R153, R156),
notice items and NOTICE frames (R164, R168, R169).
-/

namespace Sys2Proof.Machine

/-! ## Codes (R155, 11-6) -/

/-- Status codes (R155). -/
def statusCode : Status → Byte
  | .ok => 0x00
  | .unknownFunction => 0x01
  | .badLength => 0x02
  | .badParameter => 0x03
  | .wrongState => 0x04
  | .busy => 0x05
  | .noSpace => 0x06
  | .conflict => 0x07
  | .imageRejected => 0x08
  | .starting => 0x09
  | .bypassed => 0x0A

/-- Terminal state codes (11-6). -/
def termStateCode : TermState → Byte
  | .empty => 0
  | .held => 1
  | .inService => 2
  | .fading => 3
  | .quiet => 4
  | .waiting => 5
  | .deferred => 6
  | .ranging => 7
  | .verifying => 8
  | .ramping => 9
  | .climbing => 10

/-- The terminal states in code order. -/
def termStates : List TermState :=
  [.empty, .held, .inService, .fading, .quiet, .waiting, .deferred, .ranging, .verifying, .ramping, .climbing]

/-- Sector state codes (11-6). -/
def sectorStateCode : SectorState → Byte
  | .disabled => 0
  | .clear => 1
  | .outage => 2
  | .recovering => 3
  | .blind => 4
  | .suspended => 5

/-- Outcome codes (11-6). -/
def outcomeCode : VerifyOutcome → Byte
  | .none => 0
  | .clean => 1
  | .degraded => 2
  | .failed => 3
  | .aborted => 4

/-- Fault kind codes (11-6). -/
def faultKindCode : FaultKind → Byte
  | .marker => 1
  | .sector => 2
  | .count => 3
  | .length => 4
  | .stale => 5
  | .sequence => 6
  | .overrun => 7

/-- Part mode codes (11-6). -/
def modeCode : Mode → Byte
  | .starting => 0
  | .running => 1
  | .bypass => 2

/-- Reset cause codes (11-6). -/
def causeCode : ResetCause → Byte
  | .power => 1
  | .line => 2
  | .restart => 3

/-! ## Field encodings (R170) -/

/-- A yes/no field. -/
def yesNo (b : Bool) : Byte := if b then 1 else 0

/-- An unsigned one-byte field. -/
def byteOf (n : Nat) : Byte := BitVec.ofNat 8 n

/-- A signed one-byte field, in two's complement. -/
def signedByte (i : Int) : Byte := BitVec.ofInt 8 i

/-- A two-byte field, high byte first. -/
def bytes16 (w : BitVec 16) : List Byte := [w.extractLsb' 8 8, w.extractLsb' 0 8]

/-- An unsigned two-byte field. -/
def bytesOf16 (n : Nat) : List Byte := bytes16 (BitVec.ofNat 16 n)

/-- An optional one-byte field: the presence byte and the value. -/
def optByte : Option Byte → List Byte
  | none => [0, 0]
  | some b => [1, b]

/-- An optional two-byte field: the presence byte and the value. -/
def optWord : Option (BitVec 16) → List Byte
  | none => [0, 0, 0]
  | some w => 1 :: bytes16 w

/-- A set as one byte, bit 0 first in the list. -/
def setByte (bits : List Bool) : Byte :=
  bits.foldr (fun b acc => (acc <<< 1) ||| yesNo b) 0

/-- The sticky health set (11-6). -/
def stickyByte (h : StickyHealth) : Byte :=
  setByte [h.ceiling, h.degraded, h.rampUnsettled, h.exhausted, h.onsetDrop]

/-- The per-report health set (11-6). -/
def perReportByte (h : PerReportHealth) : Byte := setByte [h.belowDrop, h.noHeadroom, h.timingOut]

/-- The owed kinds set (11-6). -/
def owedByte (o : OwedKinds) : Byte := setByte [o.correct, o.verify, o.power, o.shift]

/-- A slot as a two-byte field. -/
def slotBytes (k : Slot) : List Byte := bytesOf16 k.val

/-! ## Replies (R153, R156) -/

/-- One reply frame (11-3). -/
def replyFrame (code : Byte) (tag : BitVec 16) (status : Status) (segment : Nat) (final : Bool)
    (results : List Byte) : Frame :=
  [0x93, 0x03, 0xFF, 0x00, 0x00, code] ++ bytes16 tag ++
    [statusCode status, byteOf segment, yesNo final, byteOf results.length] ++ results

/-- The segments of a reply: 192 result bytes each, the last carrying the rest and the final mark (R156). -/
def replyFrames (code : Byte) (tag : BitVec 16) (status : Status) (results : List Byte) : List Frame :=
  let last := (results.length - 1) / Config.segmentLimit
  (List.range (last + 1)).map fun i =>
    replyFrame code tag status i (i == last) ((results.drop (Config.segmentLimit * i)).take Config.segmentLimit)

/-- Emits the reply to a request: its segments one after another (R156). -/
def State.reply (s : State) (code : Byte) (tag : BitVec 16) (status : Status) (results : List Byte) : State :=
  { s with controllerOut := s.controllerOut ++ replyFrames code tag status results }

/-! ## Ladder readings the items need (R77, R79) -/

/-- Byte `i` of a bank. -/
def LadderBank.byte (b : LadderBank) (i : Nat) : Byte := if h : i < 96 then b.bytes[i] else 0

/-- The rung count of the image in a bank (11-5). -/
def LadderBank.rungCount (b : LadderBank) : Nat := (b.byte 2).toNat

/-- The top rung of the image in a bank (R77). -/
def LadderBank.top (b : LadderBank) : Nat := b.rungCount - 1

/-- Where the record of a rung begins; a rung above the top rung reads the top rung (R64, R77). -/
def LadderBank.rungAt (b : LadderBank) (r : Nat) : Nat := 8 + 4 * min r b.top

/-- The profile code of a rung (R77). -/
def LadderBank.code (b : LadderBank) (r : Nat) : Byte := b.byte (b.rungAt r)

/-- The enter threshold of a rung (R77). -/
def LadderBank.enter (b : LadderBank) (r : Nat) : Nat := (b.byte (b.rungAt r + 1)).toNat

/-- The hold threshold of a rung (R77). -/
def LadderBank.hold (b : LadderBank) (r : Nat) : Nat := (b.byte (b.rungAt r + 2)).toNat

/-- The drop threshold of a rung (R77). -/
def LadderBank.drop (b : LadderBank) (r : Nat) : Nat := (b.byte (b.rungAt r + 3)).toNat

/-- One of the two ladder banks. -/
def State.bank (s : State) (i : Fin 2) : LadderBank := s.ladder.banks[i.val]

/-- The active bank, when there is one (R79). -/
def State.activeBank (s : State) : Option LadderBank := s.ladder.active.map s.bank

/-! ## Notice items (R169) -/

/-- The number of a sector's terminals whose state satisfies a test. -/
def State.countIn (s : State) (j : Sector) (p : TermState → Bool) : Nat :=
  ((s.slotsOf j).filter fun k => p (s.term k).state).length

/-- A terminal item, read from the record as it stands (R169). -/
def State.terminalItem (s : State) (k : Slot) : List Byte :=
  let t := s.term k
  [0x01] ++ slotBytes k ++ [termStateCode t.state, byteOf t.rung]
    ++ optByte (s.activeBank.map fun b => b.code t.rung)
    ++ [signedByte t.power, stickyByte t.sticky]

/-- A sector item with its five counts (R169). -/
def State.sectorItem (s : State) (j : Sector) : List Byte :=
  [0x02, byteOf j.val, sectorStateCode (s.sec j).state,
    byteOf (s.countIn j TermState.carrying),
    byteOf (s.countIn j (· == .quiet)),
    byteOf (s.countIn j fun st => st == .waiting || st == .deferred),
    byteOf (s.countIn j fun st => st == .ranging || st == .verifying),
    byteOf (s.countIn j (· == .held))]

/-- The contents of a notice item at its emission. -/
def State.itemBytes (s : State) : NoticeItem → List Byte
  | .terminal k => s.terminalItem k
  | .sector j => s.sectorItem j

/-- The READY item (R164). -/
def State.readyItem (s : State) : List Byte :=
  [0x03] ++ bytes16 s.startUp.progress ++ bytes16 s.startUp.failure
    ++ [yesNo (s.startUp.passed == some true), causeCode s.startUp.cause]
    ++ bytes16 Config.partIdentifier ++ [Config.revisionCode]

/-- A NOTICE frame (11-3). -/
def noticeFrame (items : List (List Byte)) : Frame :=
  [0x93, 0x04, 0xFF, 0x00, 0x00, byteOf items.length] ++ items.flatten

/-- Notice pending becomes no for an item that has left (R168). -/
def State.clearPending (s : State) : NoticeItem → State
  | .terminal k => s.modTerm k fun t => { t with noticePending := false }
  | .sector _ => s

/-- The check of the notice queue after a forwarded upstream frame: if it is not empty, one NOTICE frame carries the
up to 8 items at its head, which leave (R168). -/
def State.emitNotices (s : State) : State :=
  match s.notices with
  | [] => s
  | _ :: _ =>
    let items := s.notices.take Config.noticeFrameLimit
    let sent := s.emit (noticeFrame (items.map s.itemBytes))
    items.foldl State.clearPending { sent with notices := s.notices.drop Config.noticeFrameLimit }

end Sys2Proof.Machine
end

