-- ==== Sys2Proof/Machine/Ladder.lean ====
section
/-!
DEFINITION. The profile ladder store: validity (R78), holds (R81), needed blocks (R83), the CRC (R84), the activation
checks (R85) and the bound of the active ladder (R89).
-/

namespace Sys2Proof.Machine

/-- Changes one ladder bank. -/
def State.modBank (s : State) (i : Fin 2) (f : LadderBank → LadderBank) : State :=
  { s with ladder := { s.ladder with banks := s.ladder.banks.set i.val (f (s.bank i)) } }

/-- The other bank. -/
def otherBank (i : Fin 2) : Fin 2 := if i = 0 then 1 else 0

/-- The standby bank: the one that is not active; bank 0 while none is (R79). -/
def LadderStore.standby (l : LadderStore) : Fin 2 :=
  match l.active with
  | none => 0
  | some i => otherBank i

/-- A rung value written into a record is at most the active ladder's top rung (R89). -/
def State.boundRung (s : State) (r : Nat) : Nat :=
  match s.activeBank with
  | none => r
  | some b => min r b.top

/-! ## Holds (R13, R81) -/

/-- A beginning evaluation takes a hold on a bank. -/
def State.takeHold (s : State) (i : Fin 2) : State := s.modBank i fun b => { b with holds := b.holds + 1 }

/-- A completing evaluation releases its hold. -/
def State.dropHold (s : State) (i : Fin 2) : State := s.modBank i fun b => { b with holds := b.holds - 1 }

/-! ## Images (R78, R83, R84, R85) -/

/-- The number of needed blocks for a rung count: ceil((8 + 4n) / 32) (R83). -/
def neededBlocks (n : Nat) : Nat := (8 + 4 * n + 31) / 32

/-- One step of the CRC register (R84). -/
def crcStep (reg : BitVec 16) : BitVec 16 := if reg.msb then (reg <<< 1) ^^^ 0x1021 else reg <<< 1

/-- One byte combined into the CRC register: into its upper eight bits, then eight steps (R84). -/
def crcByte (reg : BitVec 16) (b : Byte) : BitVec 16 := Nat.repeat crcStep 8 (reg ^^^ (b ++ (0 : BitVec 8)))

/-- The CRC of a list of bytes (R84). -/
def crc16 (bs : List Byte) : BitVec 16 := bs.foldl crcByte 0xFFFF

/-- The bytes of a bank in order. -/
def LadderBank.contents (b : LadderBank) : List Byte := b.bytes.toList

/-- The rung bytes of the image in a bank (R84). -/
def LadderBank.rungBytes (b : LadderBank) : List Byte := (b.contents.drop 8).take (4 * b.rungCount)

/-- The CRC field of the header (11-5). -/
def LadderBank.crcField (b : LadderBank) : BitVec 16 := b.byte 4 ++ b.byte 5

/-- The version field of the header (11-5). -/
def LadderBank.version (b : LadderBank) : BitVec 16 := b.byte 6 ++ b.byte 7

/-- The conditions of R78 that belong to one rung. -/
def LadderBank.rungValid (b : LadderBank) (r : Nat) : Bool :=
  decide (b.drop r ≤ 200 ∧ b.hold r ≤ 200 ∧ b.drop r ≤ b.hold r)
    && (r == 0 || decide (b.enter r ≤ 200 ∧ b.hold r ≤ b.enter r ∧ b.drop (r - 1) < b.drop r))
    && (decide (r < 2) || decide (b.enter (r - 1) < b.enter r))

/-- The first invalid rung of the image in a bank, if any (R78). -/
def LadderBank.firstInvalid (b : LadderBank) : Option Nat :=
  (List.range b.rungCount).find? fun r => !b.rungValid r

/-- Why an activation is rejected: the reason code, and the first invalid rung for reason 6 (R85). -/
def rejection (b : LadderBank) (staged : Vector Bool 3) : Option (List Byte) :=
  if b.byte 0 ≠ 0x5A ∨ b.byte 1 ≠ 0xC3 then some [1]
  else if b.rungCount = 0 ∨ 16 < b.rungCount then some [2]
  else if (b.byte 3).toNat ≠ neededBlocks b.rungCount then some [3]
  else if ((staged.toList.take (neededBlocks b.rungCount)).all id) = false then some [4]
  else if crc16 b.rungBytes ≠ b.crcField then some [5]
  else match b.firstInvalid with
    | some r => some [6, byteOf r]
    | none => none

/-- A block of 32 bytes replaces block `i` of a bank (R82). -/
def LadderBank.writeBlock (b : LadderBank) (i : Fin 3) (bs : List Byte) : LadderBank :=
  { b with bytes := Vector.ofFn fun n : Fin 96 =>
      if n.val / 32 = i.val then bs.getD (n.val % 32) 0 else b.bytes[n.val] }

end Sys2Proof.Machine
end

