-- ==== Sys2Proof/Machine/Arithmetic.lean ====
section
/-!
DEFINITION. The link-quality arithmetic, stage by stage (Chapter 4): pure functions of a terminal record, its sector's
configuration, the ladder bank the evaluation holds, and a burst.
-/

namespace Sys2Proof.Machine

/-- A value clamped to a range (0-7). -/
def clamp (lo hi x : Int) : Int := max lo (min hi x)

/-! ## Stage 1: input clamps (R65) -/

/-- The sample s. -/
def Burst.sample (b : Burst) : Nat := min b.snr.toNat 200

/-- The headroom h. -/
def Burst.clampedHeadroom (b : Burst) : Nat := min b.headroom.toNat 40

/-- The timing error τ. -/
def Burst.timingError (b : Burst) : Int := b.timing.toInt

/-- The terminal's last headroom takes h. -/
def stage1 (b : Burst) (t : Terminal) : Terminal := { t with lastHeadroom := b.clampedHeadroom }

/-! ## Stages 2 and 3: filter and history (R66, R68) -/

/-- The new F: 4s if F is absent, else F + floor((4s − F) / 2^k) (R66). -/
def filterStep (k : Nat) (f : Option Nat) (s : Nat) : Nat :=
  match f with
  | none => 4 * s
  | some f => ((f : Int) + ((4 * s : Int) - f) / 2 ^ k).toNat

/-- A value joins the tail of a history; the oldest leaves a history of 9 (R68). -/
def historyStep (h : List Nat) (f : Nat) : List Nat :=
  let longer := h ++ [f]
  if Config.historyLimit < longer.length then longer.drop 1 else longer

/-- Stages 2 and 3. -/
def stage23 (c : SectorConfig) (b : Burst) (t : Terminal) : Terminal :=
  let f := filterStep c.filterShift t.filtered b.sample
  { t with filtered := some f, history := historyStep t.history f }

/-! ## Stages 4 and 5: slope and prediction (R69, R70) -/

/-- The weights of the slope, oldest entry first. -/
def slopeWeights : List Int := [-7, -5, -3, -1, 1, 3, 5, 7]

/-- The weighted sum S of a history. -/
def weightedSum (h : List Nat) : Int := (List.zipWith (fun (w : Int) (f : Nat) => w * f) slopeWeights h).sum

/-- The slope: S / 84 truncated toward zero, when the history holds 8 entries (R69). -/
def slope (h : List Nat) : Option Int :=
  if h.length = Config.historyLimit then some ((weightedSum h).tdiv 84) else none

/-- The prediction F̂ = F + H × slope, when the slope exists and H is above 0 (R70). -/
def prediction (c : SectorConfig) (f : Nat) (h : List Nat) : Option Int :=
  match slope h with
  | none => none
  | some sl => if c.fadeHorizon = 0 then none else some ((f : Int) + c.fadeHorizon * sl)

/-! ## Stage 6: threshold tests (R71) -/

/-- The effective rung: the target of a queued shift, otherwise the current rung (R23). -/
def Terminal.effectiveRung (t : Terminal) : Nat :=
  match t.pendingShift with
  | some p => if p.effective.isSome then t.rung else p.target
  | none => t.rung

/-- The pending shift is announced (R23). -/
def Terminal.announced (t : Terminal) : Bool :=
  match t.pendingShift with
  | some p => p.effective.isSome
  | none => false

/-- Filtered SNR as a number; F is present wherever the stages read it. -/
def Terminal.f (t : Terminal) : Nat := t.filtered.getD 0

/-- below-drop: F < 4 · drop(r). -/
def belowDrop (b : LadderBank) (t : Terminal) : Bool := decide (t.f < 4 * b.drop t.effectiveRung)

/-- climb-ready: F ≥ 4 · enter(r + 1), r below the held bank's top rung. -/
def climbReady (b : LadderBank) (t : Terminal) : Bool :=
  decide (t.effectiveRung < b.top ∧ 4 * b.enter (t.effectiveRung + 1) ≤ t.f)

/-- onset: F̂ < 4 · drop(r), when the prediction exists. -/
def onset (c : SectorConfig) (b : LadderBank) (t : Terminal) : Bool :=
  match prediction c t.f t.history with
  | none => false
  | some p => decide (p < 4 * b.drop t.effectiveRung)

/-- Stage 6 writes BELOW_DROP. -/
def stage6 (b : LadderBank) (t : Terminal) : Terminal :=
  { t with perReport := { t.perReport with belowDrop := belowDrop b t } }

/-! ## Stage 7: power step (R72, R73) -/

/-- e / 8 rounded half away from zero. -/
def roundEighth (e : Int) : Int := if 0 ≤ e then (e + 4) / 8 else -((-e + 4) / 8)

/-- The error e = G − F, with G = 4 × (hold(c) + target_margin) for the current rung c (R72). -/
def powerError (c : SectorConfig) (b : LadderBank) (t : Terminal) : Int :=
  4 * (b.hold t.rung + c.targetMargin) - t.f

/-- The report is settled: |e| < deadband (R72). -/
def settled (c : SectorConfig) (b : LadderBank) (t : Terminal) : Bool :=
  decide ((powerError c b t).natAbs < c.deadband)

/-- The step after rounding and the limit of max_step (R73, steps 1 and 2). -/
def limitedStep (c : SectorConfig) (b : LadderBank) (t : Terminal) : Int :=
  clamp (-(c.maxStep : Int)) c.maxStep (roundEighth (powerError c b t))

/-- The step after the headroom cut (R73, step 3). -/
def cutStep (h : Nat) (step : Int) : Int := if (h : Int) < step then h else step

/-- The new P (R72, R73): unchanged for a settled report, else P + step clamped to −40..+40. -/
def newPower (c : SectorConfig) (b : LadderBank) (h : Nat) (t : Terminal) : Int :=
  if settled c b t then t.power else clamp (-40) 40 (t.power + cutStep h (limitedStep c b t))

/-- The headroom cut or the range clamp reduced a positive step (R73, step 5). -/
def ceilingCut (c : SectorConfig) (b : LadderBank) (h : Nat) (t : Terminal) : Bool :=
  !settled c b t && decide (0 < limitedStep c b t)
    && (decide (cutStep h (limitedStep c b t) < limitedStep c b t)
      || decide (40 < t.power + cutStep h (limitedStep c b t)))

/-- Stage 7 writes P, CEILING and NO_HEADROOM. -/
def stage7 (c : SectorConfig) (b : LadderBank) (burst : Burst) (t : Terminal) : Terminal :=
  { t with
    power := newPower c b burst.clampedHeadroom t
    sticky := { t.sticky with ceiling := t.sticky.ceiling || ceilingCut c b burst.clampedHeadroom t }
    perReport := { t.perReport with noHeadroom := burst.clampedHeadroom == 0 } }

/-! ## Stage 8: timing (R74) -/

/-- The timing error exceeds the tolerance. -/
def timingOut (c : SectorConfig) (burst : Burst) : Bool := decide (c.timingTolerance < burst.timingError.natAbs)

/-- Stage 8 writes the pending timing adjust and TIMING_OUT. -/
def stage8 (c : SectorConfig) (burst : Burst) (t : Terminal) : Terminal :=
  { t with
    pendingAdjust :=
      if timingOut c burst then some (clamp (-128) 127 (t.pendingAdjust.getD 0 - burst.timingError))
      else t.pendingAdjust
    perReport := { t.perReport with timingOut := timingOut c burst } }

/-! ## Stages run together (R63) -/

/-- Stages 1 to 3, as a VERIFY burst and a ranging success run them. -/
def stages1to3 (c : SectorConfig) (burst : Burst) (t : Terminal) : Terminal := stage23 c burst (stage1 burst t)

/-- The record after stages 1 to 6 of a REPORT. -/
def stages1to6 (c : SectorConfig) (b : LadderBank) (burst : Burst) (t : Terminal) : Terminal :=
  stage6 b (stages1to3 c burst t)

/-- Stages 1 to 8, as a REPORT runs them. -/
def stages1to8 (c : SectorConfig) (b : LadderBank) (burst : Burst) (t : Terminal) : Terminal :=
  stage8 c burst (stage7 c b burst (stages1to6 c b burst t))

/-- Stages 1 to 3, 7 and 8, as an unsuccessful ranging round runs them (R75). -/
def stagesOfRound (c : SectorConfig) (b : LadderBank) (burst : Burst) (t : Terminal) : Terminal :=
  stage8 c burst (stage7 c b burst (stages1to3 c burst t))

end Sys2Proof.Machine
end

