-- ==== Sys2Proof/Machine/Inserter.lean ====
section
/-!
DEFINITION. The control inserter: the control queue and its classes, requests, owed messages and the owed scan,
discards, and the filling of free control slots (Chapter 9, R127).
-/

namespace Sys2Proof.Machine

/-! ## Classes (R140) -/

/-- The service order of the classes. -/
def MsgClass.rank : MsgClass → Nat
  | .a => 0
  | .b => 1
  | .c => 2
  | .d => 3

/-- The class of a terminal's SHIFT: B when the target is below the current rung, else D (R142).
DESIGN CHOICE, unsafe (log entry 18). -/
def Terminal.shiftClass (t : Terminal) : MsgClass :=
  match t.pendingShift with
  | some p => if p.target < t.rung then .b else .d
  | none => .d

/-- The class of a message kind for a terminal (9-1). -/
def Terminal.classOf (t : Terminal) : MsgKind → MsgClass
  | .correct => .a
  | .verify => .a
  | .power => .c
  | .shift => t.shiftClass

/-- An entry joins at the tail of its class: after its own and every earlier class (R140). -/
def insertEntry (e : ControlEntry) : List ControlEntry → List ControlEntry
  | [] => [e]
  | x :: xs => if x.cls.rank ≤ e.cls.rank then x :: insertEntry e xs else e :: x :: xs

/-- An entry is the one of a terminal and a kind. -/
def ControlEntry.isFor (e : ControlEntry) (k : Slot) (kind : MsgKind) : Bool := e.slot == k && e.kind == kind

/-- The queue holds an entry of a terminal and a kind. -/
def queuedFor (q : List ControlEntry) (k : Slot) (kind : MsgKind) : Bool := q.any fun e => e.isFor k kind

/-! ## Owed kinds (R143) -/

/-- A kind is owed. -/
def OwedKinds.has (o : OwedKinds) : MsgKind → Bool
  | .correct => o.correct
  | .verify => o.verify
  | .power => o.power
  | .shift => o.shift

/-- Marks or clears a kind. -/
def OwedKinds.put (o : OwedKinds) (kind : MsgKind) (v : Bool) : OwedKinds :=
  match kind with
  | .correct => { o with correct := v }
  | .verify => { o with verify := v }
  | .power => { o with power := v }
  | .shift => { o with shift := v }

/-- Any kind is owed. -/
def OwedKinds.any (o : OwedKinds) : Bool := o.correct || o.verify || o.power || o.shift

/-! ## Requests (R141, R142) -/

/-- A SHIFT entry of the terminal whose class has changed moves to the tail of its new class; no other entry moves. -/
def reclassed (t : Terminal) (k : Slot) (q : List ControlEntry) : List ControlEntry :=
  if q.any fun e => e.isFor k .shift && e.cls != t.shiftClass then
    insertEntry { slot := k, kind := .shift, cls := t.shiftClass } (q.filter fun e => !e.isFor k .shift)
  else q

/-- The SHIFT entry of a terminal is brought into the class its target and rung give (R142). -/
def State.reclassShift (s : State) (k : Slot) : State :=
  s.modSec (s.sectorOf k) fun r => { r with controlQueue := reclassed (s.term k) k r.controlQueue }

/-- A request for a message: it merges with an entry of its terminal and kind, else joins while the queue holds fewer
than 48 entries, else is owed (R141, R142). -/
def State.request (s : State) (k : Slot) (kind : MsgKind) : State :=
  let j := s.sectorOf k
  if queuedFor (s.sec j).controlQueue k kind then
    match kind with
    | .shift => s.reclassShift k
    | .correct => s
    | .verify => s
    | .power => s
  else if (s.sec j).controlQueue.length < Config.controlQueueLimit then
    s.modSec j fun r =>
      { r with controlQueue :=
          insertEntry { slot := k, kind := kind, cls := (s.term k).classOf kind } r.controlQueue }
  else s.modTerm k fun t => { t with owed := t.owed.put kind true }

/-! ## The owed scan (R144) -/

/-- The owed kind a scan takes first: CORRECT, VERIFY, SHIFT of class B, POWER, SHIFT of class D (R144). -/
def Terminal.owedChoice (t : Terminal) : MsgKind :=
  if t.owed.correct then .correct
  else if t.owed.verify then .verify
  else if t.owed.shift && t.shiftClass == .b then .shift
  else if t.owed.power then .power
  else .shift

/-- An entry joins at the tail of its class unless one of its terminal and kind stands already: a queue never holds two
(R140). DESIGN CHOICE, unsafe (log entry 18). -/
def joinOnce (e : ControlEntry) (q : List ControlEntry) : List ControlEntry :=
  if queuedFor q e.slot e.kind then q else insertEntry e q

/-- One owed scan of a sector: the lowest slot that owes anything has one owed kind taken into the queue. The departure
before it has freed a place; a full queue takes nothing (R140). DESIGN CHOICE, unsafe (log entry 18). -/
def State.owedScan (s : State) (j : Sector) : State :=
  if Config.controlQueueLimit ≤ (s.sec j).controlQueue.length then s
  else match (s.slotsOf j).find? fun k => (s.term k).owed.any with
  | none => s
  | some k =>
    let t := s.term k
    let kind := t.owedChoice
    (s.modSec j fun r =>
        { r with controlQueue := joinOnce { slot := k, kind := kind, cls := t.classOf kind } r.controlQueue })
      |>.modTerm k fun t => { t with owed := t.owed.put kind false }

/-! ## Discards (R145) -/

/-- The first entry of a terminal leaves a queue. -/
def dropFirstOf (k : Slot) (q : List ControlEntry) : List ControlEntry := q.eraseP fun e => e.slot == k

/-- Entries of a terminal leave the queue one at a time, `n` of them, each departure running the owed scan. -/
def State.departures (k : Slot) (j : Sector) : Nat → State → State
  | 0, s => s
  | n + 1, s =>
    State.departures k j n
      ((s.modSec j fun r => { r with controlQueue := dropFirstOf k r.controlQueue }).owedScan j)

/-- The entries and owed marks of a terminal are discarded: the marks first, then the entries in queue order (R145). -/
def State.discard (s : State) (k : Slot) : State :=
  let j := s.sectorOf k
  let n := ((s.sec j).controlQueue.filter fun e => e.slot == k).length
  State.departures k j n (s.modTerm k fun t => { t with owed := {} })

/-! ## Messages (R127, R149, 11-2) -/

/-- The seed of a verification exchange (R127). -/
def verifySeed (k : Slot) (attempts : Nat) (n : FrameNo) : Nat := (37 * k.val + 11 * attempts + n.toNat % 256) % 256

/-- The link address of a message, its upper four bits 0. -/
def addressBytes (a : BitVec 12) : List Byte := bytes16 (a.setWidth 16)

/-- The GRANT message. -/
def grantMessage (c : SectorConfig) (t : Terminal) : List Byte :=
  [0x01] ++ addressBytes t.linkAddress ++ [0x02, byteOf c.grantLead, 0, 0, 0]

/-- The CORRECT message. -/
def correctMessage (t : Terminal) : List Byte :=
  [0x02] ++ addressBytes t.linkAddress ++ [signedByte (t.pendingAdjust.getD 0), signedByte t.power, 0, 0, 0]

/-- The VERIFY message. -/
def verifyMessage (c : SectorConfig) (k : Slot) (n : FrameNo) (t : Terminal) : List Byte :=
  [0x03] ++ addressBytes t.linkAddress
    ++ [byteOf (verifySeed k t.attemptCount n), byteOf c.verifyBlocks, byteOf c.grantLead, 0, 0]

/-- The POWER message. -/
def powerMessage (t : Terminal) : List Byte :=
  [0x04] ++ addressBytes t.linkAddress ++ [signedByte t.power, 0, 0, 0, 0]

/-- The rung a SHIFT message names: the pending target. DESIGN CHOICE, unsafe (log entry 18). -/
def Terminal.shiftTarget (t : Terminal) : Nat :=
  match t.pendingShift with
  | some p => p.target
  | none => t.rung

/-- The SHIFT message, with the target's profile code in the active bank. DESIGN CHOICE, unsafe (log entry 18). -/
def shiftMessage (c : SectorConfig) (bank : Option LadderBank) (n : FrameNo) (t : Terminal) : List Byte :=
  [0x05] ++ addressBytes t.linkAddress
    ++ [(bank.map fun b => b.code t.shiftTarget).getD 0] ++ bytes16 (later n c.shiftDelay) ++ [0, 0]

/-- The message of a queued kind, built from the record as it stands. -/
def State.message (s : State) (j : Sector) (n : FrameNo) (k : Slot) : MsgKind → List Byte
  | .correct => correctMessage (s.term k)
  | .verify => verifyMessage (s.cfg j) k n (s.term k)
  | .power => powerMessage (s.term k)
  | .shift => shiftMessage (s.cfg j) s.activeBank n (s.term k)

/-- What the insertion of a queued kind writes in the terminal record (R127, R149). -/
def inserted (c : SectorConfig) (n : FrameNo) (kind : MsgKind) (t : Terminal) : Terminal :=
  match kind with
  | .correct => { t with pendingAdjust := none }
  | .verify =>
    { t with
      expectedBurst := some (later n c.grantLead)
      verification := { started := true, completed := false, outcome := .none, startFrame := n } }
  | .power => t
  | .shift =>
    { t with pendingShift := t.pendingShift.map fun p => { p with effective := some (later n c.shiftDelay) } }

/-! ## The filling (R146, R147) -/

/-- The window members a grant pass serves: RANGING without an expected burst frame, in admission order (R146). -/
def State.toGrant (s : State) (j : Sector) : List Slot :=
  (s.sec j).window.filter fun k => (s.term k).state == .ranging && (s.term k).expectedBurst.isNone

/-- The grant pass writes one GRANT to each of the listed members. -/
def State.grantAll (s : State) (j : Sector) (n : FrameNo) (ks : List Slot) : State :=
  ks.foldl (fun s k => s.modTerm k fun t => { t with expectedBurst := some (later n (s.cfg j).grantLead) }) s

/-- The queue pass: up to `free` entries leave from the front, each running the owed scan; with the messages written. -/
def State.queuePass (j : Sector) (n : FrameNo) : (free : Nat) → State → State × List (List Byte)
  | 0, s => (s, [])
  | free + 1, s =>
    match (s.sec j).controlQueue with
    | [] => (s, [])
    | e :: rest =>
      let m := s.message j n e.slot e.kind
      let left := (s.modSec j fun r => { r with controlQueue := rest })
        |>.modTerm e.slot (inserted (s.cfg j) n e.kind)
      let next := State.queuePass j n free (left.owedScan j)
      (next.1, m :: next.2)

/-- The filling of a frame numbered `n` with `free` free slots: the grants, unless the sector is BLIND, then the queue;
with the messages in the order of their positions (R146, R150). -/
def State.fill (s : State) (j : Sector) (n : FrameNo) (free : Nat) : State × List (List Byte) :=
  let granted := if (s.sec j).state = .blind then [] else (s.toGrant j).take free
  let grants := granted.map fun k => grantMessage (s.cfg j) (s.term k)
  let queued := State.queuePass j n (free - granted.length) (s.grantAll j n granted)
  (queued.1, grants ++ queued.2)

/-- Writes messages into the free positions of a frame in increasing position order (R172). -/
def writeSlots (fr : Frame) (free : Nat) (ms : List (List Byte)) : Frame :=
  let start := 6 + 8 * (8 - free)
  fr.take start ++ ms.flatten ++ fr.drop (start + ms.flatten.length)

end Sys2Proof.Machine
end

