-- ==== Sys2Proof/Machine/ReEntry.lean ====
section
/-!
DEFINITION. The re-entry queue and window (R108, R109), fresh starts (R76), the end of an exchange by an abort (R135),
and admission (R111).
-/

namespace Sys2Proof.Machine

/-! ## Queue and window (R108, R109) -/

/-- A slot joins behind every member of its own class and of every lower-numbered class (R108). -/
def insertByClass (cls : Slot → Fin 4) (k : Slot) : List Slot → List Slot
  | [] => [k]
  | x :: xs => if cls x ≤ cls k then x :: insertByClass cls k xs else k :: x :: xs

/-- The priority class of a slot. -/
def State.classOfSlot (s : State) (k : Slot) : Fin 4 := (s.term k).priority

/-- A terminal joins its sector's re-entry queue at the tail of its priority class (R108). -/
def State.joinQueue (s : State) (k : Slot) : State :=
  s.modSec (s.sectorOf k) fun r => { r with queue := insertByClass s.classOfSlot k r.queue }

/-- A terminal that becomes WAITING joins the queue in the same event and is offered (R29, R108). -/
def State.becomeWaiting (s : State) (k : Slot) : State := (s.joinQueue k).toState k .waiting

/-- A slot is taken out of a queue or window. -/
def without (k : Slot) (l : List Slot) : List Slot := l.filter fun x => x != k

/-- The evaluation in flight no longer counts a departed member among the members its sweep has taken.
DEDUCED, unsafe (log entry 19). -/
def Evaluation.forget (k : Slot) (e : Evaluation) : Evaluation := { e with swept := without k e.swept }

/-- A sector record without a terminal in its queue and window. -/
def SectorRec.drop (k : Slot) (r : SectorRec) : SectorRec :=
  { r with
    queue := without k r.queue
    window := without k r.window
    evaluation := r.evaluation.map (Evaluation.forget k) }

/-- A terminal leaves its sector's re-entry queue or window, whichever holds it; its expected burst frame becomes
absent (R113). -/
def State.leave (s : State) (k : Slot) : State :=
  (s.modSec (s.sectorOf k) (SectorRec.drop k)).modTerm k fun t => { t with expectedBurst := none }

/-! ## Fresh starts (R76) -/

/-- F becomes absent and the history is emptied. -/
def Terminal.fresh (t : Terminal) : Terminal := { t with filtered := none, history := [] }

/-- A terminal joins the window at its tail as RANGING with round count 0, no expected burst frame and a fresh start
(R49, R76, R111). -/
def State.takeIn (s : State) (j : Sector) (k : Slot) : State :=
  let s := s.modSec j fun r => { r with window := r.window ++ [k] }
  let s := s.modTerm k fun t => { t.fresh with roundCount := 0, expectedBurst := none }
  s.toState k .ranging

/-- Admission takes the head of the queue into the window, up to `n` times (R111). -/
def State.admitHeads (j : Sector) : (n : Nat) → State → State
  | 0, s => s
  | n + 1, s =>
    match (s.sec j).queue with
    | [] => s
    | k :: rest => State.admitHeads j n ((s.modSec j fun r => { r with queue := rest }).takeIn j k)

/-- Admission fills the window to window_size and no further (R109, R111). -/
def State.admission (s : State) (j : Sector) : State :=
  State.admitHeads j ((s.cfg j).windowSize - (s.sec j).window.length) s

/-! ## Aborts (R135) -/

/-- The record shows an exchange in flight: started yes, completed no, outcome NONE (R27). -/
def VerificationRecord.inFlight (v : VerificationRecord) : Bool :=
  v.started && !v.completed && v.outcome == .none

/-- A VERIFYING terminal's exchange in flight is ended as ABORTED; any other record is left as it stands (R135). -/
def Terminal.abortExchange (t : Terminal) : Terminal :=
  if t.state = .verifying ∧ t.verification.inFlight then
    { t with verification := { t.verification with outcome := .aborted } }
  else t

end Sys2Proof.Machine
end

