-- ==== Sys2Proof/Machine/Outage.lean ====
section
/-!
DEFINITION. The sector controller's shared operations: the lead choice (R48), the declaration of an outage (R47), the
placement of a loss and the loss log (R45, R46), recovery (R50), the failure of a lead (R51), the release walk (R53,
R54), BLIND (R55, R56) and the taking effect of a suspend (R58).
-/

namespace Sys2Proof.Machine

/-! ## The lead (R48, R51, R52) -/

/-- The rank of a terminal in the lead choice: by loss F, a terminal with none below every terminal with one. -/
def Terminal.leadRank (t : Terminal) : Nat :=
  match t.lossF with
  | none => 0
  | some f => f + 1

/-- The first of the highest-ranked slots of a list. -/
def State.best (s : State) : List Slot → Option Slot
  | [] => none
  | k :: ks =>
    match s.best ks with
    | none => some k
    | some m => if (s.term k).leadRank < (s.term m).leadRank then some m else some k

/-- The probed marks of all of a sector's terminals are cleared. -/
def State.clearMarks (s : State) (j : Sector) : State :=
  (s.slotsOf j).foldl (fun s k => s.modTerm k fun t => { t with probed := false }) s

/-- The lead choice (R48). DEDUCED, safe (log entry 14). -/
def State.leadChoice (s : State) (j : Sector) : State :=
  match s.slotsIn j .quiet with
  | [] =>
    (s.modSec j fun r => { r with lead := none, leadFailures := 0, probeTimer := 0 }).enterWorking j .clear
  | k :: ks =>
    let quiet := k :: ks
    let unmarked := quiet.filter fun k => !(s.term k).probed
    if unmarked = [] then (s.clearMarks j).modSec j fun r => { r with lead := s.best quiet }
    else s.modSec j fun r => { r with lead := s.best unmarked }

/-- The departure of a lead: the lead becomes absent, the lead failures become 0, and a choice is made (R52). -/
def State.leadDeparts (s : State) (j : Sector) : State :=
  (s.modSec j fun r => { r with lead := none, leadFailures := 0 }).leadChoice j

/-- A terminal is its sector's lead and the working state is OUTAGE. -/
def State.isOutageLead (s : State) (j : Sector) (k : Slot) : Bool :=
  (s.sec j).lead == some k && (s.sec j).working == some .outage

/-! ## The declaration of an outage (R47) -/

/-- What the declaration does to one terminal in WAITING, DEFERRED, RANGING or VERIFYING (R47, step 2). -/
def State.silence (s : State) (k : Slot) : State :=
  let s := s.modTerm k Terminal.abortExchange
  let s := s.leave k
  let s := s.modTerm k fun t =>
    { t.fresh with backoff := 0, roundCount := 0, power := 0, pendingAdjust := none }
  (s.discard k).toState k .quiet

/-- The declaration of an outage and its effects (R47). DEDUCED, unsafe (log entry 10). -/
def State.declareOutage (s : State) (j : Sector) : State :=
  let s := s.modSec j fun r => { r.enter .outage with releaseCursor := none }
  let s := ((s.slotsOf j).filter fun k => (s.term k).state.reEntering).foldl State.silence s
  let s := s.clearMarks j
  let s := s.modSec j fun r => { r with leadFailures := 0, probeTimer := r.config.probeInterval }
  (s.leadChoice j).offerSector j

/-! ## Losses (R45, R46) -/

/-- An append to a loss log: aged entries leave, the oldest leaves if 64 remain, the new entry joins (R46). -/
def appendLoss (window : Nat) (e : LossEntry) (log : List LossEntry) : List LossEntry :=
  let kept := log.filter fun x => decide (distance e.frame x.frame < window)
  (if Config.lossLogLimit ≤ kept.length then kept.drop 1 else kept) ++ [e]

/-- The outage test after an append (R47). -/
def State.outageTest (s : State) (j : Sector) : State :=
  if ((s.sec j).state = .clear ∨ (s.sec j).state = .recovering) ∧ (s.cfg j).outageCount ≤ (s.sec j).lossLog.length then
    s.declareOutage j
  else s

/-- A lost terminal is placed, its entry is appended, and the outage test is made (R45). -/
def State.placeLoss (s : State) (j : Sector) (k : Slot) (n : FrameNo) : State :=
  let s := if (s.sec j).working = some .outage then s.toState k .quiet else s.becomeWaiting k
  let s := s.modSec j fun r =>
    { r with lossLog := appendLoss r.config.outageWindow { slot := k, frame := n } r.lossLog }
  s.outageTest j

/-! ## Recovery and the failure of a lead (R50, R51) -/

/-- The lowest slot of a sector. -/
def State.lowestSlot (s : State) (j : Sector) : Option Slot := (s.slotsOf j).head?

/-- The sector recovers on its lead's ranging success (R50). -/
def State.recover (s : State) (j : Sector) : State :=
  (s.modSec j fun r =>
      { r with lossLog := [], releaseCursor := s.lowestSlot j, lead := none, leadFailures := 0, probeTimer := 0 })
    |>.enterWorking j .recovering

/-- The failed attempt of an OUTAGE lead (R51). -/
def State.leadFailure (s : State) (j : Sector) (k : Slot) : State :=
  let s := s.leave k
  let s := s.modTerm k fun t => { t.fresh with roundCount := 0, power := 0, pendingAdjust := none }
  let s := (s.discard k).toState k .quiet
  let s := s.modSec j fun r => { r with leadFailures := r.leadFailures + 1 }
  if (s.cfg j).probeRotate ≤ (s.sec j).leadFailures then
    ((s.modTerm k fun t => { t with probed := true }).modSec j fun r => { r with leadFailures := 0 }).leadChoice j
  else s

/-! ## The release walk (R53, R54) -/

/-- The walk moves one QUIET terminal: its attempt count becomes 0 and it becomes WAITING (R53). -/
def State.walkOut (s : State) (k : Slot) : State :=
  (s.modTerm k fun t => { t with attemptCount := 0 }).becomeWaiting k

/-- The end of the walk: the cursor becomes absent and the sector enters CLEAR (R54). -/
def State.endWalk (s : State) (j : Sector) : State :=
  (s.modSec j fun r => { r with releaseCursor := none }).enterSector j .clear

/-- One step of the release walk (R53). DEDUCED, unsafe (log entry 10); DESIGN CHOICE, unsafe (log entry 18). -/
def State.walkStep (s : State) (j : Sector) : State :=
  let cursor := (s.sec j).releaseCursor.getD 0
  let ahead := (s.slotsOf j).filter fun k => decide (cursor ≤ k)
  let batch := (s.cfg j).releaseBatch
  let moved := (ahead.filter fun k => (s.term k).state == .quiet).take batch
  let next :=
    if batch = 0 then ahead.head?
    else if moved.length < batch then none
    else (ahead.filter fun k => moved.all fun m => decide (m < k)).head?
  let s := moved.foldl State.walkOut s
  if batch = 0 then (if next.isNone then s.endWalk j else s)
  else match next with
    | none => s.endWalk j
    | some k => s.modSec j fun r => { r with releaseCursor := some k }

/-! ## BLIND (R55, R56) -/

/-- The sector enters BLIND (R55). DEDUCED, unsafe (log entry 13). -/
def State.enterBlind (s : State) (j : Sector) : State :=
  (s.modSec j fun r => { r with prior := r.working, lastEvaluated := none }).enterSector j .blind

/-- The sector returns from BLIND or SUSPENDED to its prior state, which becomes absent (R56, R59).
DEDUCED, unsafe (log entry 13); DESIGN CHOICE, unsafe (log entry 18). -/
def State.returnToPrior (s : State) (j : Sector) : State :=
  let w := (s.sec j).prior.getD .clear
  (s.modSec j fun r => { r with prior := none }).enterSector j w.toSector

/-- What the passing of an upstream frame does in the sector controller (R55, R56). -/
def State.framePassed (s : State) (j : Sector) : State :=
  let s := s.modSec j fun r => { r with blindCounter := 0 }
  if (s.sec j).state = .blind then s.returnToPrior j else s

/-! ## Suspend (R58) -/

/-- A suspend takes effect (R58). The reply is its SUSPEND SECTOR's, with that request's tag.
DEDUCED, unsafe (log entry 13); DESIGN CHOICE, safe (log entry 17). -/
def State.suspendNow (s : State) (j : Sector) (tag : BitVec 16) : State :=
  let s := s.modSec j fun r => { r with suspendPending := false, prior := r.working, waitingBank := none }
  let s := s.reply (functionCode .suspendSector) tag .ok []
  s.enterSector j .suspended

end Sys2Proof.Machine
end

