-- ==== Sys2Proof/Machine/Adaptation.lean ====
section
/-!
DEFINITION. In-service adaptation (Chapter 6): runs and losses, rung decisions, the climb cap and the goal test, the ramp,
received reports and misses, and the maturity of a shift.
-/

namespace Sys2Proof.Machine

/-! ## Climb cap, bound and goal (R98) -/

/-- The climb cap: the least of max rung, the top rung of the bank read, and degraded_cap while DEGRADED is set and, once it is
cleared, up to the next report (R31, R37, R98, R104, R137). -/
def Terminal.climbCap (c : SectorConfig) (b : LadderBank) (t : Terminal) : Nat :=
  let cap := min t.maxRung b.top
  if t.sticky.degraded || t.capKept then min cap c.degradedCap else cap

/-- The climb bound: the climb cap, in CLIMBING also bounded by a present restore rung. -/
def Terminal.climbBound (c : SectorConfig) (b : LadderBank) (t : Terminal) : Nat :=
  match t.restoreRung with
  | some r => if t.state = .climbing then min (t.climbCap c b) r else t.climbCap c b
  | none => t.climbCap c b

/-- The climb condition of a received report (R99). -/
def Terminal.climbCondition (c : SectorConfig) (b : LadderBank) (t : Terminal) : Bool :=
  climbReady b t
    && (match slope t.history with
        | some sl => decide (0 ≤ sl)
        | none => false)
    && decide (t.effectiveRung + 1 ≤ t.climbBound c b)

/-! ## Loss (R95, R96) -/

/-- The record of a terminal at the declaration of its loss: restore rung and loss F as R95 writes them, the working
fields cleared (R96). `restore` is the value the restore rung takes if the state is IN_SERVICE or FADING. -/
def Terminal.lost (restore : Nat) (t : Terminal) : Terminal :=
  { t.fresh with
    restoreRung := if t.state = .inService ∨ t.state = .fading then some restore else t.restoreRung
    lossF := t.filtered
    rung := 0
    power := 0
    pendingShift := none
    missRun := 0
    floorRun := 0
    climbDwell := 0
    rampSettle := 0
    phaseReports := 0
    attemptCount := 0
    expectedBurst := none }

/-- A loss is declared: the record is written and cleared, the entries and owed kinds are discarded, and the sector
controller places the terminal (R95, R96, R45). -/
def State.declareLoss (s : State) (j : Sector) (k : Slot) (n : FrameNo) : State :=
  let s := s.modTerm k fun t => t.lost (s.boundRung t.rung)
  (s.discard k).placeLoss j k n

/-! ## Rung decisions (R97, R100, R101) -/

/-- A decided drop or climb acts on the pending shift: its target becomes the decided one, bounded by the active ladder
(R89), and a SHIFT is requested (R101). -/
def State.shiftTo (s : State) (k : Slot) (target : Nat) : State :=
  (s.modTerm k fun t => { t with pendingShift := some { target := s.boundRung target } }).request k .shift

/-- The climb dwell a climb decision is compared with (R100). -/
def Terminal.governingDwell (c : SectorConfig) (t : Terminal) : Nat :=
  if t.state = .climbing then c.recoveryDwell else c.climbDwell

/-- The rung decisions of a received report: the drop, else the climb (R91 step 5, R97, R100). -/
def State.decideRung (s : State) (j : Sector) (k : Slot) (b : LadderBank) : State :=
  let c := s.cfg j
  let t := s.term k
  let below := belowDrop b t
  let falling := onset c b t
  if 0 < t.effectiveRung ∧ (below || falling) then
    let s := s.modTerm k fun t =>
      { t with
        climbDwell := 0
        sticky := { t.sticky with onsetDrop := t.sticky.onsetDrop || (!below && falling) } }
    s.shiftTo k (t.effectiveRung - 1)
  else
    let dwell := if t.climbCondition c b then t.climbDwell + 1 else 0
    if t.climbCondition c b ∧ t.governingDwell c ≤ dwell then
      (s.modTerm k fun t => { t with climbDwell := 0 }).shiftTo k (t.effectiveRung + 1)
    else s.modTerm k fun t => { t with climbDwell := dwell }

/-! ## Ramp, climb and service (R93, R103, R104) -/

/-- The state a terminal in service takes from its runs (R93). -/
def Terminal.serviceState (t : Terminal) : TermState :=
  if 0 < t.missRun ∨ 0 < t.floorRun then .fading else .inService

/-- A terminal enters service from CLIMBING; with a run at 1 or more it takes FADING (R104). -/
def State.enterService (s : State) (k : Slot) : State := s.toState k (s.term k).serviceState

/-- The current rung is at or above the climb goal of a CLIMBING terminal (R104). -/
def Terminal.atGoal (c : SectorConfig) (b : LadderBank) (t : Terminal) : Bool :=
  t.state == .climbing && decide (t.climbBound c b ≤ t.rung)

/-- The goal test: at the goal the restore rung becomes absent and the terminal enters service (R104). -/
def State.goalTest (s : State) (j : Sector) (k : Slot) (b : LadderBank) : State :=
  if (s.term k).atGoal (s.cfg j) b then
    (s.modTerm k fun t => { t with restoreRung := none }).enterService k
  else s

/-- A RAMPING terminal enters CLIMBING, and the goal test is made at once (R103). -/
def State.enterClimbing (s : State) (j : Sector) (k : Slot) (b : LadderBank) (unsettled : Bool) : State :=
  let s := s.modTerm k fun t =>
    { t with
      phaseReports := 0
      rampSettle := 0
      climbDwell := 0
      sticky := { t.sticky with rampUnsettled := t.sticky.rampUnsettled || unsettled } }
  (s.toState k .climbing).goalTest j k b

/-- A RAMPING terminal counts its ramp (R103). -/
def State.countRamp (s : State) (j : Sector) (k : Slot) (b : LadderBank) : State :=
  let c := s.cfg j
  let s := s.modTerm k fun t =>
    { t with
      phaseReports := t.phaseReports + 1
      rampSettle := if settled c b t then t.rampSettle + 1 else 0 }
  if c.rampSettle ≤ (s.term k).rampSettle then s.enterClimbing j k b false
  else if c.rampLimit ≤ (s.term k).phaseReports then s.enterClimbing j k b true
  else s

/-- A CLIMBING terminal is tested against its goal and counts toward its timeout (R104). -/
def State.countClimb (s : State) (j : Sector) (k : Slot) (b : LadderBank) : State :=
  if (s.term k).atGoal (s.cfg j) b then s.goalTest j k b
  else
    let s := s.modTerm k fun t => { t with phaseReports := t.phaseReports + 1 }
    if (s.cfg j).climbTimeout ≤ (s.term k).phaseReports then s.enterService k else s

/-- Steps 4 to 6 of a received report that is no loss (R91). -/
def State.afterRuns (s : State) (j : Sector) (k : Slot) (b : LadderBank) : State :=
  match (s.term k).state with
  | .inService | .fading =>
    let s := s.toState k (s.term k).serviceState
    if (s.term k).announced then s else s.decideRung j k b
  | .climbing =>
    let s := if (s.term k).announced then s else s.decideRung j k b
    s.countClimb j k b
  | .ramping => s.countRamp j k b
  | .empty | .held | .quiet | .waiting | .deferred | .ranging | .verifying => s

/-! ## Received reports and misses (R91, R92, R94) -/

/-- The runs at a received report: the miss run becomes 0; the floor run counts a below-drop report at effective rung 0
(R94). The report lifts the degraded_cap bound of a DEGRADED that has been cleared (R31, R37); that a miss does not lift it is
DEDUCED, unsafe (log entry 28). -/
def Terminal.countRuns (b : LadderBank) (t : Terminal) : Terminal :=
  { t with
    missRun := 0
    capKept := false
    floorRun := if t.effectiveRung = 0 ∧ belowDrop b t then t.floorRun + 1 else 0 }

/-- Stages 1 to 8 run for a report, with the requests they hand to the control inserter (R63, R73, R74). -/
def State.runStages (s : State) (j : Sector) (k : Slot) (b : LadderBank) (burst : Burst) : State :=
  let c := s.cfg j
  let before := (s.term k).power
  let s := s.modTerm k (stages1to8 c b burst)
  let s := if (s.term k).power ≠ before then s.request k .power else s
  if timingOut c burst then s.request k .correct else s

/-- A received report for a terminal in a carrying state, in the evaluation of frame `n` (R91). -/
def State.receivedReport (s : State) (j : Sector) (k : Slot) (b : LadderBank) (burst : Burst) (n : FrameNo) : State :=
  let s := s.runStages j k b burst
  let s := s.modTerm k (Terminal.countRuns b)
  if (s.cfg j).lossLimit ≤ (s.term k).floorRun then s.declareLoss j k n
  else s.afterRuns j k b

/-- A miss for a terminal in a carrying state, in the evaluation of frame `n` (R92). -/
def State.miss (s : State) (j : Sector) (k : Slot) (n : FrameNo) : State :=
  let s := s.modTerm k fun t => { t with missRun := t.missRun + 1, climbDwell := 0 }
  if (s.cfg j).lossLimit ≤ (s.term k).missRun then s.declareLoss j k n
  else
    let s := if (s.term k).state = .inService then s.toState k .fading else s
    let t := s.term k
    if t.missRun = 1 ∧ t.announced = false ∧ 0 < t.effectiveRung then s.shiftTo k (t.effectiveRung - 1) else s

/-! ## Maturity (R102) -/

/-- An announced shift matures at frame `n` unless the frame is before its effective frame by 1 to 15 frames (R102). -/
def Terminal.matures (n : FrameNo) (t : Terminal) : Bool :=
  match t.pendingShift with
  | some p =>
    match p.effective with
    | some e => !shortlyBefore n e
    | none => false
  | none => false

/-- The maturity of an announced shift, one event on the record (R102). -/
def State.mature (s : State) (j : Sector) (k : Slot) : State :=
  let before := (s.term k).rung
  let target := s.boundRung (s.term k).shiftTarget
  let s := s.modTerm k fun t => { t with rung := target, pendingShift := none, climbDwell := 0 }
  let s := if target ≠ before then s.offerTerminal k else s
  match s.activeBank with
  | some b => s.goalTest j k b
  | none => s

end Sys2Proof.Machine
end

