-- ==== Sys2Proof/Machine/Judgment.lean ====
section
/-!
DEFINITION. Attempt failure and backoff (R119, R120), the ranging judgments (R114 to R118), and the verification
exchange's comparison and outcomes (R128 to R136).
-/

namespace Sys2Proof.Machine

/-! ## Attempt failure (R119, R120) -/

/-- The backoff after `a` failed attempts (R120). -/
def backoffAfter (c : SectorConfig) (k : Slot) (a : Nat) : Nat :=
  min (c.backoffBase * 2 ^ (a - 1)) c.backoffCap + k.val % 8

/-- An attempt failure: R51 for the lead of an OUTAGE, else the rise of the attempt count, and HELD with EXHAUSTED or
DEFERRED with a backoff (R119). -/
def State.attemptFailure (s : State) (j : Sector) (k : Slot) : State :=
  if s.isOutageLead j k then s.leadFailure j k
  else
    let s := s.leave k
    let s := s.modTerm k fun t => { t with attemptCount := min (t.attemptCount + 1) Config.attemptCountLimit }
    let a := (s.term k).attemptCount
    if (s.cfg j).attemptLimit ≤ a then
      ((s.setExhausted k).discard k).toState k .held
    else (s.modTerm k fun t => { t with backoff := backoffAfter (s.cfg j) k a }).toState k .deferred

/-! ## Ranging (R114 to R118) -/

/-- The test of a received ranging burst (R114). -/
def rangingPasses (c : SectorConfig) (b : LadderBank) (burst : Burst) : Bool :=
  decide (burst.timingError.natAbs ≤ c.timingTolerance) && decide (b.drop 0 ≤ burst.sample)

/-- A ranging success (R115); a lead's success recovers its sector (R50). -/
def State.rangingSuccess (s : State) (j : Sector) (k : Slot) (burst : Burst) : State :=
  let lead := s.isOutageLead j k
  let s := s.modTerm k fun t => { stages1to3 (s.cfg j) burst t with expectedBurst := none }
  let s := (s.toState k .verifying).request k .verify
  if lead then s.recover j else s

/-- A round is counted: the round count rises, the expected burst frame becomes absent, and the attempt fails at
ranging_rounds (R116, R117). -/
def State.countRound (s : State) (j : Sector) (k : Slot) : State :=
  let s := s.modTerm k fun t => { t with roundCount := t.roundCount + 1, expectedBurst := none }
  if (s.cfg j).rangingRounds ≤ (s.term k).roundCount then s.attemptFailure j k else s

/-- An unsuccessful round (R116): stages 1 to 3, 7 and 8, a CORRECT request, and a counted round. -/
def State.unsuccessfulRound (s : State) (j : Sector) (k : Slot) (b : LadderBank) (burst : Burst) : State :=
  let s := s.modTerm k (stagesOfRound (s.cfg j) b burst)
  (s.request k .correct).countRound j k

/-- A no-show (R117). -/
def State.noShow (s : State) (j : Sector) (k : Slot) : State := s.countRound j k

/-- The ranging judgment of a RANGING descriptor at its expected burst frame (R114 to R117). -/
def State.judgeRanging (s : State) (j : Sector) (k : Slot) (b : LadderBank) (burst : Burst) : State :=
  if burst.received then
    if rangingPasses (s.cfg j) b burst then s.rangingSuccess j k burst else s.unsuccessfulRound j k b burst
  else s.noShow j k

/-- The reissue of a RANGING member (R118). -/
def State.reissueRanging (s : State) (k : Slot) : State := s.modTerm k fun t => { t with expectedBurst := none }

/-! ## Verification (R128 to R136) -/

/-- Byte `j` of block `i` of the expected pattern (R128). -/
def patternByte (seed i j : Nat) : Byte := BitVec.ofNat 8 (seed + 29 * i + 7 * j)

/-- Block `i` of the expected pattern. -/
def patternBlock (seed i : Nat) : List Byte := (List.range 16).map (patternByte seed i)

/-- Received block `i` of a payload, if the payload reaches that far (R129). -/
def receivedBlock (payload : List Byte) (i : Nat) : Option (List Byte) :=
  if 16 * (i + 1) ≤ payload.length then some ((payload.drop (16 * i)).take 16) else none

/-- Expected block `i` fails: it is missing or differs (R129). -/
def blockFails (seed : Nat) (payload : List Byte) (i : Nat) : Bool :=
  match receivedBlock payload i with
  | some bs => bs != patternBlock seed i
  | none => true

/-- The failed blocks among the `b` expected ones, in order (R129). -/
def failingBlocks (seed : Nat) (payload : List Byte) (b : Nat) : List Nat :=
  (List.range b).filter (blockFails seed payload)

/-- The lowest byte offset at which received block `i` differs from the pattern (R130). -/
def faultOffset (seed : Nat) (bs : List Byte) (i : Nat) : Nat :=
  ((List.range 16).find? fun j => byteAt bs j != patternByte seed i j).getD 0

/-- The first fault of a failed block (R130). -/
def faultOf (seed : Nat) (payload : List Byte) (i : Nat) : FirstFault :=
  match receivedBlock payload i with
  | some bs =>
    let j := faultOffset seed bs i
    { block := i, offset := j, expected := patternByte seed i j, received := some (byteAt bs j) }
  | none => { block := i, offset := 0, expected := patternByte seed i 0, received := none }

/-- The outcome of a comparison (R131). -/
def outcomeOf (tolerance failed : Nat) : VerifyOutcome :=
  if failed = 0 then .clean else if failed ≤ tolerance then .degraded else .failed

/-- The record after a comparison: completed, the failed block count, the first fault and the outcome (R129 to R131). -/
def VerificationRecord.compared (v : VerificationRecord) (seed : Nat) (payload : List Byte) (c : SectorConfig) :
    VerificationRecord :=
  let failed := failingBlocks seed payload c.verifyBlocks
  { v with
    completed := true
    outcome := outcomeOf c.verifyTolerance failed.length
    failedBlocks := failed.length
    firstFault := failed.head?.map (faultOf seed payload) }

/-- The fields of a terminal after a pass (R132). `restore` is the bounded max rung. -/
def Terminal.passed (restore : Nat) (t : Terminal) : Terminal :=
  { t.fresh with
    rung := 0
    restoreRung := some (t.restoreRung.getD restore)
    attemptCount := 0
    phaseReports := 0
    rampSettle := 0
    climbDwell := 0
    missRun := 0
    floorRun := 0
    expectedBurst := none
    pendingShift := none }

/-- A verification pass: the terminal leaves the window and enters RAMPING (R132). -/
def State.verificationPass (s : State) (k : Slot) : State :=
  let s := s.leave k
  (s.modTerm k fun t => t.passed (s.boundRung t.maxRung)).toState k .ramping

/-- A received VERIFY burst at its expected burst frame: stages 1 to 3, the comparison, the record and the outcome
(R129 to R133). -/
def State.compareVerify (s : State) (j : Sector) (k : Slot) (burst : Burst) : State :=
  let c := s.cfg j
  let seed := verifySeed k (s.term k).attemptCount (s.term k).verification.startFrame
  let s := s.modTerm k fun t =>
    { stages1to3 c burst t with
      expectedBurst := none
      verification := t.verification.compared seed burst.payload c }
  match (s.term k).verification.outcome with
  | .clean =>
    (s.modTerm k fun t => { t.keepCap with sticky := { t.sticky with degraded := false } }).verificationPass k
  | .degraded => (s.setDegraded k).verificationPass k
  | .failed => (s.setDegraded k).attemptFailure j k
  | .none | .aborted => s

/-- A missing burst: the exchange is ABORTED, which counts as an attempt failure (R134). -/
def State.missingBurst (s : State) (j : Sector) (k : Slot) : State :=
  (s.modTerm k fun t =>
      { t with
        expectedBurst := none
        verification := { t.verification with completed := false, outcome := .aborted } })
    |>.attemptFailure j k

/-- A VERIFY descriptor at its expected burst frame: the comparison, or a missing burst (R129, R134). -/
def State.judgeVerify (s : State) (j : Sector) (k : Slot) (burst : Burst) : State :=
  if burst.received then s.compareVerify j k burst else s.missingBurst j k

/-- The reissue of a VERIFYING member (R136). -/
def State.reissueVerify (s : State) (k : Slot) : State :=
  (s.modTerm k fun t => { t with expectedBurst := none }).request k .verify

end Sys2Proof.Machine
end

