-- ==== Sys2Proof/Machine/Upstream.lean ====
section
/-!
DEFINITION. UPSTREAM_FRAME, DESCRIPTOR_WALK_STEP, WINDOW_SWEEP_STEP and EVALUATION_COMPLETION: upstream intake, the intake
banks and the evaluation (R5 to R18).
-/

namespace Sys2Proof.Machine

/-! ## Intake (R5 to R9) -/

/-- The fault record of an upstream frame: kind and burst index, with the sector byte and frame number of its header
(R6, R9). -/
def faultFrom (fr : Frame) (kind : FaultKind) (burst : Option Nat) : FaultRecord :=
  { kind := kind, sector := byteAt fr 2, frame := frameNumber fr, burst := burst }

/-- Check 1 of R6 fails. -/
def markerFault (fr : Frame) : Bool :=
  decide (fr.length < 6) || byteAt fr 0 != 0x93 || byteAt fr 1 != 0x01

/-- The intake reference of a sector (R7): the waiting frame's number, else the number of the frame in evaluation, else
the last evaluated frame number; absent while the sector is BLIND. -/
def SectorRec.reference (r : SectorRec) : Option FrameNo :=
  if r.state = .blind then none
  else match r.waitingBank with
    | some w => some w.number
    | none =>
      match r.evaluation with
      | some e => some e.frame.number
      | none => r.lastEvaluated

/-- The stale test (R7): the number is the reference or before it. -/
def isStale (reference : Option FrameNo) (n : FrameNo) : Bool :=
  match reference with
  | none => false
  | some r => decide (distance n r = 0 ∨ 32768 ≤ distance n r)

/-- The gap test (R7): the number is past the reference by more than one. -/
def isGap (reference : Option FrameNo) (n : FrameNo) : Bool :=
  match reference with
  | none => false
  | some r => decide (2 ≤ distance n r ∧ distance n r ≤ 32767)

/-- Checks 3 to 5 of R6 for a frame of a checked sector: the fault and burst index of the first that fails. -/
def State.intakeFault (s : State) (j : Sector) (fr : Frame) : Option (FaultKind × Option Nat) :=
  match layoutFault fr with
  | some f => some f
  | none => if isStale (s.sec j).reference (frameNumber fr) then some (.stale, none) else none

/-! ## Banks and the beginning of an evaluation (R10 to R13) -/

/-- The other intake bank. -/
def IntakeBank.other : IntakeBank → IntakeBank
  | .a => .b
  | .b => .a

/-- An evaluation begins: it takes a hold on the active ladder bank and keeps that bank (R13).
DESIGN CHOICE, unsafe (log entry 18). -/
def State.beginEvaluation (s : State) (j : Sector) (bank : IntakeBank) (f : BankedFrame) : State :=
  let held := s.ladder.active.getD 0
  (s.takeHold held).modSec j fun r => { r with evaluation := some { bank := bank, frame := f, held := held } }

/-- A frame that passes intake goes to the banks of its sector: its evaluation begins, or it waits, or it is overrun
(R10, R11). DEDUCED, unsafe (log entry 9). -/
def State.bankFrame (s : State) (j : Sector) (fr : Frame) : State :=
  match (s.sec j).evaluation with
  | none => s.beginEvaluation j .a (bankedFrame fr)
  | some _ =>
    match (s.sec j).waitingBank with
    | none => s.modSec j fun r => { r with waitingBank := some (bankedFrame fr) }
    | some _ => s.offerFault (faultFrom fr .overrun none)

/-- A frame passes intake: a gap offers SEQUENCE, the passing reaches the sector controller, and the frame reaches the
banks (R6, R7, R10). -/
def State.passIntake (s : State) (j : Sector) (fr : Frame) : State :=
  let s :=
    if isGap (s.sec j).reference (frameNumber fr) then s.offerFault (faultFrom fr .sequence none) else s
  (s.framePassed j).bankFrame j fr

/-- Intake of a frame from the radio link (R5, R6). -/
def State.intake (s : State) (fr : Frame) : State :=
  match s.mode with
  | .starting | .bypass => s
  | .running =>
    if markerFault fr then s.offerFault (faultFrom fr .marker none)
    else match sectorOfByte (byteAt fr 2) with
      | none => s.offerFault (faultFrom fr .sector none)
      | some j =>
        if (s.sec j).state.served then
          match s.intakeFault j fr with
          | some f => s.offerFault (faultFrom fr f.1 f.2)
          | none => s.passIntake j fr
        else s

/-- UPSTREAM_FRAME (R1, R3, R5, R6, R168): the frame is forwarded on arrival; intake is run, and the notice queue is
checked, in the order the operand gives. DESIGN CHOICE, safe (log entry 11). No step of the frame's own evaluation comes between
its arrival and that check, an order of which 10-6 speaks as possible. DESIGN CHOICE, unsafe (log entry 29). -/
def execUpstreamFrame (fr : Frame) (noticesFirst : Bool) (s : State) : Result :=
  let s := s.emit fr
  .next (if noticesFirst then s.emitNotices.intake fr else (s.intake fr).emitNotices)

/-! ## The descriptor walk (R14) -/

/-- Changes the evaluation in flight of a sector. -/
def State.modEvaluation (s : State) (j : Sector) (f : Evaluation → Evaluation) : State :=
  s.modSec j fun r => { r with evaluation := r.evaluation.map f }

/-- The walk hands a ranging or verification burst of a terminal on (R15). -/
def State.markHanded (s : State) (j : Sector) (k : Slot) : State :=
  s.modEvaluation j fun e => { e with handed := k :: e.handed }

/-- A walked descriptor acts on the terminal its address resolves to, by kind, status and state (R14). -/
def State.actOn (s : State) (j : Sector) (k : Slot) (e : Evaluation) (b : Burst) : State :=
  let t := s.term k
  let bank := s.bank e.held
  let n := e.frame.number
  match b.kind with
  | .report =>
    if t.state.carrying then
      if b.received then s.receivedReport j k bank b n else s.miss j k n
    else s
  | .ranging =>
    if t.state = .ranging ∧ t.expectedBurst = some n then (s.markHanded j k).judgeRanging j k bank b else s
  | .verify =>
    if t.state = .verifying ∧ t.expectedBurst = some n then (s.markHanded j k).judgeVerify j k b else s
  | .traffic | .unknown => s

/-- DESCRIPTOR_WALK_STEP (R14, R20): the next descriptor of the sector's evaluation is resolved and acted on.
DESIGN CHOICE, safe (log entry 8). -/
def execDescriptorWalkStep (j : Sector) (s : State) : Result :=
  match (s.sec j).evaluation with
  | none => .next s
  | some e =>
    match e.frame.bursts[e.walked]? with
    | none => .next s
    | some b =>
      let s := s.modEvaluation j fun e => { e with walked := e.walked + 1 }
      match s.resolve j b.address with
      | none => .next s
      | some k => .next (s.actOn j k e b)

/-! ## The window sweep (R15) -/

/-- The walk of an evaluation has taken its last step. -/
def Evaluation.walkDone (e : Evaluation) : Bool := decide (e.frame.bursts.length ≤ e.walked)

/-- The first window member the sweep has not taken. DEDUCED, unsafe (log entry 19). -/
def nextMember (window swept : List Slot) : Option Slot := window.find? fun k => !swept.contains k

/-- What the sweep does with one window member (R15). -/
def State.sweepMember (s : State) (j : Sector) (k : Slot) (e : Evaluation) : State :=
  match (s.term k).expectedBurst with
  | none => s
  | some due =>
    let verifying := (s.term k).state == .verifying
    if e.frame.number = due then
      if e.handed.contains k then s
      else if verifying then s.missingBurst j k
      else s.noShow j k
    else if shortlyBefore e.frame.number due then s
    else if verifying then s.reissueVerify k
    else s.reissueRanging k

/-- WINDOW_SWEEP_STEP (R15): after the walk, the next window member is taken. DESIGN CHOICE, safe (log entry 8). -/
def execWindowSweepStep (j : Sector) (s : State) : Result :=
  match (s.sec j).evaluation with
  | none => .next s
  | some e =>
    if e.walkDone then
      match nextMember (s.sec j).window e.swept with
      | none => .next s
      | some k => .next ((s.modEvaluation j fun e => { e with swept := k :: e.swept }).sweepMember j k e)
    else .next s

/-! ## Completion (R16) -/

/-- The last step of the sweep has been taken. -/
def State.sweepDone (s : State) (j : Sector) (e : Evaluation) : Bool :=
  e.walkDone && (nextMember (s.sec j).window e.swept).isNone

/-- What follows a completion (R16): a pending suspend takes effect, or the waiting frame's evaluation begins in the
bank that held it. DEDUCED, unsafe (log entry 9); DESIGN CHOICE, safe (log entry 17). -/
def State.afterCompletion (s : State) (j : Sector) (bank : IntakeBank) : State :=
  if (s.sec j).suspendPending then s.suspendNow j (s.sec j).suspendTag
  else match (s.sec j).waitingBank with
    | some w => (s.modSec j fun r => { r with waitingBank := none }).beginEvaluation j bank.other w
    | none => s

/-- EVALUATION_COMPLETION (R16). DESIGN CHOICE, safe (log entry 8). -/
def execEvaluationCompletion (j : Sector) (s : State) : Result :=
  match (s.sec j).evaluation with
  | none => .next s
  | some e =>
    if s.sweepDone j e then
      let s := s.modSec j fun r =>
        { r with
          lastEvaluated := if r.state = .blind then none else some e.frame.number
          evaluation := none }
      .next ((s.dropHold e.held).afterCompletion j e.bank)
    else .next s

end Sys2Proof.Machine
end

