-- ==== Sys2Proof/Machine/SectorFrame.lean ====
section
/-!
DEFINITION. The reactions to an offered sector frame: SECTOR_FRAME_REACTION, BLIND_ENTRY, PROBE and PROGRESS_NOTICE (R44,
R49, R53, R55, R62), RE_ENTRY_SCHEDULER_REACTION and BACKOFF_EXPIRY (R110 to R112), SHIFT_MATURITY (R102) and SLOT_FILLING
(R146).
-/

namespace Sys2Proof.Machine

/-! ## The sector controller (R44) -/

/-- The blind counter after step 1 of the reaction: it rises by 1 unless it is 64 (R44, R55). -/
def SectorRec.blindCount (r : SectorRec) : Nat := min (r.blindCounter + 1) Config.blindCounterLimit

/-- Step 1 sends the sector to BLIND: it is CLEAR, OUTAGE or RECOVERING and the counter is now at or above blind_limit. -/
def SectorRec.goesBlind (r : SectorRec) : Bool :=
  r.state.work.isSome && decide (r.config.blindLimit ≤ r.blindCount)

/-- A QUIET lead is admitted to the window; a lead already in the window is left there (R49). -/
def State.admitLead (s : State) (j : Sector) : State :=
  match (s.sec j).lead with
  | some k => if (s.term k).state = .quiet then s.takeIn j k else s
  | none => s

/-- The probe timer is counted down by 1, and at 0 a probe is made and the timer reloaded (R49). -/
def State.countProbe (s : State) (j : Sector) : State :=
  let s := s.modSec j fun r => { r with probeTimer := r.probeTimer - 1 }
  if (s.sec j).probeTimer = 0 then
    (s.admitLead j).modSec j fun r => { r with probeTimer := r.config.probeInterval }
  else s

/-- Step 2 of the reaction: the state work (R44). -/
def State.stateWork (s : State) (j : Sector) : State :=
  match (s.sec j).state with
  | .outage => s.countProbe j
  | .recovering => s.walkStep j
  | .clear | .blind | .disabled | .suspended => s

/-- The progress counter rises by 1; at or above progress_interval + 1 the sector is offered and the counter returns
to 0 (R62). -/
def State.countProgress (s : State) (j : Sector) : State :=
  if (s.sec j).config.progressInterval + 1 ≤ (s.sec j).progressCounter + 1 then
    (s.modSec j fun r => { r with progressCounter := 0 }).offerSector j
  else s.modSec j fun r => { r with progressCounter := r.progressCounter + 1 }

/-- Step 3 of the reaction: the progress count, in OUTAGE and RECOVERING (R44). -/
def State.progressStep (s : State) (j : Sector) : State :=
  match (s.sec j).state with
  | .outage => s.countProgress j
  | .recovering => s.countProgress j
  | .clear | .blind | .disabled | .suspended => s

/-- The sector controller's reaction to a sector frame: one event, taken in three steps (R44). -/
def State.controllerReaction (s : State) (j : Sector) : State :=
  let blind := (s.sec j).goesBlind
  let s := s.modSec j fun r => { r with blindCounter := r.blindCount }
  if blind then s.enterBlind j else (s.stateWork j).progressStep j

/-- The oldest offered frame's controller reaction is taken. It acts only while the sector is served, for a frame offered before a
SUSPEND or DISABLE SECTOR too, if it is first taken after RESUME or ENABLE SECTOR: the mark is not cleared (R59 has the counts
continue at the next sector frame). DESIGN CHOICE, safe (log entry 4); DESIGN CHOICE, unsafe (log entries 6 and 30). -/
def State.takeController (s : State) (j : Sector) : State :=
  let s := s.modSec j fun r => { r with controllerDue := r.controllerDue - 1 }
  if (s.sec j).state.served then s.controllerReaction j else s

/-- A controller reaction is due for an offered frame of a served sector. -/
def SectorRec.controllerReady (r : SectorRec) : Bool := decide (0 < r.controllerDue) && r.state.served

/-- SECTOR_FRAME_REACTION (R44): the due reaction of the sector controller. DESIGN CHOICE, safe (log entry 8). -/
def execSectorFrameReaction (j : Sector) (s : State) : Result :=
  if 0 < (s.sec j).controllerDue then .next (s.takeController j) else .next s

/-- BLIND_ENTRY (R55): the due reaction of the sector controller at the frame that sends the sector to BLIND.
DEDUCED, unsafe (log entry 5). -/
def execBlindEntry (j : Sector) (s : State) : Result :=
  if (s.sec j).controllerReady && (s.sec j).goesBlind then .next (s.takeController j) else .next s

/-- The due reaction makes a probe: the sector stays in OUTAGE and the timer counts down to 0. -/
def SectorRec.probeReady (r : SectorRec) : Bool :=
  r.controllerReady && !r.goesBlind && r.state == .outage && decide (r.probeTimer ≤ 1)

/-- PROBE (R49): the due reaction of the sector controller at the frame where the probe timer reaches 0.
DEDUCED, unsafe (log entry 5). -/
def execProbe (j : Sector) (s : State) : Result :=
  if (s.sec j).probeReady then .next (s.takeController j) else .next s

/-- The due reaction gives a progress item: the sector is still in OUTAGE or RECOVERING after the state work and the
counter reaches progress_interval + 1. -/
def State.progressReady (s : State) (j : Sector) : Bool :=
  let worked := (s.stateWork j).sec j
  (s.sec j).controllerReady && !(s.sec j).goesBlind
    && (worked.state == .outage || worked.state == .recovering)
    && decide (worked.config.progressInterval + 1 ≤ worked.progressCounter + 1)

/-- PROGRESS_NOTICE (R62): the due reaction of the sector controller at the frame that gives a progress item.
DEDUCED, unsafe (log entry 5). -/
def execProgressNotice (j : Sector) (s : State) : Result :=
  if s.progressReady j then .next (s.takeController j) else .next s

/-! ## The re-entry scheduler (R110) -/

/-- A DEFERRED terminal's backoff remaining falls by 1; at 0 it becomes WAITING and joins the queue (R112). -/
def State.countBackoff (s : State) (k : Slot) : State :=
  let s := s.modTerm k fun t => { t with backoff := t.backoff - 1 }
  if (s.term k).backoff = 0 then s.becomeWaiting k else s

/-- The re-entry scheduler's reaction to a sector frame (R110). -/
def State.schedulerReaction (s : State) (j : Sector) : State :=
  let s :=
    if (s.sec j).state.work.isSome then (s.slotsIn j .deferred).foldl State.countBackoff s else s
  if (s.sec j).state = .clear ∨ (s.sec j).state = .recovering then s.admission j else s

/-- The oldest offered frame's scheduler reaction is taken. It acts only while the sector is served, for a frame offered before a
SUSPEND or DISABLE SECTOR too, if it is first taken after RESUME or ENABLE SECTOR.
DESIGN CHOICE, safe (log entry 4); DESIGN CHOICE, unsafe (log entries 6 and 30). -/
def State.takeScheduler (s : State) (j : Sector) : State :=
  let s := s.modSec j fun r => { r with schedulerDue := r.schedulerDue - 1 }
  if (s.sec j).state.served then s.schedulerReaction j else s

/-- RE_ENTRY_SCHEDULER_REACTION (R110): the due reaction of the re-entry scheduler.
DESIGN CHOICE, safe (log entry 8). -/
def execReEntrySchedulerReaction (j : Sector) (s : State) : Result :=
  if 0 < (s.sec j).schedulerDue then .next (s.takeScheduler j) else .next s

/-- The due reaction of the scheduler expires the backoff of a slot. -/
def State.expiryReady (s : State) (k : Slot) : Bool :=
  let r := s.sec (s.sectorOf k)
  decide (0 < r.schedulerDue) && r.state.work.isSome
    && (s.term k).state == .deferred && decide ((s.term k).backoff ≤ 1)

/-- BACKOFF_EXPIRY (R112): the due reaction of the re-entry scheduler at the frame where the backoff of slot `k`
reaches 0. DEDUCED, unsafe (log entry 5). -/
def execBackoffExpiry (k : Slot) (s : State) : Result :=
  if s.expiryReady k then .next (s.takeScheduler (s.sectorOf k)) else .next s

/-! ## The report evaluator (R102) -/

/-- The oldest frame at which a slot is still to be examined. -/
def maturityFrame (due : List (FrameNo × Slot)) (k : Slot) : Option FrameNo :=
  (due.find? fun p => p.2 == k).map Prod.fst

/-- SHIFT_MATURITY (R102): the report evaluator examines the announced shift of one terminal at an offered frame,
the examination of a frame from before a suspension too, if it is first taken after it.
DESIGN CHOICE, unsafe (log entries 6, 23 and 30); DESIGN CHOICE, safe (log entry 8). -/
def execShiftMaturity (j : Sector) (k : Slot) (s : State) : Result :=
  match maturityFrame (s.sec j).maturityDue k with
  | none => .next s
  | some n =>
    let s := s.modSec j fun r => { r with maturityDue := r.maturityDue.eraseP fun p => p.2 == k }
    if (s.sec j).state.served ∧ s.belongs j k ∧ (s.term k).matures n then .next (s.mature j k) else .next s

/-! ## The control inserter (R146) -/

/-- The oldest frame of a sector whose slots are still to be filled is replaced and marked as filled. -/
def fillOldest (j : Sector) (fr : Frame) : List Transit → List Transit
  | [] => []
  | t :: ts => if t.fill = some j then { frame := fr, fill := none } :: ts else t :: fillOldest j fr ts

/-- The oldest frame of a sector whose slots are still to be filled. -/
def State.unfilled (s : State) (j : Sector) : Option Frame :=
  (s.transit.find? fun t => t.fill == some j).map Transit.frame

/-- SLOT_FILLING (R146, R4): the inserter fills the sector's oldest unfilled frame, which then leaves in its turn.
A frame from before a suspension that is first taken after it is filled.
DESIGN CHOICE, unsafe (log entries 6 and 30); DESIGN CHOICE, safe (log entry 8). -/
def execSlotFilling (j : Sector) (s : State) : Result :=
  match s.unfilled j with
  | none => .next s
  | some fr =>
    if (s.sec j).state.served then
      let filled := s.fill j (frameNumber fr) (freeSlots fr)
      .next (State.release { filled.1 with
        transit := fillOldest j (writeSlots fr (freeSlots fr) filled.2) filled.1.transit })
    else .next (State.release { s with transit := fillOldest j fr s.transit })

end Sys2Proof.Machine
end

