-- ==== Sys2Proof/Machine/StartUp.lean ====
section
/-!
DEFINITION. DEVICE_RESET, REGION_TEST_END and STARTUP_CHECK_END: the device reset and the start-up check (R160 to R164).
-/

namespace Sys2Proof.Machine

/-- The word a pattern writes (R161). -/
def patternWord : TestPattern → BitVec 16
  | .p5555 => 0x5555
  | .pAAAA => 0xAAAA
  | .p0000 => 0x0000

/-- A reading fails its region: the value read differs from the pattern (R161).
DESIGN CHOICE, safe (log entries 15 and 22). -/
def failingRead (r : Option WordRead) : Option WordRead :=
  match r with
  | some w => if w.value = patternWord w.pattern then none else some w
  | none => none

/-- The regions of the start-up check, in the order they are tested (10-4). -/
def regions : List Nat := List.range 13

/-- The region the running check is to finish next: the first whose progress bit is clear (R161). -/
def StartUpRecord.region (u : StartUpRecord) : Option Nat :=
  regions.find? fun k => !u.progress.getLsbD k

/-- The number of words of a region, for the regions whose table row gives it: a ladder bank is 48 words (10-4). -/
def regionWords (k : Nat) : Option Nat := if k = 10 ∨ k = 11 then some 48 else none

/-- A reported word lies in a region: the test reads from offset 0 to the region's end and no further (R161). -/
def inRegion (k : Nat) (r : Option WordRead) : Bool :=
  match r, regionWords k with
  | some w, some n => decide (w.offset.toNat < n)
  | _, _ => true

/-- A word with one more bit set. -/
def withBit (w : BitVec 16) (k : Nat) : BitVec 16 := w ||| (1 <<< k)

/-- The end of a region's test in the start-up record: its progress bit, its failure bit if it failed, and the first
failure of the whole check (R161, R162). -/
def StartUpRecord.tested (u : StartUpRecord) (k : Nat) (failing : Option WordRead) : StartUpRecord :=
  match failing with
  | none => { u with progress := withBit u.progress k }
  | some w =>
    { u with
      progress := withBit u.progress k
      failure := withBit u.failure k
      firstFailure := some (u.firstFailure.getD
        { region := k, offset := w.offset, expected := patternWord w.pattern, value := w.value }) }

/-- The memory a region's test has written with 0x0000, which is the value every block's reset state requires (R161):
regions 0 to 9 are terminal records, 10 and 11 the ladder banks, 12 the queue memory (10-4).
DESIGN CHOICE, safe (log entry 15). -/
def State.zeroRegion (s : State) (k : Nat) : State :=
  if k < 10 then
    (allSlots.filter fun i => i.val / 32 == k).foldl (fun s i => s.setTerm i {}) s
  else if k = 10 then s.modBank 0 fun b => { b with bytes := Vector.replicate 96 0 }
  else if k = 11 then s.modBank 1 fun b => { b with bytes := Vector.replicate 96 0 }
  else
    (List.finRange 12).foldl
      (fun s j => s.modSec j fun r =>
        { r with lossLog := [], queue := [], window := [], controlQueue := [], evaluation := none, waitingBank := none })
      { s with notices := [] }

/-- The start-up check finishes a region's test. -/
def State.regionTested (s : State) (k : Nat) (failing : Option WordRead) : State :=
  State.zeroRegion { s with startUp := s.startUp.tested k (failingRead failing) } k

/-- REGION_TEST_END (R161): the running check has tested the next of regions 0 to 11. A failing word beyond the region's end is
no word the test reads.
DESIGN CHOICE, safe (log entries 8 and 15). -/
def execRegionTestEnd (failing : Option WordRead) (s : State) : Result :=
  match s.mode with
  | .running | .bypass => .next s
  | .starting =>
    match s.startUp.region with
    | none => .next s
    | some k => if k < 12 ∧ inRegion k failing then .next (s.regionTested k failing) else .next s

/-- The end of the check, one event: passed, the mode and the READY notice (R162, R164). -/
def State.endCheck (s : State) : State :=
  let passed := s.startUp.failure == 0
  let s := { s with
    startUp := { s.startUp with passed := some passed }
    mode := if passed then .running else .bypass }
  s.emit (noticeFrame [s.readyItem])

/-- STARTUP_CHECK_END (R162): the running check has tested region 12. DESIGN CHOICE, safe (log entries 8 and 15). -/
def execStartupCheckEnd (failing : Option WordRead) (s : State) : Result :=
  match s.mode with
  | .running | .bypass => .next s
  | .starting =>
    if s.startUp.region = some 12 then .next (s.regionTested 12 failing).endCheck else .next s

/-- The recorded cause of a device reset from outside (R160). -/
def causeOf : ResetInput → ResetCause
  | .power => .power
  | .line => .line

/-- DEVICE_RESET (R160): power-up or an assertion of the reset line. -/
def execDeviceReset (cause : ResetInput) (s : State) : Result := .next (s.deviceReset (causeOf cause))

end Sys2Proof.Machine
end

