-- ==== Sys2Proof/Machine/Management.lean ====
section
/-!
DEFINITION. The taking of a request (R152 to R156), and the requests of the management unit and the fault latch:
UNKNOWN_FUNCTION, ECHO, READ STARTUP, RESTART and READ FAULT LATCH.
-/

namespace Sys2Proof.Machine

/-! ## The taking of a request (R152 to R154) -/

/-- The part mode serves a request (R159). -/
def Mode.serves (m : Mode) (f : RequestKind) : Bool :=
  match m with
  | .running => true
  | .starting => f == .echo || f == .readStartup || f == .restart
  | .bypass => f == .echo || f == .readStartup || f == .restart || f == .readFaultLatch

/-- The status that refuses an unserved function in a mode (R154). -/
def Mode.refusal (m : Mode) : Option Status :=
  match m with
  | .starting => some .starting
  | .bypass => some .bypassed
  | .running => none

/-- The length check: the declared length is at most 64, the frame holds that many parameter bytes, and it is the one
the function takes (check 3 of R154). -/
def lengthAccepted (f : RequestKind) (r : Request) : Bool :=
  decide (r.length.toNat ≤ 64) && decide (r.length.toNat ≤ r.bytes.length) && takesLength f r.length.toNat

/-- The common checks: the status of the first that fails (R154). -/
def State.commonCheck (s : State) (f : RequestKind) (r : Request) : Option Status :=
  if s.mode.serves f then
    if lengthAccepted f r then none else some .badLength
  else s.mode.refusal

/-- What the owning block answers: the state its effects leave, and the status and results of the reply, absent when
the request gets none now (R153). -/
abbrev Answer := State × Option (Status × List Byte)

/-- A refusal by the owning block: nothing changes and the results are empty (R153). -/
def State.refuse (s : State) (st : Status) : Answer := (s, some (st, []))

/-- An acceptance with no results. -/
def State.accept (s : State) : Answer := (s, some (.ok, []))

/-- The reply of an answer is emitted in the event that takes the request (R153). -/
def answered (f : RequestKind) (r : Request) (a : Answer) : State :=
  match a.2 with
  | some (st, results) => a.1.reply (functionCode f) r.tag st results
  | none => a.1

/-- A request is taken: the common checks, then its owning block's effects and its one reply (R152 to R154). -/
def State.serve (s : State) (f : RequestKind) (r : Request) (body : List Byte → Answer) : State :=
  match s.commonCheck f r with
  | some st => s.reply (functionCode f) r.tag st []
  | none => answered f r (body (parameters r))

/-! ## Requests of the management unit -/

/-- The status an unknown function code is answered with in a mode (R154). -/
def Mode.unknownStatus : Mode → Status
  | .running => .unknownFunction
  | .starting => .starting
  | .bypass => .bypassed

/-- UNKNOWN_FUNCTION (R154): a request whose function code is not one of the 22.
DESIGN CHOICE, safe (log entry 22). -/
def execUnknownFunction (code : Byte) (r : Request) (s : State) : Result :=
  match requestKindOf code with
  | none => .next (s.reply code r.tag s.mode.unknownStatus [])
  | some _ => .next s

/-- ECHO (R157). -/
def execEcho (r : Request) (s : State) : Result := .next (s.serve .echo r fun ps => (s, some (.ok, ps)))

/-- The results of READ STARTUP (R165, 11-4). -/
def State.startupResults (s : State) : List Byte :=
  let u := s.startUp
  [modeCode s.mode] ++ bytes16 u.progress ++ bytes16 u.failure
    ++ (match u.firstFailure with
        | none => List.replicate 8 0
        | some ff => [1, byteOf ff.region] ++ bytes16 ff.offset ++ bytes16 ff.expected ++ bytes16 ff.value)
    ++ optByte (u.passed.map yesNo) ++ [causeCode u.cause]
    ++ bytes16 Config.partIdentifier ++ [Config.revisionCode]

/-- READ STARTUP (R165). -/
def execReadStartup (r : Request) (s : State) : Result :=
  .next (s.serve .readStartup r fun _ => (s, some (.ok, s.startupResults)))

/-- RESTART (R166): a device reset with cause RESTART, and no reply. -/
def execRestart (r : Request) (s : State) : Result :=
  .next (s.serve .restart r fun _ => (s.deviceReset .restart, none))

/-- The results of READ FAULT LATCH (R158, 11-4). -/
def latchResults : Option FaultRecord → List Byte
  | none => List.replicate 7 0
  | some f =>
    [1, faultKindCode f.kind, f.sector] ++ bytes16 f.frame ++ optByte (f.burst.map byteOf)

/-- READ FAULT LATCH (R158): an unlock value of 1 empties the latch after it is read. -/
def execReadFaultLatch (r : Request) (s : State) : Result :=
  .next (s.serve .readFaultLatch r fun ps =>
    if byteAt ps 0 = 0 then (s, some (.ok, latchResults s.latch))
    else if byteAt ps 0 = 1 then ({ s with latch := none }, some (.ok, latchResults s.latch))
    else s.refuse .badParameter)

end Sys2Proof.Machine
end

