-- ==== Sys2Proof/Machine/TerminalRequests.lean ====
section
/-!
DEFINITION. The requests of the terminal table: PROVISION TERMINAL, REMOVE TERMINAL, READ TERMINAL and CLEAR HEALTH (R34 to
R37).
-/

namespace Sys2Proof.Machine

/-! ## PROVISION TERMINAL (R34) -/

/-- The parameters of PROVISION TERMINAL within their ranges (check 1 of R34). -/
structure ProvisionParams where
  slot : Slot
  sector : Sector
  address : BitVec 12
  priority : Fin 4
  maxRung : Nat
  deriving DecidableEq, Repr

/-- Reads and checks the parameters: slot (2), sector (1), link address (2), priority class (1), max rung (1). -/
def provisionParams (ps : List Byte) : Option ProvisionParams :=
  match slotAt ps 0, sectorAt ps 2 with
  | some k, some j =>
    let a := nat16 ps 3
    if 1 ≤ a ∧ a ≤ 4094 ∧ nat8 ps 6 ≤ 15 then
      if h : nat8 ps 5 < 4 then
        some { slot := k, sector := j, address := BitVec.ofNat 12 a, priority := ⟨nat8 ps 5, h⟩, maxRung := nat8 ps 6 }
      else none
    else none
  | _, _ => none

/-- The record of a newly provisioned terminal: the identity fields from the request, every other field as the column
"after PROVISION" of 2-2 gives it. Notice pending is set by the offer that follows. -/
def ProvisionParams.record (p : ProvisionParams) (noticePending : Bool) : Terminal :=
  { sector := p.sector, linkAddress := p.address, priority := p.priority, maxRung := p.maxRung, state := .held,
    noticePending := noticePending }

/-- PROVISION TERMINAL's effects (R19, R20, R34). -/
def State.provision (s : State) (p : ProvisionParams) : State :=
  let s := s.modTerm p.slot fun t => p.record t.noticePending
  let s := s.modSec p.sector fun r =>
    { r with population := r.population + 1, addressMap := r.addressMap ++ [(p.address, p.slot)] }
  s.offerTerminal p.slot

/-- PROVISION TERMINAL (R34). -/
def execProvisionTerminal (r : Request) (s : State) : Result :=
  .next (s.serve .provisionTerminal r fun ps =>
    match provisionParams ps with
    | none => s.refuse .badParameter
    | some p =>
      if (s.term p.slot).state ≠ .empty then s.refuse .noSpace
      else if Config.populationLimit ≤ (s.sec p.sector).population then s.refuse .noSpace
      else if (s.resolve p.sector p.address).isSome then s.refuse .conflict
      else (s.provision p).accept)

/-! ## REMOVE TERMINAL (R35) -/

/-- REMOVE TERMINAL's effects on a slot that is not EMPTY, in the order of R35. The record is emptied before the lead
choice of step 3, which is to look at the remaining terminals only; the terminal's own offer comes last.
DEDUCED, unsafe (log entries 19 and 25). -/
def State.remove (s : State) (k : Slot) : State :=
  let j := s.sectorOf k
  let lead := (s.sec j).lead == some k
  let s := s.modTerm k Terminal.abortExchange
  let s := (s.leave k).discard k
  let s := s.modSec j fun r =>
    { r with
      addressMap := r.addressMap.filter fun p => p.2 != k
      population := r.population - 1
      evaluation := r.evaluation.map fun e => { e with handed := without k e.handed } }
  let s := s.modTerm k fun t => { noticePending := t.noticePending }
  let s := if lead then s.leadDeparts j else s
  s.offerTerminal k

/-- REMOVE TERMINAL (R35): an EMPTY slot is answered OK and nothing changes. -/
def execRemoveTerminal (r : Request) (s : State) : Result :=
  .next (s.serve .removeTerminal r fun ps =>
    match slotAt ps 0 with
    | none => s.refuse .badParameter
    | some k => if (s.term k).state = .empty then s.accept else (s.remove k).accept)

/-! ## READ TERMINAL (R36, 11-4) -/

/-- The pending shift as READ TERMINAL shows it: presence, target and effective frame (R170, 11-4). -/
def pendingShiftBytes : Option PendingShift → List Byte
  | none => [0, 0, 0, 0]
  | some p =>
    match p.effective with
    | none => [1, byteOf p.target, 0, 0]
    | some e => [2, byteOf p.target] ++ bytes16 e

/-- The history as READ TERMINAL shows it: its length and 8 entries, those beyond the length 0. -/
def historyBytes (h : List Nat) : List Byte :=
  byteOf h.length :: ((List.range 8).map fun i => bytesOf16 (h.getD i 0)).flatten

/-- The first fault as READ TERMINAL shows it. -/
def firstFaultBytes : Option FirstFault → List Byte
  | none => List.replicate 6 0
  | some f => [1, byteOf f.block, byteOf f.offset, f.expected] ++ optByte f.received

/-- The 72 result bytes of READ TERMINAL (11-4). -/
def terminalResults (k : Slot) (t : Terminal) : List Byte :=
  slotBytes k ++ [byteOf t.sector.val] ++ bytes16 (t.linkAddress.setWidth 16)
    ++ [byteOf t.priority.val, byteOf t.maxRung, termStateCode t.state, byteOf t.rung]
    ++ pendingShiftBytes t.pendingShift
    ++ optByte (t.restoreRung.map byteOf)
    ++ optWord (t.lossF.map (BitVec.ofNat 16))
    ++ optWord (t.filtered.map (BitVec.ofNat 16))
    ++ historyBytes t.history
    ++ [byteOf t.lastHeadroom, signedByte t.power]
    ++ optByte (t.pendingAdjust.map signedByte)
    ++ [byteOf t.missRun, byteOf t.floorRun, byteOf t.climbDwell, byteOf t.rampSettle]
    ++ bytesOf16 t.phaseReports
    ++ [byteOf t.attemptCount, byteOf t.roundCount]
    ++ optWord t.expectedBurst
    ++ bytesOf16 t.backoff
    ++ [yesNo t.probed, yesNo t.verification.started, yesNo t.verification.completed,
        outcomeCode t.verification.outcome]
    ++ bytes16 t.verification.startFrame
    ++ [byteOf t.verification.failedBlocks]
    ++ firstFaultBytes t.verification.firstFault
    ++ [stickyByte t.sticky, perReportByte t.perReport, owedByte t.owed, yesNo t.noticePending]

/-- READ TERMINAL (R36). -/
def execReadTerminal (r : Request) (s : State) : Result :=
  .next (s.serve .readTerminal r fun ps =>
    match slotAt ps 0 with
    | none => s.refuse .badParameter
    | some k => (s, some (.ok, terminalResults k (s.term k))))

/-! ## CLEAR HEALTH (R37) -/

/-- CLEAR HEALTH (R37). -/
def execClearHealth (r : Request) (s : State) : Result :=
  .next (s.serve .clearHealth r fun ps =>
    match slotAt ps 0 with
    | none => s.refuse .badParameter
    | some k =>
      if (s.term k).state = .empty then s.refuse .wrongState
      else (s.modTerm k fun t => { t.keepCap with sticky := {} }).accept)

end Sys2Proof.Machine
end

