-- ==== Sys2Proof/Machine/SectorRequests.lean ====
section
/-!
DEFINITION. The requests of the sector controller: SET SECTOR, READ SECTOR, ENABLE, DISABLE, SUSPEND, RESUME and RESET SECTOR,
and FORCE OUTAGE (R39 to R43, R57 to R61).
-/

namespace Sys2Proof.Machine

/-! ## SET SECTOR and READ SECTOR (R39 to R41) -/

/-- The 29 values replace the configuration; a probe timer above the new probe_interval is set to it (R39, R40). -/
def SectorRec.configure (c : SectorConfig) (r : SectorRec) : SectorRec :=
  { r with config := c, probeTimer := min r.probeTimer c.probeInterval }

/-- SET SECTOR (R39). -/
def execSetSector (r : Request) (s : State) : Result :=
  .next (s.serve .setSector r fun ps =>
    match sectorAt ps 0 with
    | none => s.refuse .badParameter
    | some j =>
      let c := configOf ps
      if c.inRange = true ∧ c.verifyTolerance ≤ c.verifyBlocks then (s.modSec j (SectorRec.configure c)).accept
      else s.refuse .badParameter)

/-- The 29 configuration values, sized as in SET SECTOR (11-4). -/
def configBytes (c : SectorConfig) : List Byte :=
  [byteOf c.windowSize, byteOf c.grantLead, byteOf c.filterShift, byteOf c.fadeHorizon, byteOf c.targetMargin,
    byteOf c.deadband, byteOf c.maxStep, byteOf c.timingTolerance, byteOf c.lossLimit, byteOf c.climbDwell,
    byteOf c.recoveryDwell]
    ++ bytesOf16 c.climbTimeout
    ++ [byteOf c.rampSettle, byteOf c.rampLimit, byteOf c.shiftDelay, byteOf c.rangingRounds, byteOf c.attemptLimit,
        byteOf c.backoffBase]
    ++ bytesOf16 c.backoffCap
    ++ [byteOf c.verifyBlocks, byteOf c.verifyTolerance, byteOf c.degradedCap, byteOf c.outageCount]
    ++ bytesOf16 c.outageWindow ++ bytesOf16 c.probeInterval
    ++ [byteOf c.probeRotate, byteOf c.releaseBatch, byteOf c.blindLimit, byteOf c.progressInterval]

/-- A prior state as an optional field, in the codes of the sector states. DEDUCED, unsafe (log entry 26). -/
def priorBytes (p : Option WorkState) : List Byte := optByte (p.map fun w => sectorStateCode w.toSector)

/-- The result bytes of READ SECTOR (R41, 11-4). -/
def State.sectorResults (s : State) (j : Sector) : List Byte :=
  let r := s.sec j
  [byteOf j.val, sectorStateCode r.state] ++ priorBytes r.prior ++ [yesNo r.suspendPending]
    ++ configBytes r.config
    ++ optWord (r.lead.map fun k => BitVec.ofNat 16 k.val)
    ++ [byteOf r.leadFailures] ++ bytesOf16 r.probeTimer
    ++ optWord (r.releaseCursor.map fun k => BitVec.ofNat 16 k.val)
    ++ [byteOf r.blindCounter, byteOf r.progressCounter]
    ++ optWord r.lastEvaluated
    ++ [byteOf r.population]
    ++ (termStates.map fun st => byteOf (s.countIn j (· == st)))
    ++ [byteOf r.queue.length, byteOf r.window.length, byteOf r.controlQueue.length]
    ++ [byteOf r.lossLog.length]
    ++ (r.lossLog.map fun e => slotBytes e.slot ++ bytes16 e.frame).flatten

/-- READ SECTOR (R41). -/
def execReadSector (r : Request) (s : State) : Result :=
  .next (s.serve .readSector r fun ps =>
    match sectorAt ps 0 with
    | none => s.refuse .badParameter
    | some j => (s, some (.ok, s.sectorResults j)))

/-! ## ENABLE and DISABLE SECTOR (R42, R43) -/

/-- ENABLE SECTOR's effects on the sector record (R8, R42). -/
def SectorRec.enabled (r : SectorRec) : SectorRec :=
  { r with
    state := .clear
    blindCounter := 0
    progressCounter := 0
    lead := none
    releaseCursor := none
    prior := none
    leadFailures := 0
    probeTimer := 0
    suspendPending := false
    lastEvaluated := none }

/-- ENABLE SECTOR (R42). -/
def execEnableSector (r : Request) (s : State) : Result :=
  .next (s.serve .enableSector r fun ps =>
    match sectorAt ps 0 with
    | none => s.refuse .badParameter
    | some j =>
      if (s.sec j).state ≠ .disabled then s.refuse .wrongState
      else if s.ladder.active.isNone then s.refuse .wrongState
      else if (s.sec j).evaluation.isSome then s.refuse .busy
      else ((s.modSec j SectorRec.enabled).offerSector j).accept)

/-- DISABLE SECTOR's effects on the sector record (R12, R43). -/
def SectorRec.disabled (r : SectorRec) : SectorRec :=
  { r with
    state := .disabled
    waitingBank := none
    lossLog := []
    lead := none
    releaseCursor := none
    prior := none
    leadFailures := 0
    probeTimer := 0
    blindCounter := 0
    progressCounter := 0 }

/-- DISABLE SECTOR (R43). -/
def execDisableSector (r : Request) (s : State) : Result :=
  .next (s.serve .disableSector r fun ps =>
    match sectorAt ps 0 with
    | none => s.refuse .badParameter
    | some j =>
      if (s.sec j).state = .disabled then s.refuse .wrongState
      else if (s.sec j).suspendPending then s.refuse .busy
      else if ((s.slotsOf j).all fun k => (s.term k).state == .held) = false then s.refuse .wrongState
      else ((s.modSec j SectorRec.disabled).offerSector j).accept)

/-! ## SUSPEND and RESUME SECTOR (R57 to R59) -/

/-- SUSPEND SECTOR (R57): with no evaluation in flight the suspend takes effect at once, and its reply is emitted then;
otherwise it is pending, and its reply comes at the completion of the evaluation.
DESIGN CHOICE, safe (log entry 17). -/
def execSuspendSector (r : Request) (s : State) : Result :=
  .next (s.serve .suspendSector r fun ps =>
    match sectorAt ps 0 with
    | none => s.refuse .badParameter
    | some j =>
      if (s.sec j).state.served = false then s.refuse .wrongState
      else if (s.sec j).suspendPending then s.refuse .busy
      else if (s.sec j).evaluation.isSome then
        (s.modSec j fun x => { x with suspendPending := true, suspendTag := r.tag }, none)
      else (s.suspendNow j r.tag, none))

/-- RESUME SECTOR (R59). -/
def execResumeSector (r : Request) (s : State) : Result :=
  .next (s.serve .resumeSector r fun ps =>
    match sectorAt ps 0 with
    | none => s.refuse .badParameter
    | some j =>
      if (s.sec j).state ≠ .suspended then s.refuse .wrongState
      else
        ((s.modSec j fun x => { x with blindCounter := 0, lastEvaluated := none }).returnToPrior j).accept)

/-! ## RESET SECTOR and FORCE OUTAGE (R60, R61) -/

/-- The fields of a terminal RESET SECTOR makes WAITING (R61, step 2), its state apart. -/
def Terminal.backToStart (t : Terminal) : Terminal :=
  { t.fresh with
    rung := 0
    power := 0
    pendingShift := none
    pendingAdjust := none
    expectedBurst := none
    missRun := 0
    floorRun := 0
    climbDwell := 0
    rampSettle := 0
    phaseReports := 0
    attemptCount := 0
    roundCount := 0
    backoff := 0
    probed := false
    owed := {} }

/-- RESET SECTOR on one terminal that is not HELD (R61, steps 1 and 2). -/
def State.resetTerminal (s : State) (k : Slot) : State :=
  let s := s.modTerm k fun t => t.abortExchange.backToStart
  s.toState k .waiting

/-- A re-entry queue holding the given slots by priority class, class 0 first, and within a class by slot (R61). -/
def State.rebuiltQueue (s : State) (ks : List Slot) : List Slot :=
  ks.foldl (fun q k => insertByClass s.classOfSlot k q) []

/-- RESET SECTOR's effects (R61). DEDUCED, unsafe (log entries 10 and 19). -/
def State.resetSector (s : State) (j : Sector) : State :=
  let moved := (s.slotsOf j).filter fun k => (s.term k).state != .held
  let s := moved.foldl State.resetTerminal s
  let s := s.modSec j fun r =>
    { r with
      window := []
      controlQueue := []
      lossLog := []
      queue := s.rebuiltQueue moved
      evaluation := r.evaluation.map fun e => { e with swept := [] }
      lead := none
      releaseCursor := none
      prior := none
      leadFailures := 0
      probeTimer := 0
      blindCounter := 0
      progressCounter := 0 }
  s.enterSector j .clear

/-- RESET SECTOR (R61). -/
def execResetSector (r : Request) (s : State) : Result :=
  .next (s.serve .resetSector r fun ps =>
    match sectorAt ps 0 with
    | none => s.refuse .badParameter
    | some j =>
      if (s.sec j).state.served = false then s.refuse .wrongState
      else (s.resetSector j).accept)

/-- FORCE OUTAGE (R60). -/
def execForceOutage (r : Request) (s : State) : Result :=
  .next (s.serve .forceOutage r fun ps =>
    match sectorAt ps 0 with
    | none => s.refuse .badParameter
    | some j =>
      if (s.sec j).state = .clear ∨ (s.sec j).state = .recovering then (s.declareOutage j).accept
      else s.refuse .wrongState)

end Sys2Proof.Machine
end

