-- ==== Sys2Proof/Machine/LadderRequests.lean ====
section
/-!
DEFINITION. The requests of the profile ladder store: LOAD LADDER BLOCK, ACTIVATE LADDER and READ LADDER (R82, R85 to R88,
R90).
-/

namespace Sys2Proof.Machine

/-! ## LOAD LADDER BLOCK (R82) -/

/-- The block index parameter, present when it is in 0..2. -/
def blockAt (ps : List Byte) : Option (Fin 3) :=
  if h : nat8 ps 0 < 3 then some ⟨nat8 ps 0, h⟩ else none

/-- A block is written into the standby bank and staged (R80, R82). -/
def State.loadBlock (s : State) (i : Fin 3) (bs : List Byte) : State :=
  let s := s.modBank s.ladder.standby fun b => b.writeBlock i bs
  { s with ladder := { s.ladder with staged := s.ladder.staged.set i.val true } }

/-- LOAD LADDER BLOCK (R82). -/
def execLoadLadderBlock (r : Request) (s : State) : Result :=
  .next (s.serve .loadLadderBlock r fun ps =>
    match blockAt ps with
    | none => s.refuse .badParameter
    | some i =>
      if 0 < (s.bank s.ladder.standby).holds then s.refuse .busy
      else (s.loadBlock i (ps.drop 1)).accept)

/-! ## ACTIVATE LADDER (R85 to R88) -/

/-- A record clamped to a new top rung (R87). -/
def Terminal.clampRungs (top : Nat) (t : Terminal) : Terminal :=
  { t with
    rung := min t.rung top
    pendingShift := t.pendingShift.map fun p => { p with target := min p.target top }
    restoreRung := t.restoreRung.map fun r => min r top }

/-- The test of R88: a carrying terminal's rung was reduced, or the profile code of its rung changed. `former` is the
record before the clamp and `old` the former active bank. -/
def needsAnnouncement (old : Option LadderBank) (new : LadderBank) (former now : Terminal) : Bool :=
  now.state.carrying
    && (decide (now.rung < former.rung)
      || (match old with
          | some b => new.code now.rung != b.code former.rung
          | none => false))

/-- The activation's effects on one record: the clamp, the move of a queued SHIFT whose target changed side, and the
re-announcement (R87, R88, R142). DEDUCED, unsafe (log entry 24). -/
def State.activateTerminal (old : Option LadderBank) (new : LadderBank) (s : State) (k : Slot) : State :=
  if (s.term k).state = .empty then s
  else
    let former := s.term k
    let s := (s.modTerm k (Terminal.clampRungs new.top)).reclassShift k
    if needsAnnouncement old new former (s.term k) && (s.term k).pendingShift.isNone then
      (s.modTerm k fun t => { t with pendingShift := some { target := t.rung } }).request k .shift
    else s

/-- The activation of the standby bank (R86 to R88). -/
def State.activate (s : State) : State :=
  let new := s.ladder.standby
  let old := s.activeBank
  let s := { s with ladder := { s.ladder with active := some new, staged := Vector.replicate 3 false } }
  allSlots.foldl (State.activateTerminal old (s.bank new)) s

/-- ACTIVATE LADDER (R85, R86). -/
def execActivateLadder (r : Request) (s : State) : Result :=
  .next (s.serve .activateLadder r fun _ =>
    let standby := s.bank s.ladder.standby
    match rejection standby s.ladder.staged with
    | some reason => (s, some (.imageRejected, reason))
    | none => (s.activate, some (.ok, byteOf s.ladder.standby.val :: bytes16 standby.version)))

/-! ## READ LADDER (R90) -/

/-- The bank parameter, present when it is 0 or 1. -/
def bankAt (ps : List Byte) : Option (Fin 2) :=
  if h : nat8 ps 0 < 2 then some ⟨nat8 ps 0, h⟩ else none

/-- The 100 result bytes of READ LADDER (11-4). -/
def State.ladderResults (s : State) (i : Fin 2) : List Byte :=
  optByte (s.ladder.active.map fun a => byteOf a.val)
    ++ [byteOf (s.bank i).holds, setByte s.ladder.staged.toList]
    ++ (s.bank i).contents

/-- READ LADDER (R90). -/
def execReadLadder (r : Request) (s : State) : Result :=
  .next (s.serve .readLadder r fun ps =>
    match bankAt ps with
    | none => s.refuse .badParameter
    | some i => (s, some (.ok, s.ladderResults i)))

end Sys2Proof.Machine
end

