-- ==== Sys2Proof/Machine/ReEntryRequests.lean ====
section
/-!
DEFINITION. The requests of the re-entry scheduler: HOLD TERMINAL, RELEASE TERMINAL and READ QUEUE (R123, R125, R126).
-/

namespace Sys2Proof.Machine

/-! ## HOLD TERMINAL (R123) -/

/-- HOLD TERMINAL's effects on a terminal that is neither EMPTY nor HELD, in the order of R123. -/
def State.hold (s : State) (k : Slot) : State :=
  let j := s.sectorOf k
  let lead := s.isOutageLead j k
  let s := (s.modTerm k Terminal.abortExchange).leave k
  let s := s.modTerm k fun t => if t.state.carrying then { t with pendingShift := none } else t
  let s := (s.discard k).toState k .held
  if lead then s.leadDeparts j else s

/-- HOLD TERMINAL (R123). -/
def execHoldTerminal (r : Request) (s : State) : Result :=
  .next (s.serve .holdTerminal r fun ps =>
    match slotAt ps 0 with
    | none => s.refuse .badParameter
    | some k =>
      if (s.term k).state = .empty then s.refuse .wrongState
      else if (s.term k).state = .held then s.accept
      else (s.hold k).accept)

/-! ## RELEASE TERMINAL (R125) -/

/-- The fields RELEASE TERMINAL sets, the state apart (R125). -/
def Terminal.released (t : Terminal) : Terminal :=
  { t.fresh with
    rung := 0
    power := 0
    missRun := 0
    floorRun := 0
    climbDwell := 0
    rampSettle := 0
    phaseReports := 0
    roundCount := 0
    attemptCount := 0
    backoff := 0 }

/-- RELEASE TERMINAL's effects (R125). -/
def State.releaseTerminal (s : State) (k : Slot) : State :=
  let s := s.modTerm k Terminal.released
  if (s.sec (s.sectorOf k)).working = some .outage then s.toState k .quiet else s.becomeWaiting k

/-- RELEASE TERMINAL (R125). -/
def execReleaseTerminal (r : Request) (s : State) : Result :=
  .next (s.serve .releaseTerminal r fun ps =>
    match slotAt ps 0 with
    | none => s.refuse .badParameter
    | some k =>
      if (s.term k).state ≠ .held then s.refuse .wrongState
      else if (s.sec (s.sectorOf k)).state.served = false then s.refuse .wrongState
      else (s.releaseTerminal k).accept)

/-! ## READ QUEUE (R126) -/

/-- The result bytes of READ QUEUE (11-4). -/
def State.queueResults (s : State) (j : Sector) : List Byte :=
  let r := s.sec j
  let deferred := s.slotsIn j .deferred
  [sectorStateCode r.state, byteOf r.config.windowSize, byteOf r.queue.length]
    ++ (r.queue.map fun k =>
        slotBytes k ++ [byteOf (s.term k).priority.val, byteOf (s.term k).attemptCount]).flatten
    ++ [byteOf r.window.length]
    ++ (r.window.map fun k =>
        slotBytes k ++ [termStateCode (s.term k).state, byteOf (s.term k).roundCount, byteOf (s.term k).attemptCount]
          ++ optWord (s.term k).expectedBurst).flatten
    ++ [byteOf deferred.length]
    ++ (deferred.map fun k => slotBytes k ++ [byteOf (s.term k).attemptCount] ++ bytesOf16 (s.term k).backoff).flatten

/-- READ QUEUE (R126). -/
def execReadQueue (r : Request) (s : State) : Result :=
  .next (s.serve .readQueue r fun ps =>
    match sectorAt ps 0 with
    | none => s.refuse .badParameter
    | some j => (s, some (.ok, s.queueResults j)))

end Sys2Proof.Machine
end

