-- ==== Sys2Proof/Machine/Downstream.lean ====
section
/-!
DEFINITION. DOWNSTREAM_FRAME: a frame arrives on the controller link (R1, R2, R4, R152).
-/

namespace Sys2Proof.Machine

/-- The taking of a request by its function code: each of the 22 is its own command (10-2), any other code is an
UNKNOWN_FUNCTION (R154). DEDUCED, unsafe (log entry 3). -/
def takeRequest (code : Byte) (r : Request) (s : State) : Result :=
  match requestKindOf code with
  | none => execUnknownFunction code r s
  | some .echo => execEcho r s
  | some .readStartup => execReadStartup r s
  | some .restart => execRestart r s
  | some .readFaultLatch => execReadFaultLatch r s
  | some .provisionTerminal => execProvisionTerminal r s
  | some .removeTerminal => execRemoveTerminal r s
  | some .readTerminal => execReadTerminal r s
  | some .clearHealth => execClearHealth r s
  | some .setSector => execSetSector r s
  | some .readSector => execReadSector r s
  | some .enableSector => execEnableSector r s
  | some .disableSector => execDisableSector r s
  | some .suspendSector => execSuspendSector r s
  | some .resumeSector => execResumeSector r s
  | some .resetSector => execResetSector r s
  | some .forceOutage => execForceOutage r s
  | some .loadLadderBlock => execLoadLadderBlock r s
  | some .activateLadder => execActivateLadder r s
  | some .readLadder => execReadLadder r s
  | some .holdTerminal => execHoldTerminal r s
  | some .releaseTerminal => execReleaseTerminal r s
  | some .readQueue => execReadQueue r s

/-- The slots of a sector whose announced shift matures at a frame (R102). DESIGN CHOICE, unsafe (log entry 23). -/
def State.maturing (s : State) (j : Sector) (n : FrameNo) : List Slot :=
  (s.slotsOf j).filter fun k => (s.term k).matures n

/-- A sector frame is offered to its sector: each of the sector's reactions becomes due (R2, R44).
DESIGN CHOICE, safe (log entry 4). -/
def State.offer (s : State) (j : Sector) (n : FrameNo) : State :=
  s.modSec j fun r =>
    { r with
      controllerDue := r.controllerDue + 1
      schedulerDue := r.schedulerDue + 1
      maturityDue := r.maturityDue ++ (s.maturing j n).map fun k => (n, k) }

/-- The part is in RUNNING mode and the sector is neither DISABLED nor SUSPENDED: the condition of R2 for a sector frame
to be offered. -/
def State.offers (s : State) (j : Sector) : Bool := s.mode == .running && (s.sec j).state.served

/-- DOWNSTREAM_FRAME (R1, R2, R152): a MGMT frame is consumed and its request taken; a sector frame that is offered waits
for its slots to be filled; every other frame is forwarded untouched. DEDUCED, unsafe (log entry 3). -/
def execDownstreamFrame (fr : Frame) (s : State) : Result :=
  if isMgmt fr then
    match requestOf fr with
    | none => .next s
    | some (code, r) => takeRequest code r s
  else match sectorFrame fr with
    | some j =>
      if s.offers j then .next ((s.offer j (frameNumber fr)).forward fr (some j)) else .next (s.forward fr none)
    | none => .next (s.forward fr none)

end Sys2Proof.Machine
end

