-- ==== Sys2Proof/Machine/Dispatch.lean ====
section
/-!
DEFINITION. The dispatch of a command to its meaning: one arm per constructor of `Instr`, in the table's order.
-/

namespace Sys2Proof.Machine

def exec (i : Instr) (s : State) : Host.Outcome State Fault Refusal :=
  match i with
  | .deviceReset cause => Sys2Proof.Machine.execDeviceReset cause s
  | .startupCheckEnd failing => Sys2Proof.Machine.execStartupCheckEnd failing s
  | .downstreamFrame fr => Sys2Proof.Machine.execDownstreamFrame fr s
  | .sectorFrameReaction j => Sys2Proof.Machine.execSectorFrameReaction j s
  | .blindEntry j => Sys2Proof.Machine.execBlindEntry j s
  | .probe j => Sys2Proof.Machine.execProbe j s
  | .progressNotice j => Sys2Proof.Machine.execProgressNotice j s
  | .reEntrySchedulerReaction j => Sys2Proof.Machine.execReEntrySchedulerReaction j s
  | .backoffExpiry k => Sys2Proof.Machine.execBackoffExpiry k s
  | .shiftMaturity j k => Sys2Proof.Machine.execShiftMaturity j k s
  | .slotFilling j => Sys2Proof.Machine.execSlotFilling j s
  | .upstreamFrame fr noticesFirst => Sys2Proof.Machine.execUpstreamFrame fr noticesFirst s
  | .descriptorWalkStep j => Sys2Proof.Machine.execDescriptorWalkStep j s
  | .windowSweepStep j => Sys2Proof.Machine.execWindowSweepStep j s
  | .evaluationCompletion j => Sys2Proof.Machine.execEvaluationCompletion j s
  | .unknownFunction code r => Sys2Proof.Machine.execUnknownFunction code r s
  | .echo r => Sys2Proof.Machine.execEcho r s
  | .readStartup r => Sys2Proof.Machine.execReadStartup r s
  | .restart r => Sys2Proof.Machine.execRestart r s
  | .readFaultLatch r => Sys2Proof.Machine.execReadFaultLatch r s
  | .provisionTerminal r => Sys2Proof.Machine.execProvisionTerminal r s
  | .removeTerminal r => Sys2Proof.Machine.execRemoveTerminal r s
  | .readTerminal r => Sys2Proof.Machine.execReadTerminal r s
  | .clearHealth r => Sys2Proof.Machine.execClearHealth r s
  | .setSector r => Sys2Proof.Machine.execSetSector r s
  | .readSector r => Sys2Proof.Machine.execReadSector r s
  | .enableSector r => Sys2Proof.Machine.execEnableSector r s
  | .disableSector r => Sys2Proof.Machine.execDisableSector r s
  | .suspendSector r => Sys2Proof.Machine.execSuspendSector r s
  | .resumeSector r => Sys2Proof.Machine.execResumeSector r s
  | .resetSector r => Sys2Proof.Machine.execResetSector r s
  | .forceOutage r => Sys2Proof.Machine.execForceOutage r s
  | .loadLadderBlock r => Sys2Proof.Machine.execLoadLadderBlock r s
  | .activateLadder r => Sys2Proof.Machine.execActivateLadder r s
  | .readLadder r => Sys2Proof.Machine.execReadLadder r s
  | .holdTerminal r => Sys2Proof.Machine.execHoldTerminal r s
  | .releaseTerminal r => Sys2Proof.Machine.execReleaseTerminal r s
  | .readQueue r => Sys2Proof.Machine.execReadQueue r s
  | .regionTestEnd failing => Sys2Proof.Machine.execRegionTestEnd failing s

end Sys2Proof.Machine
end

