-- ==== Sys2Proof/Machine/Step.lean ====
section
/-!
DEFINITION. One step of the part: the command at the front of the queue is taken. On an empty queue the part idles: every
timer of the part counts downstream frames, so nothing happens without a command (0-1, 3-4).
-/

namespace Sys2Proof.Machine

/-- One step: the front command runs on the state with the queue's rest; an empty queue leaves the state as it is.
DESIGN CHOICE, safe (log entry 1). -/
def step (s : State) : Host.Outcome State Fault Refusal :=
  match s.pending with
  | [] => .next s
  | c :: rest => exec c { s with pending := rest }

/-- The state with the command a table word spells at the front of its queue; unchanged where the word spells none.
DESIGN CHOICE, safe (log entry 2). -/
def State.withFetchWord (s : State) (nbits w : Nat) : State :=
  match decodeTableWord nbits w with
  | none => s
  | some c => { s with pending := c :: s.pending }

end Sys2Proof.Machine
end

