-- ==== Sys2Proof/Safety.lean ====
section
/-!
DEFINITION. What holds in every state the part can reach: the invariants of its terminal records, sector records,
collections, ladder store, notice queue and modes, each in the words of the rule it follows.
-/

namespace Sys2Proof.Machine

/-! ## The modes (R159) -/

/-- Outside RUNNING mode every block but the management unit is as device reset leaves it: no terminal is provisioned, no
sector enabled, no ladder loaded, and the latch and the notice queue are empty (R158, R159). -/
def State.AtRest (s : State) : Prop :=
  s.mode ≠ .running →
    (∀ k, s.term k = {}) ∧ (∀ j, s.sec j = {}) ∧ s.ladder = {} ∧ s.latch = none ∧ s.notices = []

/-! ## The notice queue (R28, R167) -/

/-- No item stands twice in the notice queue, and notice pending is yes exactly for its members (R28, R167). -/
structure State.NoticesAgree (s : State) : Prop where
  once : s.notices.Nodup
  pending : ∀ k, (s.term k).noticePending = true ↔ .terminal k ∈ s.notices

/-! ## Terminal records (R24, R26, R65 to R74) -/

/-- The link fields and the attempt count of a record lie in their ranges of 2-2. -/
structure Terminal.InRange (t : Terminal) : Prop where
  power : -40 ≤ t.power ∧ t.power ≤ 40
  filtered : ∀ f, t.filtered = some f → f ≤ 800
  history : t.history.length ≤ 8 ∧ ∀ f ∈ t.history, f ≤ 800
  lossF : ∀ f, t.lossF = some f → f ≤ 800
  headroom : t.lastHeadroom ≤ 40
  adjust : ∀ a, t.pendingAdjust = some a → -128 ≤ a ∧ a ≤ 127
  attempts : t.attemptCount ≤ 15

/-- The rung, the pending-shift target and the restore rung of a record are at most a bound, if there is one. -/
def Terminal.RungsWithin (top : Option Nat) (t : Terminal) : Prop :=
  ∀ m, top = some m →
    t.rung ≤ m ∧ (∀ p, t.pendingShift = some p → p.target ≤ m) ∧ ∀ r, t.restoreRung = some r → r ≤ m

/-- The top rung of the active ladder, if a bank is active (R77, R79). -/
def State.top (s : State) : Option Nat := s.activeBank.map LadderBank.top

/-! ## Sector records (R38, R46, R140) -/

/-- A control queue holds at most 48 entries, no two of one terminal and kind, in class order (R140). -/
structure ControlQueueOk (q : List ControlEntry) : Prop where
  length : q.length ≤ 48
  once : q.Pairwise fun a b => ¬(a.slot = b.slot ∧ a.kind = b.kind)
  order : q.Pairwise fun a b => a.cls.rank ≤ b.cls.rank

/-- The configuration of a sector is one SET SECTOR accepts (R39). -/
def SectorConfig.Accepted (c : SectorConfig) : Prop := c.inRange = true ∧ c.verifyTolerance ≤ c.verifyBlocks

/-- The collections and counters of a sector record lie in their ranges (R38, R40, R46, R55, R62, R140). -/
structure SectorRec.InRange (r : SectorRec) : Prop where
  config : r.config.Accepted
  lossLog : r.lossLog.length ≤ 64
  blind : r.blindCounter ≤ 64
  probe : r.probeTimer ≤ r.config.probeInterval
  progress : r.progressCounter ≤ 254
  control : ControlQueueOk r.controlQueue

/-! ## The terminal table and the collections (R19, R20, R35, R108) -/

/-- A sector names a slot in its re-entry queue, its window, its control queue or as its lead. -/
def SectorRec.Names (r : SectorRec) (k : Slot) : Prop :=
  k ∈ r.queue ∨ k ∈ r.window ∨ r.lead = some k ∨ ∃ e ∈ r.controlQueue, e.slot = k

/-- A sector's collections name only its own terminals, which are not EMPTY (R19, R22). -/
def State.Homed (s : State) : Prop := ∀ j k, (s.sec j).Names k → s.belongs j k = true

/-- The terminal table agrees with itself: EMPTY slots hold the empty values, notice pending apart, each population counts
the non-EMPTY slots of its sector, and each address map pairs exactly the addresses of those slots, each once (R19, R20,
R35). -/
structure State.TableAgrees (s : State) : Prop where
  empty : ∀ k, (s.term k).state = .empty → s.term k = { noticePending := (s.term k).noticePending }
  population : ∀ j, (s.sec j).population = (s.slotsOf j).length
  limit : ∀ j, (s.sec j).population ≤ 64
  paired : ∀ j a k, (a, k) ∈ (s.sec j).addressMap ↔ s.belongs j k = true ∧ (s.term k).linkAddress = a
  once : ∀ j, ((s.sec j).addressMap.map Prod.fst).Nodup

/-- A terminal is in its sector's re-entry queue exactly when it is WAITING, and in its sector's re-entry window exactly
when it is RANGING or VERIFYING; neither holds a slot twice, and the queue stands in class order (R108). -/
structure State.MembersAgree (s : State) : Prop where
  queue : ∀ j k, k ∈ (s.sec j).queue ↔ (s.term k).state = .waiting ∧ (s.term k).sector = j
  window : ∀ j k, k ∈ (s.sec j).window ↔
    ((s.term k).state = .ranging ∨ (s.term k).state = .verifying) ∧ (s.term k).sector = j
  queueOnce : ∀ j, (s.sec j).queue.Nodup
  windowOnce : ∀ j, (s.sec j).window.Nodup
  classes : ∀ j, (s.sec j).queue.Pairwise fun a b => (s.term a).priority ≤ (s.term b).priority

/-! ## The ladder store (R80, R81, R85, R89) -/

/-- The number of sectors whose evaluation in flight holds a bank. -/
def State.holders (s : State) (i : Fin 2) : Nat :=
  ((List.finRange 12).filter fun j => (s.sec j).evaluation.map Evaluation.held == some i).length

/-- The hold counts count the evaluations in flight, a frame waits only behind one, nothing is in flight and every sector is
DISABLED while no ladder is active, and a held standby bank has no staged block (R13, R42, R81, R85). -/
structure State.HoldsAgree (s : State) : Prop where
  counted : ∀ i, (s.bank i).holds = s.holders i
  waiting : ∀ j, (s.sec j).waitingBank.isSome = true → (s.sec j).evaluation.isSome = true
  inactive : s.ladder.active = none → ∀ j, (s.sec j).state = .disabled ∧ (s.sec j).evaluation = none
  standby : 0 < (s.bank s.ladder.standby).holds → s.ladder.staged = Vector.replicate 3 false

/-- Every terminal's rung, pending-shift target and restore rung are less than the active ladder's rung count; while no
ladder is active, every terminal is EMPTY or HELD with rung 0 (R89). -/
structure State.RungsOnLadder (s : State) : Prop where
  active : ∀ b, s.activeBank = some b →
    1 ≤ b.rungCount ∧ ∀ k,
      (s.term k).rung < b.rungCount
        ∧ (∀ p, (s.term k).pendingShift = some p → p.target < b.rungCount)
        ∧ ∀ r, (s.term k).restoreRung = some r → r < b.rungCount
  inactive : s.ladder.active = none →
    ∀ k, ((s.term k).state = .empty ∨ (s.term k).state = .held) ∧ (s.term k).rung = 0

/-! ## The words of the statements -/

/-- A request carries one slot, high byte first (10-2, R170). -/
def ForSlot (r : Request) (k : Slot) : Prop := r.length = 2 ∧ ∃ rest, r.bytes = bytesOf16 k.val ++ rest

/-- A request carries one sector (10-2). -/
def ForSector (r : Request) (j : Sector) : Prop := r.length = 1 ∧ ∃ rest, r.bytes = byteOf j.val :: rest

/-- The one segment of a reply of at most 192 result bytes: number 0, marked final (11-3, R156). -/
def soleReply (code : Byte) (tag : BitVec 16) (status : Byte) (results : List Byte) : Frame :=
  [0x93, 0x03, 0xFF, 0x00, 0x00, code] ++ bytes16 tag ++ [status, 0x00, 0x01, byteOf results.length] ++ results

/-- The command that is the taking of a request (10-2). -/
def commandOf (f : RequestKind) (r : Request) : Instr :=
  match f with
  | .echo => .echo r
  | .readStartup => .readStartup r
  | .restart => .restart r
  | .readFaultLatch => .readFaultLatch r
  | .provisionTerminal => .provisionTerminal r
  | .removeTerminal => .removeTerminal r
  | .readTerminal => .readTerminal r
  | .clearHealth => .clearHealth r
  | .setSector => .setSector r
  | .readSector => .readSector r
  | .enableSector => .enableSector r
  | .disableSector => .disableSector r
  | .suspendSector => .suspendSector r
  | .resumeSector => .resumeSector r
  | .resetSector => .resetSector r
  | .forceOutage => .forceOutage r
  | .loadLadderBlock => .loadLadderBlock r
  | .activateLadder => .activateLadder r
  | .readLadder => .readLadder r
  | .holdTerminal => .holdTerminal r
  | .releaseTerminal => .releaseTerminal r
  | .readQueue => .readQueue r

/-- Nothing differs outside the terminal records, the sector records and the notice queue. -/
structure State.SameAround (s t : State) : Prop where
  mode : t.mode = s.mode
  startUp : t.startUp = s.startUp
  ladder : t.ladder = s.ladder
  latch : t.latch = s.latch
  transit : t.transit = s.transit
  radioOut : t.radioOut = s.radioOut
  pending : t.pending = s.pending

/-- A sector is in service: it is neither DISABLED nor SUSPENDED (R2, R5). -/
def SectorRec.InService (r : SectorRec) : Prop := r.state ≠ .disabled ∧ r.state ≠ .suspended

/-- No frame at the head of the way to the radio link is ready to leave: there is none, or it still waits for its filling
(R4). -/
def State.HeadWaits (s : State) : Prop := ∀ x, s.transit.head? = some x → x.fill ≠ none

/-- A terminal record after an offer: its notice pending is yes unless the terminal stood in the notice queue already
(R28, R167). -/
def Terminal.offered (queued : List NoticeItem) (k : Slot) (t : Terminal) : Terminal :=
  if .terminal k ∈ queued then t else { t with noticePending := true }

/-- The header of an upstream frame passes checks 1 and 2 of R6 and names a sector. -/
structure UpstreamOf (fr : Frame) (j : Sector) : Prop where
  length : 6 ≤ fr.length
  marker : byteAt fr 0 = 0x93
  cls : byteAt fr 1 = 0x01
  sector : byteAt fr 2 = byteOf j.val

/-- Descriptor `i` of an upstream frame and the payload it declares lie within the frame as received (check 3 of R6). -/
def DescriptorFits (fr : Frame) (i : Nat) : Prop :=
  6 + 9 * (i + 1) ≤ fr.length
    ∧ (payloadLength fr i = 0
      ∨ 6 + 9 * nat8 fr 5 + ((List.range (i + 1)).map (payloadLength fr)).sum ≤ fr.length)

/-- The declared payload length of descriptor `i` is right for its kind byte (check 4 of R6). -/
def DescriptorRight (fr : Frame) (i : Nat) : Prop :=
  let kind := byteAt fr (6 + 9 * i + 2)
  let n := payloadLength fr i
  ((kind = 0x01 ∨ kind = 0x02) → n = 0) ∧ (kind = 0x03 → 16 ≤ n ∧ n ≤ 512 ∧ n % 16 = 0)

/-- The walk of a sector's evaluation `e` has come to descriptor `d`, whose address is paired with slot `k` (R14, R20). -/
structure State.WalksTo (s : State) (j : Sector) (e : Evaluation) (d : Burst) (k : Slot) : Prop where
  flight : (s.sec j).evaluation = some e
  descriptor : e.frame.bursts[e.walked]? = some d
  paired : ((s.sec j).addressMap.find? fun p => p.1 == d.address) = some (d.address, k)
  home : s.belongs j k = true

/-- The sweep of a sector's evaluation `e` has come to window member `k`, which is in a state (R15). -/
structure State.SweepsTo (s : State) (j : Sector) (e : Evaluation) (k : Slot) (st : TermState) : Prop where
  flight : (s.sec j).evaluation = some e
  walked : e.frame.bursts.length ≤ e.walked
  turn : ∃ front back, (s.sec j).window = front ++ k :: back ∧ (∀ m ∈ front, m ∈ e.swept) ∧ k ∉ e.swept
  home : s.belongs j k = true
  member : (s.term k).state = st

/-- Terminal `m` is the lead chosen when `k` departs: of the sector's other QUIET terminals without a probed mark the one with
the highest loss F, one with none ranking below every one with a loss F and equal ranks going to the lowest slot (R48, R52). -/
structure State.NextLead (s : State) (j : Sector) (k m : Slot) : Prop where
  home : s.belongs j m = true
  other : m ≠ k
  quiet : (s.term m).state = .quiet
  unmarked : (s.term m).probed = false
  highest : ∀ i, s.belongs j i = true → i ≠ k → (s.term i).state = .quiet → (s.term i).probed = false → i ≠ m →
    (s.term i).leadRank < (s.term m).leadRank ∨ (s.term i).leadRank = (s.term m).leadRank ∧ m < i

/-- The 33 configuration bytes of SET SECTOR and READ SECTOR, in the order of 3-2, two of them for climb_timeout, backoff_cap,
outage_window and probe_interval (10-2). -/
def SectorConfig.wire (c : SectorConfig) : List Byte :=
  [byteOf c.windowSize, byteOf c.grantLead, byteOf c.filterShift, byteOf c.fadeHorizon, byteOf c.targetMargin,
      byteOf c.deadband, byteOf c.maxStep, byteOf c.timingTolerance, byteOf c.lossLimit, byteOf c.climbDwell,
      byteOf c.recoveryDwell] ++ bytesOf16 c.climbTimeout
    ++ [byteOf c.rampSettle, byteOf c.rampLimit, byteOf c.shiftDelay, byteOf c.rangingRounds, byteOf c.attemptLimit,
      byteOf c.backoffBase] ++ bytesOf16 c.backoffCap
    ++ [byteOf c.verifyBlocks, byteOf c.verifyTolerance, byteOf c.degradedCap, byteOf c.outageCount]
    ++ bytesOf16 c.outageWindow ++ bytesOf16 c.probeInterval
    ++ [byteOf c.probeRotate, byteOf c.releaseBatch, byteOf c.blindLimit, byteOf c.progressInterval]

/-- Every value of a configuration fits the bytes that SET SECTOR gives it (10-2). -/
def SectorConfig.Fits (c : SectorConfig) : Prop :=
  (∀ x ∈ [c.windowSize, c.grantLead, c.filterShift, c.fadeHorizon, c.targetMargin, c.deadband, c.maxStep,
      c.timingTolerance, c.lossLimit, c.climbDwell, c.recoveryDwell, c.rampSettle, c.rampLimit, c.shiftDelay,
      c.rangingRounds, c.attemptLimit, c.backoffBase, c.verifyBlocks, c.verifyTolerance, c.degradedCap, c.outageCount,
      c.probeRotate, c.releaseBatch, c.blindLimit, c.progressInterval], x < 256)
    ∧ ∀ x ∈ [c.climbTimeout, c.backoffCap, c.outageWindow, c.probeInterval], x < 65536

/-- Every value of a configuration lies in its range of 3-2, and verify_tolerance does not exceed verify_blocks (R39). -/
structure SectorConfig.Right (c : SectorConfig) : Prop where
  windowSize : 1 ≤ c.windowSize ∧ c.windowSize ≤ 8
  grantLead : 1 ≤ c.grantLead ∧ c.grantLead ≤ 8
  filterShift : c.filterShift ≤ 4
  fadeHorizon : c.fadeHorizon ≤ 8
  targetMargin : c.targetMargin ≤ 40
  deadband : c.deadband ≤ 32
  maxStep : 1 ≤ c.maxStep ∧ c.maxStep ≤ 12
  timingTolerance : c.timingTolerance ≤ 31
  lossLimit : 1 ≤ c.lossLimit ∧ c.lossLimit ≤ 16
  climbDwell : 1 ≤ c.climbDwell ∧ c.climbDwell ≤ 64
  recoveryDwell : 1 ≤ c.recoveryDwell ∧ c.recoveryDwell ≤ 64
  climbTimeout : 1 ≤ c.climbTimeout ∧ c.climbTimeout ≤ 1024
  rampSettle : 1 ≤ c.rampSettle ∧ c.rampSettle ≤ 8
  rampLimit : 1 ≤ c.rampLimit ∧ c.rampLimit ≤ 64
  shiftDelay : 2 ≤ c.shiftDelay ∧ c.shiftDelay ≤ 15
  rangingRounds : 1 ≤ c.rangingRounds ∧ c.rangingRounds ≤ 8
  attemptLimit : 1 ≤ c.attemptLimit ∧ c.attemptLimit ≤ 15
  backoffBase : 1 ≤ c.backoffBase ∧ c.backoffBase ≤ 64
  backoffCap : 1 ≤ c.backoffCap ∧ c.backoffCap ≤ 4096
  verifyBlocks : 1 ≤ c.verifyBlocks ∧ c.verifyBlocks ≤ 32
  verifyTolerance : c.verifyTolerance ≤ 32
  degradedCap : c.degradedCap ≤ 15
  outageCount : 1 ≤ c.outageCount ∧ c.outageCount ≤ 64
  outageWindow : 1 ≤ c.outageWindow ∧ c.outageWindow ≤ 4096
  probeInterval : 1 ≤ c.probeInterval ∧ c.probeInterval ≤ 1024
  probeRotate : 1 ≤ c.probeRotate ∧ c.probeRotate ≤ 8
  releaseBatch : c.releaseBatch ≤ 16
  blindLimit : 1 ≤ c.blindLimit ∧ c.blindLimit ≤ 64
  progressInterval : c.progressInterval ≤ 254
  agree : c.verifyTolerance ≤ c.verifyBlocks

/-- The conditions of R78 that belong to rung `n` of the image in a bank. -/
def LadderBank.RungRight (b : LadderBank) (n : Nat) : Prop :=
  b.drop n ≤ 200 ∧ b.hold n ≤ 200 ∧ b.drop n ≤ b.hold n
    ∧ (1 ≤ n → b.enter n ≤ 200 ∧ b.hold n ≤ b.enter n ∧ b.drop (n - 1) < b.drop n)
    ∧ (2 ≤ n → b.enter (n - 1) < b.enter n)

/-- The check of ACTIVATE LADDER that a reason code from 1 to 6 names holds of the image in a bank (R83, R84, R85). -/
structure LadderBank.Check (b : LadderBank) (staged : Vector Bool 3) (reason : Nat) : Prop where
  signature : reason = 1 → b.byte 0 = 0x5A ∧ b.byte 1 = 0xC3
  rungs : reason = 2 → 1 ≤ b.rungCount ∧ b.rungCount ≤ 16
  blocks : reason = 3 → (b.byte 3).toNat = (8 + 4 * b.rungCount + 31) / 32
  loaded : reason = 4 → ∀ i : Fin 3, i.val < (8 + 4 * b.rungCount + 31) / 32 → staged[i.val] = true
  crc : reason = 5 → crc16 ((b.bytes.toList.drop 8).take (4 * b.rungCount)) = b.byte 4 ++ b.byte 5
  valid : reason = 6 → ∀ n, n < b.rungCount → b.RungRight n

/-- The state after a step that only moves an evaluation on. -/
def State.movedOn (s : State) (j : Sector) (e : Evaluation) : State :=
  s.setSec j { s.sec j with evaluation := some e }

end Sys2Proof.Machine
end

