-- ==== Sys2Proof/WellFormed.lean ====
section
/-!
DEFINITION. Which commands are well formed: the checks on the operands of a command that the wire formats do not make by
themselves. A frame and a request may hold any bytes: the part answers them all.
-/

namespace Sys2Proof

/-- A failing word of the start-up check holds something else than the pattern of its pass (R161). -/
def WordRead.wellFormed (w : WordRead) : Bool :=
  match w.pattern with
  | .p5555 => w.value != 0x5555
  | .pAAAA => w.value != 0xAAAA
  | .p0000 => w.value != 0x0000

/-- The function codes of 10-2. -/
def knownCodes : List Byte :=
  [0x01, 0x02, 0x03, 0x04, 0x10, 0x11, 0x12, 0x13, 0x20, 0x21, 0x22, 0x23, 0x24, 0x25, 0x26, 0x27, 0x30, 0x31, 0x32,
    0x40, 0x41, 0x42]

/-- A command is well formed: an UNKNOWN_FUNCTION carries none of the 22 function codes (R154), and a failing word of a
region test is a failing word (R161). -/
def Instr.wellFormed : Instr → Bool
  | .unknownFunction code _ => !knownCodes.contains code
  | .startupCheckEnd failing => failing.all WordRead.wellFormed
  | .regionTestEnd failing => failing.all WordRead.wellFormed
  | .deviceReset _ => true
  | .downstreamFrame _ => true
  | .sectorFrameReaction _ => true
  | .blindEntry _ => true
  | .probe _ => true
  | .progressNotice _ => true
  | .reEntrySchedulerReaction _ => true
  | .backoffExpiry _ => true
  | .shiftMaturity _ _ => true
  | .slotFilling _ => true
  | .upstreamFrame _ _ => true
  | .descriptorWalkStep _ => true
  | .windowSweepStep _ => true
  | .evaluationCompletion _ => true
  | .echo _ => true
  | .readStartup _ => true
  | .restart _ => true
  | .readFaultLatch _ => true
  | .provisionTerminal _ => true
  | .removeTerminal _ => true
  | .readTerminal _ => true
  | .clearHealth _ => true
  | .setSector _ => true
  | .readSector _ => true
  | .enableSector _ => true
  | .disableSector _ => true
  | .suspendSector _ => true
  | .resumeSector _ => true
  | .resetSector _ => true
  | .forceOutage _ => true
  | .loadLadderBlock _ => true
  | .activateLadder _ => true
  | .readLadder _ => true
  | .holdTerminal _ => true
  | .releaseTerminal _ => true
  | .readQueue _ => true

end Sys2Proof
end

