-- ==== Sys2Proof/Certificates/Slice0/Obligations.lean ====
section
/-!
DEFINITION. The statements for the provers: what the commands of the PB-3140 do, by the rules of the spec, and what every step
keeps.
-/

open Sys2Proof Sys2Proof.Machine

/-! ## The machine: its queue, its resets, its start-up -/

/-- A command runs when it stands at the front of the queue, on the state with the queue's rest; and with an empty queue the
part idles (MODEL'S CHOICE, log entry 1: every timer of the part counts downstream frames, so nothing happens without a
command). -/
def Obligations.StepRunsFrontCommand : Prop :=
  (∀ (c : Instr) (s : State), step { s with pending := c :: s.pending } = exec c s)
    ∧ ∀ s : State, s.pending = [] → step s = .next s

/-- No command touches the commands that wait behind it: requests and frames are taken one at a time in their order (R152).
The premises are kept by every step (`StructureKept`). -/
def Obligations.ExecKeepsQueue : Prop :=
  ∀ (c : Instr) (s t : State), s.AtRest → s.Homed → s.TableAgrees → exec c s = .next t → t.pending = s.pending

/-- A device reset gives every block the value its owning rule states (R33, R38, R79, R160, R161), written out field by field;
and the state right after a power-up is `State.reset`. What has left on the links stays out; frames on their way leave as
they came (MODEL'S CHOICE, log entry 7). -/
def Obligations.DeviceResetEmptiesThePart : Prop :=
  (∀ (cause : ResetInput) (s : State),
    exec (.deviceReset cause) s = .next
      { mode := .starting
        startUp :=
          { progress := 0, failure := 0, firstFailure := none, passed := none
            cause := match cause with
              | .power => .power
              | .line => .line }
        terminals := Vector.replicate 320
          { sector := 0, linkAddress := 0, priority := 0, maxRung := 0
            state := .empty, rung := 0, pendingShift := none, restoreRung := none, lossF := none
            filtered := none, history := [], lastHeadroom := 0, power := 0, pendingAdjust := none
            missRun := 0, floorRun := 0, climbDwell := 0, rampSettle := 0, phaseReports := 0
            attemptCount := 0, roundCount := 0, expectedBurst := none, backoff := 0, probed := false
            verification :=
              { started := false, completed := false, outcome := .none, startFrame := 0, failedBlocks := 0,
                firstFault := none }
            sticky := { ceiling := false, degraded := false, rampUnsettled := false, exhausted := false, onsetDrop := false }
            perReport := { belowDrop := false, noHeadroom := false, timingOut := false }
            capKept := false
            owed := { correct := false, verify := false, power := false, shift := false }
            noticePending := false }
        sectors := Vector.replicate 12
          { state := .disabled, prior := none, suspendPending := false
            config :=
              { windowSize := 2, grantLead := 2, filterShift := 2, fadeHorizon := 4, targetMargin := 12, deadband := 8
                maxStep := 4, timingTolerance := 4, lossLimit := 3, climbDwell := 16, recoveryDwell := 4
                climbTimeout := 64, rampSettle := 2, rampLimit := 16, shiftDelay := 4, rangingRounds := 4
                attemptLimit := 6, backoffBase := 8, backoffCap := 400, verifyBlocks := 8, verifyTolerance := 1
                degradedCap := 1, outageCount := 4, outageWindow := 200, probeInterval := 50, probeRotate := 3
                releaseBatch := 4, blindLimit := 8, progressInterval := 24 }
            lossLog := [], lead := none, leadFailures := 0, probeTimer := 0, releaseCursor := none
            blindCounter := 0, progressCounter := 0, population := 0, addressMap := [], lastEvaluated := none
            evaluation := none, waitingBank := none, queue := [], window := [], controlQueue := []
            suspendTag := 0, controllerDue := 0, schedulerDue := 0, maturityDue := [] }
        ladder :=
          { active := none
            banks := Vector.replicate 2 { bytes := Vector.replicate 96 0, holds := 0 }
            staged := Vector.replicate 3 false }
        latch := none
        notices := []
        transit := []
        controllerOut := s.controllerOut
        radioOut := s.radioOut ++ s.transit.map Transit.frame
        pending := s.pending })
    ∧ ∀ s : State, s.controllerOut = [] → s.radioOut = [] → s.transit = [] → s.pending = [] →
        exec (.deviceReset .power) s = .next State.reset

/-- RESTART is a device reset with cause RESTART and no reply, in every mode; with a nonzero parameter length it is answered
BAD_LENGTH and resets nothing (R166). -/
def Obligations.RestartResetsThePart : Prop :=
  (∀ (r : Request) (s : State), r.length = 0 →
    ∃ u, exec (.deviceReset .line) s = .next u
      ∧ exec (.restart r) s = .next { u with startUp := { u.startUp with cause := .restart } })
    ∧ ∀ (r : Request) (s : State), r.length ≠ 0 → exec (.restart r) s = .next (s.emit (soleReply 0x03 r.tag 0x02 []))

/-- The state after a power-up meets every invariant of the part. -/
def Obligations.InvariantsHoldAtReset : Prop :=
  State.reset.AtRest ∧ State.reset.Homed ∧ State.reset.TableAgrees ∧ State.reset.NoticesAgree
    ∧ (∀ k, (State.reset.term k).InRange) ∧ (∀ j, (State.reset.sec j).InRange) ∧ State.reset.MembersAgree
    ∧ State.reset.HoldsAgree ∧ State.reset.RungsOnLadder

/-- The start-up check. It ends the test of the first region it has not tested: the region's progress bit is set, and a failing
word sets its failure bit and becomes the first failure of the check if there was none; the memory it writes holds 0x0000
afterwards, which is what every block held. A failing word of region 10 or 11 is one of its 48 words (10-4). When regions 0 to 11 are tested and region 12 just has been, the check ends: passed,
the mode, and one NOTICE frame with the READY item, written out byte by byte (R33, R79, R161, R162, R164). -/
def Obligations.StartUpCheckRecordsItsRegions : Prop :=
  (∀ (failing : Option WordRead) (k : Nat) (s : State), s.AtRest → s.mode = .starting → k < 12 →
    (∀ i, i < k → s.startUp.progress.getLsbD i = true) → s.startUp.progress.getLsbD k = false →
    (Instr.regionTestEnd failing).wellFormed = true →
    (∀ w, failing = some w → k = 10 ∨ k = 11 → w.offset.toNat < 48) →
    exec (.regionTestEnd failing) s = .next
      { s with startUp :=
        { s.startUp with
          progress := s.startUp.progress ||| BitVec.twoPow 16 k
          failure := if failing.isSome then s.startUp.failure ||| BitVec.twoPow 16 k else s.startUp.failure
          firstFailure := match failing with
            | none => s.startUp.firstFailure
            | some w => some (s.startUp.firstFailure.getD
                { region := k, offset := w.offset, expected := patternWord w.pattern, value := w.value }) } })
    ∧ ∀ (failing : Option WordRead) (s : State), s.AtRest → s.mode = .starting → s.startUp.progress = 0x0FFF →
      (Instr.startupCheckEnd failing).wellFormed = true →
      ∀ (word : BitVec 16),
        word = (if failing.isSome then s.startUp.failure ||| 0x1000 else s.startUp.failure) →
        exec (.startupCheckEnd failing) s = .next
          { s with
            mode := if word = 0 then .running else .bypass
            startUp :=
              { progress := 0x1FFF
                failure := word
                firstFailure := match failing with
                  | none => s.startUp.firstFailure
                  | some w => some (s.startUp.firstFailure.getD
                      { region := 12, offset := w.offset, expected := patternWord w.pattern, value := w.value })
                passed := some (word == 0)
                cause := s.startUp.cause }
            controllerOut := s.controllerOut ++
              [[0x93, 0x04, 0xFF, 0x00, 0x00, 0x01] ++ [0x03] ++ bytes16 0x1FFF ++ bytes16 word
                ++ [if word = 0 then 1 else 0, causeCode s.startUp.cause] ++ [0x31, 0x40, 0x01]] }

/-! ## Requests: the common checks and the management unit -/

/-- ECHO is served in every mode: its reply is OK with its parameter bytes, and nothing else changes (R157). -/
def Obligations.EchoReturnsItsBytes : Prop :=
  ∀ (r : Request) (s : State), r.length.toNat ≤ 64 → r.length.toNat ≤ r.bytes.length →
    exec (.echo r) s = .next (s.emit (soleReply 0x01 r.tag 0x00 (r.bytes.take r.length.toNat)))

/-- READ STARTUP is served in every mode: its reply shows the mode and the start-up record, and nothing else changes
(R165, 11-4). -/
def Obligations.ReadStartupShowsTheRecord : Prop :=
  ∀ (r : Request) (s : State), r.length = 0 →
    exec (.readStartup r) s = .next (s.emit (soleReply 0x02 r.tag 0x00
      ([(match s.mode with
          | .starting => 0
          | .running => 1
          | .bypass => 2 : Byte)]
        ++ bytes16 s.startUp.progress ++ bytes16 s.startUp.failure
        ++ (match s.startUp.firstFailure with
            | none => ([0, 0, 0, 0, 0, 0, 0, 0] : List Byte)
            | some f => [1, byteOf f.region] ++ bytes16 f.offset ++ bytes16 f.expected ++ bytes16 f.value)
        ++ (match s.startUp.passed with
            | none => ([0, 0] : List Byte)
            | some false => [1, 0]
            | some true => [1, 1])
        ++ [(match s.startUp.cause with
            | .power => 1
            | .line => 2
            | .restart => 3 : Byte)]
        ++ [0x31, 0x40, 0x01])))

/-- The common checks, in their order: a request the mode does not serve is answered STARTING or BYPASSED, an unknown function
code UNKNOWN_FUNCTION in RUNNING mode only, and a wrong, too long or unheld parameter length BAD_LENGTH; nothing else
changes (R154, R159). -/
def Obligations.CommonChecksRefuse : Prop :=
  (∀ (f : RequestKind) (r : Request) (s : State), s.mode = .starting → f ≠ .echo → f ≠ .readStartup → f ≠ .restart →
    exec (commandOf f r) s = .next (s.emit (soleReply (functionCode f) r.tag 0x09 [])))
    ∧ (∀ (f : RequestKind) (r : Request) (s : State), s.mode = .bypass → f ≠ .echo → f ≠ .readStartup → f ≠ .restart →
      f ≠ .readFaultLatch → exec (commandOf f r) s = .next (s.emit (soleReply (functionCode f) r.tag 0x0A [])))
    ∧ (∀ (f : RequestKind) (r : Request) (s : State),
      (s.mode = .running ∨ f = .echo ∨ f = .readStartup ∨ f = .restart ∨ (s.mode = .bypass ∧ f = .readFaultLatch)) →
      (64 < r.length.toNat ∨ r.bytes.length < r.length.toNat ∨ takesLength f r.length.toNat = false) →
      exec (commandOf f r) s = .next (s.emit (soleReply (functionCode f) r.tag 0x02 [])))
    ∧ ∀ (code : Byte) (r : Request) (s : State), code ∉ knownCodes →
      exec (.unknownFunction code r) s = .next (s.emit (soleReply code r.tag
        (match s.mode with
          | .running => 0x01
          | .starting => 0x09
          | .bypass => 0x0A) []))

/-! ## Downstream frames -/

/-- A MGMT frame is consumed in every mode and its request taken; one too short for the management header does nothing (R1,
R152). That the arrival of the frame and the taking of its request are one step is the model's reading (log entry 3). -/
def Obligations.MgmtFrameTakesItsRequest : Prop :=
  (∀ (f : RequestKind) (sector hi lo : Byte) (tag : BitVec 16) (len : Byte) (bytes : List Byte) (s : State),
    exec (.downstreamFrame ([0x6C, 0x02, sector, hi, lo, functionCode f] ++ bytes16 tag ++ [len] ++ bytes)) s
      = exec (commandOf f { tag := tag, length := len, bytes := bytes }) s)
    ∧ (∀ (code sector hi lo : Byte) (tag : BitVec 16) (len : Byte) (bytes : List Byte) (s : State), code ∉ knownCodes →
      exec (.downstreamFrame ([0x6C, 0x02, sector, hi, lo, code] ++ bytes16 tag ++ [len] ++ bytes)) s
        = exec (.unknownFunction code { tag := tag, length := len, bytes := bytes }) s)
    ∧ ∀ (rest : List Byte) (s : State), rest.length < 7 → exec (.downstreamFrame (0x6C :: 0x02 :: rest)) s = .next s

/-- Where a downstream frame goes that is not MGMT. One that is not offered to a sector is forwarded untouched behind the frames that
arrived before it and changes nothing else. A sector frame offered to its sector makes the sector's reactions due, waits for its
control slots to be filled, and changes nothing else (R1, R2, R4, R44). The marks of what is due are the model's own (log entries 4
and 23). -/
def Obligations.DownstreamFramesGoTheirWay : Prop :=
  (∀ (fr : Frame) (s : State), (∀ rest, fr ≠ 0x6C :: 0x02 :: rest) →
    (∀ j : Sector, s.mode = .running → (s.sec j).InService → 70 ≤ fr.length → ∀ rest, fr ≠ 0x6C :: 0x01 :: byteOf j.val :: rest) →
    (s.transit = [] → exec (.downstreamFrame fr) s = .next { s with radioOut := s.radioOut ++ [fr] })
      ∧ ∀ x xs, s.transit = x :: xs → x.fill ≠ none →
        exec (.downstreamFrame fr) s = .next { s with transit := s.transit ++ [{ frame := fr, fill := none }] })
    ∧ ∀ (fr : Frame) (j : Sector) (rest : List Byte) (s : State), fr = 0x6C :: 0x01 :: byteOf j.val :: rest → 70 ≤ fr.length →
      s.mode = .running → (s.sec j).InService → s.HeadWaits →
      exec (.downstreamFrame fr) s = .next
        { s.setSec j
            { s.sec j with
              controllerDue := (s.sec j).controllerDue + 1
              schedulerDue := (s.sec j).schedulerDue + 1
              maturityDue := (s.sec j).maturityDue ++
                ((s.slotsOf j).filter fun k => (s.term k).matures (frameNumber fr)).map fun k => (frameNumber fr, k) } with
          transit := s.transit ++ [{ frame := fr, fill := some j }] }

/-! ## The reactions to an offered sector frame -/

/-- A sector frame that brings nothing else counts: in CLEAR and BLIND the blind counter only, in OUTAGE also the probe timer
and the progress counter, and a count above progress_interval offers the sector and returns to 0 (R44, R49, R55, R56,
R62); for RECOVERING see `ReleaseWalkMovesABatch`. That PROGRESS_NOTICE takes the whole due reaction, as SECTOR_FRAME_REACTION
does, is the model's reading, and the marks of what is due are its own (log entries 4 and 5). -/
def Obligations.SectorFrameCounts : Prop :=
  ∀ (j : Sector) (s : State) (r : SectorRec) (n : Nat), s.sec j = r → n = min (r.blindCounter + 1) 64 → 0 < r.controllerDue →
    ((r.state = .clear ∧ n < r.config.blindLimit ∨ r.state = .blind) →
      exec (.sectorFrameReaction j) s = .next (s.setSec j { r with controllerDue := r.controllerDue - 1, blindCounter := n }))
    ∧ (r.state = .outage → n < r.config.blindLimit → 2 ≤ r.probeTimer → r.progressCounter < r.config.progressInterval →
      exec (.sectorFrameReaction j) s = .next (s.setSec j
        { r with
          controllerDue := r.controllerDue - 1
          blindCounter := n
          probeTimer := r.probeTimer - 1
          progressCounter := r.progressCounter + 1 }))
    ∧ (r.state = .outage → n < r.config.blindLimit → 2 ≤ r.probeTimer → r.config.progressInterval ≤ r.progressCounter →
      exec (.progressNotice j) s = .next (State.offerSector (s.setSec j
        { r with
          controllerDue := r.controllerDue - 1
          blindCounter := n
          probeTimer := r.probeTimer - 1
          progressCounter := 0 }) j)
      ∧ exec (.sectorFrameReaction j) s = exec (.progressNotice j) s)

/-- The frame at which the blind counter reaches blind_limit sends a working sector to BLIND: the prior state keeps the state,
the last evaluated frame number becomes absent, the progress counter is 0, and the sector is offered; every other field is kept
(R44, R55, R62). That BLIND_ENTRY is the sector controller's whole due reaction, and that the progress counter returns to 0 at this
change of state, are the model's readings; the marks of what is due are its own (log entries 4, 5 and 13). -/
def Obligations.BlindEntryKeepsTheWork : Prop :=
  ∀ (j : Sector) (s : State) (r : SectorRec) (w : WorkState) (n : Nat), s.sec j = r → n = min (r.blindCounter + 1) 64 →
    0 < r.controllerDue → r.state = w.toSector → r.config.blindLimit ≤ n →
    exec (.blindEntry j) s = .next (State.offerSector (s.setSec j
      { r with
        controllerDue := r.controllerDue - 1
        blindCounter := n
        state := .blind
        prior := some w
        progressCounter := 0
        lastEvaluated := none }) j)
    ∧ exec (.sectorFrameReaction j) s = exec (.blindEntry j) s

/-- A probe, at the frame where the probe timer reaches 0: a QUIET lead joins the window as RANGING with a fresh start and is
offered, a lead still RANGING is left where it is, and the timer is reloaded; the progress counter counts on, and where it passes
progress_interval the same reaction offers the sector and returns it to 0 (R44, R49, R62, R76). That PROBE takes the whole due
reaction, as SECTOR_FRAME_REACTION does, is the model's reading, and the marks of what is due are its own (log entries 4 and
5). -/
def Obligations.ProbeAdmitsTheLead : Prop :=
  ∀ (j : Sector) (k : Slot) (s : State) (r : SectorRec) (n progress : Nat) (item : State → State), s.sec j = r →
    n = min (r.blindCounter + 1) 64 → 0 < r.controllerDue → r.state = .outage → n < r.config.blindLimit → r.probeTimer = 1 →
    r.lead = some k → progress = (if r.config.progressInterval ≤ r.progressCounter then 0 else r.progressCounter + 1) →
    (∀ u, item u = if r.config.progressInterval ≤ r.progressCounter then u.offerSector j else u) →
    ((s.term k).state = .quiet →
      exec (.probe j) s = .next (item (State.offerTerminal ((s.setSec j
        { r with
          controllerDue := r.controllerDue - 1
          blindCounter := n
          probeTimer := r.config.probeInterval
          progressCounter := progress
          window := r.window ++ [k] }).setTerm k
        { s.term k with
          state := .ranging, filtered := none, history := [], roundCount := 0, expectedBurst := none }) k)))
    ∧ ((s.term k).state = .ranging →
      exec (.probe j) s = .next (item (s.setSec j
        { r with
          controllerDue := r.controllerDue - 1
          blindCounter := n
          probeTimer := r.config.probeInterval
          progressCounter := progress })))
    ∧ exec (.sectorFrameReaction j) s = exec (.probe j) s

/-- One step of the release walk, in the reaction of a RECOVERING sector: of its slots at or above the cursor, in slot order, the
first release_batch QUIET terminals become WAITING with attempt count 0. The cursor moves to the sector's next slot above the last
one moved; where none is left the walk ends, the cursor becomes absent and the sector enters CLEAR. With release_batch 0 nothing
moves, and the cursor stays while the sector has a slot at or above it. The progress counter counts on while the sector stays
RECOVERING, and past progress_interval it returns to 0 and the sector is offered (R44, R53, R54, R55, R62). That PROGRESS_NOTICE is
the whole due reaction of such a frame is the model's reading, and the marks of what is due are its own (log entries 4 and 5). -/
def Obligations.ReleaseWalkMovesABatch : Prop :=
  ∀ (j : Sector) (s : State) (r : SectorRec) (c : Slot) (n batch : Nat) (ahead moved : List Slot) (next : Option Slot),
    s.sec j = r → 0 < r.controllerDue → r.state = .recovering → n = min (r.blindCounter + 1) 64 → n < r.config.blindLimit →
    r.releaseCursor = some c → batch = r.config.releaseBatch →
    ahead = (List.finRange 320).filter (fun k => s.belongs j k && decide (c ≤ k)) →
    moved = (ahead.filter fun k => (s.term k).state == .quiet).take batch →
    (batch = 0 → next = if ahead = [] then none else some c) →
    (batch ≠ 0 → next = if moved.length < batch then none else (ahead.filter fun k => moved.all fun m => decide (m < k)).head?) →
    ∃ t, exec (.sectorFrameReaction j) s = .next t
      ∧ s.SameAround t ∧ t.controllerOut = s.controllerOut
      ∧ (∀ i, i ≠ j → t.sec i = s.sec i)
      ∧ (∀ k, k ∉ moved → t.term k = s.term k)
      ∧ (∀ k, k ∈ moved →
          t.term k = Terminal.offered s.notices k { s.term k with state := .waiting, attemptCount := 0 }
            ∧ k ∈ (t.sec j).queue ∧ .terminal k ∈ t.notices)
      ∧ t.sec j =
          { r with
            controllerDue := r.controllerDue - 1
            blindCounter := n
            state := if next = none then .clear else .recovering
            releaseCursor := next
            queue := (t.sec j).queue
            progressCounter :=
              if next = none ∨ r.config.progressInterval ≤ r.progressCounter then 0 else r.progressCounter + 1 }
      ∧ (t.sec j).queue.Perm (r.queue ++ moved)
      ∧ (next = none ∨ r.config.progressInterval ≤ r.progressCounter → .sector j ∈ t.notices)
      ∧ (next ≠ none → r.config.progressInterval ≤ r.progressCounter → exec (.progressNotice j) s = .next t)

/-- Admission takes the heads of the queue into the window until it holds window_size members, each as RANGING with a fresh
start, in CLEAR and RECOVERING (R76, R109, R110, R111). -/
def Obligations.AdmissionFillsTheWindow : Prop :=
  ∀ (j : Sector) (s : State) (r : SectorRec) (taken : List Slot), s.MembersAgree → s.NoticesAgree → s.sec j = r →
    0 < r.schedulerDue → r.state = .clear ∨ r.state = .recovering → (∀ k, s.belongs j k = true → (s.term k).state ≠ .deferred) →
    taken = r.queue.take (r.config.windowSize - r.window.length) →
    ∃ t, exec (.reEntrySchedulerReaction j) s = .next t
      ∧ s.SameAround t ∧ t.controllerOut = s.controllerOut
      ∧ (∀ i, i ≠ j → t.sec i = s.sec i)
      ∧ t.sec j =
          { r with
            schedulerDue := r.schedulerDue - 1
            queue := r.queue.drop (r.config.windowSize - r.window.length)
            window := r.window ++ taken }
      ∧ (∀ k, k ∉ taken → t.term k = s.term k)
      ∧ (∀ k, k ∈ taken → t.term k =
          { s.term k with
            state := .ranging, filtered := none, history := [], roundCount := 0, expectedBurst := none
            noticePending := true })
      ∧ t.notices = s.notices ++ (taken.filter fun k => decide (.terminal k ∉ s.notices)).map .terminal

/-- The backoff count: at a frame without admissions every DEFERRED terminal of a working sector counts down by 1, and one
whose count reaches 0 becomes WAITING and joins the queue (R110, R112). That BACKOFF_EXPIRY takes the whole due reaction of the scheduler, as
RE_ENTRY_SCHEDULER_REACTION does, is the model's reading, and the marks of what is due are its own (log entries 4 and 5). -/
def Obligations.BackoffsCountDown : Prop :=
  ∀ (j : Sector) (k : Slot) (s : State), 0 < (s.sec j).schedulerDue →
    (s.sec j).state = .outage
      ∨ ((s.sec j).state = .clear ∨ (s.sec j).state = .recovering) ∧ (s.sec j).config.windowSize ≤ (s.sec j).window.length →
    s.belongs j k = true → (s.term k).state = .deferred → (s.term k).backoff = 1 →
    ∃ t, exec (.backoffExpiry k) s = .next t ∧ exec (.reEntrySchedulerReaction j) s = .next t
      ∧ s.SameAround t ∧ t.controllerOut = s.controllerOut
      ∧ (∀ i, i ≠ j → t.sec i = s.sec i)
      ∧ (t.sec j).window = (s.sec j).window ∧ (t.sec j).state = (s.sec j).state
      ∧ ∀ k', if s.belongs j k' = true ∧ (s.term k').state = .deferred then
          (2 ≤ (s.term k').backoff → t.term k' = { s.term k' with backoff := (s.term k').backoff - 1 })
            ∧ ((s.term k').backoff = 1 →
                t.term k' = Terminal.offered s.notices k' { s.term k' with state := .waiting, backoff := 0 }
                  ∧ k' ∈ (t.sec j).queue ∧ .terminal k' ∈ t.notices)
        else t.term k' = s.term k'

/-- An announced shift that a frame finds due matures: the rung takes the target, at most the active top rung, the shift and
the climb dwell are cleared, and a changed rung offers the terminal; a CLIMBING terminal that has reached its goal enters
IN_SERVICE without its restore rung. The goal is bounded by degraded_cap while DEGRADED is set, and after its clearing until the
next report, which the model's `capKept` remembers (R31, R37, R89, R98, R102, R104). -/
def Obligations.ShiftMatures : Prop :=
  ∀ (j : Sector) (k : Slot) (n e : FrameNo) (p : Nat) (due : List (FrameNo × Slot)) (b : LadderBank) (s : State) (u : State),
    (s.sec j).maturityDue = (n, k) :: due → (s.sec j).InService → s.belongs j k = true →
    (s.term k).pendingShift = some { target := p, effective := some e } → ¬ (65521 ≤ (n - e).toNat) → s.activeBank = some b →
    u = (s.setSec j { s.sec j with maturityDue := due }).setTerm k
      { s.term k with rung := min p b.top, pendingShift := none, climbDwell := 0 } →
    ((s.term k).state ≠ .climbing →
      exec (.shiftMaturity j k) s = .next (if min p b.top = (s.term k).rung then u else u.offerTerminal k))
    ∧ (∀ goal restore, (s.term k).state = .climbing → (s.term k).restoreRung = some restore →
      goal = min (min (min (s.term k).maxRung b.top) (if (s.term k).sticky.degraded = true ∨ (s.term k).capKept = true
          then (s.sec j).config.degradedCap else b.top))
        restore →
      (min p b.top < goal →
        exec (.shiftMaturity j k) s = .next (if min p b.top = (s.term k).rung then u else u.offerTerminal k))
      ∧ (goal ≤ min p b.top → (s.term k).missRun = 0 → (s.term k).floorRun = 0 →
        exec (.shiftMaturity j k) s = .next (State.offerTerminal (u.setTerm k
          { u.term k with state := .inService, restoreRung := none }) k)))

/-- The filling of a frame with `c` free slots. Unless the sector is BLIND, each RANGING member of the window without an expected
burst frame is granted, in admission order, while slots remain; the `m` slots that remain take entries from the front of the
control queue, each with the bytes and the writes of its kind, and the messages stand in the first free positions. Where nothing
is owed the queue leaves as it stands. Where a message is owed, the first departure has the lowest slot that owes one take it back:
CORRECT, VERIFY, SHIFT of class B, POWER, SHIFT of class D, at the tail of its class, where the same filling may still reach it,
and the mark is cleared; this is stated for one departure whatever else is owed, and for several where nothing else is
(R113, R127, R144, R146, R147, R149, R150, R172). -/
def Obligations.FillingGrantsAndInserts : Prop :=
  ∀ (j : Sector) (fr : Frame) (rest : List Transit) (s : State) (c m : Nat) (n : FrameNo) (granted : List Slot)
    (line : List ControlEntry) (owed : Slot → OwedKinds) (out : List (Slot × MsgKind)) (message : ControlEntry → List Byte)
    (messages : List (List Byte)),
    s.transit = { frame := fr, fill := some j } :: rest → (∀ x, rest.head? = some x → x.fill ≠ none) →
    (s.sec j).InService → c = min (byteAt fr 5).toNat 8 → n = word16 fr 3 →
    granted = (if (s.sec j).state = .blind then []
      else ((s.sec j).window.filter fun k => (s.term k).state = .ranging ∧ (s.term k).expectedBurst = none).take c) →
    m = c - granted.length →
    (line = (s.sec j).controlQueue ∧ (∀ k, owed k = (s.term k).owed) ∧ (m = 0 ∨ ∀ i, s.belongs j i = true → owed i = {})
      ∨ ∃ (x : ControlEntry) (front back : List ControlEntry) (i : Slot) (kind : MsgKind) (cls : MsgClass),
        (s.sec j).controlQueue = x :: (front ++ back) ∧ (s.sec j).controlQueue.length ≤ 48 ∧ 1 ≤ m
        ∧ s.belongs j i = true ∧ (s.term i).owed ≠ {} ∧ (∀ l, l < i → s.belongs j l = true → (s.term l).owed = {})
        ∧ (kind, cls) = (if (s.term i).owed.correct then (.correct, .a)
          else if (s.term i).owed.verify then (.verify, .a)
          else if (s.term i).owed.shift ∧ ∃ p, (s.term i).pendingShift = some p ∧ p.target < (s.term i).rung then (.shift, .b)
          else if (s.term i).owed.power then (.power, .c)
          else (.shift, .d))
        ∧ (∀ e ∈ front ++ back, ¬(e.slot = i ∧ e.kind = kind))
        ∧ (∀ e ∈ front, e.cls.rank ≤ cls.rank) ∧ (∀ e ∈ back, cls.rank < e.cls.rank)
        ∧ line = x :: (front ++ { slot := i, kind := kind, cls := cls } :: back)
        ∧ (∀ k, owed k = if k = i
          then { correct := (s.term k).owed.correct && kind ≠ .correct, verify := (s.term k).owed.verify && kind ≠ .verify
                 power := (s.term k).owed.power && kind ≠ .power, shift := (s.term k).owed.shift && kind ≠ .shift }
          else (s.term k).owed)
        ∧ (m = 1 ∨ ∀ k, s.belongs j k = true → owed k = {})) →
    out = (line.take m).map (fun e => (e.slot, e.kind)) → out.Nodup →
    (∀ e ∈ line.take m, match e.kind with
      | .correct =>
        message e = [0x02] ++ bytes16 ((s.term e.slot).linkAddress.setWidth 16)
          ++ [signedByte ((s.term e.slot).pendingAdjust.getD 0), signedByte (s.term e.slot).power, 0, 0, 0]
      | .verify =>
        message e = [0x03] ++ bytes16 ((s.term e.slot).linkAddress.setWidth 16)
          ++ [byteOf ((37 * e.slot.val + 11 * (s.term e.slot).attemptCount + n.toNat % 256) % 256),
            byteOf (s.sec j).config.verifyBlocks, byteOf (s.sec j).config.grantLead, 0, 0]
      | .power =>
        message e = [0x04] ++ bytes16 ((s.term e.slot).linkAddress.setWidth 16)
          ++ [signedByte (s.term e.slot).power, 0, 0, 0, 0]
      | .shift =>
        ∃ b p, s.activeBank = some b ∧ (s.term e.slot).pendingShift = some p
          ∧ message e = [0x05] ++ bytes16 ((s.term e.slot).linkAddress.setWidth 16) ++ [b.code p.target]
            ++ bytes16 (n + BitVec.ofNat 16 (s.sec j).config.shiftDelay) ++ [0, 0]) →
    messages = granted.map (fun k => [0x01] ++ bytes16 ((s.term k).linkAddress.setWidth 16)
      ++ [0x02, byteOf (s.sec j).config.grantLead, 0, 0, 0]) ++ (line.take m).map message →
    exec (.slotFilling j) s = .next
      { s.setSec j { s.sec j with controlQueue := line.drop m } with
        terminals := Vector.ofFn fun k =>
          { s.term k with
            expectedBurst := if k ∈ granted ∨ (k, .verify) ∈ out then some (n + BitVec.ofNat 16 (s.sec j).config.grantLead)
              else (s.term k).expectedBurst
            pendingAdjust := if (k, .correct) ∈ out then none else (s.term k).pendingAdjust
            verification := if (k, .verify) ∈ out
              then { started := true, completed := false, outcome := .none, startFrame := n, failedBlocks := 0, firstFault := none }
              else (s.term k).verification
            pendingShift := if (k, .shift) ∈ out
              then (s.term k).pendingShift.map fun p =>
                { p with effective := some (n + BitVec.ofNat 16 (s.sec j).config.shiftDelay) }
              else (s.term k).pendingShift
            owed := owed k }
        transit := rest
        radioOut := s.radioOut
          ++ [fr.take (70 - 8 * c) ++ messages.flatten ++ fr.drop (70 - 8 * c + 8 * messages.length)] }

/-! ## Upstream frames, intake and notices -/

/-- After a forwarded upstream frame the notice queue is checked: if it is not empty, one NOTICE frame carries the up to 8 items
at its head, in queue order, directly behind the forwarded frame; those items leave, each terminal named has its notice pending
made no, and nothing else of a terminal changes. The items are written out byte by byte, from the records as they then stand
(R3, R168, R169). Both orders of the check and the frame's own offers are stated: the only offer of intake is that of a sector
whose BLIND state the frame ends; with the check first its item waits, with the offer first it joins and may leave in this
NOTICE frame, showing the prior state. That the operand gives this order is log entry 11, and that no step of the frame's own
evaluation comes in between is the model's choice (log entry 29). -/
def Obligations.NoticesFollowForwardedFrames : Prop :=
  ∀ (fr : Frame) (first : Bool) (s : State) (queue : List NoticeItem) (shown : Sector → SectorState)
    (item : NoticeItem → List Byte) (returns : Sector → WorkState → Prop),
    (∀ j w, returns j w ↔ s.mode = .running ∧ UpstreamOf fr j ∧ layoutFault fr = none ∧ (s.sec j).state = .blind
      ∧ (s.sec j).prior = some w) →
    (queue = s.notices ∧ (∀ i, shown i = (s.sec i).state)
        ∧ (first = true ∨ (∀ j, (s.sec j).state = .blind → (s.sec j).prior ≠ none) ∧ ∀ j w, ¬returns j w)
      ∨ ∃ j w, first = false ∧ returns j w ∧ (∀ i, shown i = if i = j then w.toSector else (s.sec i).state)
        ∧ queue = if .sector j ∈ s.notices then s.notices else s.notices ++ [.sector j]) →
    (∀ k, item (.terminal k) =
      [0x01] ++ bytesOf16 k.val
        ++ [byteOf ([TermState.empty, .held, .inService, .fading, .quiet, .waiting, .deferred, .ranging, .verifying, .ramping,
            .climbing].idxOf (s.term k).state), byteOf (s.term k).rung]
        ++ (match s.activeBank with
          | none => [0x00, 0x00]
          | some b => [0x01, b.code (s.term k).rung])
        ++ [signedByte (s.term k).power,
          byteOf ((if (s.term k).sticky.ceiling then 1 else 0) + (if (s.term k).sticky.degraded then 2 else 0)
            + (if (s.term k).sticky.rampUnsettled then 4 else 0) + (if (s.term k).sticky.exhausted then 8 else 0)
            + (if (s.term k).sticky.onsetDrop then 16 else 0))]) →
    (∀ j, item (.sector j) =
      [0x02, byteOf j.val,
        byteOf ([SectorState.disabled, .clear, .outage, .recovering, .blind, .suspended].idxOf (shown j))]
      ++ [[TermState.inService, .fading, .ramping, .climbing], [.quiet], [.waiting, .deferred], [.ranging, .verifying],
          [.held]].map fun states =>
        byteOf ((List.finRange 320).countP fun k => (s.term k).sector = j ∧ (s.term k).state ∈ states)) →
    ∃ t, exec (.upstreamFrame fr first) s = .next t
      ∧ t.controllerOut = s.controllerOut ++ [fr] ++
          (if queue = [] then []
            else [[0x93, 0x04, 0xFF, 0x00, 0x00, byteOf (min queue.length 8)] ++ ((queue.take 8).map item).flatten])
      ∧ queue.drop 8 <+: t.notices ∧ (first = false → t.notices = queue.drop 8)
      ∧ (∀ k, t.term k = if .terminal k ∈ queue.take 8 then { s.term k with noticePending := false } else s.term k)
      ∧ t.mode = s.mode ∧ t.startUp = s.startUp ∧ t.transit = s.transit ∧ t.radioOut = s.radioOut ∧ t.pending = s.pending

/-- Checks 3 and 4 of intake, in their order: a burst count above 96 is COUNT without an index; else the first descriptor that
does not fit with its payload is COUNT with its index; else the first descriptor of a wrong payload length is LENGTH with its
index; else the frame passes both (R6). That a payload of no bytes fits
wherever it would begin is the model's reading (log entry 12). -/
def Obligations.LayoutChecksFindTheFirstFault : Prop :=
  ∀ (fr : Frame) (n : Nat), n = (byteAt fr 5).toNat →
    (96 < n → layoutFault fr = some (.count, none))
    ∧ (n ≤ 96 → ∀ i, i < n → (∀ m, m < i → DescriptorFits fr m) → ¬DescriptorFits fr i →
        layoutFault fr = some (.count, some i))
    ∧ (n ≤ 96 → (∀ m, m < n → DescriptorFits fr m) →
        (∀ i, i < n → (∀ m, m < i → DescriptorRight fr m) → ¬DescriptorRight fr i → layoutFault fr = some (.length, some i))
        ∧ ((∀ m, m < n → DescriptorRight fr m) → layoutFault fr = none))

/-- An upstream frame that fails a check offers its fault to the latch: an EMPTY latch locks with the kind, the sector byte and
the frame number of the header and the burst index, a LOCKED one is unchanged; a frame outside RUNNING mode or of a DISABLED or
SUSPENDED sector is not checked. Either way the frame is forwarded, and nothing else changes (R1, R5, R6, R7, R9). -/
def Obligations.FaultsLockTheLatch : Prop :=
  ∀ (fr : Frame) (b : Bool) (s : State) (locked : FaultKind → Option Nat → State), s.notices = [] →
    (∀ kind i, locked kind i =
      { s with
        controllerOut := s.controllerOut ++ [fr]
        latch := some (s.latch.getD { kind := kind, sector := byteAt fr 2, frame := frameNumber fr, burst := i }) }) →
    (s.mode ≠ .running → exec (.upstreamFrame fr b) s = .next { s with controllerOut := s.controllerOut ++ [fr] })
    ∧ (s.mode = .running → fr.length < 6 ∨ byteAt fr 0 ≠ 0x93 ∨ byteAt fr 1 ≠ 0x01 →
        exec (.upstreamFrame fr b) s = .next (locked .marker none))
    ∧ (s.mode = .running → 6 ≤ fr.length → byteAt fr 0 = 0x93 → byteAt fr 1 = 0x01 → 12 ≤ (byteAt fr 2).toNat →
        exec (.upstreamFrame fr b) s = .next (locked .sector none))
    ∧ ∀ j : Sector, s.mode = .running → UpstreamOf fr j →
      (¬(s.sec j).InService → exec (.upstreamFrame fr b) s = .next { s with controllerOut := s.controllerOut ++ [fr] })
      ∧ (∀ kind i, (s.sec j).InService → layoutFault fr = some (kind, i) →
          exec (.upstreamFrame fr b) s = .next (locked kind i))
      ∧ (∀ n : FrameNo, (s.sec j).InService → (s.sec j).state ≠ .blind → layoutFault fr = none →
          ((∃ w, (s.sec j).waitingBank = some w ∧ n = w.number)
            ∨ (s.sec j).waitingBank = none ∧ ((∃ e, (s.sec j).evaluation = some e ∧ n = e.frame.number)
              ∨ (s.sec j).evaluation = none ∧ (s.sec j).lastEvaluated = some n)) →
          (frameNumber fr - n).toNat = 0 ∨ 32768 ≤ (frameNumber fr - n).toNat →
          exec (.upstreamFrame fr b) s = .next (locked .stale none))

/-- A frame that passes intake returns the blind counter to 0 and reaches the banks: with no evaluation in flight its evaluation
begins and takes a hold on the active ladder bank, behind one in flight it waits; a gap offers SEQUENCE; and in BLIND it returns
the sector to its prior state and offers it, whether an evaluation is in flight or not (R6, R7, R9, R10, R13, R56). The operand is
the one by which the notice check comes before the frame's own offers, so the sector's item waits in the queue. That order, the
first bank A, and the progress counter's return to 0 with the change of state are the model's (log entries 9, 11 and 13). -/
def Obligations.PassingFrameIsTaken : Prop :=
  ∀ (fr : Frame) (j : Sector) (i : Fin 2) (s : State) (r : SectorRec) (d : Nat) (latch : Option FaultRecord),
    s.mode = .running → s.notices = [] → UpstreamOf fr j → layoutFault fr = none → s.sec j = r → r.waitingBank = none →
    s.ladder.active = some i →
    latch = (if 2 ≤ d then
      some (s.latch.getD { kind := .sequence, sector := byteOf j.val, frame := frameNumber fr, burst := none }) else s.latch) →
    (r.InService → r.state ≠ .blind → r.evaluation = none →
      (r.lastEvaluated = none ∧ d = 0
        ∨ ∃ n, r.lastEvaluated = some n ∧ d = (frameNumber fr - n).toNat ∧ 1 ≤ d ∧ d ≤ 32767) →
      exec (.upstreamFrame fr true) s = .next
        { (s.modBank i fun b => { b with holds := b.holds + 1 }).setSec j
            { r with blindCounter := 0, evaluation := some { bank := .a, frame := bankedFrame fr, held := i } } with
          controllerOut := s.controllerOut ++ [fr]
          latch := latch })
    ∧ (∀ e, r.InService → r.state ≠ .blind → r.evaluation = some e → d = (frameNumber fr - e.frame.number).toNat →
        1 ≤ d → d ≤ 32767 →
        exec (.upstreamFrame fr true) s = .next
          { s.setSec j { r with blindCounter := 0, waitingBank := some (bankedFrame fr) } with
            controllerOut := s.controllerOut ++ [fr]
            latch := latch })
    ∧ (∀ w : WorkState, r.state = .blind → r.prior = some w → r.evaluation = none →
        exec (.upstreamFrame fr true) s = .next
          { (s.modBank i fun b => { b with holds := b.holds + 1 }).setSec j
              { r with
                state := w.toSector, prior := none, blindCounter := 0, progressCounter := 0
                evaluation := some { bank := .a, frame := bankedFrame fr, held := i } } with
            controllerOut := s.controllerOut ++ [fr]
            notices := [.sector j] })
    ∧ (∀ (w : WorkState) (e : Evaluation), r.state = .blind → r.prior = some w → r.evaluation = some e →
        exec (.upstreamFrame fr true) s = .next
          { s.setSec j
              { r with
                state := w.toSector, prior := none, blindCounter := 0, progressCounter := 0
                waitingBank := some (bankedFrame fr) } with
            controllerOut := s.controllerOut ++ [fr]
            notices := [.sector j] })

/-- A frame that passes intake while both banks are occupied is overrun: OVERRUN is offered to the latch, behind the SEQUENCE of
a gap, the blind counter returns to 0 and BLIND ends as for any passing frame, and the banks stay as they are (R11). The operand is
the one by which the notice check comes before the frame's own offers; that order and the progress counter's return to 0 at the
end of BLIND are the model's (log entries 11 and 13). -/
def Obligations.OverrunLeavesTheBanks : Prop :=
  ∀ (fr : Frame) (j : Sector) (s : State) (r : SectorRec) (e : Evaluation) (w : BankedFrame) (d : Nat), s.mode = .running →
    s.notices = [] → UpstreamOf fr j → layoutFault fr = none → s.sec j = r → r.evaluation = some e → r.waitingBank = some w →
    d = (frameNumber fr - w.number).toNat →
    (r.InService → r.state ≠ .blind → 1 ≤ d → d ≤ 32767 →
      exec (.upstreamFrame fr true) s = .next
        { s.setSec j { r with blindCounter := 0 } with
          controllerOut := s.controllerOut ++ [fr]
          latch := some (s.latch.getD
            { kind := if 2 ≤ d then .sequence else .overrun, sector := byteOf j.val, frame := frameNumber fr,
              burst := none }) })
    ∧ (∀ p : WorkState, r.state = .blind → r.prior = some p →
      exec (.upstreamFrame fr true) s = .next
        { s.setSec j { r with state := p.toSector, prior := none, blindCounter := 0, progressCounter := 0 } with
          controllerOut := s.controllerOut ++ [fr]
          notices := [.sector j]
          latch := some (s.latch.getD
            { kind := .overrun, sector := byteOf j.val, frame := frameNumber fr, burst := none }) })

/-! ## The evaluation: the descriptor walk -/

/-- A walk step whose descriptor resolves to no terminal, or is of a kind or for a state that R14 hands to nothing, only moves
the walk on (R14, R20, R173). -/
def Obligations.WalkPassesOtherDescriptors : Prop :=
  ∀ (j : Sector) (e : Evaluation) (d : Burst) (s : State), (s.sec j).evaluation = some e → e.frame.bursts[e.walked]? = some d →
    ((∀ k, (d.address, k) ∉ (s.sec j).addressMap)
      ∨ ∃ k, s.WalksTo j e d k ∧
        (d.kind = .traffic ∨ d.kind = .unknown
          ∨ d.kind = .report ∧ (s.term k).state ∉ [.inService, .fading, .ramping, .climbing]
          ∨ d.kind = .ranging ∧ ((s.term k).state ≠ .ranging ∨ (s.term k).expectedBurst ≠ some e.frame.number)
          ∨ d.kind = .verify ∧ ((s.term k).state ≠ .verifying ∨ (s.term k).expectedBurst ≠ some e.frame.number))) →
    exec (.descriptorWalkStep j) s = .next (s.movedOn j { e with walked := e.walked + 1 })

/-- A received report of a terminal with no shift pending, which no loss ends: a changed P requests a POWER and a timing error
above the tolerance a CORRECT, and the rung decisions follow. In service and steady, it clears both runs; below the drop threshold
or falling toward it at a rung above 0, it queues a SHIFT one rung down; below the drop threshold at rung 0, it counts the floor
run and the terminal is FADING; and with the climb condition met for the whole climb_dwell, it queues a SHIFT one rung up. In
CLIMBING the dwell is compared with recovery_dwell and the climb with the climb goal, and the climb is counted: at or above its goal
the terminal enters service without its restore rung; else the phase reports rise, and at climb_timeout it enters service with its
restore rung kept. A report is the one up to which a degraded_cap bound outlives DEGRADED (R31, R63, R73, R74, R91, R93, R94, R97,
R98, R100, R101, R104). The requests find an empty control queue. -/
def Obligations.ReportDecidesTheRung : Prop :=
  ∀ (j : Sector) (e : Evaluation) (d : Burst) (k : Slot) (s : State) (c : SectorConfig) (b a : LadderBank) (x : Terminal)
      (f : Nat) (q corrects powers : List ControlEntry) (after : List ControlEntry → State), s.WalksTo j e d k →
    d.kind = .report → d.received = true → (s.term k).pendingShift = none → c = (s.sec j).config → b = s.bank e.held →
    s.activeBank = some a → 1 ≤ c.lossLimit → x = stages1to8 c b d (s.term k) → x.filtered = some f → x.rung ≤ a.top →
    corrects = (if c.timingTolerance < d.timing.toInt.natAbs then [{ slot := k, kind := .correct, cls := .a }] else []) →
    powers = (if x.power = (s.term k).power then [] else [{ slot := k, kind := .power, cls := .c }]) →
    (s.sec j).controlQueue = q → (corrects ++ powers ≠ [] → q = []) →
    (∀ control, after control = s.setSec j
      { s.sec j with evaluation := some { e with walked := e.walked + 1 }, controlQueue := control }) →
    ((s.term k).state = .inService →
      (4 * b.drop x.rung ≤ f → prediction c f x.history = none → b.top ≤ x.rung →
        exec (.descriptorWalkStep j) s = .next ((after (corrects ++ powers ++ q)).setTerm k
          { x with missRun := 0, floorRun := 0, climbDwell := 0, capKept := false }))
      ∧ (0 < x.rung → q = [] → (f < 4 * b.drop x.rung ∨ ∃ p, prediction c f x.history = some p ∧ p < 4 * b.drop x.rung) →
          exec (.descriptorWalkStep j) s = .next
            ((after (corrects ++ [{ slot := k, kind := .shift, cls := .b }] ++ powers)).setTerm k
            { x with
              missRun := 0, floorRun := 0, climbDwell := 0, capKept := false
              pendingShift := some { target := min (x.rung - 1) a.top }
              sticky := { x.sticky with onsetDrop := x.sticky.onsetDrop || decide (4 * b.drop x.rung ≤ f) } }))
      ∧ (x.rung = 0 → f < 4 * b.drop 0 → b.drop 0 ≤ b.enter 1 → x.floorRun + 1 < c.lossLimit →
          exec (.descriptorWalkStep j) s = .next (State.offerTerminal ((after (corrects ++ powers ++ q)).setTerm k
            { x with
              state := .fading, missRun := 0, floorRun := x.floorRun + 1, climbDwell := 0, capKept := false }) k))
      ∧ (∀ sl, 4 * b.drop x.rung ≤ f → c.fadeHorizon = 0 → x.rung < b.top → 4 * b.enter (x.rung + 1) ≤ f →
          slope x.history = some sl → 0 ≤ sl → x.rung + 1 ≤ x.maxRung →
          x.sticky.degraded = false ∨ x.rung + 1 ≤ c.degradedCap → c.climbDwell ≤ x.climbDwell + 1 → q = [] →
          exec (.descriptorWalkStep j) s = .next
            ((after (corrects ++ powers ++ [{ slot := k, kind := .shift, cls := .d }])).setTerm k
            { x with
              missRun := 0, floorRun := 0, climbDwell := 0, capKept := false
              pendingShift := some { target := min (x.rung + 1) a.top } })))
    ∧ ∀ (goal floor : Nat) (drops climbs : Prop) (y : Terminal) (control : List ControlEntry), (s.term k).state = .climbing →
      goal = min (min (min x.maxRung b.top) (if x.sticky.degraded = true then c.degradedCap else b.top)) (x.restoreRung.getD b.top) →
      floor = (if x.rung = 0 ∧ f < 4 * b.drop 0 then x.floorRun + 1 else 0) → floor < c.lossLimit →
      (drops ↔ 0 < x.rung ∧ (f < 4 * b.drop x.rung ∨ ∃ p, prediction c f x.history = some p ∧ p < 4 * b.drop x.rung)) →
      (climbs ↔ x.rung < b.top ∧ 4 * b.enter (x.rung + 1) ≤ f ∧ (∃ sl, slope x.history = some sl ∧ 0 ≤ sl) ∧ x.rung + 1 ≤ goal) →
      (¬drops ∧ ¬climbs ∧ control = corrects ++ powers ++ q
          ∧ y = { x with missRun := 0, floorRun := floor, capKept := false, climbDwell := 0 }
        ∨ ¬drops ∧ climbs ∧ x.climbDwell + 1 < c.recoveryDwell ∧ control = corrects ++ powers ++ q
          ∧ y = { x with missRun := 0, floorRun := floor, capKept := false, climbDwell := x.climbDwell + 1 }
        ∨ ¬drops ∧ climbs ∧ c.recoveryDwell ≤ x.climbDwell + 1 ∧ q = []
          ∧ control = corrects ++ powers ++ [{ slot := k, kind := .shift, cls := .d }]
          ∧ y = { x with
              missRun := 0, floorRun := floor, capKept := false, climbDwell := 0
              pendingShift := some { target := min (x.rung + 1) a.top } }
        ∨ drops ∧ q = [] ∧ control = corrects ++ [{ slot := k, kind := .shift, cls := .b }] ++ powers
          ∧ y = { x with
              missRun := 0, floorRun := floor, capKept := false, climbDwell := 0
              pendingShift := some { target := min (x.rung - 1) a.top }
              sticky := { x.sticky with onsetDrop := x.sticky.onsetDrop || decide (4 * b.drop x.rung ≤ f) } }) →
      (goal ≤ x.rung →
        exec (.descriptorWalkStep j) s = .next (State.offerTerminal ((after control).setTerm k
          { y with state := if floor = 0 then .inService else .fading, restoreRung := none }) k))
      ∧ (x.rung < goal → x.phaseReports + 1 < c.climbTimeout →
        exec (.descriptorWalkStep j) s = .next ((after control).setTerm k { y with phaseReports := x.phaseReports + 1 }))
      ∧ (x.rung < goal → c.climbTimeout ≤ x.phaseReports + 1 →
        exec (.descriptorWalkStep j) s = .next (State.offerTerminal ((after control).setTerm k
          { y with phaseReports := x.phaseReports + 1, state := if floor = 0 then .inService else .fading }) k))

/-- A received report of a RAMPING terminal at or above its drop threshold, with no shift pending: a changed P requests a POWER
and a timing error above the tolerance a CORRECT, and the ramp is counted. When the settled reports reach ramp_settle, or the
reports reach ramp_limit without it and RAMP_UNSETTLED is set, the terminal enters CLIMBING with its counts at 0, and goes on to
IN_SERVICE at once where its goal is reached (R72, R73, R74, R91, R98, R103, R104). The requests find an empty control queue. -/
def Obligations.RampEndsInClimbing : Prop :=
  ∀ (j : Sector) (e : Evaluation) (d : Burst) (k : Slot) (s u : State) (c : SectorConfig) (b : LadderBank) (x : Terminal)
      (settle reports goal : Nat) (q corrects powers : List ControlEntry), s.WalksTo j e d k → d.kind = .report →
    d.received = true → (s.term k).state = .ramping → c = (s.sec j).config → b = s.bank e.held → 1 ≤ c.lossLimit →
    (s.term k).pendingShift = none → x = stages1to8 c b d (s.term k) → 4 * b.drop x.rung ≤ x.filtered.getD 0 →
    corrects = (if c.timingTolerance < d.timing.toInt.natAbs then [{ slot := k, kind := .correct, cls := .a }] else []) →
    powers = (if x.power = (s.term k).power then [] else [{ slot := k, kind := .power, cls := .c }]) →
    (s.sec j).controlQueue = q → (corrects ++ powers ≠ [] → q = []) →
    u = s.setSec j
      { s.sec j with evaluation := some { e with walked := e.walked + 1 }, controlQueue := corrects ++ powers ++ q } →
    settle = (if (4 * ((b.hold x.rung : Int) + c.targetMargin) - (x.filtered.getD 0 : Nat)).natAbs < c.deadband
      then x.rampSettle + 1 else 0) →
    reports = x.phaseReports + 1 →
    goal = min (min (min x.maxRung b.top) (if x.sticky.degraded = true then c.degradedCap else b.top)) (x.restoreRung.getD b.top) →
    (settle < c.rampSettle → reports < c.rampLimit →
      exec (.descriptorWalkStep j) s = .next (u.setTerm k
        { x with missRun := 0, floorRun := 0, capKept := false, rampSettle := settle, phaseReports := reports }))
    ∧ (c.rampSettle ≤ settle ∨ c.rampLimit ≤ reports →
      exec (.descriptorWalkStep j) s = .next (State.offerTerminal (u.setTerm k
        { x with
          missRun := 0, floorRun := 0, capKept := false, rampSettle := 0, phaseReports := 0, climbDwell := 0
          state := if goal ≤ x.rung then .inService else .climbing
          restoreRung := if goal ≤ x.rung then none else x.restoreRung
          sticky := { x.sticky with
            rampUnsettled := x.sticky.rampUnsettled || decide (settle < c.rampSettle) } }) k))

/-- A miss that is no loss: the miss run rises and the climb dwell returns to 0; an IN_SERVICE terminal becomes FADING; and the
first miss of a run, with no pending shift and a rung above 0, queues a SHIFT one rung down. A later miss, or one at rung 0,
decides nothing (R92, R93, R101). That a miss is no report which lifts the degraded_cap bound of a DEGRADED that has been cleared,
so that `capKept` stands, is the model's reading (log entry 28). The first miss of a run in FADING, RAMPING or CLIMBING, and one
with a shift pending, are not stated here. -/
def Obligations.MissCountsAndFades : Prop :=
  ∀ (j : Sector) (e : Evaluation) (d : Burst) (k : Slot) (s : State) (a : LadderBank), s.WalksTo j e d k → d.kind = .report →
    d.received = false → (s.term k).missRun + 1 < (s.sec j).config.lossLimit → s.activeBank = some a →
    ((s.term k).state = .inService → (s.term k).pendingShift = none → (s.term k).rung = 0 →
      exec (.descriptorWalkStep j) s = .next (State.offerTerminal ((s.movedOn j { e with walked := e.walked + 1 }).setTerm k
        { s.term k with state := .fading, missRun := (s.term k).missRun + 1, climbDwell := 0 }) k))
    ∧ ((s.term k).state ∈ [.fading, .ramping, .climbing] → 1 ≤ (s.term k).missRun →
        exec (.descriptorWalkStep j) s = .next ((s.movedOn j { e with walked := e.walked + 1 }).setTerm k
          { s.term k with missRun := (s.term k).missRun + 1, climbDwell := 0 }))
    ∧ ((s.term k).state = .inService → (s.term k).missRun = 0 → (s.term k).pendingShift = none → 0 < (s.term k).rung →
        (s.sec j).controlQueue = [] →
        exec (.descriptorWalkStep j) s = .next (State.offerTerminal ((s.setSec j
            { s.sec j with
              evaluation := some { e with walked := e.walked + 1 }
              controlQueue := [{ slot := k, kind := .shift, cls := .b }] }).setTerm k
          { s.term k with
            state := .fading, missRun := 1, climbDwell := 0
            pendingShift := some { target := min ((s.term k).rung - 1) a.top } }) k))

/-- A miss that reaches loss_limit declares a loss: the restore rung and loss F are written, the working fields cleared, the
terminal becomes WAITING at the tail of its class, or QUIET where the working state is OUTAGE, and its entry joins the loss log
behind the entries that have not aged, the oldest giving way to a 65th; with no outage to declare, nothing else changes. Where the
append brings the log of a CLEAR or RECOVERING sector to outage_count, the outage is declared in the same step: the sector enters
OUTAGE and its walk is abandoned, the lost terminal and every WAITING, DEFERRED, RANGING and VERIFYING one become QUIET with the
fields of the declaration, all probed marks are cleared, and the lead is a QUIET terminal of the highest loss F, the lowest slot of
equals, the lost terminal with its new loss F among them (R45, R46, R47, R48, R89, R95, R96, R108, R135). For the declaration the
sector's other terminals owe no message, so that the owed scan adds none; what the evaluation in flight remembers is the model's
own, and that the miss, as no report, leaves `capKept` standing is its reading (log entries 19 and 28). -/
def Obligations.LossClearsAndPlaces : Prop :=
  ∀ (j : Sector) (e : Evaluation) (d : Burst) (k : Slot) (s : State) (r : SectorRec) (a : LadderBank) (w : WorkState)
      (kept log : List LossEntry) (lost : Terminal) (front back : List Slot), s.WalksTo j e d k → d.kind = .report →
    d.received = false → (s.term k).state ∈ [.inService, .fading, .ramping, .climbing] → s.sec j = r →
    r.config.lossLimit ≤ (s.term k).missRun + 1 → s.activeBank = some a → r.working = some w →
    (∀ x ∈ r.controlQueue, x.slot ≠ k) → (∀ x ∈ front, (s.term x).priority ≤ (s.term k).priority) →
    (∀ x ∈ back, (s.term k).priority < (s.term x).priority) → r.queue = front ++ back →
    kept = (r.lossLog.filter fun x => decide ((e.frame.number - x.frame).toNat < r.config.outageWindow)) →
    log = (if 64 ≤ kept.length then kept.drop 1 else kept) ++ [{ slot := k, frame := e.frame.number }] →
    lost =
      { s.term k with
        restoreRung :=
          if (s.term k).state = .inService ∨ (s.term k).state = .fading then some (min (s.term k).rung a.top)
          else (s.term k).restoreRung
        lossF := (s.term k).filtered
        rung := 0, power := 0, filtered := none, history := [], pendingShift := none, missRun := 0, floorRun := 0
        climbDwell := 0, rampSettle := 0, phaseReports := 0, attemptCount := 0, expectedBurst := none, owed := {} } →
    (w ≠ .outage → log.length < r.config.outageCount ∨ r.state ≠ .clear ∧ r.state ≠ .recovering →
      exec (.descriptorWalkStep j) s = .next (State.offerTerminal ((s.setSec j
        { r with
          evaluation := some { e with walked := e.walked + 1 }, lossLog := log, queue := front ++ k :: back }).setTerm k
        { lost with state := .waiting }) k))
    ∧ (w = .outage → log.length < r.config.outageCount ∨ r.state ≠ .clear ∧ r.state ≠ .recovering →
      exec (.descriptorWalkStep j) s = .next (State.offerTerminal ((s.setSec j
        { r with evaluation := some { e with walked := e.walked + 1 }, lossLog := log }).setTerm k
        { lost with state := .quiet }) k))
    ∧ ∀ (moved quiet : List Slot) (rank : Slot → Nat), r.config.outageCount ≤ log.length →
      r.state = .clear ∨ r.state = .recovering → (∀ i, s.belongs j i = true → i ≠ k → (s.term i).owed = {}) →
      moved = (List.finRange 320).filter (fun i =>
        s.belongs j i && (i == k || [.waiting, .deferred, .ranging, .verifying].contains (s.term i).state)) →
      quiet = (List.finRange 320).filter (fun i => i ∈ moved || (s.belongs j i && (s.term i).state == .quiet)) →
      (∀ i, rank i = if i = k then lost.leadRank else (s.term i).leadRank) →
      ∃ t m, exec (.descriptorWalkStep j) s = .next t ∧ s.SameAround t ∧ t.controllerOut = s.controllerOut
        ∧ (∀ i, i ≠ j → t.sec i = s.sec i) ∧ (∀ i, s.belongs j i = false → t.term i = s.term i)
        ∧ (∀ i, s.belongs j i = true → i ∉ moved → t.term i = { s.term i with probed := false })
        ∧ t.term k = Terminal.offered s.notices k
          { lost with state := .quiet, backoff := 0, roundCount := 0, pendingAdjust := none, probed := false }
        ∧ (∀ i ∈ moved, i ≠ k → t.term i = Terminal.offered s.notices i
          { s.term i with
            state := .quiet, expectedBurst := none, backoff := 0, roundCount := 0, filtered := none, history := []
            power := 0, pendingAdjust := none, probed := false
            verification :=
              if (s.term i).state = .verifying ∧ (s.term i).verification.started = true
                  ∧ (s.term i).verification.completed = false ∧ (s.term i).verification.outcome = .none then
                { (s.term i).verification with outcome := .aborted }
              else (s.term i).verification })
        ∧ (∀ i ∈ moved, .terminal i ∈ t.notices) ∧ .sector j ∈ t.notices
        ∧ m ∈ quiet ∧ (∀ i ∈ quiet, i ≠ m → rank i < rank m ∨ rank i = rank m ∧ m < i)
        ∧ t.sec j =
          { r with
            state := .outage, progressCounter := 0, releaseCursor := none, lead := some m, leadFailures := 0
            probeTimer := r.config.probeInterval, lossLog := log
            queue := r.queue.filter fun i => !moved.contains i
            window := r.window.filter fun i => !moved.contains i
            controlQueue := r.controlQueue.filter fun x => !moved.contains x.slot
            evaluation := some
              { e with walked := e.walked + 1, swept := e.swept.filter fun i => !moved.contains i } }

/-- The ranging judgment at the expected burst frame. A received burst within the timing tolerance and at or above drop(0) is a
success: the terminal becomes VERIFYING in its place and a VERIFY is requested; where it is the lead of an OUTAGE sector, the
sector recovers in the same step. A received burst that fails the test runs stages 1 to 3, 7 and 8 and requests a CORRECT, and
like a burst that was not received it counts a round (R50, R63, R113 to R117). -/
def Obligations.RangingIsJudged : Prop :=
  ∀ (j : Sector) (e m : Evaluation) (d : Burst) (k : Slot) (s : State) (r : SectorRec) (b : LadderBank) (n : Nat),
    s.WalksTo j e d k → d.kind = .ranging → (s.term k).state = .ranging → (s.term k).expectedBurst = some e.frame.number →
    s.sec j = r → b = s.bank e.held → m = { e with walked := e.walked + 1, handed := k :: e.handed } → n = min d.snr.toNat 200 →
    (d.received = true → d.timing.toInt.natAbs ≤ r.config.timingTolerance → b.drop 0 ≤ n → r.controlQueue = [] →
      (s.term k).filtered = none → (s.term k).history = [] →
      (r.lead ≠ some k →
        exec (.descriptorWalkStep j) s = .next (State.offerTerminal ((s.setSec j
          { r with evaluation := some m, controlQueue := [{ slot := k, kind := .verify, cls := .a }] }).setTerm k
          { s.term k with
            state := .verifying, expectedBurst := none, filtered := some (4 * n), history := [4 * n]
            lastHeadroom := min d.headroom.toNat 40 }) k))
      ∧ (r.lead = some k → r.state = .outage →
        exec (.descriptorWalkStep j) s = .next (State.offerSector (State.offerTerminal ((s.setSec j
          { r with
            evaluation := some m, controlQueue := [{ slot := k, kind := .verify, cls := .a }]
            state := .recovering, progressCounter := 0, lossLog := [], releaseCursor := (s.slotsOf j).head?
            lead := none, leadFailures := 0, probeTimer := 0 }).setTerm k
          { s.term k with
            state := .verifying, expectedBurst := none, filtered := some (4 * n), history := [4 * n]
            lastHeadroom := min d.headroom.toNat 40 }) k) j)))
    ∧ ((s.term k).roundCount + 1 < r.config.rangingRounds →
      (d.received = false →
        exec (.descriptorWalkStep j) s = .next ((s.movedOn j m).setTerm k
          { s.term k with roundCount := (s.term k).roundCount + 1, expectedBurst := none }))
      ∧ (d.received = true → r.config.timingTolerance < d.timing.toInt.natAbs ∨ n < b.drop 0 → r.controlQueue = [] →
        exec (.descriptorWalkStep j) s = .next ((s.setSec j
          { r with evaluation := some m, controlQueue := [{ slot := k, kind := .correct, cls := .a }] }).setTerm k
          { stagesOfRound r.config b d (s.term k) with roundCount := (s.term k).roundCount + 1, expectedBurst := none })))

/-- The comparison of a verification burst at its expected burst frame. A payload that begins with the whole expected pattern is
CLEAN: DEGRADED is cleared, its degraded_cap bound standing until the next report as the model's `capKept`, and the terminal leaves
the window into RAMPING with the fields of a pass. One to verify_tolerance failed blocks are DEGRADED: the same pass with DEGRADED
set. More than verify_tolerance are FAILED: DEGRADED is set and the attempt fails, below attempt_limit into DEFERRED with its
backoff (R31, R63, R119, R120, R127, R128, R129, R131, R132, R133). -/
def Obligations.VerificationIsCompared : Prop :=
  ∀ (j : Sector) (e m : Evaluation) (d : Burst) (k : Slot) (s : State) (r : SectorRec) (a : LadderBank) (seed : Nat)
      (x pass : Terminal), s.WalksTo j e d k → d.kind = .verify → d.received = true → (s.term k).state = .verifying →
    (s.term k).expectedBurst = some e.frame.number → s.sec j = r → s.activeBank = some a → r.lead ≠ some k → k ∉ r.queue →
    e.swept = [] → m = { e with walked := e.walked + 1, handed := k :: e.handed } →
    seed = (37 * k.val + 11 * (s.term k).attemptCount + (s.term k).verification.startFrame.toNat % 256) % 256 →
    x = stages1to3 r.config d (s.term k) →
    pass =
      { x with
        state := .ramping, rung := 0, restoreRung := some (x.restoreRung.getD (min x.maxRung a.top)), attemptCount := 0
        phaseReports := 0, rampSettle := 0, climbDwell := 0, missRun := 0, floorRun := 0, filtered := none, history := []
        expectedBurst := none, pendingShift := none } →
    (∀ extra, d.payload = ((List.range r.config.verifyBlocks).map fun i =>
          (List.range 16).map fun b => BitVec.ofNat 8 (seed + 29 * i + 7 * b)).flatten ++ extra →
      exec (.descriptorWalkStep j) s = .next (State.offerTerminal ((s.setSec j
        { r with evaluation := some m, window := r.window.filter fun i => i != k }).setTerm k
        { pass with
          verification :=
            { x.verification with completed := true, outcome := .clean, failedBlocks := 0, firstFault := none }
          sticky := { x.sticky with degraded := false }
          capKept := x.capKept || x.sticky.degraded }) k))
    ∧ ∀ failed, failed = (failingBlocks seed d.payload r.config.verifyBlocks) →
      (1 ≤ failed.length → failed.length ≤ r.config.verifyTolerance →
        exec (.descriptorWalkStep j) s = .next (State.offerTerminal ((s.setSec j
          { r with evaluation := some m, window := r.window.filter fun i => i != k }).setTerm k
          { pass with
            verification :=
              { x.verification with
                completed := true, outcome := .degraded, failedBlocks := failed.length
                firstFault := failed.head?.map (faultOf seed d.payload) }
            sticky := { x.sticky with degraded := true } }) k))
      ∧ ∀ n, r.config.verifyTolerance < failed.length → n = min ((s.term k).attemptCount + 1) 15 → n < r.config.attemptLimit →
        exec (.descriptorWalkStep j) s = .next (State.offerTerminal ((s.setSec j
          { r with evaluation := some m, window := r.window.filter fun i => i != k }).setTerm k
          { x with
            state := .deferred, expectedBurst := none, attemptCount := n
            backoff := min (r.config.backoffBase * 2 ^ (n - 1)) r.config.backoffCap + k.val % 8
            verification :=
              { x.verification with
                completed := true, outcome := .failed, failedBlocks := failed.length
                firstFault := failed.head?.map (faultOf seed d.payload) }
            sticky := { x.sticky with degraded := true } }) k)

/-! ## The evaluation: the window sweep and the completion -/

/-- The sweep takes a member with no expected burst frame, with one 1 to 15 frames ahead, or with one the walk has judged, without
effect; a member the frame is past is reissued, RANGING without a request and VERIFYING with a fresh VERIFY; and a RANGING member
whose burst did not come counts a round (R15, R18, R117, R118, R136). -/
def Obligations.SweepJudgesAMember : Prop :=
  ∀ (j : Sector) (e m : Evaluation) (k : Slot) (s : State) (due : FrameNo) (n : Nat), m = { e with swept := k :: e.swept } →
    n = (e.frame.number - due).toNat →
    (∀ st, s.SweepsTo j e k st →
      ((s.term k).expectedBurst = none
        ∨ (s.term k).expectedBurst = some due ∧ (65521 ≤ n ∨ n = 0 ∧ k ∈ e.handed)) →
      exec (.windowSweepStep j) s = .next (s.movedOn j m))
    ∧ (s.SweepsTo j e k .ranging → (s.term k).expectedBurst = some due → 1 ≤ n → n ≤ 65520 →
      exec (.windowSweepStep j) s = .next ((s.movedOn j m).setTerm k { s.term k with expectedBurst := none }))
    ∧ (s.SweepsTo j e k .verifying → (s.term k).expectedBurst = some due → 1 ≤ n → n ≤ 65520 → (s.sec j).controlQueue = [] →
      exec (.windowSweepStep j) s = .next ((s.setSec j
        { s.sec j with
          evaluation := some m, controlQueue := [{ slot := k, kind := .verify, cls := .a }] }).setTerm k
        { s.term k with expectedBurst := none }))
    ∧ (s.SweepsTo j e k .ranging → (s.term k).expectedBurst = some due → n = 0 → k ∉ e.handed →
      (s.term k).roundCount + 1 < (s.sec j).config.rangingRounds →
      exec (.windowSweepStep j) s = .next ((s.movedOn j m).setTerm k
        { s.term k with roundCount := (s.term k).roundCount + 1, expectedBurst := none }))

/-- An attempt fails at the last no-show or at a missing verification burst, whose exchange is ABORTED: the terminal leaves the
window and its attempt count rises, to 15 at most; below attempt_limit it is DEFERRED with its backoff, at the limit it is HELD
with EXHAUSTED set and nothing owed; the lead of an OUTAGE sector becomes QUIET instead, and its failure is counted. The failure
that reaches probe_rotate marks the lead as probed and chooses anew: the best unmarked QUIET terminal, or, where every other one
is marked, the marks are cleared and the best of all of them, the failed lead included (R48, R51, R113, R117, R119, R120, R134).
That the sweep forgets the member that has left the window is the model's own (log entry 19). -/
def Obligations.AttemptFailureEndsTheAttempt : Prop :=
  ∀ (j : Sector) (e : Evaluation) (k : Slot) (s : State) (r : SectorRec) (n : Nat) (x quiet : Terminal), s.sec j = r →
    (s.term k).expectedBurst = some e.frame.number → k ∉ e.handed → k ∉ r.queue → n = min ((s.term k).attemptCount + 1) 15 →
    (s.SweepsTo j e k .ranging ∧ r.config.rangingRounds ≤ (s.term k).roundCount + 1
        ∧ x = { s.term k with roundCount := (s.term k).roundCount + 1, expectedBurst := none }
      ∨ s.SweepsTo j e k .verifying
        ∧ x = { s.term k with
            expectedBurst := none
            verification := { (s.term k).verification with completed := false, outcome := .aborted } }) →
    quiet =
      { x with
        state := .quiet, filtered := none, history := [], roundCount := 0, power := 0, pendingAdjust := none, owed := {} } →
    (r.lead ≠ some k → n < r.config.attemptLimit →
      exec (.windowSweepStep j) s = .next (State.offerTerminal ((s.setSec j
        { r with window := r.window.filter fun i => i != k }).setTerm k
        { x with
          state := .deferred, attemptCount := n
          backoff := min (r.config.backoffBase * 2 ^ (n - 1)) r.config.backoffCap + k.val % 8 }) k))
    ∧ (r.lead ≠ some k → r.config.attemptLimit ≤ n → (∀ i ∈ r.controlQueue, i.slot ≠ k) →
      exec (.windowSweepStep j) s = .next (State.offerTerminal ((s.setSec j
        { r with window := r.window.filter fun i => i != k }).setTerm k
        { x with
          state := .held, attemptCount := n, owed := {}, sticky := { x.sticky with exhausted := true } }) k))
    ∧ (r.lead = some k → r.state = .outage → (∀ i ∈ r.controlQueue, i.slot ≠ k) →
      (r.leadFailures + 1 < r.config.probeRotate →
        exec (.windowSweepStep j) s = .next (State.offerTerminal ((s.setSec j
          { r with window := r.window.filter fun i => i != k, leadFailures := r.leadFailures + 1 }).setTerm k quiet) k))
      ∧ (∀ m, r.config.probeRotate ≤ r.leadFailures + 1 → s.NextLead j k m →
        exec (.windowSweepStep j) s = .next (State.offerTerminal ((s.setSec j
          { r with window := r.window.filter fun i => i != k, leadFailures := 0, lead := some m }).setTerm k
          { quiet with probed := true }) k))
      ∧ ∀ m, r.config.probeRotate ≤ r.leadFailures + 1 →
        (∀ i, s.belongs j i = true → i ≠ k → (s.term i).state = .quiet → (s.term i).probed = true) →
        (m = k ∨ s.belongs j m = true ∧ (s.term m).state = .quiet) →
        (∀ i, i = k ∨ s.belongs j i = true ∧ (s.term i).state = .quiet → i ≠ m →
          (s.term i).leadRank < (s.term m).leadRank ∨ (s.term i).leadRank = (s.term m).leadRank ∧ m < i) →
        ∃ t, exec (.windowSweepStep j) s = .next t ∧ s.SameAround t ∧ t.controllerOut = s.controllerOut
          ∧ (∀ i, i ≠ j → t.sec i = s.sec i)
          ∧ t.sec j = { r with window := r.window.filter fun i => i != k, leadFailures := 0, lead := some m }
          ∧ t.term k = Terminal.offered s.notices k { quiet with probed := false } ∧ .terminal k ∈ t.notices
          ∧ ∀ i, i ≠ k → t.term i = if s.belongs j i = true then { s.term i with probed := false } else s.term i)

/-- The completion of an evaluation writes the last evaluated frame number, which stays absent in BLIND, and releases the hold;
then a pending suspend takes effect with its reply, or the waiting frame's evaluation begins on the active bank, or the sector has
none in flight (R8, R12, R13, R16, R58, R81). The tag of the later reply is the request's, which the model
keeps, and the progress counter's return to 0 at the entry into SUSPENDED is its reading; the marks of reactions that are due stand over the
suspension by its choice (log entries 13, 17 and 30). -/
def Obligations.EvaluationCompletes : Prop :=
  ∀ (j : Sector) (e : Evaluation) (s u : State) (r : SectorRec), s.sec j = r → r.evaluation = some e →
    e.frame.bursts.length ≤ e.walked → (∀ k ∈ r.window, k ∈ e.swept) →
    u = s.modBank e.held (fun b => { b with holds := b.holds - 1 }) →
    (r.suspendPending = false → r.waitingBank = none →
      exec (.evaluationCompletion j) s = .next (u.setSec j
        { r with lastEvaluated := if r.state = .blind then none else some e.frame.number, evaluation := none }))
    ∧ (∀ w i, r.suspendPending = false → r.waitingBank = some w → s.ladder.active = some i →
      exec (.evaluationCompletion j) s = .next ((u.modBank i fun b => { b with holds := b.holds + 1 }).setSec j
        { r with
          lastEvaluated := if r.state = .blind then none else some e.frame.number
          waitingBank := none
          evaluation := some
            { bank := (match e.bank with
                | .a => .b
                | .b => .a)
              frame := w, held := i } }))
    ∧ (∀ p : WorkState, r.suspendPending = true → (r.state = p.toSector ∨ r.state = .blind ∧ r.prior = some p) →
      exec (.evaluationCompletion j) s = .next (State.offerSector
        { u.setSec j
            { r with
              lastEvaluated := if r.state = .blind then none else some e.frame.number
              evaluation := none, suspendPending := false, waitingBank := none, state := .suspended, prior := some p
              progressCounter := 0 } with
          controllerOut := s.controllerOut ++ [soleReply 0x24 r.suspendTag 0x00 []] } j))

/-! ## The link-quality arithmetic and the comparison -/

/-- Stages 1 to 3: the clamped sample sets an absent F to x = 4s; a present F steps by the floor of (x - F) / 2^filter_shift, so it
never passes x nor leaves 0..800, falls whenever it is above x, and rests exactly from x - (2^k - 1) to x; the new F joins the
history, which keeps its newest 8 (R65, R66, R67, R68). -/
def Obligations.FilterFollowsTheSample : Prop :=
  ∀ (c : SectorConfig) (d : Burst) (t u : Terminal) (x k : Nat), x = 4 * min d.snr.toNat 200 → k = c.filterShift →
    u = stages1to3 c d t →
    u.lastHeadroom = min d.headroom.toNat 40
    ∧ (∀ g, u.filtered = some g →
        u.history = if t.history.length < 8 then t.history ++ [g] else t.history.drop 1 ++ [g])
    ∧ (t.filtered = none → u.filtered = some x)
    ∧ ∀ f, t.filtered = some f → f ≤ 800 → ∃ g, u.filtered = some g
        ∧ (g : Int) = f + Int.fdiv ((x : Int) - f) (2 ^ k) ∧ g ≤ 800 ∧ (f ≤ g ∧ g ≤ x ∨ x ≤ g ∧ g ≤ f)
        ∧ (g = f ↔ f ≤ x ∧ x < f + 2 ^ k) ∧ (k = 0 → g = x)

/-- Stages 4 and 5: the slope exists only for a history of 8 entries and is the weighted sum over 84 truncated toward zero, within
-152..152; the prediction exists when the slope does and fade_horizon is above 0, and is F + H × slope (R69, R70). -/
def Obligations.SlopeAndPrediction : Prop :=
  (∀ h : List Nat, h.length ≠ 8 → slope h = none)
    ∧ (∀ h0 h1 h2 h3 h4 h5 h6 h7 : Nat, ∃ sl, slope [h0, h1, h2, h3, h4, h5, h6, h7] = some sl
        ∧ sl = Int.tdiv (-7 * h0 - 5 * h1 - 3 * h2 - h3 + h4 + 3 * h5 + 5 * h6 + 7 * h7) 84
        ∧ ((∀ f ∈ [h0, h1, h2, h3, h4, h5, h6, h7], f ≤ 800) → -152 ≤ sl ∧ sl ≤ 152))
    ∧ ∀ (c : SectorConfig) (f : Nat) (h : List Nat),
        (slope h = none ∨ c.fadeHorizon = 0 → prediction c f h = none)
        ∧ ∀ sl, slope h = some sl → 0 < c.fadeHorizon → prediction c f h = some (f + c.fadeHorizon * sl)

/-- Stages 7 and 8: inside the deadband P stays; outside it the error over 8, rounded half away from zero, is limited to
max_step, a positive step cut to the headroom and P kept in -40..40, CEILING being set when the cut or the range reduced a
positive step; NO_HEADROOM and TIMING_OUT say what they say, and a timing error above the tolerance is taken off the pending
adjust (R65, R72, R73, R74). -/
def Obligations.PowerAndTimingSteps : Prop :=
  ∀ (c : SectorConfig) (b : LadderBank) (d : Burst) (t u : Terminal) (e q l p : Int) (h : Nat), u = stage8 c d (stage7 c b d t) →
    h = min d.headroom.toNat 40 → e = 4 * ((b.hold t.rung : Int) + c.targetMargin) - (t.filtered.getD 0 : Nat) →
    (8 * q - e).natAbs ≤ 4 → ((8 * q - e).natAbs = 4 → e.natAbs < (8 * q).natAbs) →
    l = max (-(c.maxStep : Int)) (min c.maxStep q) → p = t.power + min l (max h 0) →
    (e.natAbs < c.deadband → u.power = t.power ∧ u.sticky.ceiling = t.sticky.ceiling)
    ∧ (c.deadband ≤ e.natAbs → u.power = max (-40) (min 40 p)
        ∧ u.sticky.ceiling = (t.sticky.ceiling || decide (0 < l ∧ ((h : Int) < l ∨ 40 < p))))
    ∧ u.perReport.noHeadroom = decide (h = 0)
    ∧ u.perReport.timingOut = decide (c.timingTolerance < d.timing.toInt.natAbs)
    ∧ u.pendingAdjust =
        (if c.timingTolerance < d.timing.toInt.natAbs then
          some (max (-128) (min 127 (t.pendingAdjust.getD 0 - d.timing.toInt))) else t.pendingAdjust)

/-- The expected pattern and the comparison: byte j of block i is (seed + 29 i + 7 j) mod 256; an expected block fails when it is
missing or differs; the record counts the failed blocks, takes the first fault from the lowest of them, and the outcome follows
from the count and verify_tolerance (R128, R129, R130, R131). -/
def Obligations.ComparisonCountsFailedBlocks : Prop :=
  ∀ (v w : VerificationRecord) (seed : Nat) (payload : List Byte) (c : SectorConfig) (fails : Nat → Prop) (failed : List Nat),
    w = v.compared seed payload c →
    (∀ i, fails i ↔ ¬(16 * (i + 1) ≤ payload.length
      ∧ ∀ j, j < 16 → payload[16 * i + j]? = some (BitVec.ofNat 8 ((seed + 29 * i + 7 * j) % 256)))) →
    failed.Pairwise (· < ·) → (∀ i, i ∈ failed ↔ i < c.verifyBlocks ∧ fails i) →
    w.started = v.started ∧ w.completed = true ∧ w.startFrame = v.startFrame ∧ w.failedBlocks = failed.length
      ∧ w.outcome =
          (if failed.length = 0 then .clean else if failed.length ≤ c.verifyTolerance then .degraded else .failed)
      ∧ (failed = [] → w.firstFault = none)
      ∧ (∀ i rest, failed = i :: rest → payload.length < 16 * (i + 1) →
          w.firstFault = some
            { block := i, offset := 0, expected := BitVec.ofNat 8 ((seed + 29 * i) % 256), received := none })
      ∧ (∀ i rest j b, failed = i :: rest → 16 * (i + 1) ≤ payload.length → j < 16 → payload[16 * i + j]? = some b →
          b ≠ BitVec.ofNat 8 ((seed + 29 * i + 7 * j) % 256) →
          (∀ m, m < j → payload[16 * i + m]? = some (BitVec.ofNat 8 ((seed + 29 * i + 7 * m) % 256))) →
          w.firstFault = some
            { block := i, offset := j, expected := BitVec.ofNat 8 ((seed + 29 * i + 7 * j) % 256), received := some b })

/-! ## Requests of the fault latch and the terminal table -/

/-- READ FAULT LATCH, outside STARTING mode: the reply shows the latch as it stands; unlock 0 leaves it, unlock 1 empties it after
it is read, and any other value is refused (R9, R158). -/
def Obligations.ReadFaultLatchShowsTheLatch : Prop :=
  ∀ (u : Byte) (rest : List Byte) (r : Request) (s : State) (shown : List Byte), s.mode ≠ .starting → r.length = 1 →
    r.bytes = u :: rest →
    shown = (match s.latch with
      | none => [0, 0, 0, 0, 0, 0, 0]
      | some f =>
        [1, (match f.kind with
            | .marker => 1
            | .sector => 2
            | .count => 3
            | .length => 4
            | .stale => 5
            | .sequence => 6
            | .overrun => 7), f.sector] ++ bytes16 f.frame
          ++ (match f.burst with
            | none => [0, 0]
            | some i => [1, byteOf i])) →
    (u = 0 → exec (.readFaultLatch r) s = .next (s.emit (soleReply 0x04 r.tag 0x00 shown)))
    ∧ (u = 1 → exec (.readFaultLatch r) s = .next (State.emit { s with latch := none } (soleReply 0x04 r.tag 0x00 shown)))
    ∧ (u ≠ 0 → u ≠ 1 → exec (.readFaultLatch r) s = .next (s.emit (soleReply 0x04 r.tag 0x03 [])))

/-- PROVISION TERMINAL fills an EMPTY slot: the record takes the identity of the request and otherwise the values of the column
"after PROVISION" of 2-2, the population rises by 1, the address is paired, the terminal is offered, and the reply is OK (R19,
R20, R33, R34). -/
def Obligations.ProvisionFillsTheSlot : Prop :=
  ∀ (k : Slot) (j : Sector) (a : BitVec 12) (p : Fin 4) (m : Nat) (rest : List Byte) (r : Request) (s : State),
    s.mode = .running → r.length = 7 →
    r.bytes = bytesOf16 k.val ++ [byteOf j.val] ++ bytes16 (a.setWidth 16) ++ [byteOf p.val, byteOf m] ++ rest →
    1 ≤ a.toNat → a.toNat ≤ 4094 → m ≤ 15 → (s.term k).state = .empty → (s.sec j).population ≤ 63 →
    (∀ x ∈ (s.sec j).addressMap, x.1 ≠ a) →
    exec (.provisionTerminal r) s = .next (State.emit (State.offerTerminal ((s.setTerm k
      { sector := j, linkAddress := a, priority := p, maxRung := m, state := .held, rung := 0, pendingShift := none
        restoreRung := none, lossF := none, filtered := none, history := [], lastHeadroom := 0, power := 0
        pendingAdjust := none, missRun := 0, floorRun := 0, climbDwell := 0, rampSettle := 0, phaseReports := 0
        attemptCount := 0, roundCount := 0, expectedBurst := none, backoff := 0, probed := false
        verification :=
          { started := false, completed := false, outcome := .none, startFrame := 0, failedBlocks := 0, firstFault := none }
        sticky := { ceiling := false, degraded := false, rampUnsettled := false, exhausted := false, onsetDrop := false }
        perReport := { belowDrop := false, noHeadroom := false, timingOut := false }
        capKept := false
        owed := { correct := false, verify := false, power := false, shift := false }
        noticePending := (s.term k).noticePending }).setSec j
      { s.sec j with
        population := (s.sec j).population + 1
        addressMap := (s.sec j).addressMap ++ [(a, k)] }) k) (soleReply 0x10 r.tag 0x00 []))

/-- REMOVE TERMINAL: an EMPTY slot is answered OK and nothing changes. Any other terminal leaves the queue, the window, the
control queue and the address map of its sector, the population falls by 1, every field but notice pending takes its empty value,
and the terminal is offered. Where it was the lead of an OUTAGE sector the next lead is chosen among the other QUIET terminals
(R35, R48, R52, R145). Here the sector's other terminals owe no message, so that the owed scan adds none; what the evaluation in
flight remembers of the slot is the model's own (log entry 19). -/
def Obligations.RemoveEmptiesTheSlot : Prop :=
  ∀ (k : Slot) (j : Sector) (r : Request) (s : State) (x : SectorRec), s.mode = .running → ForSlot r k →
    ((s.term k).state = .empty → exec (.removeTerminal r) s = .next (s.emit (soleReply 0x11 r.tag 0x00 [])))
    ∧ (s.belongs j k = true → (∀ i, s.belongs j i = true → i ≠ k → (s.term i).owed = {}) →
      x =
        { s.sec j with
          queue := (s.sec j).queue.filter fun i => i != k
          window := (s.sec j).window.filter fun i => i != k
          controlQueue := (s.sec j).controlQueue.filter fun e => e.slot != k
          addressMap := (s.sec j).addressMap.filter fun p => p.2 != k
          population := (s.sec j).population - 1
          evaluation := (s.sec j).evaluation.map fun e =>
            { e with swept := e.swept.filter fun i => i != k, handed := e.handed.filter fun i => i != k } } →
      ((s.sec j).lead ≠ some k →
        exec (.removeTerminal r) s = .next (State.emit (State.offerTerminal
          ((s.setSec j x).setTerm k { noticePending := (s.term k).noticePending }) k) (soleReply 0x11 r.tag 0x00 [])))
      ∧ ∀ m, (s.sec j).lead = some k → (s.sec j).state = .outage → s.NextLead j k m →
        exec (.removeTerminal r) s = .next (State.emit (State.offerTerminal
          ((s.setSec j { x with lead := some m, leadFailures := 0 }).setTerm k
            { noticePending := (s.term k).noticePending }) k) (soleReply 0x11 r.tag 0x00 [])))

/-- READ TERMINAL refuses a slot out of range with BAD_PARAMETER; it answers OK for every other slot and changes nothing; its 72
result bytes hold every field of the record at the offsets of 11-4 (R36). -/
def Obligations.ReadTerminalShowsTheRecord : Prop :=
  (∀ (hi lo : Byte) (rest : List Byte) (r : Request) (s : State), s.mode = .running → r.length = 2 →
    r.bytes = hi :: lo :: rest → 320 ≤ 256 * hi.toNat + lo.toNat →
    exec (.readTerminal r) s = .next (s.emit (soleReply 0x12 r.tag 0x03 [])))
  ∧ ∀ (k : Slot) (r : Request) (s : State) (t : Terminal), s.mode = .running → ForSlot r k → t = s.term k →
    ∃ results : List Byte, exec (.readTerminal r) s = .next (s.emit (soleReply 0x12 r.tag 0x00 results))
      ∧ results.length = 72
      ∧ ∀ field ∈ ([
          (0, bytesOf16 k.val), (2, [byteOf t.sector.val]), (3, bytes16 (t.linkAddress.setWidth 16)),
          (5, [byteOf t.priority.val]), (6, [byteOf t.maxRung]), (7, [termStateCode t.state]), (8, [byteOf t.rung]),
          (9, match t.pendingShift with
            | none => [0, 0, 0, 0]
            | some { target := p, effective := none } => [1, byteOf p, 0, 0]
            | some { target := p, effective := some e } => [2, byteOf p] ++ bytes16 e),
          (13, optByte (t.restoreRung.map byteOf)), (15, optWord (t.lossF.map (BitVec.ofNat 16))),
          (18, optWord (t.filtered.map (BitVec.ofNat 16))), (21, [byteOf t.history.length]),
          (22, bytesOf16 (t.history.getD 0 0)), (24, bytesOf16 (t.history.getD 1 0)), (26, bytesOf16 (t.history.getD 2 0)),
          (28, bytesOf16 (t.history.getD 3 0)), (30, bytesOf16 (t.history.getD 4 0)), (32, bytesOf16 (t.history.getD 5 0)),
          (34, bytesOf16 (t.history.getD 6 0)), (36, bytesOf16 (t.history.getD 7 0)),
          (38, [byteOf t.lastHeadroom]), (39, [signedByte t.power]), (40, optByte (t.pendingAdjust.map signedByte)),
          (42, [byteOf t.missRun]), (43, [byteOf t.floorRun]), (44, [byteOf t.climbDwell]), (45, [byteOf t.rampSettle]),
          (46, bytesOf16 t.phaseReports), (48, [byteOf t.attemptCount]), (49, [byteOf t.roundCount]),
          (50, optWord t.expectedBurst), (53, bytesOf16 t.backoff), (55, [yesNo t.probed]),
          (56, [yesNo t.verification.started]), (57, [yesNo t.verification.completed]),
          (58, [outcomeCode t.verification.outcome]), (59, bytes16 t.verification.startFrame),
          (61, [byteOf t.verification.failedBlocks]),
          (62, match t.verification.firstFault with
            | none => [0, 0, 0, 0, 0, 0]
            | some f => [1, byteOf f.block, byteOf f.offset, f.expected] ++ optByte f.received),
          (68, [stickyByte t.sticky]), (69, [perReportByte t.perReport]), (70, [owedByte t.owed]),
          (71, [yesNo t.noticePending])] : List (Nat × List Byte)),
        (results.drop field.1).take field.2.length = field.2

/-- CLEAR HEALTH: a slot out of range is refused with BAD_PARAMETER and an EMPTY slot with WRONG_STATE; else all five sticky fields
are cleared, no notice is offered, and the reply is OK; a degraded_cap bound that DEGRADED had put on the climb cap stands until
the terminal's next report, which the model's `capKept` remembers, and every other field is unchanged (R31, R37). -/
def Obligations.ClearHealthClearsStickyFields : Prop :=
  ∀ (r : Request) (s : State), s.mode = .running →
    (∀ hi lo rest, r.length = 2 → r.bytes = hi :: lo :: rest → 320 ≤ 256 * hi.toNat + lo.toNat →
      exec (.clearHealth r) s = .next (s.emit (soleReply 0x13 r.tag 0x03 [])))
    ∧ ∀ k, ForSlot r k →
      ((s.term k).state = .empty → exec (.clearHealth r) s = .next (s.emit (soleReply 0x13 r.tag 0x04 [])))
      ∧ ((s.term k).state ≠ .empty → exec (.clearHealth r) s = .next (State.emit (s.setTerm k
          { s.term k with
            sticky := { ceiling := false, degraded := false, rampUnsettled := false, exhausted := false, onsetDrop := false }
            capKept := (s.term k).capKept || (s.term k).sticky.degraded })
          (soleReply 0x13 r.tag 0x00 [])))

/-! ## Requests of the sector controller -/

/-- SET SECTOR: a configuration within the ranges of 3-2 replaces the sector's, a probe timer above the new probe_interval is set
to it, nothing else changes and no notice is offered; any other configuration is refused with BAD_PARAMETER (R39, R40). -/
def Obligations.SetSectorReplacesTheConfiguration : Prop :=
  ∀ (j : Sector) (c : SectorConfig) (rest : List Byte) (r : Request) (s : State), s.mode = .running → r.length = 34 →
    r.bytes = byteOf j.val :: c.wire ++ rest → c.Fits →
    (c.Right → exec (.setSector r) s = .next (State.emit (s.setSec j
      { s.sec j with
        config := c
        probeTimer := if c.probeInterval < (s.sec j).probeTimer then c.probeInterval else (s.sec j).probeTimer })
      (soleReply 0x20 r.tag 0x00 [])))
    ∧ (¬c.Right → exec (.setSector r) s = .next (s.emit (soleReply 0x20 r.tag 0x03 [])))

/-- READ SECTOR and READ QUEUE answer OK in every sector state and change nothing. Their results hold what 11-4 lists, in its
order; results of at most 192 bytes go out in one reply frame, longer ones of at most 384 in two (R41, R126, R156). That a prior
state shows the code of the sector state it is, is the model's choice (log entry 26). -/
def Obligations.SectorReadsShowTheSector : Prop :=
  ∀ (j : Sector) (r : Request) (s : State) (x : SectorRec) (sent : Byte → List Byte → State), s.mode = .running →
    ForSector r j → x = s.sec j →
    (∀ code results, (results.length ≤ 192 → sent code results = s.emit (soleReply code r.tag 0x00 results))
      ∧ (192 < results.length → results.length ≤ 384 → sent code results =
          State.emit (s.emit ([0x93, 0x03, 0xFF, 0x00, 0x00, code] ++ bytes16 r.tag ++ [0x00, 0x00, 0x00, 192] ++ results.take 192))
            ([0x93, 0x03, 0xFF, 0x00, 0x00, code] ++ bytes16 r.tag ++ [0x00, 0x01, 0x01, byteOf (results.length - 192)]
              ++ results.drop 192))) →
    (∀ results : List Byte, results =
        [byteOf j.val, sectorStateCode x.state]
          ++ (match x.prior with
            | none => ([0, 0] : List Byte)
            | some .clear => [1, 1]
            | some .outage => [1, 2]
            | some .recovering => [1, 3])
          ++ [(if x.suspendPending then 1 else 0 : Byte)] ++ x.config.wire
          ++ (match x.lead with
            | none => ([0, 0, 0] : List Byte)
            | some k => 1 :: bytesOf16 k.val)
          ++ [byteOf x.leadFailures] ++ bytesOf16 x.probeTimer
          ++ (match x.releaseCursor with
            | none => ([0, 0, 0] : List Byte)
            | some k => 1 :: bytesOf16 k.val)
          ++ [byteOf x.blindCounter, byteOf x.progressCounter]
          ++ (match x.lastEvaluated with
            | none => ([0, 0, 0] : List Byte)
            | some n => 1 :: bytes16 n)
          ++ [byteOf x.population]
          ++ (([.empty, .held, .inService, .fading, .quiet, .waiting, .deferred, .ranging, .verifying, .ramping,
              .climbing] : List TermState).map fun st =>
                byteOf ((List.finRange 320).countP fun k => s.belongs j k && (s.term k).state == st))
          ++ [byteOf x.queue.length, byteOf x.window.length, byteOf x.controlQueue.length, byteOf x.lossLog.length]
          ++ (x.lossLog.map fun e => bytesOf16 e.slot.val ++ bytes16 e.frame).flatten →
      (x.lossLog.length ≤ 64 → results.length = 68 + 4 * x.lossLog.length ∧
        exec (.readSector r) s = .next (sent 0x21 results)))
    ∧ (∀ (deferred : List Slot) (results : List Byte),
      deferred = (List.finRange 320).filter (fun k => s.belongs j k && (s.term k).state == .deferred) →
      results =
        [sectorStateCode x.state, byteOf x.config.windowSize, byteOf x.queue.length]
          ++ (x.queue.map fun k =>
              bytesOf16 k.val ++ [byteOf (s.term k).priority.val, byteOf (s.term k).attemptCount]).flatten
          ++ [byteOf x.window.length]
          ++ (x.window.map fun k =>
              bytesOf16 k.val ++ [termStateCode (s.term k).state, byteOf (s.term k).roundCount, byteOf (s.term k).attemptCount]
                ++ (match (s.term k).expectedBurst with
                  | none => ([0, 0, 0] : List Byte)
                  | some n => 1 :: bytes16 n)).flatten
          ++ [byteOf deferred.length]
          ++ (deferred.map fun k =>
              bytesOf16 k.val ++ [byteOf (s.term k).attemptCount] ++ bytesOf16 (s.term k).backoff).flatten →
      results.length = 5 + 4 * x.queue.length + 8 * x.window.length + 5 * deferred.length
        ∧ (results.length ≤ 384 → exec (.readQueue r) s = .next (sent 0x42 results)))

/-- ENABLE SECTOR brings a DISABLED sector into CLEAR with its counters and optional fields at their first values while a ladder is
active and no earlier evaluation is in flight; DISABLE SECTOR takes a sector whose terminals are all HELD, with no suspend pending,
out of service, emptying its loss log and waiting bank. Either offers the sector (R8, R12, R42, R43). That the marks of reactions
that are due stand meanwhile is the model's choice (log entry 30). -/
def Obligations.EnableAndDisableSector : Prop :=
  ∀ (j : Sector) (r : Request) (s : State) (x : SectorRec), s.mode = .running → ForSector r j → s.sec j = x →
    (x.state = .disabled → s.ladder.active ≠ none → x.evaluation = none →
      exec (.enableSector r) s = .next (State.emit (State.offerSector (s.setSec j
        { x with
          state := .clear, blindCounter := 0, progressCounter := 0, lead := none, releaseCursor := none, prior := none
          leadFailures := 0, probeTimer := 0, suspendPending := false, lastEvaluated := none }) j)
        (soleReply 0x22 r.tag 0x00 [])))
    ∧ (x.state ≠ .disabled → x.suspendPending = false → (∀ k, s.belongs j k = true → (s.term k).state = .held) →
      exec (.disableSector r) s = .next (State.emit (State.offerSector (s.setSec j
        { x with
          state := .disabled, waitingBank := none, lossLog := [], lead := none, releaseCursor := none, prior := none
          leadFailures := 0, probeTimer := 0, blindCounter := 0, progressCounter := 0 }) j)
        (soleReply 0x23 r.tag 0x00 [])))

/-- SUSPEND SECTOR with no evaluation in flight takes effect at once: the prior state takes the working state, the waiting bank is
emptied, the sector is offered and the reply is OK; with one in flight the suspend is pending and there is no reply yet. RESUME
SECTOR returns a SUSPENDED sector to its prior state (R8, R57, R58, R59). The tag kept for the later reply and the progress counter
at the entry into SUSPENDED are the model's, and so is it that the marks of reactions that are due stand meanwhile (log entries
13, 17 and 30). -/
def Obligations.SuspendAndResumeSector : Prop :=
  ∀ (j : Sector) (r : Request) (s : State) (x : SectorRec) (w : WorkState), s.mode = .running → ForSector r j → s.sec j = x →
    (x.InService → x.suspendPending = false → (x.state = w.toSector ∨ x.state = .blind ∧ x.prior = some w) →
      (x.evaluation = none →
        exec (.suspendSector r) s = .next (State.emit (State.offerSector (s.setSec j
          { x with
            state := .suspended, suspendPending := false, prior := some w, waitingBank := none, progressCounter := 0 }) j)
          (soleReply 0x24 r.tag 0x00 [])))
      ∧ (x.evaluation ≠ none →
        exec (.suspendSector r) s = .next (s.setSec j { x with suspendPending := true, suspendTag := r.tag })))
    ∧ (x.state = .suspended → x.prior = some w →
      exec (.resumeSector r) s = .next (State.emit (State.offerSector (s.setSec j
        { x with
          state := w.toSector, prior := none, blindCounter := 0, lastEvaluated := none, progressCounter := 0 }) j)
        (soleReply 0x25 r.tag 0x00 [])))

/-- RESET SECTOR puts every terminal of a sector that is neither EMPTY nor HELD back at the start of re-entry and offers it if its
state changed, empties the window, the control queue and the loss log, rebuilds the queue by priority class and slot, clears the
sector's counters and optional fields, and enters CLEAR (R61, R135). What the evaluation in flight remembers of the window is the
model's own (log entry 19). -/
def Obligations.ResetSectorRestartsReEntry : Prop :=
  ∀ (j : Sector) (r : Request) (s : State) (moved : List Slot), s.mode = .running → ForSector r j → (s.sec j).InService →
    moved = (List.finRange 320).filter (fun k => s.belongs j k && (s.term k).state != .held) →
    ∃ t, exec (.resetSector r) s = .next t ∧ s.SameAround t
      ∧ t.controllerOut = s.controllerOut ++ [soleReply 0x26 r.tag 0x00 []]
      ∧ (∀ i, i ≠ j → t.sec i = s.sec i) ∧ (∀ k, k ∉ moved → t.term k = s.term k)
      ∧ t.sec j =
        { s.sec j with
          state := .clear, prior := none, lossLog := [], lead := none, leadFailures := 0, probeTimer := 0
          releaseCursor := none, blindCounter := 0, progressCounter := 0, window := [], controlQueue := []
          queue := ((List.finRange 4).map fun p => moved.filter fun k => (s.term k).priority == p).flatten
          evaluation := (s.sec j).evaluation.map fun e => { e with swept := [] } }
      ∧ (∀ k ∈ moved, t.term k =
        { s.term k with
          state := .waiting, rung := 0, power := 0, filtered := none, history := [], pendingShift := none
          pendingAdjust := none, expectedBurst := none, missRun := 0, floorRun := 0, climbDwell := 0, rampSettle := 0
          phaseReports := 0, attemptCount := 0, roundCount := 0, backoff := 0, probed := false
          owed := { correct := false, verify := false, power := false, shift := false }
          verification :=
            if (s.term k).state = .verifying ∧ (s.term k).verification.started = true
                ∧ (s.term k).verification.completed = false ∧ (s.term k).verification.outcome = .none then
              { (s.term k).verification with outcome := .aborted }
            else (s.term k).verification
          noticePending := (s.term k).noticePending
            || ((s.term k).state != .waiting && !s.notices.contains (.terminal k)) })
      ∧ (∀ k ∈ moved, (s.term k).state ≠ .waiting → .terminal k ∈ t.notices)
      ∧ ((s.sec j).state ≠ .clear → .sector j ∈ t.notices)

/-- FORCE OUTAGE in CLEAR or RECOVERING: the sector enters OUTAGE and its walk is abandoned; every WAITING, DEFERRED, RANGING and
VERIFYING terminal becomes QUIET with the fields of the declaration, and no other terminal of it moves; all probed marks are
cleared; the lead is a terminal of the highest loss F, the lowest slot of equals, with the probe timer at probe_interval; with no
QUIET terminal left the sector is CLEAR again. The loss log is kept (R47, R48, R60, R135). The sector's terminals owe no message
here, so that the owed scan adds none; what the evaluation in flight remembers is the model's own (log entry 19). -/
def Obligations.ForceOutageSilencesTheSector : Prop :=
  ∀ (j : Sector) (r : Request) (s : State) (moved quiet : List Slot), s.mode = .running → ForSector r j →
    ((s.sec j).state = .clear ∨ (s.sec j).state = .recovering) →
    (∀ k, s.belongs j k = true → (s.term k).owed = {}) →
    moved = (List.finRange 320).filter (fun k =>
      s.belongs j k && [.waiting, .deferred, .ranging, .verifying].contains (s.term k).state) →
    quiet = (List.finRange 320).filter (fun k => k ∈ moved || (s.belongs j k && (s.term k).state == .quiet)) →
    ∃ t, exec (.forceOutage r) s = .next t ∧ s.SameAround t
      ∧ t.controllerOut = s.controllerOut ++ [soleReply 0x27 r.tag 0x00 []]
      ∧ (∀ i, i ≠ j → t.sec i = s.sec i) ∧ (∀ k, s.belongs j k = false → t.term k = s.term k)
      ∧ (∀ k, s.belongs j k = true → k ∉ moved → t.term k = { s.term k with probed := false })
      ∧ (∀ k ∈ moved, t.term k = Terminal.offered s.notices k
        { s.term k with
          state := .quiet, expectedBurst := none, backoff := 0, roundCount := 0, filtered := none, history := [], power := 0
          pendingAdjust := none, probed := false
          verification :=
            if (s.term k).state = .verifying ∧ (s.term k).verification.started = true
                ∧ (s.term k).verification.completed = false ∧ (s.term k).verification.outcome = .none then
              { (s.term k).verification with outcome := .aborted }
            else (s.term k).verification })
      ∧ (∀ k ∈ moved, .terminal k ∈ t.notices) ∧ .sector j ∈ t.notices
      ∧ (∃ lead, (quiet = [] ∧ lead = none
            ∨ ∃ m ∈ quiet, lead = some m ∧ ∀ i ∈ quiet, i ≠ m →
              (s.term i).leadRank < (s.term m).leadRank ∨ (s.term i).leadRank = (s.term m).leadRank ∧ m < i)
        ∧ t.sec j =
          { s.sec j with
            state := if quiet = [] then .clear else .outage
            progressCounter := 0, releaseCursor := none, lead := lead, leadFailures := 0
            probeTimer := if quiet = [] then 0 else (s.sec j).config.probeInterval
            queue := (s.sec j).queue.filter fun k => !moved.contains k
            window := (s.sec j).window.filter fun k => !moved.contains k
            controlQueue := (s.sec j).controlQueue.filter fun e => !moved.contains e.slot
            evaluation := (s.sec j).evaluation.map fun e =>
              { e with swept := e.swept.filter fun k => !moved.contains k } })

/-! ## Requests of the ladder store -/

/-- LOAD LADDER BLOCK writes its 32 bytes over one block of the standby bank and stages the block; a held standby bank is answered
BUSY, and a block index above 2 BAD_PARAMETER (R79, R80, R82). -/
def Obligations.LoadLadderBlockStagesABlock : Prop :=
  ∀ (i : Byte) (bs rest : List Byte) (n : Fin 2) (r : Request) (s : State), s.mode = .running → r.length = 33 →
    r.bytes = i :: bs ++ rest → bs.length = 32 → (s.ladder.active = none → n = 0) →
    (∀ a, s.ladder.active = some a → n ≠ a) →
    (∀ h : i.toNat < 3, (s.bank n).holds = 0 →
      exec (.loadLadderBlock r) s = .next (State.emit
        { s with ladder :=
          { active := s.ladder.active
            staged := s.ladder.staged.set i.toNat true
            banks := s.ladder.banks.set n.val
              { holds := 0
                bytes := Vector.ofFn fun x : Fin 96 =>
                  if x.val / 32 = i.toNat then bs.getD (x.val % 32) 0 else (s.bank n).bytes[x.val] } } }
        (soleReply 0x30 r.tag 0x00 [])))
    ∧ (i.toNat < 3 → 0 < (s.bank n).holds → exec (.loadLadderBlock r) s = .next (s.emit (soleReply 0x30 r.tag 0x05 [])))
    ∧ (3 ≤ i.toNat → exec (.loadLadderBlock r) s = .next (s.emit (soleReply 0x30 r.tag 0x03 [])))

/-- ACTIVATE LADDER checks the image of the standby bank in order: the first check that fails is the reason of the rejection, with
the first invalid rung for reason 6, and nothing changes. When all six pass the standby bank becomes active, the staged blocks are
emptied, every terminal record is clamped to the new top rung, and a carrying terminal without a pending shift whose rung was
reduced or whose profile code changed is re-announced in a queued SHIFT or an owed one (R78, R83 to R88). -/
def Obligations.ActivateLadderChecksAndClamps : Prop :=
  ∀ (n : Fin 2) (r : Request) (s : State) (b : LadderBank), s.mode = .running → r.length = 0 →
    (s.ladder.active = none → n = 0) → (∀ a, s.ladder.active = some a → n ≠ a) → b = s.bank n →
    (∀ reason, 1 ≤ reason → reason ≤ 5 → (∀ m, 1 ≤ m → m < reason → b.Check s.ladder.staged m) →
      ¬b.Check s.ladder.staged reason →
      exec (.activateLadder r) s = .next (s.emit (soleReply 0x31 r.tag 0x08 [byteOf reason])))
    ∧ (∀ m, (∀ c, 1 ≤ c → c ≤ 5 → b.Check s.ladder.staged c) → m < b.rungCount → ¬b.RungRight m →
      (∀ i, i < m → b.RungRight i) →
      exec (.activateLadder r) s = .next (s.emit (soleReply 0x31 r.tag 0x08 [6, byteOf m])))
    ∧ ((∀ c, 1 ≤ c → c ≤ 6 → b.Check s.ladder.staged c) →
      ∃ t, exec (.activateLadder r) s = .next t
        ∧ t.mode = s.mode ∧ t.startUp = s.startUp ∧ t.latch = s.latch ∧ t.notices = s.notices ∧ t.transit = s.transit
        ∧ t.radioOut = s.radioOut ∧ t.pending = s.pending
        ∧ t.controllerOut = s.controllerOut ++ [soleReply 0x31 r.tag 0x00 ([byteOf n.val, b.byte 6, b.byte 7])]
        ∧ t.ladder = { s.ladder with active := some n, staged := Vector.replicate 3 false }
        ∧ (∀ j, t.sec j = { s.sec j with controlQueue := (t.sec j).controlQueue })
        ∧ ∀ k, ((s.term k).state = .empty → t.term k = s.term k)
          ∧ ∀ clamped : Terminal, (s.term k).state ≠ .empty → clamped =
              { s.term k with
                rung := min (s.term k).rung (b.rungCount - 1)
                pendingShift := (s.term k).pendingShift.map fun p => { p with target := min p.target (b.rungCount - 1) }
                restoreRung := (s.term k).restoreRung.map fun x => min x (b.rungCount - 1)
                owed := (t.term k).owed } →
            ((((s.term k).state = .inService ∨ (s.term k).state = .fading ∨ (s.term k).state = .ramping
                  ∨ (s.term k).state = .climbing)
                ∧ (s.term k).pendingShift = none
                ∧ (clamped.rung < (s.term k).rung
                  ∨ ∃ old, s.activeBank = some old ∧ b.code clamped.rung ≠ old.code (s.term k).rung)) →
              t.term k = { clamped with pendingShift := some { target := clamped.rung, effective := none } }
                ∧ ((∃ e ∈ (t.sec (s.term k).sector).controlQueue, e.slot = k ∧ e.kind = .shift)
                  ∨ (t.term k).owed = { (s.term k).owed with shift := true }))
            ∧ (¬(((s.term k).state = .inService ∨ (s.term k).state = .fading ∨ (s.term k).state = .ramping
                  ∨ (s.term k).state = .climbing)
                ∧ (s.term k).pendingShift = none
                ∧ (clamped.rung < (s.term k).rung
                  ∨ ∃ old, s.activeBank = some old ∧ b.code clamped.rung ≠ old.code (s.term k).rung)) →
              t.term k = { clamped with owed := (s.term k).owed }))

/-- READ LADDER shows one bank as it stands, with the active-bank index, its hold count and the staged-block set, and changes
nothing; any other bank number is refused with BAD_PARAMETER (R90). -/
def Obligations.ReadLadderShowsABank : Prop :=
  ∀ (i : Byte) (rest : List Byte) (r : Request) (s : State), s.mode = .running → r.length = 1 → r.bytes = i :: rest →
    (∀ n : Fin 2, i.toNat = n.val →
      exec (.readLadder r) s = .next (s.emit (soleReply 0x32 r.tag 0x00
        ((match s.ladder.active with
            | none => ([0, 0] : List Byte)
            | some a => [1, byteOf a.val])
          ++ [byteOf (s.bank n).holds,
            (if s.ladder.staged[0] then 1 else 0) + (if s.ladder.staged[1] then 2 else 0)
              + (if s.ladder.staged[2] then 4 else 0)]
          ++ (s.bank n).bytes.toList))))
    ∧ (2 ≤ i.toNat → exec (.readLadder r) s = .next (s.emit (soleReply 0x32 r.tag 0x03 [])))

/-! ## Requests of the re-entry scheduler -/

/-- HOLD TERMINAL takes a terminal out of service and of re-entry: it leaves the queue, the window and the control queue, an
exchange in flight is ABORTED, a carrying terminal loses its pending shift, and it becomes HELD and is offered; where it was the
lead of an OUTAGE sector the next lead is chosen; a HELD terminal is answered OK and nothing changes. RELEASE TERMINAL puts a HELD
terminal back: QUIET where the working state is OUTAGE, else WAITING at the tail of its class (R52, R108, R113, R123, R125, R135,
R145). For the hold, the sector's other terminals owe no message, so that the owed scan adds none; what the evaluation in flight
remembers of the slot is the model's own (log entry 19). -/
def Obligations.HoldAndReleaseTerminal : Prop :=
  ∀ (k : Slot) (j : Sector) (r : Request) (s : State) (x : SectorRec) (u : Terminal), s.mode = .running → ForSlot r k →
    s.belongs j k = true →
    ((s.term k).state = .held → exec (.holdTerminal r) s = .next (s.emit (soleReply 0x40 r.tag 0x00 [])))
    ∧ ((s.term k).state ≠ .held → (∀ i, s.belongs j i = true → i ≠ k → (s.term i).owed = {}) →
      x =
        { s.sec j with
          queue := (s.sec j).queue.filter fun i => i != k
          window := (s.sec j).window.filter fun i => i != k
          controlQueue := (s.sec j).controlQueue.filter fun e => e.slot != k
          evaluation := (s.sec j).evaluation.map fun e => { e with swept := e.swept.filter fun i => i != k } } →
      u =
        { s.term k with
          state := .held
          expectedBurst := none
          pendingShift :=
            if (s.term k).state = .inService ∨ (s.term k).state = .fading ∨ (s.term k).state = .ramping
                ∨ (s.term k).state = .climbing then none
            else (s.term k).pendingShift
          owed := { correct := false, verify := false, power := false, shift := false }
          verification :=
            if (s.term k).state = .verifying ∧ (s.term k).verification.started = true
                ∧ (s.term k).verification.completed = false ∧ (s.term k).verification.outcome = .none then
              { (s.term k).verification with outcome := .aborted }
            else (s.term k).verification } →
      ((s.sec j).lead ≠ some k →
        exec (.holdTerminal r) s = .next (State.emit (State.offerTerminal ((s.setSec j x).setTerm k u) k)
          (soleReply 0x40 r.tag 0x00 [])))
      ∧ ∀ m, (s.sec j).lead = some k → (s.sec j).state = .outage → s.NextLead j k m →
        exec (.holdTerminal r) s = .next (State.emit (State.offerTerminal
          ((s.setSec j { x with lead := some m, leadFailures := 0 }).setTerm k u) k) (soleReply 0x40 r.tag 0x00 [])))
    ∧ ((s.term k).state = .held → (s.sec j).InService →
      u =
        { s.term k with
          rung := 0, power := 0, filtered := none, history := [], missRun := 0, floorRun := 0, climbDwell := 0
          rampSettle := 0, phaseReports := 0, roundCount := 0, attemptCount := 0, backoff := 0 } →
      ((s.sec j).working = some .outage →
        exec (.releaseTerminal r) s = .next (State.emit (State.offerTerminal
          (s.setTerm k { u with state := .quiet }) k) (soleReply 0x41 r.tag 0x00 [])))
      ∧ ∀ front back, (s.sec j).working ≠ some .outage → (s.sec j).queue = front ++ back →
        (∀ i ∈ front, i ≠ k ∧ (s.term i).priority ≤ (s.term k).priority) →
        (∀ i ∈ back, i ≠ k ∧ (s.term k).priority < (s.term i).priority) →
        exec (.releaseTerminal r) s = .next (State.emit (State.offerTerminal
          ((s.setSec j { s.sec j with queue := front ++ k :: back }).setTerm k { u with state := .waiting }) k)
          (soleReply 0x41 r.tag 0x00 [])))

/-! ## Refusals by the owning blocks -/

/-- A request its owning block refuses is answered with the status of the first check that fails, and changes nothing: a slot or a
sector out of range, then the states each request asks for, in the order of the request's own rule (R34, R42, R43, R57, R59, R60,
R61, R123, R125, R155). -/
def Obligations.OwnersRefuse : Prop :=
  ∀ (r : Request) (s : State) (refused : Byte → Byte → Result), s.mode = .running →
    (∀ code status, refused code status = .next (s.emit (soleReply code r.tag status []))) →
    (∀ f ∈ [RequestKind.removeTerminal, .readTerminal, .clearHealth, .holdTerminal, .releaseTerminal], ∀ hi lo rest,
      r.length = 2 → r.bytes = hi :: lo :: rest → 320 ≤ 256 * hi.toNat + lo.toNat →
      exec (commandOf f r) s = refused (functionCode f) 0x03)
    ∧ (∀ f ∈ [RequestKind.readSector, .enableSector, .disableSector, .suspendSector, .resumeSector, .resetSector,
        .forceOutage, .readQueue], ∀ b rest,
      r.length = 1 → r.bytes = b :: rest → 12 ≤ b.toNat → exec (commandOf f r) s = refused (functionCode f) 0x03)
    ∧ (∀ b rest, r.length = 34 → 34 ≤ r.bytes.length → r.bytes = b :: rest → 12 ≤ b.toNat →
        exec (.setSector r) s = refused 0x20 0x03)
    ∧ (∀ b0 b1 b2 b3 b4 b5 b6 rest, r.length = 7 → r.bytes = b0 :: b1 :: b2 :: b3 :: b4 :: b5 :: b6 :: rest →
      (320 ≤ 256 * b0.toNat + b1.toNat ∨ 12 ≤ b2.toNat ∨ 256 * b3.toNat + b4.toNat = 0
          ∨ 4095 ≤ 256 * b3.toNat + b4.toNat ∨ 4 ≤ b5.toNat ∨ 16 ≤ b6.toNat →
        exec (.provisionTerminal r) s = refused 0x10 0x03)
      ∧ (∀ (k : Slot) (j : Sector) (a : BitVec 12), k.val = 256 * b0.toNat + b1.toNat → j.val = b2.toNat →
        a.toNat = 256 * b3.toNat + b4.toNat → 1 ≤ a.toNat → a.toNat ≤ 4094 → b5.toNat ≤ 3 → b6.toNat ≤ 15 →
        ((s.term k).state ≠ .empty ∨ 64 ≤ (s.sec j).population → exec (.provisionTerminal r) s = refused 0x10 0x06)
        ∧ ((s.term k).state = .empty → (s.sec j).population < 64 → (∃ m, (a, m) ∈ (s.sec j).addressMap) →
          exec (.provisionTerminal r) s = refused 0x10 0x07)))
    ∧ (∀ k, ForSlot r k →
      ((s.term k).state = .empty → exec (.holdTerminal r) s = refused 0x40 0x04)
      ∧ ((s.term k).state ≠ .held ∨ ¬(s.sec (s.term k).sector).InService →
        exec (.releaseTerminal r) s = refused 0x41 0x04))
    ∧ ∀ j x, ForSector r j → s.sec j = x →
      (x.state ≠ .disabled ∨ s.ladder.active = none → exec (.enableSector r) s = refused 0x22 0x04)
      ∧ (x.state = .disabled → s.ladder.active ≠ none → x.evaluation ≠ none → exec (.enableSector r) s = refused 0x22 0x05)
      ∧ (x.state = .disabled → exec (.disableSector r) s = refused 0x23 0x04)
      ∧ (x.state ≠ .disabled → x.suspendPending = true → exec (.disableSector r) s = refused 0x23 0x05)
      ∧ (x.state ≠ .disabled → x.suspendPending = false → (∃ k, s.belongs j k = true ∧ (s.term k).state ≠ .held) →
        exec (.disableSector r) s = refused 0x23 0x04)
      ∧ (¬x.InService → exec (.suspendSector r) s = refused 0x24 0x04 ∧ exec (.resetSector r) s = refused 0x26 0x04)
      ∧ (x.InService → x.suspendPending = true → exec (.suspendSector r) s = refused 0x24 0x05)
      ∧ (x.state ≠ .suspended → exec (.resumeSector r) s = refused 0x25 0x04)
      ∧ (x.state ≠ .clear → x.state ≠ .recovering → exec (.forceOutage r) s = refused 0x27 0x04)

/-! ## What every step keeps -/

/-- Every step keeps the part's structure: outside RUNNING mode every block but the management unit is as device reset leaves it;
a sector's queue, window, control queue and lead name only its own terminals; EMPTY slots hold the empty values, each population
counts its sector's non-EMPTY slots up to 64, and each address map pairs exactly their addresses, each once (R19, R20, R35,
R158, R159). -/
def Obligations.StructureKept : Prop :=
  ∀ s t : State, s.AtRest → s.Homed → s.TableAgrees → step s = .next t → t.AtRest ∧ t.Homed ∧ t.TableAgrees

/-- Every step keeps the ranges of the terminal records and of the sector records: power, F, history, loss F, headroom, pending
adjust and attempt count; configuration, loss log, counters and control queue, which never holds two entries of one terminal and
kind and stands in class order (R24, R26, R38, R39, R46, R62, R68, R140). -/
def Obligations.RangesKept : Prop :=
  ∀ s t : State, s.AtRest → s.Homed → s.TableAgrees → step s = .next t →
    ((∀ k, (s.term k).InRange) → ∀ k, (t.term k).InRange) ∧ ((∀ j, (s.sec j).InRange) → ∀ j, (t.sec j).InRange)

/-- Every step keeps the notice queue free of duplicates, and notice pending yes exactly for the terminals that stand in it (R28,
R167). -/
def Obligations.NoticesKept : Prop :=
  ∀ s t : State, s.AtRest → s.Homed → s.TableAgrees → s.NoticesAgree → step s = .next t → t.NoticesAgree

/-- Every step keeps a terminal in its sector's re-entry queue exactly while it is WAITING and in its sector's re-entry window
exactly while it is RANGING or VERIFYING, no slot twice in either, and the queue in class order (R108). -/
def Obligations.MembersKept : Prop :=
  ∀ s t : State, s.AtRest → s.Homed → s.TableAgrees → s.MembersAgree → step s = .next t → t.MembersAgree

/-- Every step keeps the hold counts equal to the number of evaluations in flight that hold each bank and a held standby bank
without staged blocks; and it keeps every rung, pending target and restore rung below the active ladder's rung count, and while no
ladder is active every terminal EMPTY or HELD at rung 0 (R13, R81, R85, R89). -/
def Obligations.LadderStoreKept : Prop :=
  ∀ s t : State, s.AtRest → s.Homed → s.TableAgrees → s.HoldsAgree → step s = .next t →
    t.HoldsAgree ∧ (s.RungsOnLadder → t.RungsOnLadder)

/-- A sector's own events reach no other sector: the reactions to its sector frames, the fillings, the maturities and the steps of
its evaluations change no record of another sector and no terminal that is not its own, nor the mode, the start-up record, the
latch or the waiting commands (R17, R21, R44, R110, R146). -/
def Obligations.SectorsAreIsolated : Prop :=
  ∀ (j : Sector) (c : Instr) (s t : State), s.Homed → s.TableAgrees →
    (c ∈ [.sectorFrameReaction j, .blindEntry j, .probe j, .progressNotice j, .reEntrySchedulerReaction j, .slotFilling j,
        .descriptorWalkStep j, .windowSweepStep j, .evaluationCompletion j]
      ∨ (∃ k, c = .shiftMaturity j k) ∨ ∃ k, c = .backoffExpiry k ∧ s.belongs j k = true) →
    exec c s = .next t →
    (∀ i, i ≠ j → t.sec i = s.sec i) ∧ (∀ k, s.belongs j k = false → t.term k = s.term k)
      ∧ t.mode = s.mode ∧ t.startUp = s.startUp ∧ t.latch = s.latch ∧ t.pending = s.pending
end

