-- ==== Sys2Proof/Laws/State.lean ====
section
/-!
SUPPORT. The small lemmas of the state: what each update of Machine/Ops.lean and Machine/Ladder.lean leaves in each field,
and what a record reads as after an update of the same or of another record.
-/

set_option Elab.async false

namespace Sys2Proof.Machine

/-! ## Fields after a written terminal record -/

@[simp] theorem State.setTerm_mode (s : State) (k : Slot) (t : Terminal) : (s.setTerm k t).mode = s.mode := rfl

@[simp] theorem State.setTerm_startUp (s : State) (k : Slot) (t : Terminal) : (s.setTerm k t).startUp = s.startUp := rfl

@[simp] theorem State.setTerm_sectors (s : State) (k : Slot) (t : Terminal) : (s.setTerm k t).sectors = s.sectors := rfl

@[simp] theorem State.setTerm_ladder (s : State) (k : Slot) (t : Terminal) : (s.setTerm k t).ladder = s.ladder := rfl

@[simp] theorem State.setTerm_latch (s : State) (k : Slot) (t : Terminal) : (s.setTerm k t).latch = s.latch := rfl

@[simp] theorem State.setTerm_notices (s : State) (k : Slot) (t : Terminal) : (s.setTerm k t).notices = s.notices := rfl

@[simp] theorem State.setTerm_transit (s : State) (k : Slot) (t : Terminal) : (s.setTerm k t).transit = s.transit := rfl

@[simp] theorem State.setTerm_controllerOut (s : State) (k : Slot) (t : Terminal) : (s.setTerm k t).controllerOut = s.controllerOut := rfl

@[simp] theorem State.setTerm_radioOut (s : State) (k : Slot) (t : Terminal) : (s.setTerm k t).radioOut = s.radioOut := rfl

@[simp] theorem State.setTerm_pending (s : State) (k : Slot) (t : Terminal) : (s.setTerm k t).pending = s.pending := rfl

/-! ## The degraded_cap bound that outlives DEGRADED -/

@[simp] theorem Terminal.keepCap_capKept (t : Terminal) : t.keepCap.capKept = (t.capKept || t.sticky.degraded) := rfl

@[simp] theorem Terminal.keepCap_sticky (t : Terminal) : t.keepCap.sticky = t.sticky := rfl

@[simp] theorem Terminal.keepCap_state (t : Terminal) : t.keepCap.state = t.state := rfl

@[simp] theorem Terminal.keepCap_sector (t : Terminal) : t.keepCap.sector = t.sector := rfl

/-! ## Fields after a changed terminal record -/

@[simp] theorem State.modTerm_mode (s : State) (k : Slot) (f : Terminal → Terminal) : (s.modTerm k f).mode = s.mode := rfl

@[simp] theorem State.modTerm_startUp (s : State) (k : Slot) (f : Terminal → Terminal) : (s.modTerm k f).startUp = s.startUp := rfl

@[simp] theorem State.modTerm_sectors (s : State) (k : Slot) (f : Terminal → Terminal) : (s.modTerm k f).sectors = s.sectors := rfl

@[simp] theorem State.modTerm_ladder (s : State) (k : Slot) (f : Terminal → Terminal) : (s.modTerm k f).ladder = s.ladder := rfl

@[simp] theorem State.modTerm_latch (s : State) (k : Slot) (f : Terminal → Terminal) : (s.modTerm k f).latch = s.latch := rfl

@[simp] theorem State.modTerm_notices (s : State) (k : Slot) (f : Terminal → Terminal) : (s.modTerm k f).notices = s.notices := rfl

@[simp] theorem State.modTerm_transit (s : State) (k : Slot) (f : Terminal → Terminal) : (s.modTerm k f).transit = s.transit := rfl

@[simp] theorem State.modTerm_controllerOut (s : State) (k : Slot) (f : Terminal → Terminal) : (s.modTerm k f).controllerOut = s.controllerOut := rfl

@[simp] theorem State.modTerm_radioOut (s : State) (k : Slot) (f : Terminal → Terminal) : (s.modTerm k f).radioOut = s.radioOut := rfl

@[simp] theorem State.modTerm_pending (s : State) (k : Slot) (f : Terminal → Terminal) : (s.modTerm k f).pending = s.pending := rfl

/-! ## Fields after a written sector record -/

@[simp] theorem State.setSec_mode (s : State) (j : Sector) (r : SectorRec) : (s.setSec j r).mode = s.mode := rfl

@[simp] theorem State.setSec_startUp (s : State) (j : Sector) (r : SectorRec) : (s.setSec j r).startUp = s.startUp := rfl

@[simp] theorem State.setSec_terminals (s : State) (j : Sector) (r : SectorRec) : (s.setSec j r).terminals = s.terminals := rfl

@[simp] theorem State.setSec_ladder (s : State) (j : Sector) (r : SectorRec) : (s.setSec j r).ladder = s.ladder := rfl

@[simp] theorem State.setSec_latch (s : State) (j : Sector) (r : SectorRec) : (s.setSec j r).latch = s.latch := rfl

@[simp] theorem State.setSec_notices (s : State) (j : Sector) (r : SectorRec) : (s.setSec j r).notices = s.notices := rfl

@[simp] theorem State.setSec_transit (s : State) (j : Sector) (r : SectorRec) : (s.setSec j r).transit = s.transit := rfl

@[simp] theorem State.setSec_controllerOut (s : State) (j : Sector) (r : SectorRec) : (s.setSec j r).controllerOut = s.controllerOut := rfl

@[simp] theorem State.setSec_radioOut (s : State) (j : Sector) (r : SectorRec) : (s.setSec j r).radioOut = s.radioOut := rfl

@[simp] theorem State.setSec_pending (s : State) (j : Sector) (r : SectorRec) : (s.setSec j r).pending = s.pending := rfl

/-! ## Fields after a changed sector record -/

@[simp] theorem State.modSec_mode (s : State) (j : Sector) (f : SectorRec → SectorRec) : (s.modSec j f).mode = s.mode := rfl

@[simp] theorem State.modSec_startUp (s : State) (j : Sector) (f : SectorRec → SectorRec) : (s.modSec j f).startUp = s.startUp := rfl

@[simp] theorem State.modSec_terminals (s : State) (j : Sector) (f : SectorRec → SectorRec) : (s.modSec j f).terminals = s.terminals := rfl

@[simp] theorem State.modSec_ladder (s : State) (j : Sector) (f : SectorRec → SectorRec) : (s.modSec j f).ladder = s.ladder := rfl

@[simp] theorem State.modSec_latch (s : State) (j : Sector) (f : SectorRec → SectorRec) : (s.modSec j f).latch = s.latch := rfl

@[simp] theorem State.modSec_notices (s : State) (j : Sector) (f : SectorRec → SectorRec) : (s.modSec j f).notices = s.notices := rfl

@[simp] theorem State.modSec_transit (s : State) (j : Sector) (f : SectorRec → SectorRec) : (s.modSec j f).transit = s.transit := rfl

@[simp] theorem State.modSec_controllerOut (s : State) (j : Sector) (f : SectorRec → SectorRec) : (s.modSec j f).controllerOut = s.controllerOut := rfl

@[simp] theorem State.modSec_radioOut (s : State) (j : Sector) (f : SectorRec → SectorRec) : (s.modSec j f).radioOut = s.radioOut := rfl

@[simp] theorem State.modSec_pending (s : State) (j : Sector) (f : SectorRec → SectorRec) : (s.modSec j f).pending = s.pending := rfl

/-! ## Fields after a frame emitted on the controller link -/

@[simp] theorem State.emit_mode (s : State) (fr : Frame) : (s.emit fr).mode = s.mode := rfl

@[simp] theorem State.emit_startUp (s : State) (fr : Frame) : (s.emit fr).startUp = s.startUp := rfl

@[simp] theorem State.emit_terminals (s : State) (fr : Frame) : (s.emit fr).terminals = s.terminals := rfl

@[simp] theorem State.emit_sectors (s : State) (fr : Frame) : (s.emit fr).sectors = s.sectors := rfl

@[simp] theorem State.emit_ladder (s : State) (fr : Frame) : (s.emit fr).ladder = s.ladder := rfl

@[simp] theorem State.emit_latch (s : State) (fr : Frame) : (s.emit fr).latch = s.latch := rfl

@[simp] theorem State.emit_notices (s : State) (fr : Frame) : (s.emit fr).notices = s.notices := rfl

@[simp] theorem State.emit_transit (s : State) (fr : Frame) : (s.emit fr).transit = s.transit := rfl

@[simp] theorem State.emit_radioOut (s : State) (fr : Frame) : (s.emit fr).radioOut = s.radioOut := rfl

@[simp] theorem State.emit_pending (s : State) (fr : Frame) : (s.emit fr).pending = s.pending := rfl

/-! ## Fields after an emitted reply -/

@[simp] theorem State.reply_mode (s : State) (c : Byte) (tag : BitVec 16) (st : Status) (rs : List Byte) : (s.reply c tag st rs).mode = s.mode := rfl

@[simp] theorem State.reply_startUp (s : State) (c : Byte) (tag : BitVec 16) (st : Status) (rs : List Byte) : (s.reply c tag st rs).startUp = s.startUp := rfl

@[simp] theorem State.reply_terminals (s : State) (c : Byte) (tag : BitVec 16) (st : Status) (rs : List Byte) : (s.reply c tag st rs).terminals = s.terminals := rfl

@[simp] theorem State.reply_sectors (s : State) (c : Byte) (tag : BitVec 16) (st : Status) (rs : List Byte) : (s.reply c tag st rs).sectors = s.sectors := rfl

@[simp] theorem State.reply_ladder (s : State) (c : Byte) (tag : BitVec 16) (st : Status) (rs : List Byte) : (s.reply c tag st rs).ladder = s.ladder := rfl

@[simp] theorem State.reply_latch (s : State) (c : Byte) (tag : BitVec 16) (st : Status) (rs : List Byte) : (s.reply c tag st rs).latch = s.latch := rfl

@[simp] theorem State.reply_notices (s : State) (c : Byte) (tag : BitVec 16) (st : Status) (rs : List Byte) : (s.reply c tag st rs).notices = s.notices := rfl

@[simp] theorem State.reply_transit (s : State) (c : Byte) (tag : BitVec 16) (st : Status) (rs : List Byte) : (s.reply c tag st rs).transit = s.transit := rfl

@[simp] theorem State.reply_radioOut (s : State) (c : Byte) (tag : BitVec 16) (st : Status) (rs : List Byte) : (s.reply c tag st rs).radioOut = s.radioOut := rfl

@[simp] theorem State.reply_pending (s : State) (c : Byte) (tag : BitVec 16) (st : Status) (rs : List Byte) : (s.reply c tag st rs).pending = s.pending := rfl

/-! ## Fields after a changed ladder bank -/

@[simp] theorem State.modBank_mode (s : State) (i : Fin 2) (f : LadderBank → LadderBank) : (s.modBank i f).mode = s.mode := rfl

@[simp] theorem State.modBank_startUp (s : State) (i : Fin 2) (f : LadderBank → LadderBank) : (s.modBank i f).startUp = s.startUp := rfl

@[simp] theorem State.modBank_terminals (s : State) (i : Fin 2) (f : LadderBank → LadderBank) : (s.modBank i f).terminals = s.terminals := rfl

@[simp] theorem State.modBank_sectors (s : State) (i : Fin 2) (f : LadderBank → LadderBank) : (s.modBank i f).sectors = s.sectors := rfl

@[simp] theorem State.modBank_latch (s : State) (i : Fin 2) (f : LadderBank → LadderBank) : (s.modBank i f).latch = s.latch := rfl

@[simp] theorem State.modBank_notices (s : State) (i : Fin 2) (f : LadderBank → LadderBank) : (s.modBank i f).notices = s.notices := rfl

@[simp] theorem State.modBank_transit (s : State) (i : Fin 2) (f : LadderBank → LadderBank) : (s.modBank i f).transit = s.transit := rfl

@[simp] theorem State.modBank_controllerOut (s : State) (i : Fin 2) (f : LadderBank → LadderBank) : (s.modBank i f).controllerOut = s.controllerOut := rfl

@[simp] theorem State.modBank_radioOut (s : State) (i : Fin 2) (f : LadderBank → LadderBank) : (s.modBank i f).radioOut = s.radioOut := rfl

@[simp] theorem State.modBank_pending (s : State) (i : Fin 2) (f : LadderBank → LadderBank) : (s.modBank i f).pending = s.pending := rfl

/-! ## Fields after a hold taken -/

@[simp] theorem State.takeHold_mode (s : State) (i : Fin 2) : (s.takeHold i).mode = s.mode := rfl

@[simp] theorem State.takeHold_startUp (s : State) (i : Fin 2) : (s.takeHold i).startUp = s.startUp := rfl

@[simp] theorem State.takeHold_terminals (s : State) (i : Fin 2) : (s.takeHold i).terminals = s.terminals := rfl

@[simp] theorem State.takeHold_sectors (s : State) (i : Fin 2) : (s.takeHold i).sectors = s.sectors := rfl

@[simp] theorem State.takeHold_latch (s : State) (i : Fin 2) : (s.takeHold i).latch = s.latch := rfl

@[simp] theorem State.takeHold_notices (s : State) (i : Fin 2) : (s.takeHold i).notices = s.notices := rfl

@[simp] theorem State.takeHold_transit (s : State) (i : Fin 2) : (s.takeHold i).transit = s.transit := rfl

@[simp] theorem State.takeHold_controllerOut (s : State) (i : Fin 2) : (s.takeHold i).controllerOut = s.controllerOut := rfl

@[simp] theorem State.takeHold_radioOut (s : State) (i : Fin 2) : (s.takeHold i).radioOut = s.radioOut := rfl

@[simp] theorem State.takeHold_pending (s : State) (i : Fin 2) : (s.takeHold i).pending = s.pending := rfl

/-! ## Fields after a hold dropped -/

@[simp] theorem State.dropHold_mode (s : State) (i : Fin 2) : (s.dropHold i).mode = s.mode := rfl

@[simp] theorem State.dropHold_startUp (s : State) (i : Fin 2) : (s.dropHold i).startUp = s.startUp := rfl

@[simp] theorem State.dropHold_terminals (s : State) (i : Fin 2) : (s.dropHold i).terminals = s.terminals := rfl

@[simp] theorem State.dropHold_sectors (s : State) (i : Fin 2) : (s.dropHold i).sectors = s.sectors := rfl

@[simp] theorem State.dropHold_latch (s : State) (i : Fin 2) : (s.dropHold i).latch = s.latch := rfl

@[simp] theorem State.dropHold_notices (s : State) (i : Fin 2) : (s.dropHold i).notices = s.notices := rfl

@[simp] theorem State.dropHold_transit (s : State) (i : Fin 2) : (s.dropHold i).transit = s.transit := rfl

@[simp] theorem State.dropHold_controllerOut (s : State) (i : Fin 2) : (s.dropHold i).controllerOut = s.controllerOut := rfl

@[simp] theorem State.dropHold_radioOut (s : State) (i : Fin 2) : (s.dropHold i).radioOut = s.radioOut := rfl

@[simp] theorem State.dropHold_pending (s : State) (i : Fin 2) : (s.dropHold i).pending = s.pending := rfl

@[simp] theorem State.emit_controllerOut (s : State) (fr : Frame) :
    (s.emit fr).controllerOut = s.controllerOut ++ [fr] := rfl

@[simp] theorem State.reply_controllerOut (s : State) (c : Byte) (tag : BitVec 16) (st : Status) (rs : List Byte) :
    (s.reply c tag st rs).controllerOut = s.controllerOut ++ replyFrames c tag st rs := rfl

/-! ## Terminal records after an update -/

theorem State.setTerm_term (s : State) (k k' : Slot) (t : Terminal) :
    (s.setTerm k t).term k' = if k = k' then t else s.term k' := by
  simp only [State.term, State.setTerm, Vector.getElem_set, Fin.ext_iff]

theorem State.modTerm_term (s : State) (k k' : Slot) (f : Terminal → Terminal) :
    (s.modTerm k f).term k' = if k = k' then f (s.term k) else s.term k' :=
  s.setTerm_term k k' _

@[simp] theorem State.setTerm_term_same (s : State) (k : Slot) (t : Terminal) : (s.setTerm k t).term k = t := by
  simp [State.setTerm_term]

@[simp] theorem State.modTerm_term_same (s : State) (k : Slot) (f : Terminal → Terminal) :
    (s.modTerm k f).term k = f (s.term k) := by
  simp [State.modTerm_term]

theorem State.modTerm_term_other {s : State} {k k' : Slot} (f : Terminal → Terminal) (h : k ≠ k') :
    (s.modTerm k f).term k' = s.term k' := by
  simp [State.modTerm_term, h]

@[simp] theorem State.modSec_term (s : State) (j : Sector) (f : SectorRec → SectorRec) (k : Slot) :
    (s.modSec j f).term k = s.term k := rfl

@[simp] theorem State.setSec_term (s : State) (j : Sector) (r : SectorRec) (k : Slot) :
    (s.setSec j r).term k = s.term k := rfl

@[simp] theorem State.emit_term (s : State) (fr : Frame) (k : Slot) : (s.emit fr).term k = s.term k := rfl

@[simp] theorem State.reply_term (s : State) (c : Byte) (tag : BitVec 16) (st : Status) (rs : List Byte) (k : Slot) :
    (s.reply c tag st rs).term k = s.term k := rfl

@[simp] theorem State.modBank_term (s : State) (i : Fin 2) (f : LadderBank → LadderBank) (k : Slot) :
    (s.modBank i f).term k = s.term k := rfl

/-! ## Sector records after an update -/

theorem State.setSec_sec (s : State) (j j' : Sector) (r : SectorRec) :
    (s.setSec j r).sec j' = if j = j' then r else s.sec j' := by
  simp only [State.sec, State.setSec, Vector.getElem_set, Fin.ext_iff]

theorem State.modSec_sec (s : State) (j j' : Sector) (f : SectorRec → SectorRec) :
    (s.modSec j f).sec j' = if j = j' then f (s.sec j) else s.sec j' :=
  s.setSec_sec j j' _

@[simp] theorem State.setSec_sec_same (s : State) (j : Sector) (r : SectorRec) : (s.setSec j r).sec j = r := by
  simp [State.setSec_sec]

@[simp] theorem State.modSec_sec_same (s : State) (j : Sector) (f : SectorRec → SectorRec) :
    (s.modSec j f).sec j = f (s.sec j) := by
  simp [State.modSec_sec]

theorem State.modSec_sec_other {s : State} {j j' : Sector} (f : SectorRec → SectorRec) (h : j ≠ j') :
    (s.modSec j f).sec j' = s.sec j' := by
  simp [State.modSec_sec, h]

@[simp] theorem State.modTerm_sec (s : State) (k : Slot) (f : Terminal → Terminal) (j : Sector) :
    (s.modTerm k f).sec j = s.sec j := rfl

@[simp] theorem State.setTerm_sec (s : State) (k : Slot) (t : Terminal) (j : Sector) :
    (s.setTerm k t).sec j = s.sec j := rfl

@[simp] theorem State.emit_sec (s : State) (fr : Frame) (j : Sector) : (s.emit fr).sec j = s.sec j := rfl

@[simp] theorem State.reply_sec (s : State) (c : Byte) (tag : BitVec 16) (st : Status) (rs : List Byte) (j : Sector) :
    (s.reply c tag st rs).sec j = s.sec j := rfl

@[simp] theorem State.modBank_sec (s : State) (i : Fin 2) (f : LadderBank → LadderBank) (j : Sector) :
    (s.modBank i f).sec j = s.sec j := rfl

@[simp] theorem State.takeHold_term (s : State) (i : Fin 2) (k : Slot) : (s.takeHold i).term k = s.term k := rfl

@[simp] theorem State.dropHold_term (s : State) (i : Fin 2) (k : Slot) : (s.dropHold i).term k = s.term k := rfl

@[simp] theorem State.takeHold_sec (s : State) (i : Fin 2) (j : Sector) : (s.takeHold i).sec j = s.sec j := rfl

@[simp] theorem State.dropHold_sec (s : State) (i : Fin 2) (j : Sector) : (s.dropHold i).sec j = s.sec j := rfl

/-! ## Banks after an update -/

theorem State.modBank_bank (s : State) (i i' : Fin 2) (f : LadderBank → LadderBank) :
    (s.modBank i f).bank i' = if i = i' then f (s.bank i) else s.bank i' := by
  simp only [State.bank, State.modBank, Vector.getElem_set, Fin.ext_iff]

@[simp] theorem State.modTerm_bank (s : State) (k : Slot) (f : Terminal → Terminal) (i : Fin 2) :
    (s.modTerm k f).bank i = s.bank i := rfl

@[simp] theorem State.modSec_bank (s : State) (j : Sector) (f : SectorRec → SectorRec) (i : Fin 2) :
    (s.modSec j f).bank i = s.bank i := rfl

@[simp] theorem State.modTerm_activeBank (s : State) (k : Slot) (f : Terminal → Terminal) :
    (s.modTerm k f).activeBank = s.activeBank := rfl

@[simp] theorem State.modSec_activeBank (s : State) (j : Sector) (f : SectorRec → SectorRec) :
    (s.modSec j f).activeBank = s.activeBank := rfl

/-! ## The record of every slot and sector after reset -/

@[simp] theorem State.reset_term (k : Slot) : State.reset.term k = {} := by
  simp only [State.term, State.reset, Vector.getElem_replicate]

@[simp] theorem State.reset_sec (j : Sector) : State.reset.sec j = {} := by
  simp only [State.sec, State.reset, Vector.getElem_replicate]

end Sys2Proof.Machine
end

