-- ==== Sys2Proof/Laws/Works.lean ====
section
/-!
SUPPORT. What the part's work on one sector can do, said once: `Works j s t` says that t comes from s by edits of records of
sector j's terminals, edits of sector j's record, and offers to the notice queue. Each shared operation has one lemma here;
what every edit keeps is then kept by all of them.
-/

set_option Elab.async false

namespace Sys2Proof.Machine

/-! ## Edits -/

/-- What an edit of a terminal record keeps: the identity, notice pending, being EMPTY or not, the ranges of its fields and
the bound of its rungs. -/
structure TermEdit (top : Option Nat) (a b : Terminal) : Prop where
  sector : b.sector = a.sector
  address : b.linkAddress = a.linkAddress
  priority : b.priority = a.priority
  maxRung : b.maxRung = a.maxRung
  noticePending : b.noticePending = a.noticePending
  empty : b.state = .empty ↔ a.state = .empty
  range : a.InRange → b.InRange
  rungs : a.RungsWithin top → b.RungsWithin top

/-- What an edit of a sector record keeps: the configuration, the population and the address map, the intake banks, being
DISABLED or not, the ranges of its collections, and that it names no new slot but one of the sector's terminals. -/
structure SecEdit (s : State) (j : Sector) (a b : SectorRec) : Prop where
  config : b.config = a.config
  population : b.population = a.population
  addressMap : b.addressMap = a.addressMap
  evaluation : b.evaluation.map Evaluation.held = a.evaluation.map Evaluation.held
  waiting : b.waitingBank = a.waitingBank
  disabled : b.state = .disabled ↔ a.state = .disabled
  range : a.InRange → b.InRange
  names : ∀ k, b.Names k → a.Names k ∨ s.belongs j k = true

/-- The work of one sector (see the head of this file). -/
inductive Works (j : Sector) (s : State) : State → Prop
  | refl : Works j s s
  | term {t : State} (w : Works j s t) (k : Slot) (f : Terminal → Terminal) (hk : t.belongs j k = true)
      (e : TermEdit t.top (t.term k) (f (t.term k))) : Works j s (t.modTerm k f)
  | sec {t : State} (w : Works j s t) (f : SectorRec → SectorRec) (e : SecEdit t j (t.sec j) (f (t.sec j))) :
      Works j s (t.modSec j f)
  | offerTerminal {t : State} (w : Works j s t) (k : Slot) (hk : t.belongs j k = true) : Works j s (t.offerTerminal k)
  | offerSector {t : State} (w : Works j s t) : Works j s (t.offerSector j)

/-! ## Offers -/

theorem State.belongs_iff (s : State) (j : Sector) (k : Slot) :
    s.belongs j k = true ↔ (s.term k).state ≠ .empty ∧ (s.term k).sector = j := by
  simp [State.belongs, bne_iff_ne]

/-- What the offer of a terminal does: its item joins unless it is a member, and a joining item sets notice pending. -/
theorem State.offerTerminal_cases (s : State) (k : Slot) :
    (NoticeItem.terminal k ∈ s.notices ∧ s.offerTerminal k = s) ∨
    (NoticeItem.terminal k ∉ s.notices ∧
      s.offerTerminal k =
        State.modTerm { s with notices := s.notices ++ [.terminal k] } k fun t => { t with noticePending := true }) := by
  by_cases h : NoticeItem.terminal k ∈ s.notices
  · exact .inl ⟨h, by simp [State.offerTerminal, h]⟩
  · exact .inr ⟨h, by simp [State.offerTerminal, h]⟩

/-- What the offer of a sector does: its item joins unless it is a member. -/
theorem State.offerSector_cases (s : State) (j : Sector) :
    (NoticeItem.sector j ∈ s.notices ∧ s.offerSector j = s) ∨
    (NoticeItem.sector j ∉ s.notices ∧ s.offerSector j = { s with notices := s.notices ++ [.sector j] }) := by
  by_cases h : NoticeItem.sector j ∈ s.notices
  · exact .inl ⟨h, by simp [State.offerSector, h]⟩
  · exact .inr ⟨h, by simp [State.offerSector, h]⟩

@[simp] theorem State.withNotices_term (s : State) (n : List NoticeItem) (k : Slot) :
    ({ s with notices := n } : State).term k = s.term k := rfl

@[simp] theorem State.withNotices_sec (s : State) (n : List NoticeItem) (j : Sector) :
    ({ s with notices := n } : State).sec j = s.sec j := rfl

/-- An offer changes no terminal record but notice pending of the offered one. -/
theorem State.offerTerminal_term (s : State) (k k' : Slot) :
    (s.offerTerminal k).term k' =
      if k = k' ∧ NoticeItem.terminal k ∉ s.notices then { s.term k' with noticePending := true } else s.term k' := by
  rcases s.offerTerminal_cases k with ⟨h, e⟩ | ⟨h, e⟩
  · simp [e, h]
  · rw [e, State.modTerm_term]
    by_cases hk : k = k'
    · subst hk; simp [h]
    · simp [hk]

@[simp] theorem State.offerTerminal_sec (s : State) (k : Slot) (j : Sector) : (s.offerTerminal k).sec j = s.sec j := by
  rcases s.offerTerminal_cases k with ⟨-, e⟩ | ⟨-, e⟩ <;> simp [e]

@[simp] theorem State.offerSector_term (s : State) (j : Sector) (k : Slot) : (s.offerSector j).term k = s.term k := by
  rcases s.offerSector_cases j with ⟨-, e⟩ | ⟨-, e⟩ <;> simp [e]

@[simp] theorem State.offerSector_sec (s : State) (j j' : Sector) : (s.offerSector j).sec j' = s.sec j' := by
  rcases s.offerSector_cases j with ⟨-, e⟩ | ⟨-, e⟩ <;> simp [e]

/-- The parts of the state the work of a sector never touches. -/
structure SameOutside (s t : State) : Prop where
  mode : t.mode = s.mode
  startUp : t.startUp = s.startUp
  ladder : t.ladder = s.ladder
  latch : t.latch = s.latch
  transit : t.transit = s.transit
  controllerOut : t.controllerOut = s.controllerOut
  radioOut : t.radioOut = s.radioOut
  pending : t.pending = s.pending

theorem State.offerTerminal_outside (s : State) (k : Slot) : SameOutside s (s.offerTerminal k) := by
  rcases s.offerTerminal_cases k with ⟨-, e⟩ | ⟨-, e⟩ <;> rw [e] <;> constructor <;> rfl

theorem State.offerSector_outside (s : State) (j : Sector) : SameOutside s (s.offerSector j) := by
  rcases s.offerSector_cases j with ⟨-, e⟩ | ⟨-, e⟩ <;> rw [e] <;> constructor <;> rfl

theorem SameOutside.trans {s t u : State} (a : SameOutside s t) (b : SameOutside t u) : SameOutside s u :=
  ⟨b.mode.trans a.mode, b.startUp.trans a.startUp, b.ladder.trans a.ladder, b.latch.trans a.latch,
    b.transit.trans a.transit, b.controllerOut.trans a.controllerOut, b.radioOut.trans a.radioOut,
    b.pending.trans a.pending⟩

/-! ## What the work of a sector keeps -/

variable {j : Sector} {s t : State}

/-- Work composes. -/
theorem Works.trans {u : State} (a : Works j s t) (b : Works j t u) : Works j s u := by
  induction b with
  | refl => exact a
  | term _ k f hk e ih => exact ih.term k f hk e
  | sec _ f e ih => exact ih.sec f e
  | offerTerminal _ k hk ih => exact ih.offerTerminal k hk
  | offerSector _ ih => exact ih.offerSector

/-- Modes, ladder, latch, links and waiting commands stand still. -/
theorem Works.outside (w : Works j s t) : SameOutside s t := by
  induction w with
  | refl => constructor <;> rfl
  | term _ k f hk e ih => exact ih.trans (by constructor <;> rfl)
  | sec _ f e ih => exact ih.trans (by constructor <;> rfl)
  | offerTerminal _ k hk ih => exact ih.trans (State.offerTerminal_outside _ k)
  | offerSector _ ih => exact ih.trans (State.offerSector_outside _ j)

/-- The records of other sectors stand still. -/
theorem Works.sec_other (w : Works j s t) {j' : Sector} (h : j ≠ j') : t.sec j' = s.sec j' := by
  induction w with
  | refl => rfl
  | term _ k f hk e ih => simpa using ih
  | sec _ f e ih => rw [State.modSec_sec_other f h, ih]
  | offerTerminal _ k hk ih => simpa using ih
  | offerSector _ ih => simpa using ih

/-- A slot's identity and being EMPTY or not stand still. -/
theorem Works.identity (w : Works j s t) (k : Slot) :
    (t.term k).sector = (s.term k).sector ∧ (t.term k).linkAddress = (s.term k).linkAddress ∧
      (t.term k).priority = (s.term k).priority ∧ (t.term k).maxRung = (s.term k).maxRung ∧
      ((t.term k).state = .empty ↔ (s.term k).state = .empty) := by
  induction w with
  | refl => simp
  | @term t _ k' f hk e ih =>
    rw [State.modTerm_term]
    split
    · next h => subst h; exact ⟨e.sector.trans ih.1, e.address.trans ih.2.1, e.priority.trans ih.2.2.1,
        e.maxRung.trans ih.2.2.2.1, e.empty.trans ih.2.2.2.2⟩
    · exact ih
  | sec _ f e ih => simpa using ih
  | offerTerminal _ k' hk ih => rw [State.offerTerminal_term]; split <;> exact ih
  | offerSector _ ih => simpa using ih

theorem Works.belongs (w : Works j s t) (j' : Sector) (k : Slot) : t.belongs j' k = s.belongs j' k := by
  have h := w.identity k
  rw [Bool.eq_iff_iff, State.belongs_iff, State.belongs_iff, h.1, ne_eq, h.2.2.2.2]

theorem Works.slotsOf (w : Works j s t) (j' : Sector) : t.slotsOf j' = s.slotsOf j' := by
  have : t.belongs j' = s.belongs j' := funext (w.belongs j')
  rw [State.slotsOf, State.slotsOf, this]

/-- The records of slots that are not the sector's terminals stand still. -/
theorem Works.term_other (w : Works j s t) {k : Slot} (h : s.belongs j k = false) : t.term k = s.term k := by
  induction w with
  | refl => rfl
  | term w k' f hk e ih =>
    have : k' ≠ k := by rintro rfl; rw [w.belongs, h] at hk; cases hk
    rw [State.modTerm_term_other f this, ih]
  | sec _ f e ih => simpa using ih
  | offerTerminal w k' hk ih =>
    have : k' ≠ k := by rintro rfl; rw [w.belongs, h] at hk; cases hk
    rw [State.offerTerminal_term]; simp [this, ih]
  | offerSector _ ih => simpa using ih

theorem Works.top (w : Works j s t) : t.top = s.top := by
  have hb : t.bank = s.bank := funext fun i => by simp only [State.bank, w.outside.ladder]
  simp only [State.top, State.activeBank, w.outside.ladder, hb]

/-- What a sector record keeps through the work of its sector. -/
theorem Works.kept (w : Works j s t) :
    (t.sec j).config = (s.sec j).config ∧ (t.sec j).population = (s.sec j).population ∧
      (t.sec j).addressMap = (s.sec j).addressMap ∧
      (t.sec j).evaluation.map Evaluation.held = (s.sec j).evaluation.map Evaluation.held ∧
      (t.sec j).waitingBank = (s.sec j).waitingBank ∧
      ((t.sec j).state = .disabled ↔ (s.sec j).state = .disabled) := by
  induction w with
  | refl => simp
  | term _ k f hk e ih => simpa using ih
  | sec _ f e ih =>
    rw [State.modSec_sec_same]
    exact ⟨e.config.trans ih.1, e.population.trans ih.2.1, e.addressMap.trans ih.2.2.1,
      e.evaluation.trans ih.2.2.2.1, e.waiting.trans ih.2.2.2.2.1,
      e.disabled.trans ih.2.2.2.2.2⟩
  | offerTerminal _ k hk ih => simpa using ih
  | offerSector _ ih => simpa using ih

theorem Works.cfg (w : Works j s t) : t.cfg j = s.cfg j := w.kept.1

/-- Terminal records stay in range. -/
theorem Works.inRange (w : Works j s t) (h : ∀ k, (s.term k).InRange) (k : Slot) : (t.term k).InRange := by
  induction w with
  | refl => exact h k
  | term _ k' f hk e ih =>
    rw [State.modTerm_term]
    split
    · next hk => subst hk; exact e.range ih
    · exact ih
  | sec _ f e ih => simpa using ih
  | offerTerminal _ k' hk ih =>
    rw [State.offerTerminal_term]
    split
    · exact ⟨ih.power, ih.filtered, ih.history, ih.lossF, ih.headroom, ih.adjust, ih.attempts⟩
    · exact ih
  | offerSector _ ih => simpa using ih

/-- Rungs stay within the active ladder. -/
theorem Works.rungsWithin (w : Works j s t) (h : ∀ k, (s.term k).RungsWithin s.top) (k : Slot) :
    (t.term k).RungsWithin t.top := by
  induction w with
  | refl => exact h k
  | @term t w k' f hk e ih =>
    have ht : (t.modTerm k' f).top = t.top := rfl
    rw [ht, State.modTerm_term]
    split
    · next hk => subst hk; exact e.rungs ih
    · exact ih
  | @sec t _ f e ih =>
    have ht : (t.modSec j f).top = t.top := rfl
    rw [ht]; simpa using ih
  | @offerTerminal t w k' hk ih =>
    have ht : (t.offerTerminal k').top = t.top := (Works.offerTerminal .refl k' hk).top
    rw [ht, State.offerTerminal_term]
    split <;> exact ih
  | @offerSector t w ih =>
    have ht : (t.offerSector j).top = t.top := (Works.offerSector .refl).top
    rw [ht]; simpa using ih

/-- The sector record stays in range. -/
theorem Works.secInRange (w : Works j s t) (h : (s.sec j).InRange) : (t.sec j).InRange := by
  induction w with
  | refl => exact h
  | term _ k f hk e ih => simpa using ih
  | sec _ f e ih => rw [State.modSec_sec_same]; exact e.range ih
  | offerTerminal _ k hk ih => simpa using ih
  | offerSector _ ih => simpa using ih

/-- Whatever the sector names is named before or is one of its terminals. -/
theorem Works.names (w : Works j s t) (k : Slot) (h : (t.sec j).Names k) : (s.sec j).Names k ∨ s.belongs j k = true := by
  induction w with
  | refl => exact .inl h
  | term _ k' f hk e ih => exact ih (by simpa using h)
  | sec w f e ih =>
    rw [State.modSec_sec_same] at h
    rcases e.names k h with h | h
    · exact ih h
    · exact .inr (by rw [← w.belongs]; exact h)
  | offerTerminal _ k' hk ih => exact ih (by simpa using h)
  | offerSector _ ih => exact ih (by simpa using h)

/-- The collections go on naming only their sector's terminals. -/
theorem Works.homed (w : Works j s t) (h : s.Homed) : t.Homed := by
  intro j' k hk
  rw [w.belongs]
  by_cases hj : j = j'
  · subst hj
    rcases w.names k hk with hn | hn
    · exact h _ _ hn
    · exact hn
  · rw [w.sec_other hj] at hk
    exact h _ _ hk

theorem State.offerTerminal_agree {s : State} (k : Slot) (h : s.NoticesAgree) : (s.offerTerminal k).NoticesAgree := by
  rcases s.offerTerminal_cases k with ⟨-, e⟩ | ⟨hn, e⟩
  · rwa [e]
  · rw [e]
    refine ⟨?_, fun k' => ?_⟩
    · simp only [State.modTerm_notices]
      refine List.Nodup.append h.once (by simp) ?_
      simpa using hn
    · rw [State.modTerm_term]
      by_cases hk : k = k'
      · subst hk; simp
      · simp [hk, h.pending k', Ne.symm hk]

theorem State.offerSector_agree {s : State} (j : Sector) (h : s.NoticesAgree) : (s.offerSector j).NoticesAgree := by
  rcases s.offerSector_cases j with ⟨-, e⟩ | ⟨hn, e⟩
  · rwa [e]
  · rw [e]
    refine ⟨?_, fun k' => ?_⟩
    · refine List.Nodup.append h.once (by simp) ?_
      simpa using hn
    · simp [h.pending k']

/-- Notice pending goes on agreeing with the notice queue. -/
theorem Works.noticesAgree (w : Works j s t) (h : s.NoticesAgree) : t.NoticesAgree := by
  induction w with
  | refl => exact h
  | term _ k f hk e ih =>
    refine ⟨ih.once, fun k' => ?_⟩
    rw [State.modTerm_term, State.modTerm_notices, ← ih.pending k']
    split
    · next hk => subst hk; rw [e.noticePending]
    · rfl
  | sec _ f e ih => exact ⟨ih.once, fun k' => by simpa using ih.pending k'⟩
  | offerTerminal _ k hk ih => exact State.offerTerminal_agree k ih
  | offerSector _ ih => exact State.offerSector_agree j ih

/-- The terminal table goes on agreeing with itself. -/
theorem Works.tableAgrees (w : Works j s t) (h : s.TableAgrees) : t.TableAgrees := by
  have same : ∀ j', (t.sec j').population = (s.sec j').population ∧ (t.sec j').addressMap = (s.sec j').addressMap := by
    intro j'
    by_cases hj : j = j'
    · subst hj; exact ⟨w.kept.2.1, w.kept.2.2.1⟩
    · rw [w.sec_other hj]; simp
  refine ⟨fun k hk => ?_, fun j' => ?_, fun j' => ?_, fun j' a k => ?_, fun j' => ?_⟩
  · have he : (s.term k).state = .empty := (w.identity k).2.2.2.2.mp hk
    have : s.belongs j k = false := by simp [State.belongs, he]
    rw [w.term_other this]; exact h.empty k he
  · rw [(same j').1, w.slotsOf, h.population]
  · rw [(same j').1]; exact h.limit j'
  · rw [(same j').2, w.belongs, (w.identity k).2.1]; exact h.paired j' a k
  · rw [(same j').2]; exact h.once j'

/-- The hold counts go on counting the evaluations in flight. -/
theorem Works.holders (w : Works j s t) (i : Fin 2) : t.holders i = s.holders i := by
  unfold State.holders
  congr 2
  funext j'
  by_cases hj : j = j'
  · subst hj; rw [w.kept.2.2.2.1]
  · rw [w.sec_other hj]

end Sys2Proof.Machine
end

