-- ==== Sys2Proof/Laws/Inserter.lean ====
section
/-!
SUPPORT. What the control queue's operations do (R140 to R147), and that they are work of one sector.
-/

set_option Elab.async false

namespace Sys2Proof.Machine

variable {j : Sector} {s t : State}

/-! ## Edits that leave the ranged fields alone -/

/-- An edit that leaves the identity, the state, the ranged fields and the rungs alone. -/
theorem TermEdit.same (top : Option Nat) {a b : Terminal} (h1 : b.sector = a.sector := by rfl)
    (h2 : b.linkAddress = a.linkAddress := by rfl) (h3 : b.priority = a.priority := by rfl)
    (h4 : b.maxRung = a.maxRung := by rfl) (h5 : b.noticePending = a.noticePending := by rfl)
    (h6 : b.state = a.state := by rfl) (h7 : b.power = a.power := by rfl) (h8 : b.filtered = a.filtered := by rfl)
    (h9 : b.history = a.history := by rfl) (h10 : b.lossF = a.lossF := by rfl)
    (h11 : b.lastHeadroom = a.lastHeadroom := by rfl) (h12 : b.pendingAdjust = a.pendingAdjust := by rfl)
    (h13 : b.attemptCount = a.attemptCount := by rfl) (h14 : b.rung = a.rung := by rfl)
    (h15 : b.pendingShift = a.pendingShift := by rfl) (h16 : b.restoreRung = a.restoreRung := by rfl) :
    TermEdit top a b where
  sector := h1
  address := h2
  priority := h3
  maxRung := h4
  noticePending := h5
  empty := by rw [h6]
  range h := ⟨by rw [h7]; exact h.power, by rw [h8]; exact h.filtered, by rw [h9]; exact h.history,
    by rw [h10]; exact h.lossF, by rw [h11]; exact h.headroom, by rw [h12]; exact h.adjust, by rw [h13]; exact h.attempts⟩
  rungs h := by simpa only [Terminal.RungsWithin, h14, h15, h16] using h

/-- An edit of a sector record that leaves the kept fields, the ranged ones and the named slots alone. -/
theorem SecEdit.same (s : State) (j : Sector) {a b : SectorRec} (h1 : b.config = a.config := by rfl)
    (h2 : b.population = a.population := by rfl) (h3 : b.addressMap = a.addressMap := by rfl)
    (h4 : b.evaluation.map Evaluation.held = a.evaluation.map Evaluation.held := by rfl)
    (h5 : b.waitingBank = a.waitingBank := by rfl)
    (h6 : b.lossLog = a.lossLog := by rfl) (h7 : b.blindCounter = a.blindCounter := by rfl)
    (h8 : b.probeTimer = a.probeTimer := by rfl) (h9 : b.progressCounter = a.progressCounter := by rfl)
    (h10 : b.controlQueue = a.controlQueue := by rfl) (h11 : b.queue = a.queue := by rfl)
    (h12 : b.window = a.window := by rfl) (h13 : b.lead = a.lead := by rfl)
    (h14 : b.state = .disabled ↔ a.state = .disabled := by exact Iff.rfl) : SecEdit s j a b where
  config := h1
  population := h2
  addressMap := h3
  evaluation := h4
  waiting := h5
  disabled := h14
  range h := ⟨by rw [h1]; exact h.config, by rw [h6]; exact h.lossLog, by rw [h7]; exact h.blind,
    by rw [h8, h1]; exact h.probe, by rw [h9]; exact h.progress, by rw [h10]; exact h.control⟩
  names k h := .inl (by simpa only [SectorRec.Names, h10, h11, h12, h13] using h)

/-! ## Joining a control queue (R140) -/

theorem mem_insertEntry (e x : ControlEntry) (q : List ControlEntry) : x ∈ insertEntry e q ↔ x = e ∨ x ∈ q := by
  induction q with
  | nil => simp [insertEntry]
  | cons y ys ih =>
    simp only [insertEntry]
    split
    · simp only [List.mem_cons, ih]; tauto
    · simp only [List.mem_cons]

theorem length_insertEntry (e : ControlEntry) (q : List ControlEntry) : (insertEntry e q).length = q.length + 1 := by
  induction q with
  | nil => rfl
  | cons y ys ih =>
    simp only [insertEntry]
    split
    · simp only [List.length_cons, ih]
    · rfl

/-- Joining keeps the class order. -/
theorem insertEntry_order (e : ControlEntry) {q : List ControlEntry}
    (h : q.Pairwise fun a b => a.cls.rank ≤ b.cls.rank) :
    (insertEntry e q).Pairwise fun a b => a.cls.rank ≤ b.cls.rank := by
  induction q with
  | nil => simp [insertEntry]
  | cons y ys ih =>
    rw [List.pairwise_cons] at h
    simp only [insertEntry]
    split
    · next hy =>
      rw [List.pairwise_cons]
      refine ⟨fun x hx => ?_, ih h.2⟩
      rcases (mem_insertEntry e x ys).mp hx with rfl | hx
      · exact hy
      · exact h.1 x hx
    · next hy =>
      rw [List.pairwise_cons, List.pairwise_cons]
      refine ⟨fun x hx => ?_, h⟩
      rcases List.mem_cons.mp hx with rfl | hx
      · omega
      · have := h.1 x hx; omega

theorem queuedFor_iff (q : List ControlEntry) (k : Slot) (kind : MsgKind) :
    queuedFor q k kind = true ↔ ∃ e ∈ q, e.slot = k ∧ e.kind = kind := by
  simp [queuedFor, ControlEntry.isFor]

/-- Joining keeps a queue of one entry for each terminal and kind. -/
theorem insertEntry_once {e : ControlEntry} {q : List ControlEntry}
    (h : q.Pairwise fun a b => ¬(a.slot = b.slot ∧ a.kind = b.kind)) (hn : queuedFor q e.slot e.kind = false) :
    (insertEntry e q).Pairwise fun a b => ¬(a.slot = b.slot ∧ a.kind = b.kind) := by
  have hn' : ∀ x ∈ q, ¬(x.slot = e.slot ∧ x.kind = e.kind) := by
    intro x hx hc
    have := (queuedFor_iff q e.slot e.kind).mpr ⟨x, hx, hc⟩
    rw [hn] at this; cases this
  clear hn
  induction q with
  | nil => simp [insertEntry]
  | cons y ys ih =>
    rw [List.pairwise_cons] at h
    simp only [insertEntry]
    split
    · rw [List.pairwise_cons]
      refine ⟨fun x hx => ?_, ih h.2 fun x hx => hn' x (List.mem_cons_of_mem _ hx)⟩
      rcases (mem_insertEntry e x ys).mp hx with rfl | hx
      · exact hn' y List.mem_cons_self
      · exact h.1 x hx
    · rw [List.pairwise_cons, List.pairwise_cons]
      refine ⟨fun x hx hc => hn' x hx ⟨hc.1.symm, hc.2.symm⟩, h⟩

/-- An entry joins a queue that has room and holds none of its terminal and kind. -/
theorem ControlQueueOk.join {q : List ControlEntry} (h : ControlQueueOk q) {e : ControlEntry} (hl : q.length < 48)
    (hn : queuedFor q e.slot e.kind = false) : ControlQueueOk (insertEntry e q) :=
  ⟨by rw [length_insertEntry]; omega, insertEntry_once h.once hn, insertEntry_order e h.order⟩

/-- Entries may leave. -/
theorem ControlQueueOk.sublist {p q : List ControlEntry} (h : ControlQueueOk q) (hs : p.Sublist q) : ControlQueueOk p :=
  ⟨hs.length_le.trans h.length, h.once.sublist hs, h.order.sublist hs⟩

theorem ControlQueueOk.nil : ControlQueueOk [] := ⟨by simp, .nil, .nil⟩

theorem ControlQueueOk.joinOnce {q : List ControlEntry} (h : ControlQueueOk q) (e : ControlEntry) (hl : q.length < 48) :
    ControlQueueOk (joinOnce e q) := by
  unfold Machine.joinOnce
  split
  · exact h
  · next hn => exact h.join hl (by simpa using hn)

theorem mem_joinOnce {e x : ControlEntry} {q : List ControlEntry} (h : x ∈ joinOnce e q) : x = e ∨ x ∈ q := by
  unfold joinOnce at h
  split at h
  · exact .inr h
  · exact (mem_insertEntry e x q).mp h

/-- A SHIFT entry that changes class keeps the queue's length, its entries' terminals and its form (R142). -/
theorem ControlQueueOk.reclassed {q : List ControlEntry} (h : ControlQueueOk q) (t : Terminal) (k : Slot) :
    ControlQueueOk (reclassed t k q) := by
  unfold Machine.reclassed
  split
  · next ha =>
    have hf : ControlQueueOk (q.filter fun e => !e.isFor k .shift) := h.sublist List.filter_sublist
    refine hf.join ?_ ?_
    · obtain ⟨e, he, hc⟩ := List.any_eq_true.mp ha
      have : (q.filter fun e => !e.isFor k .shift).length < q.length := by
        rw [List.length_filter_lt_length_iff_exists]
        refine ⟨e, he, ?_⟩
        simp only [Bool.and_eq_true] at hc
        simp [hc.1]
      have := h.length; omega
    · simp [queuedFor, ControlEntry.isFor, List.any_eq_false]
      intro x hx hk hs hc
      simp_all
  · exact h

theorem mem_reclassed {t : Terminal} {k : Slot} {q : List ControlEntry} {x : ControlEntry} (h : x ∈ reclassed t k q) :
    ∃ e ∈ q, e.slot = x.slot := by
  unfold reclassed at h
  split at h
  · next ha =>
    rcases (mem_insertEntry _ x _).mp h with rfl | h
    · obtain ⟨e, he, hc⟩ := List.any_eq_true.mp ha
      simp only [Bool.and_eq_true, ControlEntry.isFor, beq_iff_eq] at hc
      exact ⟨e, he, hc.1.1⟩
    · exact ⟨x, (List.mem_filter.mp h).1, rfl⟩
  · exact ⟨x, h, rfl⟩

/-- An edit of the control queue alone. -/
theorem SecEdit.control (s : State) (j : Sector) (r : SectorRec) (q : List ControlEntry)
    (hq : ControlQueueOk r.controlQueue → ControlQueueOk q)
    (hn : ∀ e ∈ q, (∃ x ∈ r.controlQueue, x.slot = e.slot) ∨ s.belongs j e.slot = true) :
    SecEdit s j r { r with controlQueue := q } where
  config := rfl
  population := rfl
  addressMap := rfl
  evaluation := rfl
  waiting := rfl
  disabled := Iff.rfl
  range h := ⟨h.config, h.lossLog, h.blind, h.probe, h.progress, hq h.control⟩
  names k h := by
    rcases h with h | h | h | ⟨e, he, rfl⟩
    · exact .inl (.inl h)
    · exact .inl (.inr (.inl h))
    · exact .inl (.inr (.inr (.inl h)))
    · rcases hn e he with ⟨x, hx, hs⟩ | h
      · exact .inl (.inr (.inr (.inr ⟨x, hx, hs⟩)))
      · exact .inr h

/-! ## The control inserter's operations are work of one sector -/

theorem State.sectorOf_of_belongs {s : State} {j : Sector} {k : Slot} (h : s.belongs j k = true) : s.sectorOf k = j :=
  ((s.belongs_iff j k).mp h).2

theorem Works.belongs_of (w : Works j s t) {k : Slot} (hk : s.belongs j k = true) : t.belongs j k = true := by
  rw [w.belongs]; exact hk

theorem Works.sectorOf (w : Works j s t) {k : Slot} (hk : s.belongs j k = true) : t.sectorOf k = j :=
  State.sectorOf_of_belongs (w.belongs_of hk)

/-- An edit of a record whose ranged fields stand. -/
theorem Works.owe (w : Works j s t) {k : Slot} (hk : s.belongs j k = true) (f : OwedKinds → OwedKinds) :
    Works j s (t.modTerm k fun x => { x with owed := f x.owed }) :=
  w.term k _ (w.belongs_of hk) (.same _)

theorem Works.reclassShift (w : Works j s t) {k : Slot} (hk : s.belongs j k = true) : Works j s (t.reclassShift k) := by
  rw [State.reclassShift, w.sectorOf hk]
  exact w.sec _ (.control _ _ _ _ (fun h => h.reclassed _ _) fun e he => .inl (mem_reclassed he))

theorem Works.request (w : Works j s t) {k : Slot} (hk : s.belongs j k = true) (kind : MsgKind) :
    Works j s (t.request k kind) := by
  simp only [State.request, w.sectorOf hk]
  split_ifs with hn hl
  · cases kind with
    | shift => exact w.reclassShift hk
    | correct => exact w
    | verify => exact w
    | power => exact w
  · refine w.sec _ (.control _ _ _ _ (fun h => h.join hl (by simpa using hn)) fun e he => ?_)
    rcases (mem_insertEntry _ e _).mp he with rfl | he
    · exact .inr (w.belongs_of hk)
    · exact .inl ⟨e, he, rfl⟩
  · exact w.owe hk fun o => o.put kind true

theorem mem_slotsOf {s : State} {j : Sector} {k : Slot} : k ∈ s.slotsOf j ↔ s.belongs j k = true := by
  simp [State.slotsOf, allSlots]

theorem Works.owedScan (w : Works j s t) : Works j s (t.owedScan j) := by
  unfold State.owedScan
  split
  · exact w
  · next hl =>
    split
    · exact w
    · next k hf =>
      have hb : t.belongs j k = true := mem_slotsOf.mp (List.mem_of_find?_eq_some hf)
      have hk : s.belongs j k = true := by rw [← w.belongs]; exact hb
      refine Works.owe (w.sec _ (.control _ _ _ _ (fun h => h.joinOnce _ (by simpa [Config.controlQueueLimit] using hl))
        fun e he => ?_)) hk fun o => o.put _ false
      rcases mem_joinOnce he with rfl | he
      · exact .inr hb
      · exact .inl ⟨e, he, rfl⟩

/-- Entries that leave the control queue name nothing new. -/
theorem Works.shrinkControl (w : Works j s t) (g : List ControlEntry → List ControlEntry) (hg : ∀ q, (g q).Sublist q) :
    Works j s (t.modSec j fun r => { r with controlQueue := g r.controlQueue }) :=
  w.sec _ (.control _ _ _ _ (fun h => h.sublist (hg _)) fun e he => .inl ⟨e, (hg _).subset he, rfl⟩)

theorem Works.departures (w : Works j s t) (k : Slot) (n : Nat) : Works j s (State.departures k j n t) := by
  induction n generalizing t with
  | zero => exact w
  | succ n ih => exact ih ((w.shrinkControl (dropFirstOf k) fun q => List.eraseP_sublist).owedScan)

theorem Works.discard (w : Works j s t) {k : Slot} (hk : s.belongs j k = true) : Works j s (t.discard k) := by
  unfold State.discard
  rw [w.sectorOf hk]
  exact (w.owe hk fun _ => {}).departures k _

theorem Works.foldl (f : State → Slot → State) (l : List Slot) (hl : ∀ k ∈ l, s.belongs j k = true)
    (hf : ∀ {t : State} {k : Slot}, Works j s t → s.belongs j k = true → Works j s (f t k)) (w : Works j s t) :
    Works j s (l.foldl f t) := by
  induction l generalizing t with
  | nil => exact w
  | cons k ks ih =>
    exact ih (fun x hx => hl x (List.mem_cons_of_mem _ hx)) (hf w (hl k List.mem_cons_self))

theorem Works.grantAll (w : Works j s t) (n : FrameNo) {ks : List Slot} (hk : ∀ k ∈ ks, s.belongs j k = true) :
    Works j s (t.grantAll j n ks) :=
  Works.foldl _ ks hk (fun w h => w.term _ _ (w.belongs_of h) (.same _)) w

theorem TermEdit.inserted (top : Option Nat) (c : SectorConfig) (n : FrameNo) (kind : MsgKind) (a : Terminal) :
    TermEdit top a (inserted c n kind a) := by
  cases kind with
  | correct =>
    exact ⟨rfl, rfl, rfl, rfl, rfl, Iff.rfl,
      fun h => ⟨h.power, h.filtered, h.history, h.lossF, h.headroom, by simp [Machine.inserted], h.attempts⟩, fun h => h⟩
  | verify => exact .same _
  | power => exact .same _
  | shift =>
    refine ⟨rfl, rfl, rfl, rfl, rfl, Iff.rfl,
      fun h => ⟨h.power, h.filtered, h.history, h.lossF, h.headroom, h.adjust, h.attempts⟩, fun h m hm => ?_⟩
    obtain ⟨h1, h2, h3⟩ := h m hm
    refine ⟨h1, fun p hp => ?_, h3⟩
    simp only [Machine.inserted, Option.map_eq_some_iff] at hp
    obtain ⟨q, hq, rfl⟩ := hp
    exact h2 q hq

theorem Works.queuePass (w : Works j s t) (hs : t.Homed) (n : FrameNo) (free : Nat) :
    Works j s (State.queuePass j n free t).1 := by
  induction free generalizing t with
  | zero => exact w
  | succ free ih =>
    unfold State.queuePass
    split
    · exact w
    · next e rest hq =>
      have hb : t.belongs j e.slot = true := hs j e.slot (.inr (.inr (.inr ⟨e, by rw [hq]; simp, rfl⟩)))
      have hk : s.belongs j e.slot = true := by rw [← w.belongs]; exact hb
      have w1 : Works j t (t.modSec j fun r => { r with controlQueue := rest }) :=
        Works.sec .refl _ (.control _ _ _ _ (fun h => h.sublist (by rw [hq]; exact List.sublist_cons_self e rest))
          fun x hx => .inl ⟨x, by rw [hq]; exact List.mem_cons_of_mem _ hx, rfl⟩)
      have w2 := (w1.term e.slot (Machine.inserted (t.cfg j) n e.kind) (w1.belongs_of hb) (.inserted _ _ _ _ _)).owedScan
      exact ih (w.trans w2) (w2.homed hs)

/-- The filling of a frame is work of its sector, where the collections name only their sector's terminals. -/
theorem Works.fill (w : Works j s t) (hs : t.Homed) (n : FrameNo) (free : Nat) : Works j s (t.fill j n free).1 := by
  unfold State.fill
  have hg : ∀ k ∈ (if (t.sec j).state = .blind then [] else (t.toGrant j).take free), t.belongs j k = true := by
    intro k hk
    split at hk
    · simp at hk
    · exact hs j k (.inr (.inl (List.mem_filter.mp (List.mem_of_mem_take hk)).1))
  have w1 := Works.grantAll (j := j) (s := t) .refl n hg
  exact w.trans (w1.queuePass (w1.homed hs) n _)

end Sys2Proof.Machine
end

