-- ==== Sys2Proof/Laws/Recovery.lean ====
section
/-!
SUPPORT. The state changes, the re-entry queue and window, and the sector controller's operations are work of one sector
(Chapters 3 and 7).
-/

set_option Elab.async false

namespace Sys2Proof.Machine

variable {j : Sector} {s t : State}

/-! ## Edits of terminal records -/

theorem TermEdit.state (top : Option Nat) (a : Terminal) (st : TermState) (ha : a.state ≠ .empty) (hst : st ≠ .empty) :
    TermEdit top a { a with state := st } :=
  ⟨rfl, rfl, rfl, rfl, rfl, by simp [ha, hst],
    fun h => ⟨h.power, h.filtered, h.history, h.lossF, h.headroom, h.adjust, h.attempts⟩, fun h => h⟩

theorem Works.toState (w : Works j s t) {k : Slot} (hk : s.belongs j k = true) {st : TermState} (hst : st ≠ .empty) :
    Works j s (t.toState k st) := by
  unfold State.toState
  split
  · exact w
  · next h =>
    rw [not_or] at h
    exact (w.term k _ (w.belongs_of hk) (.state _ _ _ h.2 hst)).offerTerminal k (by
      rw [(Works.term .refl k _ (w.belongs_of hk) (.state _ _ _ h.2 hst)).belongs]; exact w.belongs_of hk)

theorem Works.offer (w : Works j s t) {k : Slot} (hk : s.belongs j k = true) : Works j s (t.offerTerminal k) :=
  w.offerTerminal k (w.belongs_of hk)

theorem Works.edit (w : Works j s t) {k : Slot} (hk : s.belongs j k = true) {f : Terminal → Terminal}
    (e : TermEdit t.top (t.term k) (f (t.term k))) : Works j s (t.modTerm k f) :=
  w.term k f (w.belongs_of hk) e

/-- An edit that is one for every record. -/
theorem Works.editAll (w : Works j s t) {k : Slot} (hk : s.belongs j k = true) {f : Terminal → Terminal}
    (e : ∀ top a, TermEdit top a (f a)) : Works j s (t.modTerm k f) :=
  w.term k f (w.belongs_of hk) (e _ _)

/-- An edit that is one for every sector record. -/
theorem Works.secAll (w : Works j s t) {f : SectorRec → SectorRec} (e : ∀ u r, SecEdit u j r (f r)) :
    Works j s (t.modSec j f) :=
  w.sec f (e _ _)

theorem Works.setDegraded (w : Works j s t) {k : Slot} (hk : s.belongs j k = true) : Works j s (t.setDegraded k) := by
  unfold State.setDegraded
  split
  · exact w
  · exact (w.editAll hk fun _ _ => .same _).offer hk

theorem Works.setExhausted (w : Works j s t) {k : Slot} (hk : s.belongs j k = true) : Works j s (t.setExhausted k) := by
  unfold State.setExhausted
  split
  · exact w
  · exact (w.editAll hk fun _ _ => .same _).offer hk

/-! ## Sector states -/

theorem SecEdit.enter (s : State) (j : Sector) (r : SectorRec) {st : SectorState} (hst : st ≠ .disabled) :
    SecEdit s j r (r.enter st) := by
  unfold SectorRec.enter
  split
  · exact .same s j
  · next hn =>
    rw [not_or] at hn
    exact ⟨rfl, rfl, rfl, rfl, rfl, by simp [hst, hn.2], fun h => ⟨h.config, h.lossLog, h.blind, h.probe, Nat.zero_le _, h.control⟩,
      fun k h => .inl h⟩

theorem Works.enterSector (w : Works j s t) {st : SectorState} (hst : st ≠ .disabled) :
    Works j s (t.enterSector j st) := by
  unfold State.enterSector
  split
  · exact w
  · exact (w.secAll fun _ _ => .enter _ _ _ hst).offerSector

theorem WorkState.toSector_ne (x : WorkState) : x.toSector ≠ .disabled := by cases x <;> decide

theorem Works.enterWorking (w : Works j s t) (x : WorkState) : Works j s (t.enterWorking j x) := by
  unfold State.enterWorking
  split
  · exact (w.secAll fun _ _ => .same _ _).offerSector
  · exact w.enterSector x.toSector_ne

/-- An edit of the recovery fields of a sector record: the lead becomes absent or one of the sector's terminals, and the
probe timer stays within the probe interval. -/
theorem SecEdit.recovery (s : State) (j : Sector) {a b : SectorRec} (hl : b.lead = none ∨ b.lead = a.lead ∨
      ∃ k, b.lead = some k ∧ s.belongs j k = true)
    (hp : a.probeTimer ≤ a.config.probeInterval → b.probeTimer ≤ a.config.probeInterval)
    (h1 : b.config = a.config := by rfl)
    (h2 : b.population = a.population := by rfl) (h3 : b.addressMap = a.addressMap := by rfl)
    (h4 : b.evaluation.map Evaluation.held = a.evaluation.map Evaluation.held := by rfl)
    (h5 : b.waitingBank = a.waitingBank := by rfl)
    (h6 : b.lossLog.length ≤ a.lossLog.length := by exact Nat.le_refl _)
    (h7 : b.blindCounter = a.blindCounter := by rfl)
    (h9 : b.progressCounter = a.progressCounter := by rfl)
    (h10 : b.controlQueue = a.controlQueue := by rfl) (h11 : b.queue = a.queue := by rfl)
    (h12 : b.window = a.window := by rfl)
    (h14 : b.state = .disabled ↔ a.state = .disabled := by exact Iff.rfl) : SecEdit s j a b where
  config := h1
  population := h2
  addressMap := h3
  evaluation := h4
  waiting := h5
  disabled := h14
  range h := ⟨by rw [h1]; exact h.config, h6.trans h.lossLog, by rw [h7]; exact h.blind,
    by rw [h1]; exact hp h.probe, by rw [h9]; exact h.progress, by rw [h10]; exact h.control⟩
  names k h := by
    simp only [SectorRec.Names, h10, h11, h12] at h ⊢
    rcases h with h | h | h | h
    · exact .inl (.inl h)
    · exact .inl (.inr (.inl h))
    · rcases hl with hl | hl | ⟨k', hl, hb⟩
      · rw [hl] at h; cases h
      · exact .inl (.inr (.inr (.inl (hl ▸ h))))
      · rw [hl] at h; cases h; exact .inr hb
    · exact .inl (.inr (.inr (.inr h)))

/-! ## The re-entry queue and window (R108) -/

theorem mem_insertByClass (cls : Slot → Fin 4) (k x : Slot) (q : List Slot) :
    x ∈ insertByClass cls k q ↔ x = k ∨ x ∈ q := by
  induction q with
  | nil => simp [insertByClass]
  | cons y ys ih =>
    simp only [insertByClass]
    split
    · simp only [List.mem_cons, ih]; tauto
    · simp only [List.mem_cons]

/-- An edit of the queue and the window that names no slot but the sector's terminals. -/
theorem SecEdit.members (s : State) (j : Sector) {a b : SectorRec}
    (hn : ∀ k, k ∈ b.queue ∨ k ∈ b.window → (k ∈ a.queue ∨ k ∈ a.window) ∨ s.belongs j k = true)
    (h4 : b.evaluation.map Evaluation.held = a.evaluation.map Evaluation.held := by rfl)
    (h1 : b.config = a.config := by rfl)
    (h2 : b.population = a.population := by rfl) (h3 : b.addressMap = a.addressMap := by rfl)
    (h5 : b.waitingBank = a.waitingBank := by rfl)
    (h6 : b.lossLog = a.lossLog := by rfl) (h7 : b.blindCounter = a.blindCounter := by rfl)
    (h8 : b.probeTimer = a.probeTimer := by rfl) (h9 : b.progressCounter = a.progressCounter := by rfl)
    (h10 : b.controlQueue = a.controlQueue := by rfl) (h13 : b.lead = a.lead := by rfl)
    (h14 : b.state = .disabled ↔ a.state = .disabled := by exact Iff.rfl) : SecEdit s j a b where
  config := h1
  population := h2
  addressMap := h3
  evaluation := h4
  waiting := h5
  disabled := h14
  range h := ⟨by rw [h1]; exact h.config, by rw [h6]; exact h.lossLog, by rw [h7]; exact h.blind,
    by rw [h8, h1]; exact h.probe, by rw [h9]; exact h.progress, by rw [h10]; exact h.control⟩
  names k h := by
    simp only [SectorRec.Names, h10, h13] at h ⊢
    rcases h with h | h | h | h
    · rcases hn k (.inl h) with (h | h) | h
      · exact .inl (.inl h)
      · exact .inl (.inr (.inl h))
      · exact .inr h
    · rcases hn k (.inr h) with (h | h) | h
      · exact .inl (.inl h)
      · exact .inl (.inr (.inl h))
      · exact .inr h
    · exact .inl (.inr (.inr (.inl h)))
    · exact .inl (.inr (.inr (.inr h)))

theorem Works.joinQueue (w : Works j s t) {k : Slot} (hk : s.belongs j k = true) : Works j s (t.joinQueue k) := by
  unfold State.joinQueue
  rw [w.sectorOf hk]
  refine w.sec _ (.members _ _ fun x hx => ?_)
  rcases hx with hx | hx
  · rcases (mem_insertByClass _ _ _ _).mp hx with rfl | hx
    · exact .inr (w.belongs_of hk)
    · exact .inl (.inl hx)
  · exact .inl (.inr hx)

theorem Works.becomeWaiting (w : Works j s t) {k : Slot} (hk : s.belongs j k = true) :
    Works j s (t.becomeWaiting k) :=
  (w.joinQueue hk).toState hk (by decide)

theorem mem_without {k x : Slot} {l : List Slot} : x ∈ without k l ↔ x ∈ l ∧ x ≠ k := by
  simp [without, bne_iff_ne]

theorem SecEdit.drop (s : State) (j : Sector) (k : Slot) (r : SectorRec) : SecEdit s j r (r.drop k) :=
  .members _ _ (fun _ hx => .inl (hx.imp (fun h => (mem_without.mp h).1) fun h => (mem_without.mp h).1))
    (by simp only [SectorRec.drop, Option.map_map]; rfl)

theorem Works.leave (w : Works j s t) {k : Slot} (hk : s.belongs j k = true) : Works j s (t.leave k) := by
  unfold State.leave
  rw [w.sectorOf hk]
  exact (w.secAll fun _ _ => .drop _ _ _ _).editAll hk fun _ _ => .same _

theorem TermEdit.fresh (top : Option Nat) (a : Terminal) : TermEdit top a a.fresh :=
  ⟨rfl, rfl, rfl, rfl, rfl, Iff.rfl,
    fun h => ⟨h.power, by simp [Terminal.fresh], by simp [Terminal.fresh], h.lossF, h.headroom, h.adjust, h.attempts⟩,
    fun h => h⟩

theorem TermEdit.trans {top : Option Nat} {a b c : Terminal} (h : TermEdit top a b) (h' : TermEdit top b c) :
    TermEdit top a c :=
  ⟨h'.sector.trans h.sector, h'.address.trans h.address, h'.priority.trans h.priority, h'.maxRung.trans h.maxRung,
    h'.noticePending.trans h.noticePending, h'.empty.trans h.empty, fun x => h'.range (h.range x),
    fun x => h'.rungs (h.rungs x)⟩

theorem Works.takeIn (w : Works j s t) {k : Slot} (hk : s.belongs j k = true) : Works j s (t.takeIn j k) := by
  unfold State.takeIn
  refine Works.toState (Works.edit (w.sec _ (.members _ _ fun x hx => ?_)) hk ((TermEdit.fresh _ _).trans (.same _))) hk
    (by decide)
  rcases hx with hx | hx
  · exact .inl (.inl hx)
  · rcases List.mem_append.mp hx with hx | hx
    · exact .inl (.inr hx)
    · rw [List.mem_singleton] at hx; subst hx; exact .inr (w.belongs_of hk)

theorem Works.admitHeads (w : Works j s t) (hs : t.Homed) (n : Nat) : Works j s (State.admitHeads j n t) := by
  induction n generalizing t with
  | zero => exact w
  | succ n ih =>
    unfold State.admitHeads
    split
    · exact w
    · next k rest hq =>
      have hb : t.belongs j k = true := hs j k (.inl (by rw [hq]; simp))
      have w1 : Works j t (t.modSec j fun r => { r with queue := rest }) :=
        Works.sec .refl _ (.members _ _ fun x hx => .inl (hx.imp (fun h => by rw [hq]; exact List.mem_cons_of_mem _ h) id))
      have w2 := w1.takeIn hb
      exact ih (w.trans w2) (w2.homed hs)

theorem Works.admission (w : Works j s t) (hs : t.Homed) : Works j s (t.admission j) := w.admitHeads hs _

theorem TermEdit.abortExchange (top : Option Nat) (a : Terminal) : TermEdit top a a.abortExchange := by
  unfold Terminal.abortExchange
  split <;> exact .same _

/-! ## The lead (R48, R52) -/

theorem Works.clearMarks (w : Works j s t) : Works j s (t.clearMarks j) :=
  Works.foldl _ _ (fun k hk => by rw [← w.belongs]; exact mem_slotsOf.mp hk)
    (fun w h => w.editAll h fun _ _ => .same _) w

theorem State.best_mem (s : State) {l : List Slot} {k : Slot} (h : s.best l = some k) : k ∈ l := by
  induction l with
  | nil => simp [State.best] at h
  | cons x xs ih =>
    simp only [State.best] at h
    split at h
    · cases h; simp
    · next m hm =>
      split at h
      · cases h; exact List.mem_cons_of_mem _ (ih hm)
      · cases h; simp

theorem slotsIn_belongs {s : State} {j : Sector} {st : TermState} {k : Slot} (h : k ∈ s.slotsIn j st) :
    s.belongs j k = true := mem_slotsOf.mp (List.mem_filter.mp h).1

theorem Works.chooseLead (w : Works j s t) (o : Option Slot) (h : ∀ k, o = some k → s.belongs j k = true) :
    Works j s (t.modSec j fun r => { r with lead := o }) := by
  cases o with
  | none => exact w.sec _ (.recovery _ _ (.inl rfl) id)
  | some k => exact w.sec _ (.recovery _ _ (.inr (.inr ⟨k, rfl, w.belongs_of (h k rfl)⟩)) id)

theorem Works.leadChoice (w : Works j s t) : Works j s (t.leadChoice j) := by
  unfold State.leadChoice
  split
  · exact (w.sec _ (.recovery _ _ (.inl rfl) fun _ => Nat.zero_le _)).enterWorking _
  · next k ks hq =>
    have hb : ∀ x ∈ k :: ks, s.belongs j x = true := fun x hx => by
      rw [← w.belongs]; exact slotsIn_belongs (hq ▸ hx)
    dsimp only
    split
    · exact w.clearMarks.chooseLead _ fun x hx => hb x (t.best_mem hx)
    · exact w.chooseLead _ fun x hx => hb x (List.mem_filter.mp (t.best_mem hx)).1

theorem Works.leadDeparts (w : Works j s t) : Works j s (t.leadDeparts j) :=
  (w.sec _ (.recovery _ _ (.inl rfl) id)).leadChoice

/-! ## Declaration, losses and recovery (R45 to R51) -/

theorem power_zero : (-40 : Int) ≤ 0 ∧ (0 : Int) ≤ 40 := by decide

/-- The declaration's edit of the lead failures and the probe timer. -/
theorem SecEdit.declared (s : State) (j : Sector) (r : SectorRec) :
    SecEdit s j r { r with leadFailures := 0, probeTimer := r.config.probeInterval } :=
  .recovery _ _ (.inr (.inl rfl)) fun _ => Nat.le_refl _

theorem Works.silence (w : Works j s t) {k : Slot} (hk : s.belongs j k = true) : Works j s (t.silence k) := by
  unfold State.silence
  refine Works.toState (Works.discard (Works.edit ((w.edit hk (.abortExchange _ _)).leave hk) hk ?_) hk) hk (by decide)
  exact ⟨rfl, rfl, rfl, rfl, rfl, Iff.rfl, fun h => ⟨power_zero, by simp [Terminal.fresh], by simp [Terminal.fresh],
    h.lossF, h.headroom, by simp, h.attempts⟩, fun h => h⟩

theorem Works.declareOutage (w : Works j s t) : Works j s (t.declareOutage j) := by
  unfold State.declareOutage
  have w1 : Works j s (t.modSec j fun r => { r.enter .outage with releaseCursor := none }) := by
    refine w.sec _ ?_
    have h := SecEdit.enter t j (t.sec j) (st := .outage) (by decide)
    exact ⟨h.config, h.population, h.addressMap, h.evaluation, h.waiting, h.disabled,
      fun x => ⟨(h.range x).config, (h.range x).lossLog, (h.range x).blind, (h.range x).probe, (h.range x).progress,
        (h.range x).control⟩, h.names⟩
  have w2 := Works.foldl State.silence
    (((t.modSec j fun r => { r.enter .outage with releaseCursor := none }).slotsOf j).filter fun k =>
      ((t.modSec j fun r => { r.enter .outage with releaseCursor := none }).term k).state.reEntering)
    (fun k hk => by rw [← w1.belongs]; exact mem_slotsOf.mp (List.mem_filter.mp hk).1) (fun w h => w.silence h) w1
  exact (Works.leadChoice (w2.clearMarks.sec _ (.declared _ _ _))).offerSector

theorem appendLoss_length (n : Nat) (e : LossEntry) (log : List LossEntry) (h : log.length ≤ 64) :
    (appendLoss n e log).length ≤ 64 := by
  have hl : (log.filter fun x => decide (distance e.frame x.frame < n)).length ≤ 64 :=
    (List.length_filter_le _ _).trans h
  have hc : Config.lossLogLimit = 64 := rfl
  simp only [appendLoss, List.length_append, List.length_singleton]
  generalize (log.filter fun x => decide (distance e.frame x.frame < n)) = kept at hl ⊢
  by_cases hk : Config.lossLogLimit ≤ kept.length
  · rw [if_pos hk, List.length_drop]; omega
  · rw [if_neg hk]; omega

theorem Works.outageTest (w : Works j s t) : Works j s (t.outageTest j) := by
  unfold State.outageTest
  split
  · exact w.declareOutage
  · exact w

theorem Works.placeLoss (w : Works j s t) {k : Slot} (hk : s.belongs j k = true) (n : FrameNo) :
    Works j s (t.placeLoss j k n) := by
  have append : ∀ {u : State}, Works j s u → Works j s (u.modSec j fun r =>
      { r with lossLog := appendLoss r.config.outageWindow { slot := k, frame := n } r.lossLog }) := fun {u} w =>
    w.sec _ ⟨rfl, rfl, rfl, rfl, rfl, Iff.rfl, fun h => ⟨h.config, appendLoss_length _ _ _ h.lossLog, h.blind, h.probe, h.progress,
      h.control⟩, fun k h => .inl h⟩
  unfold State.placeLoss
  split
  · exact (append (w.toState hk (by decide))).outageTest
  · exact (append (w.becomeWaiting hk)).outageTest

theorem Works.recover (w : Works j s t) : Works j s (t.recover j) :=
  (w.sec _ (.recovery _ _ (.inl rfl) (fun _ => Nat.zero_le _) (h6 := Nat.zero_le _))).enterWorking _

theorem Works.leadFailure (w : Works j s t) {k : Slot} (hk : s.belongs j k = true) : Works j s (t.leadFailure j k) := by
  unfold State.leadFailure
  have w1 : Works j s ((((t.leave k).modTerm k fun t =>
      { t.fresh with roundCount := 0, power := 0, pendingAdjust := none }).discard k).toState k .quiet) := by
    refine Works.toState (Works.discard (Works.edit (w.leave hk) hk ?_) hk) hk (by decide)
    exact ⟨rfl, rfl, rfl, rfl, rfl, Iff.rfl, fun h => ⟨power_zero, by simp [Terminal.fresh], by simp [Terminal.fresh],
      h.lossF, h.headroom, by simp, h.attempts⟩, fun h => h⟩
  have w2 := w1.secAll (f := fun r => { r with leadFailures := r.leadFailures + 1 }) fun _ _ => .same _ _
  dsimp only
  split
  · exact ((w2.editAll hk fun _ _ => .same _).secAll fun _ _ => .same _ _).leadChoice
  · exact w2

/-! ## The release walk (R53, R54) -/

theorem Works.walkOut (w : Works j s t) {k : Slot} (hk : s.belongs j k = true) : Works j s (t.walkOut k) := by
  refine Works.becomeWaiting (w.edit hk ?_) hk
  exact ⟨rfl, rfl, rfl, rfl, rfl, Iff.rfl,
    fun h => ⟨h.power, h.filtered, h.history, h.lossF, h.headroom, h.adjust, Nat.zero_le _⟩, fun h => h⟩

theorem Works.endWalk (w : Works j s t) : Works j s (t.endWalk j) := (w.secAll fun _ _ => .same _ _).enterSector (by decide)

theorem Works.walkStep (w : Works j s t) : Works j s (t.walkStep j) := by
  unfold State.walkStep
  dsimp only
  have moved : ∀ {l : List Slot}, (∀ k ∈ l, k ∈ t.slotsOf j) → Works j s (l.foldl State.walkOut t) := fun h =>
    Works.foldl _ _ (fun k hk => by rw [← w.belongs]; exact mem_slotsOf.mp (h k hk)) (fun w h => w.walkOut h) w
  have w1 : Works j s (List.foldl State.walkOut t (List.take (t.cfg j).releaseBatch (List.filter
      (fun k => (t.term k).state == .quiet)
      (List.filter (fun k => decide ((t.sec j).releaseCursor.getD 0 ≤ k)) (t.slotsOf j))))) :=
    moved fun k hk => (List.mem_filter.mp (List.mem_filter.mp (List.mem_of_mem_take hk)).1).1
  split
  · split
    · exact w1.endWalk
    · exact w1
  · split
    · exact w1.endWalk
    · exact w1.secAll fun _ _ => .same _ _

/-! ## BLIND (R55, R56) -/

theorem Works.enterBlind (w : Works j s t) : Works j s (t.enterBlind j) := (w.secAll fun _ _ => .same _ _).enterSector (by decide)

theorem Works.returnToPrior (w : Works j s t) : Works j s (t.returnToPrior j) := (w.secAll fun _ _ => .same _ _).enterSector (WorkState.toSector_ne _)

theorem Works.framePassed (w : Works j s t) : Works j s (t.framePassed j) := by
  unfold State.framePassed
  have w1 : Works j s (t.modSec j fun r => { r with blindCounter := 0 }) := w.sec _
    ⟨rfl, rfl, rfl, rfl, rfl, Iff.rfl, fun h => ⟨h.config, h.lossLog, Nat.zero_le _, h.probe, h.progress, h.control⟩,
      fun k h => .inl h⟩
  dsimp only
  split
  · exact w1.returnToPrior
  · exact w1

end Sys2Proof.Machine
end

