-- ==== Sys2Proof/Laws/Evaluation.lean ====
section
/-!
SUPPORT. The arithmetic keeps its ranges, and the steps of an evaluation and the reactions to a sector frame are work of one
sector (Chapters 4, 6, 7, 8).
-/

set_option Elab.async false

namespace Sys2Proof.Machine

variable {j : Sector} {s t : State}

/-! ## The arithmetic -/

theorem filterStep_le (k : Nat) {f : Option Nat} {x : Nat} (hf : ∀ v, f = some v → v ≤ 800) (hx : x ≤ 200) :
    filterStep k f x ≤ 800 := by
  unfold filterStep
  split
  · omega
  · next v =>
    have hv := hf v rfl
    have hp : (0 : Int) < 2 ^ k := by positivity
    rw [Int.toNat_le]
    have h2 : ((4 * x : Int) - v) / 2 ^ k ≤ max 0 ((4 * x : Int) - v) := by
      rcases le_or_gt 0 ((4 * x : Int) - v) with h | h
      · exact (Int.ediv_le_self _ h).trans (le_max_right _ _)
      · exact (Int.ediv_neg_of_neg_of_pos h hp).le.trans (le_max_left _ _)
    omega

theorem Burst.sample_le (b : Burst) : b.sample ≤ 200 := Nat.min_le_right _ _

theorem Burst.clampedHeadroom_le (b : Burst) : b.clampedHeadroom ≤ 40 := Nat.min_le_right _ _

theorem historyStep_range {h : List Nat} {f : Nat} (hl : h.length ≤ 8) (hh : ∀ x ∈ h, x ≤ 800) (hf : f ≤ 800) :
    (historyStep h f).length ≤ 8 ∧ ∀ x ∈ historyStep h f, x ≤ 800 := by
  have hc : Config.historyLimit = 8 := rfl
  have hm : ∀ x ∈ h ++ [f], x ≤ 800 := by
    intro x hx
    rcases List.mem_append.mp hx with hx | hx
    · exact hh x hx
    · rw [List.mem_singleton] at hx; omega
  simp only [historyStep]
  split
  · next hlt =>
    refine ⟨?_, fun x hx => hm x (List.mem_of_mem_drop hx)⟩
    simp only [List.length_drop, List.length_append, List.length_singleton]; omega
  · next hlt =>
    refine ⟨by rw [hc] at hlt; omega, hm⟩

theorem clamp_range {lo hi : Int} (h : lo ≤ hi) (x : Int) : lo ≤ clamp lo hi x ∧ clamp lo hi x ≤ hi := by
  unfold clamp; omega

theorem TermEdit.stages1to3 (top : Option Nat) (a : Terminal) (c : SectorConfig) (b : Burst) :
    TermEdit top a (stages1to3 c b a) := by
  refine ⟨rfl, rfl, rfl, rfl, rfl, Iff.rfl, fun h => ?_, fun h => h⟩
  have hf := filterStep_le c.filterShift h.filtered b.sample_le
  refine ⟨h.power, ?_, historyStep_range h.history.1 h.history.2 hf, h.lossF, b.clampedHeadroom_le, h.adjust, h.attempts⟩
  rintro f ⟨⟩; exact hf

theorem newPower_range (c : SectorConfig) (b : LadderBank) (h : Nat) {t : Terminal} (ht : -40 ≤ t.power ∧ t.power ≤ 40) :
    -40 ≤ newPower c b h t ∧ newPower c b h t ≤ 40 := by
  unfold newPower
  split
  · exact ht
  · exact clamp_range (by omega) _

theorem TermEdit.stage7 (top : Option Nat) (a : Terminal) (c : SectorConfig) (b : LadderBank) (x : Burst) :
    TermEdit top a (stage7 c b x a) :=
  ⟨rfl, rfl, rfl, rfl, rfl, Iff.rfl,
    fun h => ⟨newPower_range c b _ h.power, h.filtered, h.history, h.lossF, h.headroom, h.adjust, h.attempts⟩, fun h => h⟩

theorem TermEdit.stage8 (top : Option Nat) (a : Terminal) (c : SectorConfig) (x : Burst) :
    TermEdit top a (stage8 c x a) := by
  refine ⟨rfl, rfl, rfl, rfl, rfl, Iff.rfl,
    fun h => ⟨h.power, h.filtered, h.history, h.lossF, h.headroom, fun v hv => ?_, h.attempts⟩, fun h => h⟩
  simp only [Machine.stage8] at hv
  split at hv
  · cases hv; exact clamp_range (by omega) _
  · exact h.adjust v hv

theorem TermEdit.stages1to8 (top : Option Nat) (a : Terminal) (c : SectorConfig) (b : LadderBank) (x : Burst) :
    TermEdit top a (stages1to8 c b x a) :=
  (((TermEdit.stages1to3 _ _ c x).trans (.same _ : TermEdit top _ (stage6 b (Machine.stages1to3 c x a)))).trans
    (.stage7 _ _ c b x)).trans (.stage8 _ _ c x)

theorem TermEdit.stagesOfRound (top : Option Nat) (a : Terminal) (c : SectorConfig) (b : LadderBank) (x : Burst) :
    TermEdit top a (stagesOfRound c b x a) :=
  ((TermEdit.stages1to3 _ _ c x).trans (.stage7 _ _ c b x)).trans (.stage8 _ _ c x)

/-! ## Losses and shifts (R89, R95, R96, R101) -/

theorem State.boundRung_le {s : State} {m : Nat} (h : s.top = some m) (r : Nat) : s.boundRung r ≤ m := by
  unfold State.boundRung
  unfold State.top at h
  cases hb : s.activeBank with
  | none => rw [hb] at h; cases h
  | some b => rw [hb] at h; cases h; exact Nat.min_le_right _ _

theorem TermEdit.lost {top : Option Nat} (a : Terminal) (x : Nat) (hx : ∀ m, top = some m → x ≤ m) :
    TermEdit top a (a.lost x) := by
  refine ⟨rfl, rfl, rfl, rfl, rfl, Iff.rfl, fun h => ⟨power_zero, by simp [Terminal.lost, Terminal.fresh],
    by simp [Terminal.lost, Terminal.fresh], h.filtered, h.headroom, h.adjust, Nat.zero_le _⟩, fun h m hm => ?_⟩
  refine ⟨Nat.zero_le _, by simp [Terminal.lost], fun r hr => ?_⟩
  simp only [Terminal.lost] at hr
  split at hr
  · cases hr; exact hx m hm
  · exact (h m hm).2.2 r hr

theorem Works.declareLoss (w : Works j s t) {k : Slot} (hk : s.belongs j k = true) (n : FrameNo) :
    Works j s (t.declareLoss j k n) :=
  Works.placeLoss (Works.discard (w.edit hk (.lost _ _ fun _ hm => t.boundRung_le hm _)) hk) hk n

theorem TermEdit.pend {top : Option Nat} (a : Terminal) (x : Nat) (hx : ∀ m, top = some m → x ≤ m) :
    TermEdit top a { a with pendingShift := some { target := x } } :=
  ⟨rfl, rfl, rfl, rfl, rfl, Iff.rfl,
    fun h => ⟨h.power, h.filtered, h.history, h.lossF, h.headroom, h.adjust, h.attempts⟩,
    fun h m hm => ⟨(h m hm).1, by rintro p ⟨⟩; exact hx m hm, (h m hm).2.2⟩⟩

theorem Works.shiftTo (w : Works j s t) {k : Slot} (hk : s.belongs j k = true) (n : Nat) :
    Works j s (t.shiftTo k n) :=
  (w.edit hk (.pend _ _ fun _ hm => t.boundRung_le hm _)).request hk _

theorem Works.decideRung (w : Works j s t) {k : Slot} (hk : s.belongs j k = true) (b : LadderBank) :
    Works j s (t.decideRung j k b) := by
  unfold State.decideRung
  dsimp only
  split
  · exact (w.editAll hk fun _ _ => .same _).shiftTo hk _
  · generalize (if (t.term k).climbCondition (t.cfg j) b then (t.term k).climbDwell + 1 else 0) = dwell
    split
    · exact (w.editAll hk fun _ _ => .same _).shiftTo hk _
    · exact w.editAll hk fun _ _ => .same _

/-! ## Ramp, climb and service (R93, R103, R104) -/

theorem Terminal.serviceState_ne (t : Terminal) : t.serviceState ≠ .empty := by
  unfold Terminal.serviceState; split <;> decide

theorem TermEdit.goal (top : Option Nat) (a : Terminal) : TermEdit top a { a with restoreRung := none } :=
  ⟨rfl, rfl, rfl, rfl, rfl, Iff.rfl,
    fun h => ⟨h.power, h.filtered, h.history, h.lossF, h.headroom, h.adjust, h.attempts⟩,
    fun h m hm => ⟨(h m hm).1, (h m hm).2.1, by simp⟩⟩

theorem Works.goalTest (w : Works j s t) {k : Slot} (hk : s.belongs j k = true) (b : LadderBank) :
    Works j s (t.goalTest j k b) := by
  unfold State.goalTest
  split
  · exact (w.editAll hk fun _ _ => .goal _ _).toState hk (Terminal.serviceState_ne _)
  · exact w

theorem Works.enterClimbing (w : Works j s t) {k : Slot} (hk : s.belongs j k = true) (b : LadderBank) (u : Bool) :
    Works j s (t.enterClimbing j k b u) :=
  ((w.editAll hk fun _ _ => .same _).toState hk (by decide)).goalTest hk b

theorem Works.countRamp (w : Works j s t) {k : Slot} (hk : s.belongs j k = true) (b : LadderBank) :
    Works j s (t.countRamp j k b) := by
  unfold State.countRamp
  have w1 : Works j s (t.modTerm k fun x =>
      { x with phaseReports := x.phaseReports + 1, rampSettle := if settled (t.cfg j) b x then x.rampSettle + 1 else 0 }) :=
    w.editAll hk fun _ _ => .same _
  dsimp only
  split
  · exact w1.enterClimbing hk b false
  · split
    · exact w1.enterClimbing hk b true
    · exact w1

theorem Works.countClimb (w : Works j s t) {k : Slot} (hk : s.belongs j k = true) (b : LadderBank) :
    Works j s (t.countClimb j k b) := by
  unfold State.countClimb
  have w1 : Works j s (t.modTerm k fun x => { x with phaseReports := x.phaseReports + 1 }) :=
    w.editAll hk fun _ _ => .same _
  split
  · exact w.goalTest hk b
  · dsimp only
    split
    · exact w1.toState hk (Terminal.serviceState_ne _)
    · exact w1

theorem Works.decideUnless (w : Works j s t) {k : Slot} (hk : s.belongs j k = true) (b : LadderBank) (c : Bool) :
    Works j s (if c then t else t.decideRung j k b) := by
  split
  · exact w
  · exact w.decideRung hk b

theorem Works.afterRuns (w : Works j s t) {k : Slot} (hk : s.belongs j k = true) (b : LadderBank) :
    Works j s (t.afterRuns j k b) := by
  unfold State.afterRuns
  split
  · exact (w.toState hk (Terminal.serviceState_ne _)).decideUnless hk b _
  · exact (w.toState hk (Terminal.serviceState_ne _)).decideUnless hk b _
  · exact (w.decideUnless hk b _).countClimb hk b
  · exact w.countRamp hk b
  all_goals exact w

theorem Works.runStages (w : Works j s t) {k : Slot} (hk : s.belongs j k = true) (b : LadderBank) (x : Burst) :
    Works j s (t.runStages j k b x) := by
  unfold State.runStages
  have w1 : Works j s (t.modTerm k (Machine.stages1to8 (t.cfg j) b x)) := w.editAll hk fun _ _ => .stages1to8 _ _ _ _ _
  have w2 : Works j s (if ((t.modTerm k (Machine.stages1to8 (t.cfg j) b x)).term k).power ≠ (t.term k).power then
      (t.modTerm k (Machine.stages1to8 (t.cfg j) b x)).request k .power
      else t.modTerm k (Machine.stages1to8 (t.cfg j) b x)) := by
    split
    · exact w1.request hk _
    · exact w1
  dsimp only
  split
  · exact w2.request hk _
  · exact w2

theorem Works.receivedReport (w : Works j s t) {k : Slot} (hk : s.belongs j k = true) (b : LadderBank) (x : Burst)
    (n : FrameNo) : Works j s (t.receivedReport j k b x n) := by
  unfold State.receivedReport
  have w1 := (w.runStages hk b x).editAll (f := Terminal.countRuns b) hk fun _ _ => .same _
  dsimp only
  split
  · exact w1.declareLoss hk n
  · exact w1.afterRuns hk b

theorem Works.miss (w : Works j s t) {k : Slot} (hk : s.belongs j k = true) (n : FrameNo) :
    Works j s (t.miss j k n) := by
  unfold State.miss
  have w1 : Works j s (t.modTerm k fun x => { x with missRun := x.missRun + 1, climbDwell := 0 }) :=
    w.editAll hk fun _ _ => .same _
  dsimp only
  split
  · exact w1.declareLoss hk n
  · have w2 : Works j s (if ((t.modTerm k fun x => { x with missRun := x.missRun + 1, climbDwell := 0 }).term k).state =
        .inService then (t.modTerm k fun x => { x with missRun := x.missRun + 1, climbDwell := 0 }).toState k .fading
        else t.modTerm k fun x => { x with missRun := x.missRun + 1, climbDwell := 0 }) := by
      split
      · exact w1.toState hk (by decide)
      · exact w1
    revert w2
    generalize (if ((t.modTerm k fun x => { x with missRun := x.missRun + 1, climbDwell := 0 }).term k).state =
        .inService then (t.modTerm k fun x => { x with missRun := x.missRun + 1, climbDwell := 0 }).toState k .fading
        else t.modTerm k fun x => { x with missRun := x.missRun + 1, climbDwell := 0 }) = u
    intro w2
    split
    · exact w2.shiftTo hk _
    · exact w2

/-! ## Maturity (R102) -/

theorem TermEdit.matured {top : Option Nat} (a : Terminal) (x : Nat) (hx : ∀ m, top = some m → x ≤ m) :
    TermEdit top a { a with rung := x, pendingShift := none, climbDwell := 0 } :=
  ⟨rfl, rfl, rfl, rfl, rfl, Iff.rfl,
    fun h => ⟨h.power, h.filtered, h.history, h.lossF, h.headroom, h.adjust, h.attempts⟩,
    fun h m hm => ⟨hx m hm, by simp, (h m hm).2.2⟩⟩

theorem Works.offerIf (w : Works j s t) {k : Slot} (hk : s.belongs j k = true) (c : Prop) [Decidable c] :
    Works j s (if c then t.offerTerminal k else t) := by
  split
  · exact w.offer hk
  · exact w

theorem Works.mature (w : Works j s t) {k : Slot} (hk : s.belongs j k = true) : Works j s (t.mature j k) := by
  unfold State.mature
  have w1 := (w.edit (f := fun x =>
    { x with rung := t.boundRung (t.term k).shiftTarget, pendingShift := none, climbDwell := 0 }) hk (.matured (t.term k) (t.boundRung (t.term k).shiftTarget) fun _ hm => t.boundRung_le hm _)).offerIf
    hk (t.boundRung (t.term k).shiftTarget ≠ (t.term k).rung)
  dsimp only
  split
  · exact w1.goalTest hk _
  · exact w1

/-! ## Ranging and verification (R114 to R136) -/

theorem TermEdit.attempt (top : Option Nat) (a : Terminal) :
    TermEdit top a { a with attemptCount := min (a.attemptCount + 1) Config.attemptCountLimit } :=
  ⟨rfl, rfl, rfl, rfl, rfl, Iff.rfl,
    fun h => ⟨h.power, h.filtered, h.history, h.lossF, h.headroom, h.adjust, Nat.min_le_right _ _⟩, fun h => h⟩

theorem Works.attemptFailure (w : Works j s t) {k : Slot} (hk : s.belongs j k = true) :
    Works j s (t.attemptFailure j k) := by
  unfold State.attemptFailure
  split
  · exact w.leadFailure hk
  · have w1 := (w.leave hk).editAll hk fun top a => TermEdit.attempt top a
    dsimp only
    split
    · exact ((w1.setExhausted hk).discard hk).toState hk (by decide)
    · exact (w1.editAll hk fun _ _ => .same _).toState hk (by decide)

theorem Works.rangingSuccess (w : Works j s t) {k : Slot} (hk : s.belongs j k = true) (x : Burst) :
    Works j s (t.rangingSuccess j k x) := by
  unfold State.rangingSuccess
  have w1 := ((w.editAll (f := fun a => { Machine.stages1to3 (t.cfg j) x a with expectedBurst := none }) hk fun top a =>
    (TermEdit.stages1to3 top a (t.cfg j) x).trans (.same _)).toState hk (st := .verifying) (by decide)).request hk .verify
  dsimp only
  split
  · exact w1.recover
  · exact w1

theorem Works.countRound (w : Works j s t) {k : Slot} (hk : s.belongs j k = true) : Works j s (t.countRound j k) := by
  unfold State.countRound
  have w1 : Works j s (t.modTerm k fun x => { x with roundCount := x.roundCount + 1, expectedBurst := none }) :=
    w.editAll hk fun _ _ => .same _
  dsimp only
  split
  · exact w1.attemptFailure hk
  · exact w1

theorem Works.judgeRanging (w : Works j s t) {k : Slot} (hk : s.belongs j k = true) (b : LadderBank) (x : Burst) :
    Works j s (t.judgeRanging j k b x) := by
  unfold State.judgeRanging
  split
  · split
    · exact w.rangingSuccess hk x
    · exact Works.countRound (Works.request (w.editAll hk fun _ _ => .stagesOfRound _ _ _ _ _) hk _) hk
  · exact w.countRound hk

theorem TermEdit.passed {top : Option Nat} (a : Terminal) (x : Nat) (hx : ∀ m, top = some m → x ≤ m) :
    TermEdit top a (a.passed x) := by
  refine ⟨rfl, rfl, rfl, rfl, rfl, Iff.rfl, fun h => ⟨h.power, by simp [Terminal.passed, Terminal.fresh],
    by simp [Terminal.passed, Terminal.fresh], h.lossF, h.headroom, h.adjust, Nat.zero_le _⟩, fun h m hm => ?_⟩
  refine ⟨Nat.zero_le _, by simp [Terminal.passed], fun r hr => ?_⟩
  simp only [Terminal.passed, Option.some.injEq] at hr
  subst hr
  cases hr : a.restoreRung with
  | none => exact hx m hm
  | some r => exact (h m hm).2.2 r hr

theorem Works.verificationPass (w : Works j s t) {k : Slot} (hk : s.belongs j k = true) :
    Works j s (t.verificationPass k) :=
  ((w.leave hk).edit hk (.passed _ _ fun _ hm => (t.leave k).boundRung_le hm _)).toState hk (by decide)

theorem Works.compareVerify (w : Works j s t) {k : Slot} (hk : s.belongs j k = true) (x : Burst) :
    Works j s (t.compareVerify j k x) := by
  unfold State.compareVerify
  have w1 := w.editAll (f := fun a => { Machine.stages1to3 (t.cfg j) x a with
      expectedBurst := none
      verification := a.verification.compared
        (verifySeed k (t.term k).attemptCount (t.term k).verification.startFrame) x.payload (t.cfg j) }) hk fun top a =>
    (TermEdit.stages1to3 top a (t.cfg j) x).trans (.same _)
  dsimp only
  split
  · exact (w1.editAll hk fun _ _ => .same _).verificationPass hk
  · exact (w1.setDegraded hk).verificationPass hk
  · exact (w1.setDegraded hk).attemptFailure hk
  · exact w1
  · exact w1

theorem Works.missingBurst (w : Works j s t) {k : Slot} (hk : s.belongs j k = true) : Works j s (t.missingBurst j k) :=
  (w.editAll hk fun _ _ => .same _).attemptFailure hk

theorem Works.judgeVerify (w : Works j s t) {k : Slot} (hk : s.belongs j k = true) (x : Burst) :
    Works j s (t.judgeVerify j k x) := by
  unfold State.judgeVerify
  split
  · exact w.compareVerify hk x
  · exact w.missingBurst hk

/-! ## The steps of an evaluation (R14, R15) -/

theorem Works.modEvaluation (w : Works j s t) (f : Evaluation → Evaluation) (hf : ∀ e, (f e).held = e.held) :
    Works j s (t.modEvaluation j f) :=
  w.secAll fun _ r => .same _ _ (h4 := by
    simp only [Option.map_map]; congr 1; exact funext hf)

/-- A descriptor of one of the sector's terminals acts within the sector. -/
theorem Works.actOn (w : Works j s t) {k : Slot} (hk : s.belongs j k = true) (e : Evaluation) (x : Burst) :
    Works j s (t.actOn j k e x) := by
  have wm : Works j s (t.markHanded j k) := w.modEvaluation _ fun _ => rfl
  unfold State.actOn
  dsimp only
  split
  · split
    · split
      · exact w.receivedReport hk _ _ _
      · exact w.miss hk _
    · exact w
  · split
    · exact wm.judgeRanging hk _ _
    · exact w
  · split
    · exact wm.judgeVerify hk _
    · exact w
  · exact w
  · exact w

theorem Works.sweepMember (w : Works j s t) {k : Slot} (hk : s.belongs j k = true) (e : Evaluation) :
    Works j s (t.sweepMember j k e) := by
  unfold State.sweepMember
  dsimp only
  split
  · exact w
  · split
    · split
      · exact w
      · split
        · exact w.missingBurst hk
        · exact w.countRound hk
    · split
      · exact w
      · split
        · exact Works.request (w.editAll hk fun _ _ => .same _) hk _
        · exact w.editAll hk fun _ _ => .same _

/-! ## The reactions to a sector frame (R44, R110) -/

theorem Works.countProbe (w : Works j s t) (hs : t.Homed) : Works j s (t.countProbe j) := by
  unfold State.countProbe
  have w1 : Works j t (t.modSec j fun r => { r with probeTimer := r.probeTimer - 1 }) :=
    Works.secAll .refl fun _ _ => .recovery _ _ (.inr (.inl rfl)) fun h => (Nat.sub_le _ _).trans h
  dsimp only
  split
  · refine w.trans (Works.secAll ?_ fun _ _ => .recovery _ _ (.inr (.inl rfl)) fun _ => Nat.le_refl _)
    unfold State.admitLead
    split
    · next k hl =>
      split
      · exact w1.takeIn (hs j k (.inr (.inr (.inl (by simpa using hl)))))
      · exact w1
    · exact w1
  · exact w.trans w1

theorem Works.stateWork (w : Works j s t) (hs : t.Homed) : Works j s (t.stateWork j) := by
  unfold State.stateWork
  split
  · exact w.countProbe hs
  · exact w.walkStep
  all_goals exact w

theorem SectorConfig.Accepted.progress {c : SectorConfig} (h : c.Accepted) : c.progressInterval ≤ 254 := by
  have := h.1
  simp only [SectorConfig.inRange, Bool.and_eq_true, decide_eq_true_eq] at this
  exact this.2

theorem Works.countProgress (w : Works j s t) : Works j s (t.countProgress j) := by
  unfold State.countProgress
  split
  · refine (w.secAll fun _ r => ?_).offerSector
    exact ⟨rfl, rfl, rfl, rfl, rfl, Iff.rfl, fun h => ⟨h.config, h.lossLog, h.blind, h.probe, Nat.zero_le _, h.control⟩,
      fun k h => .inl h⟩
  · next hp =>
    refine w.sec _ ⟨rfl, rfl, rfl, rfl, rfl, Iff.rfl, fun h => ⟨h.config, h.lossLog, h.blind, h.probe, ?_, h.control⟩,
      fun k h => .inl h⟩
    have := h.config.progress
    simp only at this ⊢
    omega

theorem Works.progressStep (w : Works j s t) : Works j s (t.progressStep j) := by
  unfold State.progressStep
  split
  · exact w.countProgress
  · exact w.countProgress
  all_goals exact w

theorem Works.controllerReaction (w : Works j s t) (hs : t.Homed) : Works j s (t.controllerReaction j) := by
  unfold State.controllerReaction
  have w1 : Works j t (t.modSec j fun r => { r with blindCounter := r.blindCount }) := Works.secAll .refl fun _ _ =>
    ⟨rfl, rfl, rfl, rfl, rfl, Iff.rfl, fun h => ⟨h.config, h.lossLog, Nat.min_le_right _ _, h.probe, h.progress, h.control⟩,
      fun k h => .inl h⟩
  dsimp only
  split
  · exact w.trans w1.enterBlind
  · exact w.trans (w1.stateWork (w1.homed hs)).progressStep

theorem Works.takeController (w : Works j s t) (hs : t.Homed) : Works j s (t.takeController j) := by
  unfold State.takeController
  have w1 : Works j t (t.modSec j fun r => { r with controllerDue := r.controllerDue - 1 }) :=
    Works.secAll .refl fun _ _ => .same _ _
  dsimp only
  split
  · exact w.trans (w1.controllerReaction (w1.homed hs))
  · exact w.trans w1

theorem Works.countBackoff (w : Works j s t) {k : Slot} (hk : s.belongs j k = true) : Works j s (t.countBackoff k) := by
  unfold State.countBackoff
  have w1 : Works j s (t.modTerm k fun x => { x with backoff := x.backoff - 1 }) := w.editAll hk fun _ _ => .same _
  dsimp only
  split
  · exact w1.becomeWaiting hk
  · exact w1

theorem Works.countBackoffs (w : Works j s t) :
    Works j s (if (t.sec j).state.work.isSome then (t.slotsIn j .deferred).foldl State.countBackoff t else t) := by
  split
  · exact Works.foldl _ _ (fun k hk => by rw [← w.belongs]; exact slotsIn_belongs hk) (fun w h => w.countBackoff h) w
  · exact w

theorem Works.schedulerReaction (w : Works j s t) (hs : t.Homed) : Works j s (t.schedulerReaction j) := by
  unfold State.schedulerReaction
  have w1 := Works.countBackoffs (j := j) (s := t) .refl
  revert w1
  generalize (if (t.sec j).state.work.isSome then (t.slotsIn j .deferred).foldl State.countBackoff t else t) = u
  intro w1
  dsimp only
  split
  · exact w.trans (w1.admission (w1.homed hs))
  · exact w.trans w1

theorem Works.takeScheduler (w : Works j s t) (hs : t.Homed) : Works j s (t.takeScheduler j) := by
  unfold State.takeScheduler
  have w1 : Works j t (t.modSec j fun r => { r with schedulerDue := r.schedulerDue - 1 }) :=
    Works.secAll .refl fun _ _ => .same _ _
  dsimp only
  split
  · exact w.trans (w1.schedulerReaction (w1.homed hs))
  · exact w.trans w1

end Sys2Proof.Machine
end

