-- ==== Sys2Proof/Laws/Members.lean ====
section
/-!
SUPPORT. The re-entry queue and window against the states of the terminals (R108): which operations leave states, queues and
windows standing, and what each state change of a re-entering terminal does to the agreement `State.MembersAgree`.
-/

set_option Elab.async false

namespace Sys2Proof.Machine

variable {j : Sector} {s t u : State} {k : Slot}

/-! ## States that differ in their links only -/

/-- The two states agree in everything but the fault latch and the links. -/
structure SameInside (s t : State) : Prop where
  mode : t.mode = s.mode
  startUp : t.startUp = s.startUp
  terminals : t.terminals = s.terminals
  sectors : t.sectors = s.sectors
  ladder : t.ladder = s.ladder
  notices : t.notices = s.notices
  pending : t.pending = s.pending

theorem SameInside.term (h : SameInside s t) (k : Slot) : t.term k = s.term k := by
  simp only [State.term, h.terminals]

theorem SameInside.sec (h : SameInside s t) (j : Sector) : t.sec j = s.sec j := by
  simp only [State.sec, h.sectors]

theorem State.emit_inside (s : State) (fr : Frame) : SameInside s (s.emit fr) := by constructor <;> rfl

theorem State.reply_inside (s : State) (c : Byte) (tag : BitVec 16) (st : Status) (rs : List Byte) :
    SameInside s (s.reply c tag st rs) := by constructor <;> rfl

theorem State.forward_inside (s : State) (fr : Frame) (o : Option Sector) : SameInside s (s.forward fr o) := by
  constructor <;> rfl

theorem State.offerFault_inside (s : State) (r : FaultRecord) : SameInside s (s.offerFault r) := by
  unfold State.offerFault
  split <;> constructor <;> rfl

/-! ## Operations that leave states, queues and windows standing -/

/-- The states, sectors and priorities of all terminals, and all queues and windows, are the same. -/
structure Still (s t : State) : Prop where
  term : ∀ k, (t.term k).state = (s.term k).state ∧ (t.term k).sector = (s.term k).sector ∧
    (t.term k).priority = (s.term k).priority
  lists : ∀ j, (t.sec j).queue = (s.sec j).queue ∧ (t.sec j).window = (s.sec j).window

namespace Still

theorem refl (s : State) : Still s s := ⟨fun _ => ⟨rfl, rfl, rfl⟩, fun _ => ⟨rfl, rfl⟩⟩

theorem trans (a : Still s t) (b : Still t u) : Still s u :=
  ⟨fun k => ⟨(b.term k).1.trans (a.term k).1, (b.term k).2.1.trans (a.term k).2.1, (b.term k).2.2.trans (a.term k).2.2⟩,
    fun j => ⟨(b.lists j).1.trans (a.lists j).1, (b.lists j).2.trans (a.lists j).2⟩⟩

theorem modTerm (s : State) (k : Slot) (f : Terminal → Terminal)
    (h : ∀ t, (f t).state = t.state ∧ (f t).sector = t.sector ∧ (f t).priority = t.priority := by
      exact fun _ => ⟨rfl, rfl, rfl⟩) : Still s (s.modTerm k f) := by
  refine ⟨fun k' => ?_, fun j => ⟨rfl, rfl⟩⟩
  rw [State.modTerm_term]
  split
  · next e => subst e; exact h _
  · exact ⟨rfl, rfl, rfl⟩

theorem modSec (s : State) (j : Sector) (f : SectorRec → SectorRec)
    (h : ∀ r, (f r).queue = r.queue ∧ (f r).window = r.window := by exact fun _ => ⟨rfl, rfl⟩) : Still s (s.modSec j f) := by
  refine ⟨fun k => ⟨rfl, rfl, rfl⟩, fun j' => ?_⟩
  rw [State.modSec_sec]
  split
  · next e => subst e; exact h _
  · exact ⟨rfl, rfl⟩

theorem inside (e : SameInside s t) : Still s t :=
  ⟨fun k => by rw [e.term]; exact ⟨rfl, rfl, rfl⟩, fun j => by rw [e.sec]; exact ⟨rfl, rfl⟩⟩

theorem offerTerminal (s : State) (k : Slot) : Still s (s.offerTerminal k) := by
  refine ⟨fun k' => ?_, fun j => by rw [State.offerTerminal_sec]; exact ⟨rfl, rfl⟩⟩
  rw [State.offerTerminal_term]
  split <;> exact ⟨rfl, rfl, rfl⟩

theorem offerSector (s : State) (j : Sector) : Still s (s.offerSector j) :=
  ⟨fun k => by rw [State.offerSector_term]; exact ⟨rfl, rfl, rfl⟩, fun j' => by
    rw [State.offerSector_sec]; exact ⟨rfl, rfl⟩⟩

theorem reclassShift (s : State) (k : Slot) : Still s (s.reclassShift k) := modSec s _ _

theorem request (s : State) (k : Slot) (kind : MsgKind) : Still s (s.request k kind) := by
  unfold State.request
  dsimp only
  split
  · cases kind
    · exact refl s
    · exact refl s
    · exact refl s
    · exact reclassShift s k
  · split
    · exact modSec s _ _
    · exact modTerm s k _

theorem owedScan (s : State) (j : Sector) : Still s (s.owedScan j) := by
  unfold State.owedScan
  split
  · exact refl s
  · split
    · exact refl s
    · dsimp only; exact (modSec s j _).trans (modTerm _ _ _)

theorem departures (k : Slot) (j : Sector) (n : Nat) (s : State) : Still s (State.departures k j n s) := by
  induction n generalizing s with
  | zero => exact refl s
  | succ n ih =>
    exact ((modSec s j fun r => { r with controlQueue := dropFirstOf k r.controlQueue }).trans (owedScan _ j)).trans (ih _)

theorem discard (s : State) (k : Slot) : Still s (s.discard k) :=
  (modTerm s k fun t => { t with owed := {} }).trans (departures k _ _ _)

theorem setDegraded (s : State) (k : Slot) : Still s (s.setDegraded k) := by
  unfold State.setDegraded
  split
  · exact refl s
  · exact (modTerm s k fun t => { t with sticky := { t.sticky with degraded := true } }).trans (offerTerminal _ k)

theorem setExhausted (s : State) (k : Slot) : Still s (s.setExhausted k) := by
  unfold State.setExhausted
  split
  · exact refl s
  · exact (modTerm s k fun t => { t with sticky := { t.sticky with exhausted := true } }).trans (offerTerminal _ k)

theorem enter (s : State) (j : Sector) (st : SectorState) : Still s (s.modSec j fun r => r.enter st) :=
  modSec s j _ fun r => by unfold SectorRec.enter; split <;> exact ⟨rfl, rfl⟩

theorem enterSector (s : State) (j : Sector) (st : SectorState) : Still s (s.enterSector j st) := by
  unfold State.enterSector
  split
  · exact refl s
  · exact (enter s j st).trans (offerSector _ j)

theorem enterWorking (s : State) (j : Sector) (w : WorkState) : Still s (s.enterWorking j w) := by
  unfold State.enterWorking
  split
  · exact (modSec s j fun r => { r with prior := some w }).trans (offerSector _ j)
  · exact enterSector s j _

theorem foldl (f : State → Slot → State) (hf : ∀ s k, Still s (f s k)) (l : List Slot) (s : State) :
    Still s (l.foldl f s) := by
  induction l generalizing s with
  | nil => exact refl s
  | cons x xs ih => exact (hf s x).trans (ih _)

theorem clearMarks (s : State) (j : Sector) : Still s (s.clearMarks j) :=
  foldl _ (fun s k => modTerm s k fun t => { t with probed := false }) _ s

theorem leadChoice (s : State) (j : Sector) : Still s (s.leadChoice j) := by
  unfold State.leadChoice
  split
  · exact (modSec s j fun r => { r with lead := none, leadFailures := 0, probeTimer := 0 }).trans (enterWorking _ j _)
  · dsimp only
    split
    · exact (clearMarks s j).trans (modSec _ j _)
    · exact modSec s j _

theorem leadDeparts (s : State) (j : Sector) : Still s (s.leadDeparts j) :=
  (modSec s j fun r => { r with lead := none, leadFailures := 0 }).trans (leadChoice _ j)

theorem recover (s : State) (j : Sector) : Still s (s.recover j) :=
  Still.trans (modSec s j fun r =>
    { r with lossLog := [], releaseCursor := s.lowestSlot j, lead := none, leadFailures := 0, probeTimer := 0 })
    (enterWorking _ j _)

theorem returnToPrior (s : State) (j : Sector) : Still s (s.returnToPrior j) :=
  (modSec s j fun r => { r with prior := none }).trans (enterSector _ j _)

theorem framePassed (s : State) (j : Sector) : Still s (s.framePassed j) := by
  unfold State.framePassed
  dsimp only
  split
  · exact (modSec s j fun r => { r with blindCounter := 0 }).trans (returnToPrior _ j)
  · exact modSec s j _

theorem modEvaluation (s : State) (j : Sector) (f : Evaluation → Evaluation) : Still s (s.modEvaluation j f) :=
  modSec s j _

theorem abortExchange (s : State) (k : Slot) : Still s (s.modTerm k Terminal.abortExchange) :=
  modTerm s k _ fun t => by unfold Terminal.abortExchange; split <;> exact ⟨rfl, rfl, rfl⟩

theorem shiftTo (s : State) (k : Slot) (n : Nat) : Still s (s.shiftTo k n) :=
  (modTerm s k fun t => { t with pendingShift := some { target := s.boundRung n } }).trans (request _ k _)

theorem decideRung (s : State) (j : Sector) (k : Slot) (b : LadderBank) : Still s (s.decideRung j k b) := by
  unfold State.decideRung
  dsimp only
  generalize (if (s.term k).climbCondition (s.cfg j) b then (s.term k).climbDwell + 1 else 0) = dwell
  split_ifs
  · exact (modTerm s k fun t =>
      { t with
        climbDwell := 0
        sticky := { t.sticky with onsetDrop :=
          t.sticky.onsetDrop || (!belowDrop b (s.term k) && onset (s.cfg j) b (s.term k)) } }).trans (shiftTo _ k _)
  · exact (modTerm s k fun t => { t with climbDwell := 0 }).trans (shiftTo _ k _)
  · exact modTerm s k fun t => { t with climbDwell := dwell }

theorem runStages (s : State) (j : Sector) (k : Slot) (b : LadderBank) (x : Burst) : Still s (s.runStages j k b x) := by
  unfold State.runStages
  have h1 : Still s (s.modTerm k (stages1to8 (s.cfg j) b x)) := modTerm s k _ fun t => by
    simp only [stages1to8, stage8, stage7, stages1to6, stage6, stages1to3, stage23, stage1, and_self]
  revert h1
  dsimp only
  generalize s.modTerm k (stages1to8 (s.cfg j) b x) = v
  intro h1
  have h2 : Still s (if (v.term k).power ≠ (s.term k).power then v.request k .power else v) := by
    split
    · exact h1.trans (request v k _)
    · exact h1
  revert h2
  generalize (if (v.term k).power ≠ (s.term k).power then v.request k .power else v) = w
  intro h2
  split
  · exact h2.trans (request w k _)
  · exact h2

theorem grantAll (s : State) (j : Sector) (n : FrameNo) (ks : List Slot) : Still s (s.grantAll j n ks) :=
  foldl _ (fun s k => modTerm s k _) ks s

theorem inserted (s : State) (k : Slot) (c : SectorConfig) (n : FrameNo) (kind : MsgKind) :
    Still s (s.modTerm k (Machine.inserted c n kind)) :=
  modTerm s k _ fun t => by cases kind <;> exact ⟨rfl, rfl, rfl⟩

theorem queuePass (j : Sector) (n : FrameNo) (free : Nat) (s : State) : Still s (State.queuePass j n free s).1 := by
  induction free generalizing s with
  | zero => exact refl s
  | succ free ih =>
    unfold State.queuePass
    split
    · exact refl s
    · next e rest _ =>
      exact (((modSec s j fun r => { r with controlQueue := rest }).trans (inserted _ e.slot _ n e.kind)).trans
        (owedScan _ j)).trans (ih _)

theorem fill (s : State) (j : Sector) (n : FrameNo) (free : Nat) : Still s (s.fill j n free).1 :=
  (grantAll s j n _).trans (queuePass j n _ _)

end Still

/-! ## The agreement with one terminal out of the lists -/

/-- The states whose terminals stand in a queue or a window (R108). -/
def TermState.listed (st : TermState) : Prop := st = .waiting ∨ st = .ranging ∨ st = .verifying

/-- The agreement of R108 for every terminal but one, which stands in no queue and no window. -/
structure State.MembersBut (s : State) (k : Slot) : Prop where
  queue : ∀ j k', k' ≠ k → (k' ∈ (s.sec j).queue ↔ (s.term k').state = .waiting ∧ (s.term k').sector = j)
  window : ∀ j k', k' ≠ k → (k' ∈ (s.sec j).window ↔
    ((s.term k').state = .ranging ∨ (s.term k').state = .verifying) ∧ (s.term k').sector = j)
  out : ∀ j, k ∉ (s.sec j).queue ∧ k ∉ (s.sec j).window
  queueOnce : ∀ j, (s.sec j).queue.Nodup
  windowOnce : ∀ j, (s.sec j).window.Nodup
  classes : ∀ j, (s.sec j).queue.Pairwise fun a b => (s.term a).priority ≤ (s.term b).priority

theorem Still.agree (e : Still s t) (h : s.MembersAgree) : t.MembersAgree := by
  refine ⟨fun j k => ?_, fun j k => ?_, fun j => ?_, fun j => ?_, fun j => ?_⟩
  · rw [(e.lists j).1, (e.term k).1, (e.term k).2.1]; exact h.queue j k
  · rw [(e.lists j).2, (e.term k).1, (e.term k).2.1]; exact h.window j k
  · rw [(e.lists j).1]; exact h.queueOnce j
  · rw [(e.lists j).2]; exact h.windowOnce j
  · rw [(e.lists j).1]; exact (h.classes j).imp fun {a b} x => by rw [(e.term a).2.2, (e.term b).2.2]; exact x

theorem Still.but (e : Still s t) (h : s.MembersBut k) : t.MembersBut k := by
  refine ⟨fun j k' hk => ?_, fun j k' hk => ?_, fun j => ?_, fun j => ?_, fun j => ?_, fun j => ?_⟩
  · rw [(e.lists j).1, (e.term k').1, (e.term k').2.1]; exact h.queue j k' hk
  · rw [(e.lists j).2, (e.term k').1, (e.term k').2.1]; exact h.window j k' hk
  · rw [(e.lists j).1, (e.lists j).2]; exact h.out j
  · rw [(e.lists j).1]; exact h.queueOnce j
  · rw [(e.lists j).2]; exact h.windowOnce j
  · rw [(e.lists j).1]; exact (h.classes j).imp fun {a b} x => by rw [(e.term a).2.2, (e.term b).2.2]; exact x

/-- A terminal that is in no listed state stands in no list. -/
theorem State.MembersAgree.but (h : s.MembersAgree) (hk : ¬(s.term k).state.listed) : s.MembersBut k := by
  simp only [TermState.listed, not_or] at hk
  exact ⟨fun j k' _ => h.queue j k', fun j k' _ => h.window j k',
    fun j => ⟨fun x => hk.1 ((h.queue j k).mp x).1, fun x => by
      rcases ((h.window j k).mp x).1 with x | x
      · exact hk.2.1 x
      · exact hk.2.2 x⟩, h.queueOnce, h.windowOnce, h.classes⟩

theorem State.MembersBut.agree (h : s.MembersBut k) (hk : ¬(s.term k).state.listed) : s.MembersAgree := by
  simp only [TermState.listed, not_or] at hk
  refine ⟨fun j k' => ?_, fun j k' => ?_, h.queueOnce, h.windowOnce, h.classes⟩
  · by_cases e : k' = k
    · subst e; exact ⟨fun x => absurd x (h.out j).1, fun x => absurd x.1 hk.1⟩
    · exact h.queue j k' e
  · by_cases e : k' = k
    · subst e
      exact ⟨fun x => absurd x (h.out j).2, fun x => by
        rcases x.1 with x | x
        · exact absurd x hk.2.1
        · exact absurd x hk.2.2⟩
    · exact h.window j k' e

/-! ## State changes -/

theorem State.toState_term (s : State) (k k' : Slot) (st : TermState) :
    ((s.toState k st).term k').sector = (s.term k').sector ∧ ((s.toState k st).term k').priority = (s.term k').priority ∧
      (k' ≠ k → ((s.toState k st).term k').state = (s.term k').state) ∧
      ((s.term k).state ≠ .empty → ((s.toState k st).term k).state = st) := by
  unfold State.toState
  split
  · next h => exact ⟨rfl, rfl, fun _ => rfl, fun hne => h.resolve_right hne⟩
  · have e := Still.offerTerminal (s.modTerm k fun t => { t with state := st }) k
    rw [(e.term k').2.1, (e.term k').2.2, (e.term k').1, (e.term k).1, State.modTerm_term_same]
    by_cases hk : k = k'
    · subst hk; simp
    · simp [State.modTerm_term_other _ hk]

theorem State.toState_lists (s : State) (k : Slot) (st : TermState) (j : Sector) :
    ((s.toState k st).sec j).queue = (s.sec j).queue ∧ ((s.toState k st).sec j).window = (s.sec j).window := by
  unfold State.toState
  split
  · exact ⟨rfl, rfl⟩
  · rw [State.offerTerminal_sec]; exact ⟨rfl, rfl⟩

/-- A state change of the terminal that is out of the lists. -/
theorem State.MembersBut.toState (h : s.MembersBut k) (st : TermState) : (s.toState k st).MembersBut k := by
  refine ⟨fun j k' hk => ?_, fun j k' hk => ?_, fun j => ?_, fun j => ?_, fun j => ?_, fun j => ?_⟩
  · rw [(s.toState_lists k st j).1, (s.toState_term k k' st).1, (s.toState_term k k' st).2.2.1 hk]; exact h.queue j k' hk
  · rw [(s.toState_lists k st j).2, (s.toState_term k k' st).1, (s.toState_term k k' st).2.2.1 hk]; exact h.window j k' hk
  · rw [(s.toState_lists k st j).1, (s.toState_lists k st j).2]; exact h.out j
  · rw [(s.toState_lists k st j).1]; exact h.queueOnce j
  · rw [(s.toState_lists k st j).2]; exact h.windowOnce j
  · rw [(s.toState_lists k st j).1]
    exact (h.classes j).imp fun {a b} x => by
      rw [(s.toState_term k a st).2.1, (s.toState_term k b st).2.1]; exact x

/-- The terminal that is out of the lists takes a state that belongs to none. -/
theorem State.MembersBut.settle (h : s.MembersBut k) {st : TermState} (hst : ¬st.listed) : (s.toState k st).MembersAgree := by
  refine (h.toState st).agree ?_
  by_cases hne : (s.term k).state = .empty
  · unfold State.toState
    rw [if_pos (.inr hne), hne]; rintro (x | x | x) <;> cases x
  · rw [(s.toState_term k k st).2.2.2 hne]; exact hst

/-- A state change between two states that belong to no list. -/
theorem State.MembersAgree.toState (h : s.MembersAgree) {st : TermState} (hk : ¬(s.term k).state.listed) (hst : ¬st.listed) :
    (s.toState k st).MembersAgree :=
  (h.but hk).settle hst

/-! ## Joining and leaving the lists -/

theorem insertByClass_nodup {cls : Slot → Fin 4} {q : List Slot} (h : q.Nodup) (hk : k ∉ q) :
    (insertByClass cls k q).Nodup := by
  induction q with
  | nil => simp [insertByClass]
  | cons x xs ih =>
    rw [List.nodup_cons] at h
    rw [List.mem_cons, not_or] at hk
    simp only [insertByClass]
    split
    · rw [List.nodup_cons, mem_insertByClass]
      exact ⟨by rintro (e | e); exacts [hk.1 e.symm, h.1 e], ih h.2 hk.2⟩
    · simp [List.nodup_cons, hk.1, hk.2, h.1, h.2]

theorem insertByClass_classes {cls : Slot → Fin 4} {q : List Slot} (h : q.Pairwise fun a b => cls a ≤ cls b) :
    (insertByClass cls k q).Pairwise fun a b => cls a ≤ cls b := by
  induction q with
  | nil => simp [insertByClass]
  | cons x xs ih =>
    rw [List.pairwise_cons] at h
    simp only [insertByClass]
    split
    · next hx =>
      rw [List.pairwise_cons]
      refine ⟨fun y hy => ?_, ih h.2⟩
      rcases (mem_insertByClass _ _ _ _).mp hy with rfl | hy
      · exact hx
      · exact h.1 y hy
    · next hx =>
      rw [List.pairwise_cons, List.pairwise_cons]
      refine ⟨fun y hy => ?_, h⟩
      have hx := (not_le.mp hx).le
      rcases List.mem_cons.mp hy with rfl | hy
      · exact hx
      · exact hx.trans (h.1 y hy)

/-- A terminal that is out of the lists becomes WAITING (R108). -/
theorem State.MembersBut.becomeWaiting (h : s.MembersBut k) (hne : (s.term k).state ≠ .empty) :
    (s.becomeWaiting k).MembersAgree := by
  unfold State.becomeWaiting
  generalize hv : s.joinQueue k = v
  have tv : ∀ k', v.term k' = s.term k' := fun k' => by rw [← hv]; rfl
  have sv : ∀ j, (v.sec j).window = (s.sec j).window ∧
      (v.sec j).queue = if s.sectorOf k = j then insertByClass s.classOfSlot k (s.sec j).queue else (s.sec j).queue := by
    intro j
    rw [← hv]; unfold State.joinQueue
    rw [State.modSec_sec]
    split
    · next e => subst e; exact ⟨rfl, rfl⟩
    · exact ⟨rfl, rfl⟩
  have hne' : (v.term k).state ≠ .empty := by rw [tv]; exact hne
  have st : ∀ k', ((v.toState k .waiting).term k').state = if k' = k then .waiting else (s.term k').state := by
    intro k'
    split
    · next e => subst e; exact (v.toState_term _ k' .waiting).2.2.2 hne'
    · next e => rw [(v.toState_term k k' .waiting).2.2.1 e, tv]
  refine ⟨fun j k' => ?_, fun j k' => ?_, fun j => ?_, fun j => ?_, fun j => ?_⟩
  · rw [(v.toState_lists k _ j).1, (v.toState_term k k' _).1, tv, st, (sv j).2]
    by_cases e : k' = k
    · subst e
      rw [if_pos rfl]
      split
      · next e => simp [mem_insertByClass, ← e, State.sectorOf]
      · next e => exact ⟨fun x => absurd x (h.out j).1, fun x => absurd x.2 e⟩
    · rw [if_neg e]
      split
      · rw [mem_insertByClass, h.queue j k' e]; simp [e]
      · exact h.queue j k' e
  · rw [(v.toState_lists k _ j).2, (v.toState_term k k' _).1, tv, st, (sv j).1]
    by_cases e : k' = k
    · subst e
      rw [if_pos rfl]
      exact ⟨fun x => absurd x (h.out j).2, fun x => by rcases x.1 with x | x <;> cases x⟩
    · rw [if_neg e]; exact h.window j k' e
  · rw [(v.toState_lists k _ j).1, (sv j).2]
    split
    · exact insertByClass_nodup (h.queueOnce j) (h.out j).1
    · exact h.queueOnce j
  · rw [(v.toState_lists k _ j).2, (sv j).1]; exact h.windowOnce j
  · rw [(v.toState_lists k _ j).1, (sv j).2]
    refine List.Pairwise.imp (R := fun a b => (s.term a).priority ≤ (s.term b).priority) (fun {a b} x => ?_) ?_
    · rw [(v.toState_term k a _).2.1, (v.toState_term k b _).2.1, tv, tv]; exact x
    · split
      · exact insertByClass_classes (cls := s.classOfSlot) (h.classes j)
      · exact h.classes j

theorem State.MembersAgree.becomeWaiting (h : s.MembersAgree) (hk : ¬(s.term k).state.listed)
    (hne : (s.term k).state ≠ .empty) : (s.becomeWaiting k).MembersAgree :=
  (h.but hk).becomeWaiting hne

/-- A terminal leaves the queue or the window (R113). -/
theorem State.MembersAgree.leave (h : s.MembersAgree) (k : Slot) : (s.leave k).MembersBut k := by
  have tv : ∀ k', ((s.leave k).term k').state = (s.term k').state ∧ ((s.leave k).term k').sector = (s.term k').sector ∧
      ((s.leave k).term k').priority = (s.term k').priority := fun k' =>
    (Still.modTerm (s.modSec (s.sectorOf k) (SectorRec.drop k)) k fun t => { t with expectedBurst := none }).term k'
  have sv : ∀ j, ((s.leave k).sec j).queue = (if s.sectorOf k = j then without k (s.sec j).queue else (s.sec j).queue) ∧
      ((s.leave k).sec j).window = if s.sectorOf k = j then without k (s.sec j).window else (s.sec j).window := by
    intro j
    unfold State.leave
    rw [State.modTerm_sec, State.modSec_sec]
    split
    · next e => subst e; exact ⟨rfl, rfl⟩
    · exact ⟨rfl, rfl⟩
  refine ⟨fun j k' hk => ?_, fun j k' hk => ?_, fun j => ⟨fun x => ?_, fun x => ?_⟩, fun j => ?_, fun j => ?_, fun j => ?_⟩
  · rw [(sv j).1, (tv k').1, (tv k').2.1, ← h.queue]
    split
    · rw [mem_without]; simp [hk]
    · rfl
  · rw [(sv j).2, (tv k').1, (tv k').2.1, ← h.window]
    split
    · rw [mem_without]; simp [hk]
    · rfl
  · rw [(sv j).1] at x
    split at x
    · exact (mem_without.mp x).2 rfl
    · next e => exact e ((h.queue j k).mp x).2
  · rw [(sv j).2] at x
    split at x
    · exact (mem_without.mp x).2 rfl
    · next e => exact e ((h.window j k).mp x).2
  · rw [(sv j).1]; split
    · exact (h.queueOnce j).filter _
    · exact h.queueOnce j
  · rw [(sv j).2]; split
    · exact (h.windowOnce j).filter _
    · exact h.windowOnce j
  · rw [(sv j).1]
    refine List.Pairwise.imp (R := fun a b => (s.term a).priority ≤ (s.term b).priority) (fun {a b} x => ?_) ?_
    · rw [(tv a).2.2, (tv b).2.2]; exact x
    · split
      · exact (h.classes j).filter _
      · exact h.classes j

/-- A terminal that is out of the lists is admitted to its sector's window (R111). -/
theorem State.MembersBut.takeIn (h : s.MembersBut k) (hb : s.belongs j k = true) : (s.takeIn j k).MembersAgree := by
  have hb := (s.belongs_iff j k).mp hb
  unfold State.takeIn
  dsimp only
  generalize hv : ((s.modSec j fun r => { r with window := r.window ++ [k] }).modTerm k fun t =>
    { t.fresh with roundCount := 0, expectedBurst := none }) = v
  have tv : ∀ k', (v.term k').state = (s.term k').state ∧ (v.term k').sector = (s.term k').sector ∧
      (v.term k').priority = (s.term k').priority := fun k' => by
    rw [← hv]
    exact (Still.modTerm (s.modSec j _) k fun t => { t.fresh with roundCount := 0, expectedBurst := none }).term k'
  have sv : ∀ j', (v.sec j').queue = (s.sec j').queue ∧
      (v.sec j').window = if j = j' then (s.sec j').window ++ [k] else (s.sec j').window := by
    intro j'
    rw [← hv, State.modTerm_sec, State.modSec_sec]
    split
    · next e => subst e; exact ⟨rfl, rfl⟩
    · exact ⟨rfl, rfl⟩
  have hne' : (v.term k).state ≠ .empty := by rw [(tv k).1]; exact hb.1
  have st : ∀ k', ((v.toState k .ranging).term k').state = if k' = k then .ranging else (s.term k').state := by
    intro k'
    split
    · next e => subst e; exact (v.toState_term _ k' .ranging).2.2.2 hne'
    · next e => rw [(v.toState_term k k' .ranging).2.2.1 e, (tv k').1]
  refine ⟨fun j' k' => ?_, fun j' k' => ?_, fun j' => ?_, fun j' => ?_, fun j' => ?_⟩
  · rw [(v.toState_lists k _ j').1, (v.toState_term k k' _).1, (tv k').2.1, st, (sv j').1]
    by_cases e : k' = k
    · subst e
      rw [if_pos rfl]
      exact ⟨fun x => absurd x (h.out j').1, fun x => by cases x.1⟩
    · rw [if_neg e]; exact h.queue j' k' e
  · rw [(v.toState_lists k _ j').2, (v.toState_term k k' _).1, (tv k').2.1, st, (sv j').2]
    by_cases e : k' = k
    · subst e
      rw [if_pos rfl, hb.2]
      split
      · next e => simp [e]
      · next e => exact ⟨fun x => absurd x (h.out j').2, fun x => absurd x.2 e⟩
    · rw [if_neg e]
      split
      · simp only [List.mem_append, List.mem_singleton, e, or_false]; exact h.window j' k' e
      · exact h.window j' k' e
  · rw [(v.toState_lists k _ j').1, (sv j').1]; exact h.queueOnce j'
  · rw [(v.toState_lists k _ j').2, (sv j').2]
    split
    · rw [List.nodup_append]
      refine ⟨h.windowOnce j', by simp, fun a ha b hb' => ?_⟩
      rw [List.mem_singleton] at hb'
      subst hb'
      rintro rfl
      exact (h.out j').2 ha
    · exact h.windowOnce j'
  · rw [(v.toState_lists k _ j').1, (sv j').1]
    exact (h.classes j').imp fun {a b} x => by
      rw [(v.toState_term k a _).2.1, (v.toState_term k b _).2.1, (tv a).2.2, (tv b).2.2]; exact x

/-- A RANGING terminal becomes VERIFYING in its place in the window (R115). -/
theorem State.MembersAgree.verifying (h : s.MembersAgree) (hk : (s.term k).state = .ranging) :
    (s.toState k .verifying).MembersAgree := by
  have hne : (s.term k).state ≠ .empty := by rw [hk]; decide
  have st : ∀ k', ((s.toState k .verifying).term k').state = if k' = k then .verifying else (s.term k').state := by
    intro k'
    split
    · next e => subst e; exact (s.toState_term _ k' .verifying).2.2.2 hne
    · next e => exact (s.toState_term k k' .verifying).2.2.1 e
  refine ⟨fun j k' => ?_, fun j k' => ?_, fun j => ?_, fun j => ?_, fun j => ?_⟩
  · rw [(s.toState_lists k _ j).1, (s.toState_term k k' _).1, st, h.queue]
    split
    · next e => subst e; simp [hk]
    · rfl
  · rw [(s.toState_lists k _ j).2, (s.toState_term k k' _).1, st, h.window]
    split
    · next e => subst e; simp [hk]
    · rfl
  · rw [(s.toState_lists k _ j).1]; exact h.queueOnce j
  · rw [(s.toState_lists k _ j).2]; exact h.windowOnce j
  · rw [(s.toState_lists k _ j).1]
    exact (h.classes j).imp fun {a b} x => by
      rw [(s.toState_term k a _).2.1, (s.toState_term k b _).2.1]; exact x

/-- The head of a queue is taken out of it. -/
theorem State.MembersAgree.takeHead (h : s.MembersAgree) {rest : List Slot} (hq : (s.sec j).queue = k :: rest) :
    (s.modSec j fun r => { r with queue := rest }).MembersBut k := by
  have hk : (s.term k).state = .waiting ∧ (s.term k).sector = j := (h.queue j k).mp (by rw [hq]; simp)
  have nd := h.queueOnce j
  rw [hq, List.nodup_cons] at nd
  have sv : ∀ j', ((s.modSec j fun r => { r with queue := rest }).sec j').window = (s.sec j').window ∧
      ((s.modSec j fun r => { r with queue := rest }).sec j').queue = if j = j' then rest else (s.sec j').queue := by
    intro j'
    rw [State.modSec_sec]
    split
    · next e => subst e; exact ⟨rfl, rfl⟩
    · exact ⟨rfl, rfl⟩
  refine ⟨fun j' k' e => ?_, fun j' k' e => ?_, fun j' => ⟨fun x => ?_, fun x => ?_⟩, fun j' => ?_, fun j' => ?_, fun j' => ?_⟩
  · rw [(sv j').2, State.modSec_term, ← h.queue]
    split
    · next e' => subst e'; rw [hq]; simp [e]
    · rfl
  · rw [(sv j').1, State.modSec_term]; exact h.window j' k'
  · rw [(sv j').2] at x
    split at x
    · exact nd.1 x
    · next e => exact e (hk.2.symm.trans ((h.queue j' k).mp x).2)
  · rw [(sv j').1] at x
    have := ((h.window j' k).mp x).1
    rw [hk.1] at this
    rcases this with x | x <;> cases x
  · rw [(sv j').2]; split
    · exact nd.2
    · exact h.queueOnce j'
  · rw [(sv j').1]; exact h.windowOnce j'
  · rw [(sv j').2]
    split
    · next e => subst e; have := h.classes j; rw [hq, List.pairwise_cons] at this; exact this.2
    · exact h.classes j'

end Sys2Proof.Machine
end

