-- ==== Sys2Proof/Laws/Listing.lean ====
section
/-!
SUPPORT. The shared operations of recovery and evaluation keep the agreement of the re-entry queue and window with the states of
the terminals (R108): one lemma for each.
-/

set_option Elab.async false

namespace Sys2Proof.Machine

variable {j : Sector} {s t u : State} {k : Slot}

/-- Closes a side goal: a named state is in no list. -/
theorem not_listed {st : TermState} (h : st = .empty ∨ st = .held ∨ st = .inService ∨ st = .fading ∨ st = .quiet ∨
    st = .deferred ∨ st = .ramping ∨ st = .climbing) : ¬st.listed := by
  rintro (x | x | x) <;> subst x <;> simp at h

theorem TermState.carrying.not_listed {st : TermState} (h : st.carrying = true) : ¬st.listed := by
  rintro (x | x | x) <;> subst x <;> cases h

theorem Terminal.serviceState_not_listed (t : Terminal) : ¬t.serviceState.listed := by
  unfold Terminal.serviceState; split <;> exact not_listed (by simp)

/-! ## The declaration of an outage, losses and the lead -/

theorem State.MembersAgree.silence (h : s.MembersAgree) (k : Slot) : (s.silence k).MembersAgree := by
  unfold State.silence
  refine State.MembersBut.settle ?_ (not_listed (by simp))
  refine (Still.discard _ k).but ((Still.modTerm _ k fun t =>
    { t.fresh with backoff := 0, roundCount := 0, power := 0, pendingAdjust := none }).but ?_)
  exact ((Still.abortExchange s k).agree h).leave k

theorem State.MembersAgree.foldl {f : State → Slot → State} (hf : ∀ {s : State} (k : Slot), s.MembersAgree → (f s k).MembersAgree)
    (l : List Slot) (h : s.MembersAgree) : (l.foldl f s).MembersAgree := by
  induction l generalizing s with
  | nil => exact h
  | cons x xs ih => exact ih (hf x h)

theorem State.MembersAgree.declareOutage (h : s.MembersAgree) (j : Sector) : (s.declareOutage j).MembersAgree := by
  unfold State.declareOutage
  have h1 : (s.modSec j fun r => { r.enter .outage with releaseCursor := none }).MembersAgree :=
    (Still.modSec s j _ fun r => by unfold SectorRec.enter; split <;> exact ⟨rfl, rfl⟩).agree h
  revert h1
  generalize (s.modSec j fun r => { r.enter .outage with releaseCursor := none }) = v
  intro h1
  have h2 := State.MembersAgree.foldl (f := State.silence) (fun k h => h.silence k)
    ((v.slotsOf j).filter fun k => (v.term k).state.reEntering) h1
  exact (Still.offerSector _ j).agree ((Still.leadChoice _ j).agree ((Still.modSec _ j fun r =>
    { r with leadFailures := 0, probeTimer := r.config.probeInterval }).agree ((Still.clearMarks _ j).agree h2)))

theorem State.MembersAgree.placeLoss (h : s.MembersAgree) (j : Sector) (hk : ¬(s.term k).state.listed)
    (hne : (s.term k).state ≠ .empty) (n : FrameNo) : (s.placeLoss j k n).MembersAgree := by
  unfold State.placeLoss
  have h1 : (if (s.sec j).working = some .outage then s.toState k .quiet else s.becomeWaiting k).MembersAgree := by
    split
    · exact h.toState hk (not_listed (by simp))
    · exact h.becomeWaiting hk hne
  revert h1
  generalize (if (s.sec j).working = some .outage then s.toState k .quiet else s.becomeWaiting k) = v
  intro h1
  have h2 : (v.modSec j fun r =>
      { r with lossLog := appendLoss r.config.outageWindow { slot := k, frame := n } r.lossLog }).MembersAgree :=
    (Still.modSec v j _).agree h1
  dsimp only
  unfold State.outageTest
  split
  · exact h2.declareOutage j
  · exact h2

theorem State.MembersAgree.declareLoss (h : s.MembersAgree) (j : Sector) (hk : (s.term k).state.carrying = true)
    (n : FrameNo) : (s.declareLoss j k n).MembersAgree := by
  unfold State.declareLoss
  have e : Still s ((s.modTerm k fun t => t.lost (s.boundRung t.rung)).discard k) :=
    (Still.modTerm s k fun t => t.lost (s.boundRung t.rung)).trans (Still.discard _ k)
  refine (e.agree h).placeLoss j ?_ ?_ n
  · rw [(e.term k).1]; exact TermState.carrying.not_listed hk
  · rw [(e.term k).1]; intro x; rw [x] at hk; cases hk

theorem State.MembersAgree.leadFailure (h : s.MembersAgree) (j : Sector) (k : Slot) : (s.leadFailure j k).MembersAgree := by
  unfold State.leadFailure
  have h1 := ((Still.discard _ k).but ((Still.modTerm _ k fun t =>
    { t.fresh with roundCount := 0, power := 0, pendingAdjust := none }).but (h.leave k))).settle (st := .quiet)
      (not_listed (by simp))
  have h2 := (Still.modSec _ j fun r => { r with leadFailures := r.leadFailures + 1 }).agree h1
  dsimp only
  split
  · exact (Still.leadChoice _ j).agree ((Still.modSec _ j fun r => { r with leadFailures := 0 }).agree
      ((Still.modTerm _ k fun t => { t with probed := true }).agree h2))
  · exact h2

theorem State.MembersAgree.attemptFailure (h : s.MembersAgree) (j : Sector) (k : Slot) :
    (s.attemptFailure j k).MembersAgree := by
  unfold State.attemptFailure
  split
  · exact h.leadFailure j k
  · have h1 := (Still.modTerm _ k fun t =>
      { t with attemptCount := min (t.attemptCount + 1) Config.attemptCountLimit }).but (h.leave k)
    dsimp only
    split
    · exact ((Still.discard _ k).but ((Still.setExhausted _ k).but h1)).settle (not_listed (by simp))
    · exact ((Still.modTerm _ k _).but h1).settle (not_listed (by simp))

/-! ## Ranging and verification -/

theorem State.MembersAgree.rangingSuccess (h : s.MembersAgree) (j : Sector) (hk : (s.term k).state = .ranging) (x : Burst) :
    (s.rangingSuccess j k x).MembersAgree := by
  unfold State.rangingSuccess
  have e : Still s (s.modTerm k fun t => { stages1to3 (s.cfg j) x t with expectedBurst := none }) :=
    Still.modTerm s k _ fun t => by simp only [stages1to3, stage23, stage1, and_self]
  have h1 := (Still.request _ k .verify).agree ((e.agree h).verifying (k := k) (by rw [(e.term k).1]; exact hk))
  dsimp only
  split
  · exact (Still.recover _ j).agree h1
  · exact h1

theorem State.MembersAgree.countRound (h : s.MembersAgree) (j : Sector) (k : Slot) : (s.countRound j k).MembersAgree := by
  unfold State.countRound
  have h1 := (Still.modTerm s k fun t => { t with roundCount := t.roundCount + 1, expectedBurst := none }).agree h
  dsimp only
  split
  · exact h1.attemptFailure j k
  · exact h1

theorem State.MembersAgree.judgeRanging (h : s.MembersAgree) (j : Sector) (hk : (s.term k).state = .ranging)
    (b : LadderBank) (x : Burst) : (s.judgeRanging j k b x).MembersAgree := by
  unfold State.judgeRanging
  split
  · split
    · exact h.rangingSuccess j hk x
    · have e : Still s (s.modTerm k (stagesOfRound (s.cfg j) b x)) := Still.modTerm s k _ fun t => by
        simp only [stagesOfRound, stage8, stage7, stages1to3, stage23, stage1, and_self]
      exact ((Still.request _ k .correct).agree (e.agree h)).countRound j k
  · exact h.countRound j k

theorem State.MembersAgree.verificationPass (h : s.MembersAgree) (k : Slot) : (s.verificationPass k).MembersAgree :=
  ((Still.modTerm _ k fun t => t.passed ((s.leave k).boundRung t.maxRung)).but (h.leave k)).settle (not_listed (by simp))

theorem State.MembersAgree.compareVerify (h : s.MembersAgree) (j : Sector) (k : Slot) (x : Burst) :
    (s.compareVerify j k x).MembersAgree := by
  unfold State.compareVerify
  dsimp only
  generalize hv : (s.modTerm k fun t =>
    { stages1to3 (s.cfg j) x t with
      expectedBurst := none
      verification := t.verification.compared
        (verifySeed k (s.term k).attemptCount (s.term k).verification.startFrame) x.payload (s.cfg j) }) = v
  have h1 : v.MembersAgree := by
    rw [← hv]
    exact (Still.modTerm s k _ fun t => by simp only [stages1to3, stage23, stage1, and_self]).agree h
  split
  · exact ((Still.modTerm v k fun t => { t.keepCap with sticky := { t.sticky with degraded := false } }).agree h1).verificationPass k
  · exact ((Still.setDegraded v k).agree h1).verificationPass k
  · exact ((Still.setDegraded v k).agree h1).attemptFailure j k
  · exact h1
  · exact h1

theorem State.MembersAgree.missingBurst (h : s.MembersAgree) (j : Sector) (k : Slot) : (s.missingBurst j k).MembersAgree :=
  ((Still.modTerm s k fun t =>
    { t with
      expectedBurst := none
      verification := { t.verification with completed := false, outcome := .aborted } }).agree h).attemptFailure j k

theorem State.MembersAgree.judgeVerify (h : s.MembersAgree) (j : Sector) (k : Slot) (x : Burst) :
    (s.judgeVerify j k x).MembersAgree := by
  unfold State.judgeVerify
  split
  · exact h.compareVerify j k x
  · exact h.missingBurst j k

/-! ## In service -/

theorem State.MembersAgree.goalTest (h : s.MembersAgree) (j : Sector) (k : Slot) (b : LadderBank) :
    (s.goalTest j k b).MembersAgree := by
  unfold State.goalTest
  split
  · next hg =>
    have hc : (s.term k).state = .climbing := by
      simp only [Terminal.atGoal, Bool.and_eq_true, beq_iff_eq] at hg; exact hg.1
    have e : Still s (s.modTerm k fun t => { t with restoreRung := none }) := Still.modTerm s k _
    refine (e.agree h).toState ?_ (Terminal.serviceState_not_listed _)
    rw [(e.term k).1, hc]; exact not_listed (by simp)
  · exact h

theorem State.MembersAgree.enterClimbing (h : s.MembersAgree) (j : Sector) (hk : ¬(s.term k).state.listed) (b : LadderBank)
    (x : Bool) : (s.enterClimbing j k b x).MembersAgree := by
  unfold State.enterClimbing
  have e : Still s (s.modTerm k fun t =>
    { t with
      phaseReports := 0
      rampSettle := 0
      climbDwell := 0
      sticky := { t.sticky with rampUnsettled := t.sticky.rampUnsettled || x } }) := Still.modTerm s k _
  exact ((e.agree h).toState (by rw [(e.term k).1]; exact hk) (not_listed (by simp))).goalTest j k b

theorem State.MembersAgree.countRamp (h : s.MembersAgree) (j : Sector) (hk : ¬(s.term k).state.listed) (b : LadderBank) :
    (s.countRamp j k b).MembersAgree := by
  unfold State.countRamp
  dsimp only
  generalize hv : (s.modTerm k fun t =>
    { t with
      phaseReports := t.phaseReports + 1
      rampSettle := if settled (s.cfg j) b t then t.rampSettle + 1 else 0 }) = v
  have e : Still s v := by rw [← hv]; exact Still.modTerm s k _
  have hk' : ¬(v.term k).state.listed := by rw [(e.term k).1]; exact hk
  split
  · exact (e.agree h).enterClimbing j hk' b _
  · split
    · exact (e.agree h).enterClimbing j hk' b _
    · exact e.agree h

theorem State.MembersAgree.countClimb (h : s.MembersAgree) (j : Sector) (hk : ¬(s.term k).state.listed) (b : LadderBank) :
    (s.countClimb j k b).MembersAgree := by
  unfold State.countClimb
  split
  · exact h.goalTest j k b
  · have e : Still s (s.modTerm k fun t => { t with phaseReports := t.phaseReports + 1 }) := Still.modTerm s k _
    dsimp only
    split
    · exact (e.agree h).toState (by rw [(e.term k).1]; exact hk) (Terminal.serviceState_not_listed _)
    · exact e.agree h

theorem State.MembersAgree.afterRuns (h : s.MembersAgree) (j : Sector) (hk : ¬(s.term k).state.listed) (b : LadderBank) :
    (s.afterRuns j k b).MembersAgree := by
  unfold State.afterRuns
  have hd : ∀ {u : State} (c : Bool), u.MembersAgree → (if c = true then u else u.decideRung j k b).MembersAgree := by
    intro u c hu; split
    · exact hu
    · exact (Still.decideRung u j k b).agree hu
  split
  · exact hd _ (h.toState hk (Terminal.serviceState_not_listed _))
  · exact hd _ (h.toState hk (Terminal.serviceState_not_listed _))
  · refine (hd _ h).countClimb j ?_ b
    split
    · exact hk
    · rw [((Still.decideRung s j k b).term k).1]; exact hk
  · exact h.countRamp j hk b
  all_goals exact h

theorem State.MembersAgree.receivedReport (h : s.MembersAgree) (j : Sector) (hk : (s.term k).state.carrying = true)
    (b : LadderBank) (x : Burst) (n : FrameNo) : (s.receivedReport j k b x n).MembersAgree := by
  unfold State.receivedReport
  dsimp only
  generalize hv : (s.runStages j k b x).modTerm k (Terminal.countRuns b) = v
  have e : Still s v := by
    rw [← hv]; exact (Still.runStages s j k b x).trans (Still.modTerm _ k _)
  have hk' : (v.term k).state.carrying = true := by rw [(e.term k).1]; exact hk
  split
  · exact (e.agree h).declareLoss j hk' n
  · exact (e.agree h).afterRuns j (TermState.carrying.not_listed hk') b

theorem State.MembersAgree.miss (h : s.MembersAgree) (j : Sector) (hk : (s.term k).state.carrying = true) (n : FrameNo) :
    (s.miss j k n).MembersAgree := by
  unfold State.miss
  dsimp only
  generalize hv : (s.modTerm k fun t => { t with missRun := t.missRun + 1, climbDwell := 0 }) = v
  have e : Still s v := by rw [← hv]; exact Still.modTerm s k _
  have hk' : (v.term k).state.carrying = true := by rw [(e.term k).1]; exact hk
  split
  · exact (e.agree h).declareLoss j hk' n
  · have h1 : (if (v.term k).state = .inService then v.toState k .fading else v).MembersAgree := by
      split
      · exact (e.agree h).toState (TermState.carrying.not_listed hk') (not_listed (by simp))
      · exact e.agree h
    revert h1
    generalize (if (v.term k).state = .inService then v.toState k .fading else v) = w
    intro h1
    split
    · exact (Still.shiftTo w k _).agree h1
    · exact h1

theorem State.MembersAgree.mature (h : s.MembersAgree) (j : Sector) (k : Slot) : (s.mature j k).MembersAgree := by
  unfold State.mature
  dsimp only
  generalize hv : (s.modTerm k fun t =>
    { t with rung := s.boundRung (s.term k).shiftTarget, pendingShift := none, climbDwell := 0 }) = v
  have e : Still s v := by rw [← hv]; exact Still.modTerm s k _
  have h1 : (if s.boundRung (s.term k).shiftTarget ≠ (s.term k).rung then v.offerTerminal k else v).MembersAgree := by
    split
    · exact (Still.offerTerminal v k).agree (e.agree h)
    · exact e.agree h
  revert h1
  generalize (if s.boundRung (s.term k).shiftTarget ≠ (s.term k).rung then v.offerTerminal k else v) = w
  intro h1
  split
  · exact h1.goalTest j k _
  · exact h1

/-! ## The steps of an evaluation -/

theorem State.MembersAgree.actOn (h : s.MembersAgree) (j : Sector) (k : Slot) (e : Evaluation) (x : Burst) :
    (s.actOn j k e x).MembersAgree := by
  have m : Still s (s.markHanded j k) := Still.modEvaluation s j _
  unfold State.actOn
  dsimp only
  split
  · split
    · next hk =>
      split
      · exact h.receivedReport j hk _ _ _
      · exact h.miss j hk _
    · exact h
  · split
    · next hk => exact (m.agree h).judgeRanging j (by rw [(m.term k).1]; exact hk.1) _ _
    · exact h
  · split
    · exact (m.agree h).judgeVerify j k _
    · exact h
  · exact h
  · exact h

theorem State.MembersAgree.sweepMember (h : s.MembersAgree) (j : Sector) (k : Slot) (e : Evaluation) :
    (s.sweepMember j k e).MembersAgree := by
  unfold State.sweepMember
  dsimp only
  split
  · exact h
  · split
    · split
      · exact h
      · split
        · exact h.missingBurst j k
        · exact h.countRound j k
    · split
      · exact h
      · have h1 := (Still.modTerm s k fun t => { t with expectedBurst := none }).agree h
        split
        · exact (Still.request _ k _).agree h1
        · exact h1

/-! ## The reactions to a sector frame -/

theorem State.MembersAgree.admitHeads (h : s.MembersAgree) (j : Sector) (n : Nat) :
    (State.admitHeads j n s).MembersAgree := by
  induction n generalizing s with
  | zero => exact h
  | succ n ih =>
    unfold State.admitHeads
    split
    · exact h
    · next k rest hq =>
      have hk := (h.queue j k).mp (by rw [hq]; simp)
      refine ih ((h.takeHead hq).takeIn ?_)
      exact (State.belongs_iff _ j k).mpr ⟨by rw [State.modSec_term, hk.1]; decide, hk.2⟩

/-- A walk over distinct slots: each is still untouched when its turn comes. -/
theorem State.MembersAgree.each {f : State → Slot → State} {p : TermState → Prop}
    (hf : ∀ {s : State} {k : Slot}, s.MembersAgree → p (s.term k).state → (f s k).MembersAgree)
    (ho : ∀ {s : State} {k k' : Slot}, k' ≠ k → ((f s k).term k').state = (s.term k').state)
    {l : List Slot} (hl : l.Nodup) (hp : ∀ k ∈ l, p (s.term k).state) (h : s.MembersAgree) : (l.foldl f s).MembersAgree := by
  induction l generalizing s with
  | nil => exact h
  | cons x xs ih =>
    rw [List.nodup_cons] at hl
    refine ih hl.2 (fun k hk => ?_) (hf h (hp x List.mem_cons_self))
    have hne : k ≠ x := by rintro rfl; exact hl.1 hk
    rw [ho hne]
    exact hp k (List.mem_cons_of_mem _ hk)

theorem State.becomeWaiting_other {k k' : Slot} (h : k' ≠ k) : ((s.becomeWaiting k).term k').state = (s.term k').state :=
  ((s.joinQueue k).toState_term k k' .waiting).2.2.1 h

theorem slotsOf_nodup (s : State) (j : Sector) : (s.slotsOf j).Nodup := (List.nodup_finRange 320).filter _

theorem State.walkOut_other {k k' : Slot} (h : k' ≠ k) : ((s.walkOut k).term k').state = (s.term k').state :=
  (State.becomeWaiting_other h).trans ((Still.modTerm s k fun t => { t with attemptCount := 0 }).term k').1

theorem State.MembersAgree.walkOut (h : s.MembersAgree) (hk : (s.term k).state = .quiet) : (s.walkOut k).MembersAgree := by
  have e : Still s (s.modTerm k fun t => { t with attemptCount := 0 }) := Still.modTerm s k _
  refine (e.agree h).becomeWaiting ?_ ?_
  · rw [(e.term k).1, hk]; exact not_listed (by simp)
  · rw [(e.term k).1, hk]; decide

theorem State.MembersAgree.walkStep (h : s.MembersAgree) (j : Sector) : (s.walkStep j).MembersAgree := by
  unfold State.walkStep
  dsimp only
  generalize hm : ((((s.slotsOf j).filter fun k => decide ((s.sec j).releaseCursor.getD 0 ≤ k)).filter fun k =>
    (s.term k).state == .quiet).take (s.cfg j).releaseBatch) = moved
  have hq : ∀ k ∈ moved, (s.term k).state = .quiet := by
    rw [← hm]; intro k hk
    simpa using (List.mem_filter.mp (List.mem_of_mem_take hk)).2
  have hn : moved.Nodup := by
    rw [← hm]
    exact (((slotsOf_nodup s j).filter _).filter _).sublist (List.take_sublist _ _)
  have h1 := State.MembersAgree.each (f := State.walkOut) (p := (· = .quiet)) (fun h hk => h.walkOut hk)
    State.walkOut_other hn hq h
  revert h1
  generalize moved.foldl State.walkOut s = v
  intro h1
  have h2 : (v.endWalk j).MembersAgree :=
    (Still.enterSector _ j _).agree ((Still.modSec v j fun r => { r with releaseCursor := none }).agree h1)
  split
  · split
    · exact h2
    · exact h1
  · split
    · exact h2
    · exact (Still.modSec v j _).agree h1

theorem State.MembersAgree.countProbe (h : s.MembersAgree) (hs : s.Homed) (j : Sector) : (s.countProbe j).MembersAgree := by
  unfold State.countProbe
  dsimp only
  generalize hv : (s.modSec j fun r => { r with probeTimer := r.probeTimer - 1 }) = v
  have e : Still s v := by rw [← hv]; exact Still.modSec s j _
  have hl : (v.sec j).lead = (s.sec j).lead := by rw [← hv, State.modSec_sec_same]
  have hb : ∀ k, v.belongs j k = s.belongs j k := fun k => by rw [← hv]; rfl
  split
  · refine (Still.modSec _ j fun r => { r with probeTimer := r.config.probeInterval }).agree ?_
    unfold State.admitLead
    split
    · next k hk =>
      split
      · next hq =>
        refine ((e.agree h).but (by rw [hq]; exact not_listed (by simp))).takeIn ?_
        rw [hb]; exact hs j k (.inr (.inr (.inl (by rw [← hl]; exact hk))))
      · exact e.agree h
    · exact e.agree h
  · exact e.agree h

theorem State.MembersAgree.controllerReaction (h : s.MembersAgree) (hs : s.Homed) (j : Sector) :
    (s.controllerReaction j).MembersAgree := by
  unfold State.controllerReaction
  dsimp only
  have e : Still s (s.modSec j fun r => { r with blindCounter := r.blindCount }) := Still.modSec s j _
  have hw : Works j s (s.modSec j fun r => { r with blindCounter := r.blindCount }) := Works.secAll .refl fun _ _ =>
    ⟨rfl, rfl, rfl, rfl, rfl, Iff.rfl,
      fun h => ⟨h.config, h.lossLog, Nat.min_le_right _ _, h.probe, h.progress, h.control⟩, fun k h => .inl h⟩
  have hs' := hw.homed hs
  have h0 := e.agree h
  revert h0 hs'
  generalize (s.modSec j fun r => { r with blindCounter := r.blindCount }) = v
  intro hs' h0
  split
  · exact (Still.enterSector _ j _).agree
      ((Still.modSec v j fun r => { r with prior := r.working, lastEvaluated := none }).agree h0)
  · have hp : ∀ {u : State}, u.MembersAgree → (u.countProgress j).MembersAgree := by
      intro u hu
      unfold State.countProgress
      split
      · exact (Still.offerSector _ j).agree ((Still.modSec u j fun r => { r with progressCounter := 0 }).agree hu)
      · exact (Still.modSec u j fun r => { r with progressCounter := r.progressCounter + 1 }).agree hu
    have hw : (v.stateWork j).MembersAgree := by
      unfold State.stateWork
      split
      · exact h0.countProbe hs' j
      · exact h0.walkStep j
      all_goals exact h0
    unfold State.progressStep
    split
    · exact hp hw
    · exact hp hw
    all_goals exact hw

theorem State.MembersAgree.takeController (h : s.MembersAgree) (hs : s.Homed) (j : Sector) :
    (s.takeController j).MembersAgree := by
  unfold State.takeController
  dsimp only
  have h1 := (Still.modSec s j fun r => { r with controllerDue := r.controllerDue - 1 }).agree h
  have hw : Works j s (s.modSec j fun r => { r with controllerDue := r.controllerDue - 1 }) :=
    Works.secAll .refl fun _ _ => .same _ _
  have hs' := hw.homed hs
  split
  · exact h1.controllerReaction hs' j
  · exact h1

theorem State.countBackoff_other {k k' : Slot} (h : k' ≠ k) : ((s.countBackoff k).term k').state = (s.term k').state := by
  unfold State.countBackoff
  have e := (Still.modTerm s k fun t => { t with backoff := t.backoff - 1 }).term k'
  dsimp only
  split
  · rw [State.becomeWaiting_other h]; exact e.1
  · exact e.1

theorem State.MembersAgree.countBackoff (h : s.MembersAgree) (hk : (s.term k).state = .deferred) :
    (s.countBackoff k).MembersAgree := by
  unfold State.countBackoff
  have e : Still s (s.modTerm k fun t => { t with backoff := t.backoff - 1 }) := Still.modTerm s k _
  dsimp only
  split
  · refine (e.agree h).becomeWaiting ?_ ?_
    · rw [(e.term k).1, hk]; exact not_listed (by simp)
    · rw [(e.term k).1, hk]; decide
  · exact e.agree h

theorem State.MembersAgree.takeScheduler (h : s.MembersAgree) (j : Sector) : (s.takeScheduler j).MembersAgree := by
  unfold State.takeScheduler
  have h1 := (Still.modSec s j fun r => { r with schedulerDue := r.schedulerDue - 1 }).agree h
  revert h1
  dsimp only
  generalize (s.modSec j fun r => { r with schedulerDue := r.schedulerDue - 1 }) = v
  intro h1
  split
  · unfold State.schedulerReaction
    have h2 : (if (v.sec j).state.work.isSome then (v.slotsIn j .deferred).foldl State.countBackoff v else v).MembersAgree := by
      split
      · refine State.MembersAgree.each (p := (· = .deferred)) (fun h hk => h.countBackoff hk) State.countBackoff_other
          ((slotsOf_nodup v j).filter _) (fun k hk => ?_) h1
        simpa using (List.mem_filter.mp hk).2
      · exact h1
    revert h2
    generalize (if (v.sec j).state.work.isSome then (v.slotsIn j .deferred).foldl State.countBackoff v else v) = w
    intro h2
    dsimp only
    split
    · exact h2.admitHeads j _
    · exact h2
  · exact h1

/-! ## Requests -/

theorem State.MembersAgree.hold (h : s.MembersAgree) (k : Slot) : (s.hold k).MembersAgree := by
  unfold State.hold
  have e : ∀ v : State, Still v (v.modTerm k fun t => if t.state.carrying then { t with pendingShift := none } else t) :=
    fun v => Still.modTerm v k _ fun t => by split <;> exact ⟨rfl, rfl, rfl⟩
  have h1 := ((Still.discard _ k).but ((e _).but (((Still.abortExchange s k).agree h).leave k))).settle (st := .held)
    (not_listed (by simp))
  dsimp only
  split
  · exact (Still.leadDeparts _ _).agree h1
  · exact h1

theorem State.MembersAgree.releaseTerminal (h : s.MembersAgree) (hk : (s.term k).state = .held) :
    (s.releaseTerminal k).MembersAgree := by
  unfold State.releaseTerminal
  have e : Still s (s.modTerm k Terminal.released) := Still.modTerm s k _
  have hl : ¬((s.modTerm k Terminal.released).term k).state.listed := by
    rw [(e.term k).1, hk]; exact not_listed (by simp)
  dsimp only
  split
  · exact (e.agree h).toState hl (not_listed (by simp))
  · exact (e.agree h).becomeWaiting hl (by rw [(e.term k).1, hk]; decide)

theorem State.resetTerminal_term (s : State) (k k' : Slot) :
    ((s.resetTerminal k).term k').sector = (s.term k').sector ∧ ((s.resetTerminal k).term k').priority = (s.term k').priority ∧
      ((s.resetTerminal k).term k').state =
        if k' = k ∧ (s.term k).state ≠ .empty then .waiting else (s.term k').state := by
  have e : Still s (s.modTerm k fun t => t.abortExchange.backToStart) := Still.modTerm s k _ fun t => by
    unfold Terminal.abortExchange; split <;> exact ⟨rfl, rfl, rfl⟩
  unfold State.resetTerminal
  have h := (s.modTerm k fun t => t.abortExchange.backToStart).toState_term k k' .waiting
  rw [(e.term k').1, (e.term k').2.1, (e.term k').2.2, (e.term k).1] at h
  refine ⟨h.1, h.2.1, ?_⟩
  by_cases hk : k' = k
  · subst hk
    by_cases he : (s.term k').state = .empty
    · rw [if_neg (by simp [he])]
      unfold State.toState
      rw [if_pos (.inr (by rw [(e.term k').1]; exact he)), (e.term k').1]
    · rw [if_pos ⟨rfl, he⟩]; exact h.2.2.2 he
  · rw [if_neg (by simp [hk])]; exact h.2.2.1 hk

theorem State.resetTerminal_sec (s : State) (k : Slot) (j : Sector) :
    ((s.resetTerminal k).sec j).queue = (s.sec j).queue ∧ ((s.resetTerminal k).sec j).window = (s.sec j).window :=
  State.toState_lists _ _ _ _

theorem resetTerminals (l : List Slot) (s : State) :
    (∀ j, ((l.foldl State.resetTerminal s).sec j).queue = (s.sec j).queue ∧
      ((l.foldl State.resetTerminal s).sec j).window = (s.sec j).window) ∧
    ∀ k, ((l.foldl State.resetTerminal s).term k).sector = (s.term k).sector ∧
      ((l.foldl State.resetTerminal s).term k).priority = (s.term k).priority ∧
      ((l.foldl State.resetTerminal s).term k).state =
        if k ∈ l ∧ (s.term k).state ≠ .empty then .waiting else (s.term k).state := by
  induction l generalizing s with
  | nil => simp
  | cons x xs ih =>
    have ih := ih (s.resetTerminal x)
    rw [List.foldl_cons]
    refine ⟨fun j => ⟨(ih.1 j).1.trans (s.resetTerminal_sec x j).1, (ih.1 j).2.trans (s.resetTerminal_sec x j).2⟩, fun k => ?_⟩
    have h := s.resetTerminal_term x k
    refine ⟨(ih.2 k).1.trans h.1, (ih.2 k).2.1.trans h.2.1, ?_⟩
    rw [(ih.2 k).2.2, h.2.2]
    by_cases hx : k = x
    · subst hx
      by_cases he : (s.term k).state = .empty <;> simp [he]
    · simp [hx]

theorem mem_rebuiltQueue (s : State) (ks : List Slot) (k : Slot) : k ∈ s.rebuiltQueue ks ↔ k ∈ ks := by
  unfold State.rebuiltQueue
  suffices h : ∀ (q : List Slot), k ∈ ks.foldl (fun q k => insertByClass s.classOfSlot k q) q ↔ k ∈ q ∨ k ∈ ks by
    simpa using h []
  induction ks with
  | nil => simp
  | cons x xs ih => intro q; rw [List.foldl_cons, ih, mem_insertByClass]; simp; tauto

theorem rebuiltQueue_ok (s : State) {ks : List Slot} (hk : ks.Nodup) :
    (s.rebuiltQueue ks).Nodup ∧ (s.rebuiltQueue ks).Pairwise fun a b => (s.term a).priority ≤ (s.term b).priority := by
  unfold State.rebuiltQueue
  suffices h : ∀ q : List Slot, q.Nodup → (∀ k ∈ ks, k ∉ q) → (q.Pairwise fun a b => s.classOfSlot a ≤ s.classOfSlot b) →
      (ks.foldl (fun q k => insertByClass s.classOfSlot k q) q).Nodup ∧
      (ks.foldl (fun q k => insertByClass s.classOfSlot k q) q).Pairwise fun a b => s.classOfSlot a ≤ s.classOfSlot b from
    h [] .nil (by simp) .nil
  induction ks with
  | nil => exact fun q h _ hp => ⟨h, hp⟩
  | cons x xs ih =>
    rw [List.nodup_cons] at hk
    intro q hq hd hp
    refine ih hk.2 _ (insertByClass_nodup hq (hd x List.mem_cons_self)) (fun k hk' => ?_) (insertByClass_classes hp)
    rw [mem_insertByClass, not_or]
    exact ⟨by rintro rfl; exact hk.1 hk', hd k (List.mem_cons_of_mem _ hk')⟩

theorem State.MembersAgree.resetSector (h : s.MembersAgree) (j : Sector) : (s.resetSector j).MembersAgree := by
  unfold State.resetSector
  dsimp only
  generalize hm : ((s.slotsOf j).filter fun k => (s.term k).state != .held) = moved
  have hn : moved.Nodup := by rw [← hm]; exact (slotsOf_nodup s j).filter _
  have mem : ∀ k, k ∈ moved ↔ ((s.term k).state ≠ .empty ∧ (s.term k).sector = j) ∧ (s.term k).state ≠ .held := by
    intro k; rw [← hm, List.mem_filter, mem_slotsOf, State.belongs_iff]; simp
  have hr := resetTerminals moved s
  revert hr
  generalize moved.foldl State.resetTerminal s = v
  intro hr
  refine (Still.enterSector _ j _).agree ?_
  have hq := rebuiltQueue_ok v hn
  refine ⟨fun j' k => ?_, fun j' k => ?_, fun j' => ?_, fun j' => ?_, fun j' => ?_⟩
  all_goals rw [State.modSec_sec]
  · rw [State.modSec_term, (hr.2 k).1, (hr.2 k).2.2]
    split
    · next e =>
      subst e
      simp only [mem_rebuiltQueue, mem]
      constructor
      · rintro ⟨⟨a, b⟩, c⟩; exact ⟨by rw [if_pos ⟨⟨⟨a, b⟩, c⟩, a⟩], b⟩
      · rintro ⟨a, b⟩
        split at a
        · next x => exact x.1
        · next x => exact ⟨⟨by rw [a]; decide, b⟩, by rw [a]; decide⟩
    · next e =>
      rw [(hr.1 j').1, h.queue]
      by_cases hk : k ∈ moved
      · have hs := ((mem k).mp hk).1.2
        constructor
        · rintro ⟨-, x⟩; exact absurd (hs.symm.trans x) e
        · rintro ⟨-, x⟩; exact absurd (hs.symm.trans x) e
      · simp [hk]
  · rw [State.modSec_term, (hr.2 k).1, (hr.2 k).2.2]
    split
    · next e =>
      subst e
      refine ⟨fun x => (by simp at x), ?_⟩
      rintro ⟨a, b⟩
      split at a
      · rcases a with a | a <;> cases a
      · next x =>
        refine absurd ⟨(mem k).mpr ⟨⟨?_, b⟩, ?_⟩, ?_⟩ x
        all_goals rcases a with a | a <;> rw [a] <;> decide
    · next e =>
      rw [(hr.1 j').2, h.window]
      by_cases hk : k ∈ moved
      · have hs := ((mem k).mp hk).1.2
        constructor
        · rintro ⟨-, x⟩; exact absurd (hs.symm.trans x) e
        · rintro ⟨-, x⟩; exact absurd (hs.symm.trans x) e
      · simp [hk]
  · split
    · exact hq.1
    · rw [(hr.1 j').1]; exact h.queueOnce j'
  · split
    · exact .nil
    · rw [(hr.1 j').2]; exact h.windowOnce j'
  · split
    · exact hq.2
    · rw [(hr.1 j').1]
      exact (h.classes j').imp fun {a b} x => by
        rw [State.modSec_term, State.modSec_term, (hr.2 a).2.1, (hr.2 b).2.1]; exact x

end Sys2Proof.Machine
end

