-- ==== Sys2Proof/Laws/Commands.lean ====
section
/-!
SUPPORT. What one command can do, said once: every command's outcome is a chain of a few kinds of move (`Moves`), or the part is
at rest (`State.AllAtRest`). A proof that something is kept by every step is a proof that each kind of move keeps it.
-/

set_option Elab.async false

namespace Sys2Proof.Machine

variable {j : Sector} {s t : State}

/-- Every block but the management unit is as device reset leaves it. -/
structure State.AllAtRest (s : State) : Prop where
  terms : ∀ k, s.term k = {}
  secs : ∀ j, s.sec j = {}
  ladder : s.ladder = {}
  latch : s.latch = none
  notices : s.notices = []

/-- What the commands of a part in RUNNING mode can do, as a chain of moves. -/
inductive Moves (s : State) : State → Prop
  | refl : Moves s s
  | links {t u : State} (m : Moves s t) (e : SameInside t u) : Moves s u
  | works {t u : State} (j : Sector) (m : Moves s t) (w : Works j t u) (hm : t.MembersAgree → u.MembersAgree) : Moves s u
  | notices {t : State} (m : Moves s t) : Moves s t.emitNotices
  | begins {t : State} (m : Moves s t) (j : Sector) (bank : IntakeBank) (f : BankedFrame)
      (hs : (t.sec j).state.served = true) (he : (t.sec j).evaluation = none) : Moves s (t.beginEvaluation j bank f)
  | waits {t : State} (m : Moves s t) (j : Sector) (f : BankedFrame) (he : (t.sec j).evaluation.isSome = true) :
      Moves s (t.modSec j fun r => { r with waitingBank := some f })
  | suspends {t : State} (m : Moves s t) (j : Sector) (tag : BitVec 16) : Moves s (t.suspendNow j tag)
  | completes {t : State} (m : Moves s t) (j : Sector) (e : Evaluation) (he : (t.sec j).evaluation = some e) :
      Moves s (((t.modSec j fun r =>
        { r with lastEvaluated := if r.state = .blind then none else some e.frame.number, evaluation := none }).dropHold
          e.held).afterCompletion j e.bank)
  | configures {t : State} (m : Moves s t) (j : Sector) (c : SectorConfig) (hc : c.Accepted) :
      Moves s (t.modSec j (SectorRec.configure c))
  | enables {t : State} (m : Moves s t) (j : Sector) (hd : (t.sec j).state = .disabled)
      (ha : t.ladder.active.isSome = true) (he : (t.sec j).evaluation = none) : Moves s (t.modSec j SectorRec.enabled)
  | disables {t : State} (m : Moves s t) (j : Sector) : Moves s (t.modSec j SectorRec.disabled)
  | provisions {t : State} (m : Moves s t) (p : ProvisionParams) (he : (t.term p.slot).state = .empty)
      (hl : (t.sec p.sector).population < 64) (hr : t.resolve p.sector p.address = none) : Moves s (t.provision p)
  | removes {t : State} (m : Moves s t) (k : Slot) (he : (t.term k).state ≠ .empty) : Moves s (t.remove k)
  | loads {t : State} (m : Moves s t) (i : Fin 3) (bs : List Byte) (hh : (t.bank t.ladder.standby).holds = 0) :
      Moves s (t.loadBlock i bs)
  | activates {t : State} (m : Moves s t)
      (hr : rejection (t.bank t.ladder.standby) t.ladder.staged = none) : Moves s t.activate

theorem Moves.work (w : Works j s t) (hm : s.MembersAgree → t.MembersAgree) : Moves s t := .works j .refl w hm

/-! ## Requests -/

theorem Moves.serve {f : RequestKind} {r : Request} {body : List Byte → Answer} (h : ∀ ps, Moves s (body ps).1) :
    Moves s (s.serve f r body) := by
  unfold State.serve
  split
  · exact .links .refl (s.reply_inside _ _ _ _)
  · unfold answered
    split
    · exact .links (h _) (State.reply_inside _ _ _ _ _)
    · exact h _

theorem Works.hold {k : Slot} (hk : s.belongs j k = true) : Works j s (s.hold k) := by
  have hj := State.sectorOf_of_belongs hk
  unfold State.hold
  rw [hj]
  have w1 : Works j s ((s.modTerm k Terminal.abortExchange).leave k) :=
    (Works.edit .refl hk (.abortExchange _ _)).leave hk
  have w2 := w1.editAll hk (f := fun t => if t.state.carrying then { t with pendingShift := none } else t) (by
    intro top a
    split
    · exact ⟨rfl, rfl, rfl, rfl, rfl, Iff.rfl,
        fun h => ⟨h.power, h.filtered, h.history, h.lossF, h.headroom, h.adjust, h.attempts⟩,
        fun h m hm => ⟨(h m hm).1, by simp, (h m hm).2.2⟩⟩
    · exact .same _)
  have w3 := (w2.discard hk).toState hk (st := .held) (by decide)
  dsimp only
  split
  · exact w3.leadDeparts
  · exact w3

theorem TermEdit.released (top : Option Nat) (a : Terminal) : TermEdit top a a.released :=
  ⟨rfl, rfl, rfl, rfl, rfl, Iff.rfl, fun h => ⟨power_zero, by simp [Terminal.released, Terminal.fresh],
    by simp [Terminal.released, Terminal.fresh], h.lossF, h.headroom, h.adjust, Nat.zero_le _⟩,
    fun h m hm => ⟨Nat.zero_le _, (h m hm).2⟩⟩

theorem Works.releaseTerminal {k : Slot} (hk : s.belongs j k = true) : Works j s (s.releaseTerminal k) := by
  have w1 : Works j s (s.modTerm k Terminal.released) := Works.edit .refl hk (.released _ _)
  unfold State.releaseTerminal
  dsimp only
  split
  · exact w1.toState hk (by decide)
  · exact w1.becomeWaiting hk

theorem TermEdit.backToStart (top : Option Nat) (a : Terminal) : TermEdit top a a.backToStart :=
  ⟨rfl, rfl, rfl, rfl, rfl, Iff.rfl, fun h => ⟨power_zero, by simp [Terminal.backToStart, Terminal.fresh],
    by simp [Terminal.backToStart, Terminal.fresh], h.lossF, h.headroom,
    by simp [Terminal.backToStart, Terminal.fresh], Nat.zero_le _⟩,
    fun h m hm => ⟨Nat.zero_le _, by simp [Terminal.backToStart, Terminal.fresh], (h m hm).2.2⟩⟩

theorem Works.resetTerminal (w : Works j s t) {k : Slot} (hk : s.belongs j k = true) :
    Works j s (t.resetTerminal k) :=
  (w.editAll hk fun top a => (TermEdit.abortExchange top a).trans (.backToStart _ _)).toState hk (by decide)

theorem SecEdit.reset (u v : State) (j : Sector) (r : SectorRec) (ks : List Slot)
    (hk : ∀ k ∈ ks, u.belongs j k = true) :
    SecEdit u j r
      { r with
        window := []
        controlQueue := []
        lossLog := []
        queue := v.rebuiltQueue ks
        evaluation := r.evaluation.map fun e => { e with swept := [] }
        lead := none
        releaseCursor := none
        prior := none
        leadFailures := 0
        probeTimer := 0
        blindCounter := 0
        progressCounter := 0 } := by
  refine ⟨rfl, rfl, rfl, ?_, rfl, Iff.rfl,
    fun h => ⟨h.config, Nat.zero_le _, Nat.zero_le _, Nat.zero_le _, Nat.zero_le _, .nil⟩, fun k h => .inr ?_⟩
  · simp only [Option.map_map]; rfl
  · simp only [SectorRec.Names, mem_rebuiltQueue, List.not_mem_nil, reduceCtorEq, false_and, exists_false, or_false]
      at h
    exact hk k h

theorem Works.resetSector (s : State) (j : Sector) : Works j s (s.resetSector j) := by
  unfold State.resetSector
  have hm : ∀ k ∈ (s.slotsOf j).filter (fun k => (s.term k).state != .held), s.belongs j k = true :=
    fun k hk => mem_slotsOf.mp (List.mem_filter.mp hk).1
  dsimp only
  revert hm
  generalize ((s.slotsOf j).filter fun k => (s.term k).state != .held) = moved
  intro hm
  have w1 := Works.foldl (j := j) State.resetTerminal moved hm (fun w h => w.resetTerminal h) .refl
  revert w1
  generalize List.foldl State.resetTerminal s moved = u
  intro w1
  have hst : SectorState.clear ≠ .disabled := by decide
  refine Works.enterSector ?_ hst
  refine w1.sec _ ?_
  exact .reset u u j _ moved fun k hk => w1.belongs_of (hm k hk)

/-! ## The commands of a part in RUNNING mode -/

theorem Moves.takeController (hs : s.Homed) (j : Sector) : Moves s (s.takeController j) := .work (.takeController .refl hs) fun h => h.takeController hs j

theorem Moves.takeScheduler (hs : s.Homed) (j : Sector) : Moves s (s.takeScheduler j) := .work (.takeScheduler .refl hs) fun h => h.takeScheduler j

theorem Moves.startupCheckEnd (hm : s.mode = .running) (o : Option WordRead) (h : exec (.startupCheckEnd o) s = .next t) :
    Moves s t := by
  simp only [exec, execStartupCheckEnd, hm] at h; cases h; exact .refl

theorem Moves.regionTestEnd (hm : s.mode = .running) (o : Option WordRead) (h : exec (.regionTestEnd o) s = .next t) :
    Moves s t := by
  simp only [exec, execRegionTestEnd, hm] at h; cases h; exact .refl

theorem Moves.sectorFrameReaction (hs : s.Homed) (j : Sector) (h : exec (.sectorFrameReaction j) s = .next t) :
    Moves s t := by
  simp only [exec, execSectorFrameReaction] at h
  split at h <;> cases h
  · exact .takeController hs j
  · exact .refl

theorem Moves.blindEntry (hs : s.Homed) (j : Sector) (h : exec (.blindEntry j) s = .next t) : Moves s t := by
  simp only [exec, execBlindEntry] at h
  split at h <;> cases h
  · exact .takeController hs j
  · exact .refl

theorem Moves.probe (hs : s.Homed) (j : Sector) (h : exec (.probe j) s = .next t) : Moves s t := by
  simp only [exec, execProbe] at h
  split at h <;> cases h
  · exact .takeController hs j
  · exact .refl

theorem Moves.progressNotice (hs : s.Homed) (j : Sector) (h : exec (.progressNotice j) s = .next t) : Moves s t := by
  simp only [exec, execProgressNotice] at h
  split at h <;> cases h
  · exact .takeController hs j
  · exact .refl

theorem Moves.reEntrySchedulerReaction (hs : s.Homed) (j : Sector)
    (h : exec (.reEntrySchedulerReaction j) s = .next t) : Moves s t := by
  simp only [exec, execReEntrySchedulerReaction] at h
  split at h <;> cases h
  · exact .takeScheduler hs j
  · exact .refl

theorem Moves.backoffExpiry (hs : s.Homed) (k : Slot) (h : exec (.backoffExpiry k) s = .next t) : Moves s t := by
  simp only [exec, execBackoffExpiry] at h
  split at h <;> cases h
  · exact .takeScheduler hs _
  · exact .refl

theorem Moves.shiftMaturity (j : Sector) (k : Slot) (h : exec (.shiftMaturity j k) s = .next t) : Moves s t := by
  simp only [exec, execShiftMaturity] at h
  split at h
  · cases h; exact .refl
  · have w1 : Works j s (s.modSec j fun r => { r with maturityDue := r.maturityDue.eraseP fun p => p.2 == k }) :=
      Works.secAll .refl fun _ _ => .same _ _
    split at h <;> cases h
    · next hb =>
      exact .work (w1.trans (Works.mature .refl hb.2.1)) fun h => ((Still.modSec s j _).agree h).mature j k
    · exact .work w1 (Still.modSec s j _).agree

theorem Moves.slotFilling (hs : s.Homed) (j : Sector) (h : exec (.slotFilling j) s = .next t) : Moves s t := by
  simp only [exec, execSlotFilling] at h
  split at h
  · cases h; exact .refl
  · split at h <;> cases h
    · exact .links (.work (Works.fill (j := j) .refl hs _ _) (Still.fill s j _ _).agree) (by constructor <;> rfl)
    · exact .links .refl (by constructor <;> rfl)

theorem Moves.bankFrame (m : Moves s t) (j : Sector) (hs : (t.sec j).state.served = true) (fr : Frame) :
    Moves s (t.bankFrame j fr) := by
  unfold State.bankFrame
  split
  · next he => exact .begins m j _ _ hs he
  · next he =>
    split
    · exact .waits m j _ (by rw [he]; rfl)
    · exact .links m (State.offerFault_inside _ _)

theorem State.enterSector_served {j : Sector} {st : SectorState} (hs : (s.sec j).state.served = true)
    (hst : st.served = true) : ((s.enterSector j st).sec j).state.served = true := by
  unfold State.enterSector
  split
  · exact hs
  · simp only [State.offerSector_sec, State.modSec_sec_same, SectorRec.enter]
    split
    · exact hs
    · exact hst

theorem State.framePassed_served {j : Sector} (hs : (s.sec j).state.served = true) :
    ((s.framePassed j).sec j).state.served = true := by
  unfold State.framePassed
  dsimp only
  split
  · refine State.enterSector_served (by simpa using hs) ?_
    generalize Option.getD _ _ = w
    cases w <;> rfl
  · simpa using hs

theorem Moves.passIntake (m : Moves s t) (j : Sector) (hs : (t.sec j).state.served = true) (fr : Frame) :
    Moves s (t.passIntake j fr) := by
  unfold State.passIntake
  dsimp only
  split
  · refine Moves.bankFrame (.works j (.links m (State.offerFault_inside _ _)) (Works.framePassed .refl)
      (Still.framePassed _ j).agree) j ?_ fr
    exact State.framePassed_served (by rw [(State.offerFault_inside _ _).sec]; exact hs)
  · exact Moves.bankFrame (.works j m (Works.framePassed .refl) (Still.framePassed _ j).agree) j
      (State.framePassed_served hs) fr

theorem Moves.intake (m : Moves s t) (fr : Frame) : Moves s (t.intake fr) := by
  unfold State.intake
  split
  · exact m
  · exact m
  · split
    · exact .links m (State.offerFault_inside _ _)
    · split
      · exact .links m (State.offerFault_inside _ _)
      · split
        · next hs =>
          split
          · exact .links m (State.offerFault_inside _ _)
          · exact m.passIntake _ hs fr
        · exact m

theorem Moves.upstreamFrame (fr : Frame) (b : Bool) (h : exec (.upstreamFrame fr b) s = .next t) : Moves s t := by
  simp only [exec, execUpstreamFrame] at h
  have m : Moves s (s.emit fr) := .links .refl (s.emit_inside fr)
  split at h <;> cases h
  · exact m.notices.intake fr
  · exact (m.intake fr).notices

theorem State.resolve_belongs (ht : s.TableAgrees) {j : Sector} {a : BitVec 12} {k : Slot} (h : s.resolve j a = some k) :
    s.belongs j k = true := by
  simp only [State.resolve, Option.map_eq_some_iff] at h
  obtain ⟨p, hp, rfl⟩ := h
  exact ((ht.paired j p.1 p.2).mp (List.mem_of_find?_eq_some hp)).1

theorem Moves.descriptorWalkStep (ht : s.TableAgrees) (j : Sector) (h : exec (.descriptorWalkStep j) s = .next t) :
    Moves s t := by
  simp only [exec, execDescriptorWalkStep] at h
  have w1 : Works j s (s.modEvaluation j fun e => { e with walked := e.walked + 1 }) := Works.modEvaluation .refl _ fun _ => rfl
  split at h
  · cases h; exact .refl
  · split at h
    · cases h; exact .refl
    · split at h
      · cases h; exact .work w1 (Still.modEvaluation s j _).agree
      · next hr =>
        cases h
        exact .work (w1.actOn (State.resolve_belongs ht (by simpa [State.resolve, State.modEvaluation] using hr)) _ _)
          fun h => ((Still.modEvaluation s j _).agree h).actOn j _ _ _

theorem Moves.windowSweepStep (hs : s.Homed) (j : Sector) (h : exec (.windowSweepStep j) s = .next t) : Moves s t := by
  simp only [exec, execWindowSweepStep] at h
  split at h
  · cases h; exact .refl
  · split at h
    · split at h
      · cases h; exact .refl
      · next hk =>
        cases h
        refine .work (j := j) (Works.sweepMember ?_ (hs j _ (.inr (.inl (List.mem_of_find?_eq_some hk)))) _)
          fun h => ((Still.modEvaluation s j _).agree h).sweepMember j _ _
        exact Works.modEvaluation .refl _ fun _ => rfl
    · cases h; exact .refl

theorem Moves.evaluationCompletion (j : Sector) (h : exec (.evaluationCompletion j) s = .next t) : Moves s t := by
  simp only [exec, execEvaluationCompletion] at h
  split at h
  · cases h; exact .refl
  · next he =>
    split at h <;> cases h
    · exact .completes .refl j _ he
    · exact .refl

theorem belongs_self {k : Slot} (h : (s.term k).state ≠ .empty) : s.belongs (s.sectorOf k) k = true :=
  (s.belongs_iff _ k).mpr ⟨h, rfl⟩

/-- A request's outcome, whatever the request, in RUNNING mode. -/
theorem Moves.takeRequest (code : Byte) (r : Request) (h : takeRequest code r s = .next t) :
    Moves s t ∨ ∃ cause, t = s.deviceReset cause := by
  unfold Machine.takeRequest at h
  split at h
  · simp only [execUnknownFunction] at h
    split at h <;> cases h
    · exact .inl (.links .refl (s.reply_inside _ _ _ _))
    · exact .inl .refl
  · cases h; exact .inl (.serve fun _ => .refl)
  · cases h; exact .inl (.serve fun _ => .refl)
  · cases h
    unfold State.serve
    split
    · exact .inl (.links .refl (s.reply_inside _ _ _ _))
    · exact .inr ⟨.restart, rfl⟩
  · cases h
    refine .inl (.serve fun ps => ?_)
    split
    · exact .refl
    · split
      · exact .links .refl (by constructor <;> rfl)
      · exact .refl
  · cases h
    refine .inl (.serve fun ps => ?_)
    split
    · exact .refl
    · split
      · exact .refl
      · next he =>
        split
        · exact .refl
        · next hl =>
          split
          · exact .refl
          · next hr =>
            exact .provisions .refl _ (by simpa using he) (by simpa [Config.populationLimit] using hl) (by simpa using hr)
  · cases h
    refine .inl (.serve fun ps => ?_)
    split
    · exact .refl
    · split
      · exact .refl
      · next he => exact .removes .refl _ he
  · cases h
    refine .inl (.serve fun ps => ?_)
    split <;> exact .refl
  · cases h
    refine .inl (.serve fun ps => ?_)
    split
    · exact .refl
    · next k _ =>
      split
      · exact .refl
      · next he =>
        have w : Works (s.sectorOf k) s (s.modTerm k fun t => { t.keepCap with sticky := {} }) :=
          Works.editAll .refl (belongs_self he) fun _ _ => .same _
        exact .work w (Still.modTerm s k fun t => { t.keepCap with sticky := {} }).agree
  · cases h
    refine .inl (.serve fun ps => ?_)
    split
    · exact .refl
    · dsimp only
      split
      · next hc => exact .configures .refl _ _ hc
      · exact .refl
  · cases h
    refine .inl (.serve fun ps => ?_)
    split <;> exact .refl
  · cases h
    refine .inl (.serve fun ps => ?_)
    split
    · exact .refl
    · split
      · exact .refl
      · next hd =>
        split
        · exact .refl
        · next ha =>
          split
          · exact .refl
          · next he =>
            exact .works _ (.enables .refl _ (by simpa using hd) (by simpa [Option.isSome_iff_ne_none] using ha)
              (by simpa using he)) (.offerSector .refl) (Still.offerSector _ _).agree
  · cases h
    refine .inl (.serve fun ps => ?_)
    split
    · exact .refl
    · split
      · exact .refl
      · split
        · exact .refl
        · split
          · exact .refl
          · exact .works _ (.disables .refl _) (.offerSector .refl) (Still.offerSector _ _).agree
  · cases h
    refine .inl (.serve fun ps => ?_)
    split
    · exact .refl
    · next j _ =>
      split
      · exact .refl
      · split
        · exact .refl
        · split
          · have w : Works j s (s.modSec j fun x => { x with suspendPending := true, suspendTag := r.tag }) :=
              Works.secAll .refl fun _ _ => .same _ _
            exact .work w (Still.modSec s j fun x => { x with suspendPending := true, suspendTag := r.tag }).agree
          · exact .suspends .refl _ _
  · cases h
    refine .inl (.serve fun ps => ?_)
    split
    · exact .refl
    · split
      · exact .refl
      · refine .work (Works.returnToPrior ?_) fun h => (Still.returnToPrior _ _).agree ((Still.modSec s _ _).agree h)
        refine Works.secAll .refl fun _ _ => ?_
        exact ⟨rfl, rfl, rfl, rfl, rfl, Iff.rfl,
          fun h => ⟨h.config, h.lossLog, Nat.zero_le _, h.probe, h.progress, h.control⟩, fun k h => .inl h⟩
  · cases h
    refine .inl (.serve fun ps => ?_)
    split
    · exact .refl
    · split
      · exact .refl
      · exact .work (.resetSector _ _) fun h => h.resetSector _
  · cases h
    refine .inl (.serve fun ps => ?_)
    split
    · exact .refl
    · next j _ =>
      have w : Works j s (s.declareOutage j) := .declareOutage .refl
      have hm : s.MembersAgree → (s.declareOutage j).MembersAgree := fun h => h.declareOutage j
      revert w hm
      generalize s.declareOutage j = u
      intro w hm
      split
      · exact .work w hm
      · exact .refl
  · cases h
    refine .inl (.serve fun ps => ?_)
    split
    · exact .refl
    · split
      · exact .refl
      · next hh => exact .loads .refl _ _ (by simpa using hh)
  · cases h
    refine .inl (.serve fun ps => ?_)
    have m : rejection (s.bank s.ladder.standby) s.ladder.staged = none → Moves s s.activate := .activates .refl
    revert m
    generalize s.activate = u
    intro m
    dsimp only
    split
    · exact .refl
    · next hr => exact m hr
  · cases h
    refine .inl (.serve fun ps => ?_)
    split <;> exact .refl
  · cases h
    refine .inl (.serve fun ps => ?_)
    split
    · exact .refl
    · split
      · exact .refl
      · split
        · exact .refl
        · next he _ => exact .work (.hold (belongs_self he)) fun h => h.hold _
  · cases h
    refine .inl (.serve fun ps => ?_)
    split
    · exact .refl
    · split
      · exact .refl
      · next he =>
        split
        · exact .refl
        · exact .work (.releaseTerminal (belongs_self (by rw [not_not.mp he]; decide)))
            fun h => h.releaseTerminal (not_not.mp he)
  · cases h
    refine .inl (.serve fun ps => ?_)
    split <;> exact .refl

/-- A request command runs what its function code takes. -/
theorem exec_request (f : RequestKind) : requestKindOf (functionCode f) = some f := by cases f <;> rfl

theorem Moves.downstreamFrame (fr : Frame) (h : exec (.downstreamFrame fr) s = .next t) :
    Moves s t ∨ ∃ cause, t = s.deviceReset cause := by
  simp only [exec, execDownstreamFrame] at h
  split at h
  · split at h
    · cases h; exact .inl .refl
    · exact Moves.takeRequest _ _ h
  · split at h
    · next j _ =>
      split at h <;> cases h
      · refine .inl (.links (.work (j := j) ?_ (Still.modSec s j _).agree) (State.forward_inside _ _ _))
        exact Works.secAll .refl fun _ _ => .same _ _
      · exact .inl (.links .refl (State.forward_inside _ _ _))
    · cases h; exact .inl (.links .refl (State.forward_inside _ _ _))

/-- What a command of a part in RUNNING mode can do. -/
theorem exec_moves (c : Instr) (hm : s.mode = .running) (hs : s.Homed) (ht : s.TableAgrees) (h : exec c s = .next t) :
    Moves s t ∨ ∃ cause, t = s.deviceReset cause := by
  cases c with
  | deviceReset cause => cases h; exact .inr ⟨_, rfl⟩
  | startupCheckEnd o => exact .inl (.startupCheckEnd hm o h)
  | regionTestEnd o => exact .inl (.regionTestEnd hm o h)
  | downstreamFrame fr => exact Moves.downstreamFrame fr h
  | sectorFrameReaction j => exact .inl (.sectorFrameReaction hs j h)
  | blindEntry j => exact .inl (.blindEntry hs j h)
  | probe j => exact .inl (.probe hs j h)
  | progressNotice j => exact .inl (.progressNotice hs j h)
  | reEntrySchedulerReaction j => exact .inl (.reEntrySchedulerReaction hs j h)
  | backoffExpiry k => exact .inl (.backoffExpiry hs k h)
  | shiftMaturity j k => exact .inl (.shiftMaturity j k h)
  | slotFilling j => exact .inl (.slotFilling hs j h)
  | upstreamFrame fr b => exact .inl (.upstreamFrame fr b h)
  | descriptorWalkStep j => exact .inl (.descriptorWalkStep ht j h)
  | windowSweepStep j => exact .inl (.windowSweepStep hs j h)
  | evaluationCompletion j => exact .inl (.evaluationCompletion j h)
  | unknownFunction code r =>
    simp only [exec, execUnknownFunction] at h
    split at h <;> cases h
    · exact .inl (.links .refl (s.reply_inside _ _ _ _))
    · exact .inl .refl
  | echo r => exact Moves.takeRequest (functionCode .echo) r h
  | readStartup r => exact Moves.takeRequest (functionCode .readStartup) r h
  | restart r => exact Moves.takeRequest (functionCode .restart) r h
  | readFaultLatch r => exact Moves.takeRequest (functionCode .readFaultLatch) r h
  | provisionTerminal r => exact Moves.takeRequest (functionCode .provisionTerminal) r h
  | removeTerminal r => exact Moves.takeRequest (functionCode .removeTerminal) r h
  | readTerminal r => exact Moves.takeRequest (functionCode .readTerminal) r h
  | clearHealth r => exact Moves.takeRequest (functionCode .clearHealth) r h
  | setSector r => exact Moves.takeRequest (functionCode .setSector) r h
  | readSector r => exact Moves.takeRequest (functionCode .readSector) r h
  | enableSector r => exact Moves.takeRequest (functionCode .enableSector) r h
  | disableSector r => exact Moves.takeRequest (functionCode .disableSector) r h
  | suspendSector r => exact Moves.takeRequest (functionCode .suspendSector) r h
  | resumeSector r => exact Moves.takeRequest (functionCode .resumeSector) r h
  | resetSector r => exact Moves.takeRequest (functionCode .resetSector) r h
  | forceOutage r => exact Moves.takeRequest (functionCode .forceOutage) r h
  | loadLadderBlock r => exact Moves.takeRequest (functionCode .loadLadderBlock) r h
  | activateLadder r => exact Moves.takeRequest (functionCode .activateLadder) r h
  | readLadder r => exact Moves.takeRequest (functionCode .readLadder) r h
  | holdTerminal r => exact Moves.takeRequest (functionCode .holdTerminal) r h
  | releaseTerminal r => exact Moves.takeRequest (functionCode .releaseTerminal) r h
  | readQueue r => exact Moves.takeRequest (functionCode .readQueue) r h

end Sys2Proof.Machine
end

