-- ==== Sys2Proof/Laws/Rest.lean ====
section
/-!
SUPPORT. A part that is not in RUNNING mode: what its commands can do, starting from every other block at rest (R159, R161).
-/

set_option Elab.async false

namespace Sys2Proof.Machine

variable {s t : State}

theorem State.allAtRest (h : s.AtRest) (hm : s.mode ≠ .running) : s.AllAtRest :=
  ⟨(h hm).1, (h hm).2.1, (h hm).2.2.1, (h hm).2.2.2.1, (h hm).2.2.2.2⟩

theorem State.AllAtRest.atRest (h : s.AllAtRest) : s.AtRest :=
  fun _ => ⟨h.terms, h.secs, h.ladder, h.latch, h.notices⟩

/-- Rest is about the blocks, not about the links. -/
theorem State.AllAtRest.congr (h : s.AllAtRest) (h1 : t.terminals = s.terminals) (h2 : t.sectors = s.sectors)
    (h3 : t.ladder = s.ladder) (h4 : t.latch = s.latch) (h5 : t.notices = s.notices) : t.AllAtRest :=
  ⟨fun k => by simpa only [State.term, h1] using h.terms k, fun j => by simpa only [State.sec, h2] using h.secs j,
    by rw [h3, h.ladder], by rw [h4, h.latch], by rw [h5, h.notices]⟩

theorem State.reset_allAtRest : State.reset.AllAtRest :=
  ⟨State.reset_term, State.reset_sec, rfl, rfl, rfl⟩

theorem State.deviceReset_allAtRest (s : State) (c : ResetCause) : (s.deviceReset c).AllAtRest :=
  State.reset_allAtRest.congr rfl rfl rfl rfl rfl

theorem State.AllAtRest.reply (h : s.AllAtRest) (c : Byte) (tag : BitVec 16) (st : Status) (rs : List Byte) :
    (s.reply c tag st rs).AllAtRest := h.congr rfl rfl rfl rfl rfl

/-- A test of a memory region leaves a part at rest at rest (R161). -/
theorem State.AllAtRest.zeroRegion (h : s.AllAtRest) (k : Nat) : (s.zeroRegion k).AllAtRest := by
  unfold State.zeroRegion
  have terms : ∀ (l : List Slot) (u : State), u.AllAtRest → (l.foldl (fun s i => s.setTerm i {}) u).AllAtRest := by
    intro l
    induction l with
    | nil => exact fun u h => h
    | cons x xs ih =>
      refine fun u h => ih _ ⟨fun k => ?_, h.secs, h.ladder, h.latch, h.notices⟩
      rw [State.setTerm_term]; split
      · rfl
      · exact h.terms k
  have secs : ∀ (l : List Sector) (u : State), u.AllAtRest → (l.foldl
      (fun s j => s.modSec j fun r =>
        { r with lossLog := [], queue := [], window := [], controlQueue := [], evaluation := none, waitingBank := none })
      u).AllAtRest := by
    intro l
    induction l with
    | nil => exact fun u h => h
    | cons x xs ih =>
      refine fun u h => ih _ ⟨h.terms, fun j => ?_, h.ladder, h.latch, h.notices⟩
      rw [State.modSec_sec]; split
      · rw [h.secs]
      · exact h.secs j
  have bank : ∀ i : Fin 2, (s.modBank i fun b => { b with bytes := Vector.replicate 96 0 }).ladder = s.ladder := by
    intro i
    have hb : s.bank i = {} := by
      simp only [State.bank, h.ladder, Vector.getElem_replicate]
    simp only [State.modBank, hb, h.ladder]
    congr 1
    ext j hj
    simp
  split
  · exact terms _ _ h
  · split
    · exact h.congr rfl rfl (bank 0) rfl rfl
    · split
      · exact h.congr rfl rfl (bank 1) rfl rfl
      · exact secs _ _ (h.congr rfl rfl rfl rfl h.notices.symm)

theorem State.AllAtRest.regionTested (h : s.AllAtRest) (k : Nat) (o : Option WordRead) : (s.regionTested k o).AllAtRest :=
  State.AllAtRest.zeroRegion (s := { s with startUp := s.startUp.tested k (failingRead o) })
    (h.congr rfl rfl rfl rfl rfl) k

theorem State.AllAtRest.endCheck (h : s.AllAtRest) : s.endCheck.AllAtRest := h.congr rfl rfl rfl rfl rfl

/-- A request to a part that is not in RUNNING mode leaves it at rest. -/
theorem State.AllAtRest.serve (h : s.AllAtRest) {f : RequestKind} {r : Request} {body : List Byte → Answer}
    (hb : s.mode.serves f = true → ∀ ps, (body ps).1.AllAtRest) (hm : s.mode ≠ .running) : (s.serve f r body).AllAtRest := by
  unfold State.serve
  split
  · exact h.reply _ _ _ _
  · next hc =>
    have hf : s.mode.serves f = true := by
      unfold State.commonCheck at hc
      split at hc
      · assumption
      · revert hc hm; cases s.mode <;> simp [Mode.refusal]
    unfold answered
    split
    · exact (hb hf _).reply _ _ _ _
    · exact hb hf _

theorem State.AllAtRest.takeRequest (h : s.AllAtRest) (hm : s.mode ≠ .running) (code : Byte) (r : Request)
    (hx : Machine.takeRequest code r s = .next t) : t.AllAtRest := by
  have refused : ∀ f, (f ≠ .echo ∧ f ≠ .readStartup ∧ f ≠ .restart ∧ f ≠ .readFaultLatch) → s.mode.serves f ≠ true := by
    intro f hf
    revert hm
    cases s.mode <;> cases f <;> simp_all [Mode.serves]
  unfold Machine.takeRequest at hx
  split at hx
  · simp only [execUnknownFunction] at hx
    split at hx <;> cases hx
    · exact h.reply _ _ _ _
    · exact h
  · cases hx; exact h.serve (fun _ _ => h) hm
  · cases hx; exact h.serve (fun _ _ => h) hm
  · cases hx; exact h.serve (fun _ _ => s.deviceReset_allAtRest _) hm
  · cases hx
    refine h.serve (fun _ ps => ?_) hm
    split
    · exact h
    · split
      · exact h.congr rfl rfl rfl h.latch.symm rfl
      · exact h
  all_goals
    cases hx
    exact h.serve (fun hf => absurd hf (refused _ (by decide))) hm

/-- What a command of a part that is not in RUNNING mode leaves: the part stays at rest. -/
theorem exec_atRest (c : Instr) (h : s.AllAtRest) (hm : s.mode ≠ .running) (hx : exec c s = .next t) : t.AllAtRest := by
  have dues : ∀ j, s.sec j = {} := h.secs
  cases c with
  | deviceReset cause => cases hx; exact s.deviceReset_allAtRest _
  | startupCheckEnd o =>
    simp only [exec, execStartupCheckEnd] at hx
    split at hx
    · cases hx; exact h
    · cases hx; exact h
    · split at hx <;> cases hx
      · exact (h.regionTested 12 o).endCheck
      · exact h
  | regionTestEnd o =>
    simp only [exec, execRegionTestEnd] at hx
    split at hx
    · cases hx; exact h
    · cases hx; exact h
    · split at hx
      · cases hx; exact h
      · split at hx <;> cases hx
        · exact h.regionTested _ o
        · exact h
  | downstreamFrame fr =>
    simp only [exec, execDownstreamFrame] at hx
    split at hx
    · split at hx
      · cases hx; exact h
      · exact h.takeRequest hm _ _ hx
    · split at hx
      · next j _ =>
        have : s.offers j = false := by simp [State.offers, hm]
        rw [this] at hx; cases hx; exact h.congr rfl rfl rfl rfl rfl
      · cases hx; exact h.congr rfl rfl rfl rfl rfl
  | sectorFrameReaction j => simp [exec, execSectorFrameReaction, dues] at hx; cases hx; exact h
  | blindEntry j => simp [exec, execBlindEntry, SectorRec.controllerReady, dues] at hx; cases hx; exact h
  | probe j => simp [exec, execProbe, SectorRec.probeReady, SectorRec.controllerReady, dues] at hx; cases hx; exact h
  | progressNotice j =>
    simp [exec, execProgressNotice, State.progressReady, SectorRec.controllerReady, dues] at hx; cases hx; exact h
  | reEntrySchedulerReaction j => simp [exec, execReEntrySchedulerReaction, dues] at hx; cases hx; exact h
  | backoffExpiry k => simp [exec, execBackoffExpiry, State.expiryReady, dues] at hx; cases hx; exact h
  | shiftMaturity j k => simp [exec, execShiftMaturity, maturityFrame, dues] at hx; cases hx; exact h
  | slotFilling j =>
    simp only [exec, execSlotFilling] at hx
    split at hx
    · cases hx; exact h
    · rw [dues] at hx; cases hx; exact h.congr rfl rfl rfl rfl rfl
  | upstreamFrame fr b =>
    simp only [exec, execUpstreamFrame] at hx
    have hi : ∀ u : State, u.mode = s.mode → u.intake fr = u := by
      intro u hu; unfold State.intake; rw [hu]; revert hm; cases s.mode <;> simp
    have hn : (s.emit fr).emitNotices = s.emit fr := by
      unfold State.emitNotices; rw [State.emit_notices, h.notices]
    have : t = s.emit fr := by
      split at hx <;> cases hx
      · rw [hn, hi (s.emit fr) rfl]
      · rw [hi (s.emit fr) rfl, hn]
    subst this
    exact h.congr rfl rfl rfl rfl rfl
  | descriptorWalkStep j => simp [exec, execDescriptorWalkStep, dues] at hx; cases hx; exact h
  | windowSweepStep j => simp [exec, execWindowSweepStep, dues] at hx; cases hx; exact h
  | evaluationCompletion j => simp [exec, execEvaluationCompletion, dues] at hx; cases hx; exact h
  | unknownFunction code r =>
    simp only [exec, execUnknownFunction] at hx
    split at hx <;> cases hx
    · exact h.reply _ _ _ _
    · exact h
  | echo r => exact h.takeRequest hm (functionCode .echo) r hx
  | readStartup r => exact h.takeRequest hm (functionCode .readStartup) r hx
  | restart r => exact h.takeRequest hm (functionCode .restart) r hx
  | readFaultLatch r => exact h.takeRequest hm (functionCode .readFaultLatch) r hx
  | provisionTerminal r => exact h.takeRequest hm (functionCode .provisionTerminal) r hx
  | removeTerminal r => exact h.takeRequest hm (functionCode .removeTerminal) r hx
  | readTerminal r => exact h.takeRequest hm (functionCode .readTerminal) r hx
  | clearHealth r => exact h.takeRequest hm (functionCode .clearHealth) r hx
  | setSector r => exact h.takeRequest hm (functionCode .setSector) r hx
  | readSector r => exact h.takeRequest hm (functionCode .readSector) r hx
  | enableSector r => exact h.takeRequest hm (functionCode .enableSector) r hx
  | disableSector r => exact h.takeRequest hm (functionCode .disableSector) r hx
  | suspendSector r => exact h.takeRequest hm (functionCode .suspendSector) r hx
  | resumeSector r => exact h.takeRequest hm (functionCode .resumeSector) r hx
  | resetSector r => exact h.takeRequest hm (functionCode .resetSector) r hx
  | forceOutage r => exact h.takeRequest hm (functionCode .forceOutage) r hx
  | loadLadderBlock r => exact h.takeRequest hm (functionCode .loadLadderBlock) r hx
  | activateLadder r => exact h.takeRequest hm (functionCode .activateLadder) r hx
  | readLadder r => exact h.takeRequest hm (functionCode .readLadder) r hx
  | holdTerminal r => exact h.takeRequest hm (functionCode .holdTerminal) r hx
  | releaseTerminal r => exact h.takeRequest hm (functionCode .releaseTerminal) r hx
  | readQueue r => exact h.takeRequest hm (functionCode .readQueue) r hx

end Sys2Proof.Machine
end

