-- ==== Sys2Proof/Laws/KeptNotices.lean ====
section
/-!
SUPPORT. What every step keeps follows from what each kind of move keeps; the notice queue under every move, and the record that REMOVE TERMINAL
empties.
-/

set_option Elab.async false

namespace Sys2Proof.Machine

variable {j : Sector} {s t u : State}

theorem step_keeps (P : State → Prop) (hrest : ∀ s, s.AllAtRest → P s) (hp : ∀ s l, P s → P { s with pending := l })
    (hm : ∀ s t, s.mode = .running → s.Homed → s.TableAgrees → P s → Moves s t → P t)
    (ha : s.AtRest) (hh : s.Homed) (ht : s.TableAgrees) (hP : P s) (h : step s = .next t) : P t := by
  unfold step at h
  split at h
  · cases h; exact hP
  · next c rest _ =>
    have ha' : State.AtRest { s with pending := rest } := ha
    have hh' : State.Homed { s with pending := rest } := hh
    have ht' : State.TableAgrees { s with pending := rest } := ⟨ht.1, ht.2, ht.3, ht.4, ht.5⟩
    by_cases hr : s.mode = .running
    · rcases exec_moves (s := { s with pending := rest }) c hr hh' ht' h with m | ⟨c, rfl⟩
      · exact hm { s with pending := rest } _ hr hh' ht' (hp _ _ hP) m
      · exact hrest _ (State.deviceReset_allAtRest _ _)
    · exact hrest _ (exec_atRest c (State.allAtRest ha' hr) hr h)

/-! ## The NOTICE frame -/

theorem clearPending_fold (l : List NoticeItem) (u : State) :
    (∀ j, (l.foldl State.clearPending u).sec j = u.sec j) ∧ (l.foldl State.clearPending u).ladder = u.ladder ∧
    (l.foldl State.clearPending u).mode = u.mode ∧ (l.foldl State.clearPending u).notices = u.notices ∧
    ∀ k, (l.foldl State.clearPending u).term k =
      if NoticeItem.terminal k ∈ l then { u.term k with noticePending := false } else u.term k := by
  induction l generalizing u with
  | nil => simp
  | cons x xs ih =>
    have ih := ih (u.clearPending x)
    rw [List.foldl_cons]
    cases x with
    | terminal k' =>
      refine ⟨ih.1, ih.2.1, ih.2.2.1, ih.2.2.2.1, fun k => ?_⟩
      rw [ih.2.2.2.2 k, State.clearPending, State.modTerm_term]
      by_cases h : k' = k
      · subst h; simp
      · simp [h, Ne.symm h]
    | sector j' =>
      refine ⟨ih.1, ih.2.1, ih.2.2.1, ih.2.2.2.1, fun k => ?_⟩
      rw [ih.2.2.2.2 k]; simp [State.clearPending]

theorem emitNotices_facts (s : State) :
    (∀ j, s.emitNotices.sec j = s.sec j) ∧ s.emitNotices.ladder = s.ladder ∧ s.emitNotices.mode = s.mode ∧
    s.emitNotices.notices = s.notices.drop 8 ∧
    ∀ k, s.emitNotices.term k = if NoticeItem.terminal k ∈ s.notices.take 8 then { s.term k with noticePending := false } else s.term k := by
  unfold State.emitNotices
  split
  · next h => simp [h]
  · dsimp only
    have := clearPending_fold (s.notices.take 8) { (s.emit (noticeFrame ((s.notices.take 8).map s.itemBytes))) with notices := s.notices.drop 8 }
    exact this

theorem emitNotices_agree (h : s.NoticesAgree) : s.emitNotices.NoticesAgree := by
  obtain ⟨-, -, -, hn, hk⟩ := emitNotices_facts s
  refine ⟨by rw [hn]; exact h.once.sublist (List.drop_sublist _ _), fun k => ?_⟩
  rw [hk, hn]
  have hd : s.notices = s.notices.take 8 ++ s.notices.drop 8 := (List.take_append_drop _ _).symm
  have hnd := h.once
  rw [hd, List.nodup_append] at hnd
  split
  · next hm => simp; intro hx; exact hnd.2.2 _ hm _ hx rfl
  · next hm =>
    rw [h.pending]
    constructor
    · intro hx; rw [hd, List.mem_append] at hx; tauto
    · intro hx; exact List.mem_of_mem_drop hx

/-! ## One record under the works of a sector -/

theorem Works.rungs1 (w : Works j s t) (k : Slot) (h : (s.term k).RungsWithin s.top) : (t.term k).RungsWithin t.top := by
  induction w with
  | refl => exact h
  | @term t w k' f hk e ih =>
    have ht : (t.modTerm k' f).top = t.top := rfl
    rw [ht, State.modTerm_term]
    split
    · next hk => subst hk; exact e.rungs ih
    · exact ih
  | @sec t _ f e ih =>
    have ht : (t.modSec j f).top = t.top := rfl
    rw [ht]; simpa using ih
  | @offerTerminal t w k' hk ih =>
    have ht : (t.offerTerminal k').top = t.top := (Works.offerTerminal .refl k' hk).top
    rw [ht, State.offerTerminal_term]
    split <;> exact ih
  | @offerSector t w ih =>
    have ht : (t.offerSector j).top = t.top := (Works.offerSector .refl).top
    rw [ht]; simpa using ih

theorem Works.enterSector' {st : SectorState} (hst : st ≠ .disabled) : Works j t (t.enterSector j st) := .enterSector .refl hst

theorem modSec_agree {f} (h : s.NoticesAgree) : (s.modSec j f).NoticesAgree := ⟨h.once, h.pending⟩

theorem begin_agree {b f} (h : s.NoticesAgree) : (s.beginEvaluation j b f).NoticesAgree := ⟨h.once, h.pending⟩

theorem links_agree (e : SameInside s t) (h : s.NoticesAgree) : t.NoticesAgree :=
  ⟨by rw [e.notices]; exact h.once, fun k => by rw [e.term, e.notices]; exact h.pending k⟩

/-! ## The activation of a ladder -/

theorem TermEdit.clamp (top) (n : Nat) (a : Terminal) : TermEdit top a (a.clampRungs n) := by
  refine ⟨rfl, rfl, rfl, rfl, rfl, Iff.rfl, fun h => ⟨h.power, h.filtered, h.history, h.lossF, h.headroom, h.adjust, h.attempts⟩, fun h m hm => ?_⟩
  obtain ⟨h1, h2, h3⟩ := h m hm
  refine ⟨(Nat.min_le_left _ _).trans h1, fun p hp => ?_, fun r hr => ?_⟩
  · simp only [Terminal.clampRungs, Option.map_eq_some_iff] at hp
    obtain ⟨q, hq, rfl⟩ := hp
    exact (Nat.min_le_left _ _).trans (h2 q hq)
  · simp only [Terminal.clampRungs, Option.map_eq_some_iff] at hr
    obtain ⟨q, hq, rfl⟩ := hr
    exact (Nat.min_le_left _ _).trans (h3 q hq)

theorem Works.activateTerminal' (old : Option LadderBank) (new : LadderBank) (k : Slot) :
    Works (u.sectorOf k) u (State.activateTerminal old new u k) := by
  unfold State.activateTerminal
  split
  · exact .refl
  · next h =>
    have hk := belongs_self h
    have w1 : Works (u.sectorOf k) u ((u.modTerm k (Terminal.clampRungs new.top)).reclassShift k) :=
      Works.reclassShift (Works.edit .refl hk (.clamp _ _ _)) hk
    dsimp only
    split
    · refine Works.request ?_ hk _
      refine Works.edit w1 hk ?_
      refine ⟨rfl, rfl, rfl, rfl, rfl, Iff.rfl, fun h => ⟨h.power, h.filtered, h.history, h.lossF, h.headroom, h.adjust, h.attempts⟩, fun h m hm => ?_⟩
      obtain ⟨h1, h2, h3⟩ := h m hm
      exact ⟨h1, fun p hp => by cases hp; exact h1, h3⟩
    · exact w1

theorem activate_fold (P : State → Prop) (hw : ∀ {s t : State} {j : Sector}, Works j s t → P s → P t) (old new) (l : List Slot) (hu : P u) :
    P (l.foldl (State.activateTerminal old new) u) := by
  induction l generalizing u with
  | nil => exact hu
  | cons x xs ih => exact ih (hw (.activateTerminal' old new x) hu)

/-! ## The removal of a terminal -/

/-- REMOVE TERMINAL, first part: the exchange in flight ends, and the terminal leaves its collections. -/
def removed1 (s : State) (k : Slot) : State := ((s.modTerm k Terminal.abortExchange).leave k).discard k

theorem removed1_works {k : Slot} (h : (s.term k).state ≠ .empty) : Works (s.sectorOf k) s (removed1 s k) :=
  ((Works.edit .refl (belongs_self h) (.abortExchange _ _)).leave (belongs_self h)).discard (belongs_self h)

/-- REMOVE TERMINAL, second part: the record is emptied, the address freed and the population counted down. -/
def removed2 (s : State) (k : Slot) : State :=
  ((removed1 s k).modSec (s.sectorOf k) fun r =>
    { r with
      addressMap := r.addressMap.filter fun p => p.2 != k
      population := r.population - 1
      evaluation := r.evaluation.map fun e => { e with handed := without k e.handed } }).modTerm k fun t => { noticePending := t.noticePending }

theorem remove_eq (s : State) (k : Slot) : s.remove k =
    (if (s.sec (s.sectorOf k)).lead == some k then (removed2 s k).leadDeparts (s.sectorOf k) else removed2 s k).offerTerminal k := rfl

/-- REMOVE TERMINAL keeps what its works, its offer and the emptying of the record keep. -/
theorem remove_keeps (P : State → Prop) (hw : ∀ {s t : State} {j : Sector}, Works j s t → P s → P t) 
   (ho : ∀ s k, P s → P (s.offerTerminal k)) (k : Slot) (h : P (removed2 s k)) : P (s.remove k) := by
  rw [remove_eq]
  apply ho
  split
  · exact hw (.leadDeparts .refl) h
  · exact h

theorem noticesAgree_moves (h : s.NoticesAgree) (m : Moves s t) : t.NoticesAgree := by
  induction m with
  | refl => exact h
  | links m e ih => exact links_agree e ih
  | works j m w _ ih => exact w.noticesAgree ih
  | notices m ih => exact emitNotices_agree ih
  | begins m j bank f hs he ih => exact begin_agree ⟨ih.once, ih.pending⟩
  | waits m j f he ih => exact modSec_agree ih
  | suspends m j tag ih => exact (Works.enterSector' (by decide)).noticesAgree (links_agree (State.reply_inside _ _ _ _ _) (modSec_agree ih))
  | completes m j e he ih =>
    have h1 := ih
    unfold State.afterCompletion
    split
    · exact (Works.enterSector' (by decide)).noticesAgree (links_agree (State.reply_inside _ _ _ _ _) (modSec_agree ⟨ih.once, ih.pending⟩))
    · split
      · exact begin_agree ⟨ih.once, ih.pending⟩
      · exact ⟨ih.once, ih.pending⟩
  | configures m j c hc ih => exact modSec_agree ih
  | enables m j hd ha he ih => exact modSec_agree ih
  | disables m j ih => exact modSec_agree ih
  | provisions m p he hl hr ih =>
    refine State.offerTerminal_agree _ (modSec_agree ⟨ih.once, fun k => ?_⟩)
    rw [State.modTerm_term, State.modTerm_notices, ← ih.pending k]
    split
    · next h => subst h; rfl
    · rfl
  | removes m k he ih =>
    refine remove_keeps State.NoticesAgree (fun w h => w.noticesAgree h) (fun s k h => State.offerTerminal_agree k h) k ?_
    have := (removed1_works he).noticesAgree ih
    refine ⟨this.once, fun k' => ?_⟩
    unfold removed2
    rw [State.modTerm_term]
    split
    · next hk => subst hk; exact this.pending _
    · exact this.pending k'
  | loads m i bs hh ih => exact ⟨ih.once, ih.pending⟩
  | activates m hr ih => exact activate_fold State.NoticesAgree (fun w h => w.noticesAgree h) _ _ _ ⟨ih.once, ih.pending⟩

end Sys2Proof.Machine
end

