-- ==== Sys2Proof/Laws/KeptRanges.lean ====
section
/-!
SUPPORT. The ranges of the terminal records and of the sector records under every move.
-/

set_option Elab.async false

namespace Sys2Proof.Machine

variable {j : Sector} {s t u : State}

/-- A property of every record that no notice pending touches stands after an offer. -/
theorem offerTerminal_termP {P : Terminal → Prop} (hp : ∀ t b, P t → P { t with noticePending := b }) (s : State) (k : Slot) (h : ∀ k, P (s.term k)) (k') :
    P ((s.offerTerminal k).term k') := by
  rw [State.offerTerminal_term]; split
  · exact hp _ _ (h _)
  · exact h _

theorem Terminal.InRange.np {t : Terminal} (h : t.InRange) (b) : ({ t with noticePending := b } : Terminal).InRange :=
  ⟨h.power, h.filtered, h.history, h.lossF, h.headroom, h.adjust, h.attempts⟩

theorem InRange.empty {np} : ({ noticePending := np } : Terminal).InRange := ⟨power_zero, by simp, by simp, by simp, by simp, by simp, by simp⟩

theorem terminalsInRange_moves (h : ∀ k, (s.term k).InRange) (m : Moves s t) : ∀ k, (t.term k).InRange := by
  induction m with
  | refl => exact h
  | links m e ih => exact fun k => by rw [e.term]; exact ih k
  | works j m w _ ih => exact w.inRange ih
  | notices m ih => 
    intro k; rw [(emitNotices_facts _).2.2.2.2]; split
    · exact (ih k).np _
    · exact ih k
  | begins m j bank f hs he ih => exact ih
  | waits m j f he ih => exact ih
  | suspends m j tag ih => exact (Works.enterSector' (by decide)).inRange ih
  | completes m j e he ih =>
    unfold State.afterCompletion
    split
    · exact (Works.enterSector' (by decide)).inRange ih
    · split
      · exact ih
      · exact ih
  | configures m j c hc ih => exact ih
  | enables m j hd ha he ih => exact ih
  | disables m j ih => exact ih
  | provisions m p he hl hr ih =>
    refine offerTerminal_termP (fun t b h => h.np b) _ _ fun k => ?_
    rw [State.modSec_term, State.modTerm_term]; split
    · exact ⟨by simp [ProvisionParams.record], by simp [ProvisionParams.record], by simp [ProvisionParams.record], by simp [ProvisionParams.record], by simp [ProvisionParams.record], by simp [ProvisionParams.record], by simp [ProvisionParams.record]⟩
    · exact ih k
  | removes m k he ih =>
    refine remove_keeps (fun s => ∀ k, (s.term k).InRange) (fun w h => w.inRange h) (fun s k h => offerTerminal_termP (fun t b h => h.np b) _ _ h) k ?_
    have := (removed1_works he).inRange ih
    intro k'
    unfold removed2
    rw [State.modTerm_term]
    split
    · exact InRange.empty
    · exact this k'
  | loads m i bs hh ih => exact ih
  | activates m hr ih => exact activate_fold (fun s => ∀ k, (s.term k).InRange) (fun w h => w.inRange h) _ _ _ ih

theorem Works.secsInRange (w : Works j s t) (h : ∀ j, (s.sec j).InRange) (j') : (t.sec j').InRange := by
  by_cases hj : j = j'
  · subst hj; exact w.secInRange (h j)
  · rw [w.sec_other hj]; exact h j'

theorem modSec_P {P : SectorRec → Prop} {f} (h : ∀ j, P (s.sec j)) (hf : ∀ r, P r → P (f r)) (j') : P ((s.modSec j f).sec j') := by
  rw [State.modSec_sec]; split
  · next e => subst e; exact hf _ (h _)
  · exact h j'

theorem sectorsInRange_moves (h : ∀ j, (s.sec j).InRange) (m : Moves s t) : ∀ j, (t.sec j).InRange := by
  induction m with
  | refl => exact h
  | links m e ih => exact fun k => by rw [e.sec]; exact ih k
  | works j m w _ ih => exact w.secsInRange ih
  | notices m ih => intro k; rw [(emitNotices_facts _).1]; exact ih k
  | @begins u m j bank f hs he ih =>
    intro j'
    simp only [State.beginEvaluation, State.takeHold_sec, State.modSec_sec]
    have h := ih j; have h' := ih j'
    split
    · exact ⟨h.1, h.2, h.3, h.4, h.5, h.6⟩
    · exact h'
  | @waits u m j f he ih => 
    intro j'
    simp only [State.modSec_sec]
    have h := ih j; have h' := ih j'
    split
    · exact ⟨h.1, h.2, h.3, h.4, h.5, h.6⟩
    · exact h'
  | @suspends u m j tag ih =>
    refine (Works.enterSector' (by decide)).secsInRange ?_
    intro j'
    simp only [State.reply_sec, State.modSec_sec]
    have h := ih j; have h' := ih j'
    split
    · exact ⟨h.1, h.2, h.3, h.4, h.5, h.6⟩
    · exact h'
  | @completes u m j e he ih =>
    unfold State.afterCompletion
    have h := ih j
    split
    · refine (Works.enterSector' (by decide)).secsInRange ?_
      intro j'
      have h' := ih j'
      simp only [State.reply_sec, State.modSec_sec, State.dropHold_sec, if_pos]
      split
      · exact ⟨h.1, h.2, h.3, h.4, h.5, h.6⟩
      · exact h'
    · intro j'
      have h' := ih j'
      split
      · simp only [State.beginEvaluation, State.takeHold_sec, State.modSec_sec, State.dropHold_sec, if_pos]
        split
        · exact ⟨h.1, h.2, h.3, h.4, h.5, h.6⟩
        · exact h'
      · simp only [State.modSec_sec, State.dropHold_sec]
        split
        · exact ⟨h.1, h.2, h.3, h.4, h.5, h.6⟩
        · exact h'
  | configures m j c hc ih =>
    intro j'
    simp only [State.modSec_sec]
    have h := ih j; have h' := ih j'
    split
    · exact ⟨hc, h.2, h.3, Nat.min_le_right _ _, h.5, h.6⟩
    · exact h'
  | enables m j hd ha he ih =>
    intro j'
    simp only [State.modSec_sec]
    have h := ih j; have h' := ih j'
    split
    · exact ⟨h.1, h.2, Nat.zero_le _, Nat.zero_le _, Nat.zero_le _, h.6⟩
    · exact h'
  | disables m j ih =>
    intro j'
    simp only [State.modSec_sec]
    have h := ih j; have h' := ih j'
    split
    · exact ⟨h.1, Nat.zero_le _, Nat.zero_le _, Nat.zero_le _, Nat.zero_le _, h.6⟩
    · exact h'
  | @provisions u m p he hl hr ih =>
    intro j
    unfold State.provision
    rw [State.offerTerminal_sec]
    simp only [State.modSec_sec, State.modTerm_sec]
    have h := ih p.sector; have h' := ih j
    split
    · exact ⟨h.1, h.2, h.3, h.4, h.5, h.6⟩
    · exact h'
  | @removes u m k he ih =>
    refine remove_keeps (fun s => ∀ k, (s.sec k).InRange) (fun w h => w.secsInRange h) (fun s k h j => by rw [State.offerTerminal_sec]; exact h j) k ?_
    have := (removed1_works he).secsInRange ih
    intro j'
    unfold removed2
    simp only [State.modSec_sec, State.modTerm_sec]
    have h := this (u.sectorOf k); have h' := this j'
    split
    · exact ⟨h.1, h.2, h.3, h.4, h.5, h.6⟩
    · exact h'
  | loads m i bs hh ih => exact ih
  | activates m hr ih => exact activate_fold (fun s => ∀ k, (s.sec k).InRange) (fun w h => w.secsInRange h) _ _ _ ih

end Sys2Proof.Machine
end

