-- ==== Sys2Proof/Laws/KeptHomes.lean ====
section
/-!
SUPPORT. The entries a departure takes out of a control queue, and the names a sector keeps under every move.
-/

set_option Elab.async false

namespace Sys2Proof.Machine

variable {j : Sector} {s t u : State}

/-- The number of entries of a slot in a control queue. -/
def entriesOf (k : Slot) (q : List ControlEntry) : Nat := q.countP fun e => e.slot == k

theorem entriesOf_insertEntry (k) (e : ControlEntry) (q) : entriesOf k (insertEntry e q) = entriesOf k q + if e.slot = k then 1 else 0 := by
  induction q with
  | nil => simp [insertEntry, entriesOf, List.countP_cons]
  | cons x xs ih =>
    simp only [insertEntry]
    split
    · simp only [entriesOf, List.countP_cons] at ih ⊢; omega
    · simp only [entriesOf, List.countP_cons, beq_iff_eq]

theorem entriesOf_dropFirst (k) (q) : entriesOf k (dropFirstOf k q) = entriesOf k q - 1 := by
  induction q with
  | nil => simp [dropFirstOf, entriesOf]
  | cons x xs ih =>
    simp only [dropFirstOf, entriesOf] at ih ⊢
    rw [List.eraseP_cons]
    by_cases h : (x.slot == k) = true
    · simp [h]
    · simp [h, ih]

theorem entriesOf_owedScan {k : Slot} (h : (s.term k).owed.any = false) :
    entriesOf k ((s.owedScan j).sec j).controlQueue = entriesOf k (s.sec j).controlQueue ∧ ((s.owedScan j).term k).owed.any = false := by
  unfold State.owedScan
  split
  · exact ⟨rfl, h⟩
  · split
    · exact ⟨rfl, h⟩
    · next k' hf =>
      have ho := List.find?_some hf
      have hne : k' ≠ k := by rintro rfl; rw [h] at ho; cases ho
      refine ⟨?_, by rw [State.modTerm_term_other _ hne]; exact h⟩
      simp only [State.modTerm_sec, State.modSec_sec_same, joinOnce]
      split
      · rfl
      · rw [entriesOf_insertEntry]; simp [hne]

theorem entriesOf_departures {k : Slot} (n : Nat) (h : (s.term k).owed.any = false) :
    entriesOf k ((State.departures k j n s).sec j).controlQueue = entriesOf k (s.sec j).controlQueue - n := by
  induction n generalizing s with
  | zero => rfl
  | succ n ih =>
    unfold State.departures
    have := entriesOf_owedScan (j := j) (s := s.modSec j fun r => { r with controlQueue := dropFirstOf k r.controlQueue }) (k := k) h
    rw [ih this.2, this.1, State.modSec_sec_same, entriesOf_dropFirst]; omega

theorem owedScan_lists (s : State) (j j' : Sector) :
    ((s.owedScan j).sec j').queue = (s.sec j').queue ∧ ((s.owedScan j).sec j').window = (s.sec j').window ∧ ((s.owedScan j).sec j').lead = (s.sec j').lead := by
  unfold State.owedScan
  split
  · exact ⟨rfl, rfl, rfl⟩
  · split
    · exact ⟨rfl, rfl, rfl⟩
    · simp only [State.modTerm_sec, State.modSec_sec]
      split
      · next h => subst h; simp
      · simp

theorem departures_lists (k) (n : Nat) (s : State) (j j' : Sector) :
    ((State.departures k j n s).sec j').queue = (s.sec j').queue ∧ ((State.departures k j n s).sec j').window = (s.sec j').window ∧ ((State.departures k j n s).sec j').lead = (s.sec j').lead := by
  induction n generalizing s with
  | zero => exact ⟨rfl, rfl, rfl⟩
  | succ n ih =>
    unfold State.departures
    have h1 := ih ((s.modSec j fun r => { r with controlQueue := dropFirstOf k r.controlQueue }).owedScan j)
    have h2 := owedScan_lists (s.modSec j fun r => { r with controlQueue := dropFirstOf k r.controlQueue }) j j'
    rw [h1.1, h1.2.1, h1.2.2, h2.1, h2.2.1, h2.2.2]
    simp only [State.modSec_sec]
    split
    · next h => subst h; simp
    · simp

theorem discard_none (s : State) (k : Slot) (e) (he : e ∈ ((s.discard k).sec (s.sectorOf k)).controlQueue) : e.slot ≠ k := by
  unfold State.discard at he
  have := entriesOf_departures (s := s.modTerm k fun t => { t with owed := {} }) (j := s.sectorOf k) (k := k)
    ((s.sec (s.sectorOf k)).controlQueue.filter fun e => e.slot == k).length (by simp [OwedKinds.any])
  rw [State.modTerm_sec, entriesOf, entriesOf, List.countP_eq_length_filter (l := (s.sec _).controlQueue), Nat.sub_self, List.countP_eq_zero] at this
  simpa using this e he

theorem removed1_free {k : Slot} (h : (s.term k).state ≠ .empty) :
    k ∉ ((removed1 s k).sec (s.sectorOf k)).queue ∧ k ∉ ((removed1 s k).sec (s.sectorOf k)).window ∧
    ∀ e ∈ ((removed1 s k).sec (s.sectorOf k)).controlQueue, e.slot ≠ k := by
  have hb := belongs_self h
  let v := (s.modTerm k Terminal.abortExchange).leave k
  have wv : Works (s.sectorOf k) s v := (Works.edit .refl hb (.abortExchange _ _)).leave hb
  have hv : v.sectorOf k = s.sectorOf k := wv.sectorOf hb
  have hl := departures_lists k ((v.sec (v.sectorOf k)).controlQueue.filter fun e => e.slot == k).length (v.modTerm k fun t => { t with owed := {} }) (v.sectorOf k) (s.sectorOf k)
  have hd : removed1 s k = v.discard k := rfl
  have ht : (s.modTerm k Terminal.abortExchange).sectorOf k = s.sectorOf k := by
        simp only [State.sectorOf, State.modTerm_term_same, Terminal.abortExchange]; split <;> rfl
  refine ⟨fun hn => ?_, fun hn => ?_, fun e he => ?_⟩
  · have : ((removed1 s k).sec (s.sectorOf k)).queue = (v.sec (s.sectorOf k)).queue := hl.1
    rw [this] at hn
    have h2 : (v.sec (s.sectorOf k)).queue = without k ((s.sec (s.sectorOf k)).queue) := by
      simp only [v, State.leave, ht, State.modTerm_sec, State.modSec_sec_same, SectorRec.drop]
    rw [h2, mem_without] at hn; exact absurd rfl hn.2
  · have : ((removed1 s k).sec (s.sectorOf k)).window = (v.sec (s.sectorOf k)).window := hl.2.1
    rw [this] at hn
    have h2 : (v.sec (s.sectorOf k)).window = without k ((s.sec (s.sectorOf k)).window) := by
      simp only [v, State.leave, ht, State.modTerm_sec, State.modSec_sec_same, SectorRec.drop]
    rw [h2, mem_without] at hn; exact absurd rfl hn.2
  · rw [hd, ← hv] at he; exact discard_none v k e he

theorem removed1_names {k : Slot} (h : (s.term k).state ≠ .empty) (hn : ((removed1 s k).sec (s.sectorOf k)).Names k) :
    ((removed1 s k).sec (s.sectorOf k)).lead = some k := by
  obtain ⟨h1, h2, h3⟩ := removed1_free h
  rcases hn with hn | hn | hn | ⟨e, he, hs⟩
  · exact absurd hn h1
  · exact absurd hn h2
  · exact hn
  · exact absurd hs (h3 e he)

theorem removed1_lead {k : Slot} (h : (s.term k).state ≠ .empty) : ((removed1 s k).sec (s.sectorOf k)).lead = (s.sec (s.sectorOf k)).lead := by
  let v := (s.modTerm k Terminal.abortExchange).leave k
  have hl := departures_lists k ((v.sec (v.sectorOf k)).controlQueue.filter fun e => e.slot == k).length (v.modTerm k fun t => { t with owed := {} }) (v.sectorOf k) (s.sectorOf k)
  have h2 : ((removed1 s k).sec (s.sectorOf k)).lead = (v.sec (s.sectorOf k)).lead := hl.2.2
  rw [h2]
  simp only [v, State.leave, State.modTerm_sec, State.modSec_sec, SectorRec.drop]
  split
  · next e => rw [e]
  · rfl

theorem offerTerminal_belongs (s : State) (k k' : Slot) (j) : (s.offerTerminal k).belongs j k' = s.belongs j k' := by
  simp only [State.belongs, State.offerTerminal_term]; split <;> rfl

theorem offerTerminal_homed (h : s.Homed) (k : Slot) : (s.offerTerminal k).Homed := fun j k' hk => by
  rw [offerTerminal_belongs]; exact h j k' (by simpa using hk)

theorem modSec_homed {f : SectorRec → SectorRec} (h : s.Homed) (hf : ∀ k, (f (s.sec j)).Names k → (s.sec j).Names k) : (s.modSec j f).Homed := by
  intro j' k hk
  have : (s.modSec j f).belongs j' k = s.belongs j' k := rfl
  rw [this]
  rw [State.modSec_sec] at hk
  split at hk
  · next e => subst e; exact h _ _ (hf _ hk)
  · exact h _ _ hk

theorem links_homed (e : SameInside s t) (h : s.Homed) : t.Homed := fun j k hk => by
  have : t.belongs j k = s.belongs j k := by simp only [State.belongs, e.term]
  rw [this]; exact h j k (by rw [← e.sec]; exact hk)

theorem removed2_names_other {k : Slot} (h : (s.term k).state ≠ .empty) (hh : s.Homed) (j' k') (hn : ((removed2 s k).sec j').Names k')
   (hl : (s.sec (s.sectorOf k)).lead ≠ some k ∨ j' ≠ s.sectorOf k ∨ k' ≠ k) : (removed2 s k).belongs j' k' = true := by
  have w := removed1_works h
  have h1 := w.homed hh
  have hn1 : ((removed1 s k).sec j').Names k' := by
    unfold removed2 at hn
    rw [State.modTerm_sec, State.modSec_sec] at hn
    split at hn
    · next e => subst e; exact hn
    · exact hn
  have hb := h1 j' k' hn1
  have hne : k ≠ k' := by
    rintro rfl
    have hj : j' = s.sectorOf k := by
      rw [w.belongs] at hb; exact (State.sectorOf_of_belongs hb).symm
    subst hj
    have := removed1_names h hn1
    rw [removed1_lead h] at this
    simp [this] at hl
  rw [State.belongs]
  unfold removed2
  rw [State.modTerm_term_other _ hne]
  exact hb

theorem remove_homed {k : Slot} (h : (s.term k).state ≠ .empty) (hh : s.Homed) : (s.remove k).Homed := by
  rw [remove_eq]
  refine offerTerminal_homed ?_ _
  split
  · next hl =>
    unfold State.leadDeparts
    refine (Works.leadChoice (j := s.sectorOf k) .refl).homed ?_
    intro j' k' hn
    have hb : ((removed2 s k).modSec (s.sectorOf k) fun r => { r with lead := none, leadFailures := 0 }).belongs j' k' = (removed2 s k).belongs j' k' := rfl
    rw [hb]
    have hn2 : ((removed2 s k).sec j').Names k' := by
      rw [State.modSec_sec] at hn
      split at hn
      · next e => subst e; rcases hn with hn | hn | hn | hn
                  · exact .inl hn
                  · exact .inr (.inl hn)
                  · cases hn
                  · exact .inr (.inr (.inr hn))
      · exact hn
    by_cases hk : j' = s.sectorOf k ∧ k' = k
    · obtain ⟨rfl, rfl⟩ := hk
      exfalso
      rw [State.modSec_sec_same] at hn
      obtain ⟨h1, h2, h3⟩ := removed1_free h
      have hx : ((removed2 s k').sec (s.sectorOf k')).queue = ((removed1 s k').sec (s.sectorOf k')).queue ∧
         ((removed2 s k').sec (s.sectorOf k')).window = ((removed1 s k').sec (s.sectorOf k')).window ∧
         ((removed2 s k').sec (s.sectorOf k')).controlQueue = ((removed1 s k').sec (s.sectorOf k')).controlQueue := by
        unfold removed2
        simp only [State.modTerm_sec, State.modSec_sec_same, and_self]
      simp only [SectorRec.Names, hx] at hn
      rcases hn with hn | hn | hn | ⟨e, he, hs⟩
      · exact h1 hn
      · exact h2 hn
      · cases hn
      · exact h3 e he hs
    · exact removed2_names_other h hh j' k' hn2 (by tauto)
  · next hl =>
    intro j' k' hn
    exact removed2_names_other h hh j' k' hn (.inl (by simpa using hl))

theorem homed_moves (h : s.Homed) (m : Moves s t) : t.Homed := by
  induction m with
  | refl => exact h
  | links m e ih => exact links_homed e ih
  | works j m w _ ih => exact w.homed ih
  | @notices u m ih =>
    intro j k hk
    have hb : u.emitNotices.belongs j k = u.belongs j k := by
      simp only [State.belongs, (emitNotices_facts u).2.2.2.2]; split <;> rfl
    rw [hb]; exact ih j k (by rw [← (emitNotices_facts u).1]; exact hk)
  | @begins u m j bank f hs he ih => exact modSec_homed (s := u.takeHold _) ih fun k h => h
  | @waits u m j f he ih => exact modSec_homed ih fun k h => h
  | @suspends u m j tag ih =>
    refine (Works.enterSector' (by decide)).homed (links_homed (State.reply_inside _ _ _ _ _) (modSec_homed ih fun k h => h))
  | @completes u m j e he ih =>
    have i0 : State.Homed (u.modSec j fun r =>
        { r with lastEvaluated := if r.state = .blind then none else some e.frame.number, evaluation := none }) := modSec_homed (s := u) ih fun k h => h
    have i1 : State.Homed ((u.modSec j fun r =>
        { r with lastEvaluated := if r.state = .blind then none else some e.frame.number, evaluation := none }).dropHold
          e.held) := i0
    unfold State.afterCompletion
    split
    · exact (Works.enterSector' (by decide)).homed (links_homed (State.reply_inside _ _ _ _ _) (modSec_homed i1 fun k h => h))
    · split
      · have i2 : State.Homed (((u.modSec j fun r =>
        { r with lastEvaluated := if r.state = .blind then none else some e.frame.number, evaluation := none }).dropHold
          e.held).modSec j fun r => { r with waitingBank := none }) := modSec_homed i1 fun k h => h
        exact modSec_homed (s := State.takeHold _ _) i2 fun k h => h
      · exact i1
  | configures m j c hc ih => exact modSec_homed ih fun k h => h
  | enables m j hd ha he ih =>
    refine modSec_homed ih fun k h => ?_
    rcases h with h | h | h | h
    · exact .inl h
    · exact .inr (.inl h)
    · cases h
    · exact .inr (.inr (.inr h))
  | disables m j ih =>
    refine modSec_homed ih fun k h => ?_
    rcases h with h | h | h | h
    · exact .inl h
    · exact .inr (.inl h)
    · cases h
    · exact .inr (.inr (.inr h))
  | @provisions u m p he hl hr ih =>
    refine offerTerminal_homed (modSec_homed (fun j k hk => ?_) fun k h => h) _
    have hb := ih j k hk
    have hne : p.slot ≠ k := by rintro rfl; simp [State.belongs, he] at hb
    rw [State.belongs, State.modTerm_term_other _ hne]; exact hb
  | removes m k he ih => exact remove_homed he ih
  | loads m i bs hh ih => exact ih
  | activates m hr ih => exact activate_fold State.Homed (fun w h => w.homed h) _ _ _ ih

end Sys2Proof.Machine
end

