-- ==== Sys2Proof/Laws/KeptTable.lean ====
section
/-!
SUPPORT. The terminal table under every move: the empty values, the populations and the address maps.
-/

set_option Elab.async false

namespace Sys2Proof.Machine

variable {j : Sector} {s t u : State}

theorem tableAgrees_congr (h : s.TableAgrees) (h1 : ∀ k, ∃ b, t.term k = { s.term k with noticePending := b })
    (h2 : ∀ j, (t.sec j).population = (s.sec j).population ∧ (t.sec j).addressMap = (s.sec j).addressMap) : t.TableAgrees := by
  have hb : ∀ j k, t.belongs j k = s.belongs j k := by
    intro j k; obtain ⟨b, e⟩ := h1 k; simp only [State.belongs, e]
  have hs : ∀ j, t.slotsOf j = s.slotsOf j := fun j => by rw [State.slotsOf, State.slotsOf, funext (hb j)]
  refine ⟨fun k hk => ?_, fun j => ?_, fun j => ?_, fun j a k => ?_, fun j => ?_⟩
  · obtain ⟨b, e⟩ := h1 k
    rw [e] at hk ⊢
    rw [h.empty k hk]
  · rw [(h2 j).1, hs]; exact h.population j
  · rw [(h2 j).1]; exact h.limit j
  · obtain ⟨b, e⟩ := h1 k
    rw [(h2 j).2, hb, e]; exact h.paired j a k
  · rw [(h2 j).2]; exact h.once j

theorem same_term (s : State) (k : Slot) : ∃ b, s.term k = { s.term k with noticePending := b } := ⟨_, rfl⟩

theorem tableAgrees_offer (h : s.TableAgrees) (k : Slot) : (s.offerTerminal k).TableAgrees := by
  refine tableAgrees_congr h (fun k' => ?_) fun j => by simp
  rw [State.offerTerminal_term]; split
  · exact ⟨_, rfl⟩
  · exact same_term _ _

theorem tableAgrees_modSec {f : SectorRec → SectorRec} (h : s.TableAgrees) (hf : (f (s.sec j)).population = (s.sec j).population ∧ (f (s.sec j)).addressMap = (s.sec j).addressMap) : (s.modSec j f).TableAgrees := by
  refine tableAgrees_congr h (same_term s) fun j' => ?_
  rw [State.modSec_sec]; split
  · next e => subst e; exact hf
  · exact ⟨rfl, rfl⟩

theorem tableAgrees_links (e : SameInside s t) (h : s.TableAgrees) : t.TableAgrees :=
  tableAgrees_congr h (fun k => by rw [e.term]; exact same_term _ _) fun j => by rw [e.sec]; simp

theorem tableAgrees_begin {b : IntakeBank} {f : BankedFrame} (h : s.TableAgrees) : (s.beginEvaluation j b f).TableAgrees := by
  refine tableAgrees_congr h (same_term s) fun j' => ?_
  unfold State.beginEvaluation
  simp only [State.modSec_sec, State.takeHold_sec]; split
  · next e => subst e; exact ⟨rfl, rfl⟩
  · exact ⟨rfl, rfl⟩

theorem slotsOf_length_count (s : State) (j : Sector) : (s.slotsOf j).length = allSlots.countP (s.belongs j) := by
  rw [State.slotsOf, List.countP_eq_length_filter]

theorem countP_add {k : Slot} {p q : Slot → Bool} (hp : p k = false) (hq : q k = true) (h : ∀ x, x ≠ k → p x = q x) :
    allSlots.countP q = allSlots.countP p + 1 := by
  have hk : k ∈ allSlots := List.mem_finRange k
  have nd : allSlots.Nodup := List.nodup_finRange 320
  obtain ⟨a, b, e⟩ := List.append_of_mem hk
  rw [e] at nd ⊢
  rw [List.nodup_append] at nd
  have ha : ∀ x ∈ a, x ≠ k := fun x hx => nd.2.2 x hx k (by simp)
  have hb : ∀ x ∈ b, x ≠ k := by
    rintro x hx rfl
    exact (List.nodup_cons.mp nd.2.1).1 hx
  rw [List.countP_append, List.countP_append, List.countP_cons, List.countP_cons, hp, hq]
  rw [List.countP_congr (l := a) (p := q) (q := p) fun x hx => by rw [h x (ha x hx)]]
  rw [List.countP_congr (l := b) (p := q) (q := p) fun x hx => by rw [h x (hb x hx)]]
  simp; omega

theorem tableAgrees_provision (h : s.TableAgrees) (p : ProvisionParams) (he : (s.term p.slot).state = .empty)
    (hl : (s.sec p.sector).population < 64) (hr : s.resolve p.sector p.address = none) : (s.provision p).TableAgrees := by
  refine tableAgrees_offer ?_ _
  have bslot : ∀ j, s.belongs j p.slot = false := fun j => by simp [State.belongs, he]
  let v := (s.modTerm p.slot fun t => p.record t.noticePending).modSec p.sector fun r =>
    { r with population := r.population + 1, addressMap := r.addressMap ++ [(p.address, p.slot)] }
  have tv : ∀ k, v.term k = if p.slot = k then p.record (s.term p.slot).noticePending else s.term k := fun k => by simp only [v, State.modSec_term, State.modTerm_term]
  have sv : ∀ j, v.sec j = if p.sector = j then { s.sec j with population := (s.sec j).population + 1, addressMap := (s.sec j).addressMap ++ [(p.address, p.slot)] } else s.sec j := by
    intro j; simp only [v, State.modSec_sec, State.modTerm_sec]; split
    · next e => subst e; rfl
    · rfl
  have bv : ∀ j k, v.belongs j k = if p.slot = k then decide (p.sector = j) else s.belongs j k := by
    intro j k
    simp only [State.belongs, tv]
    split
    · simp [ProvisionParams.record]; rfl
    · rfl
  show v.TableAgrees
  have hnot : ∀ x ∈ (s.sec p.sector).addressMap, x.1 ≠ p.address := by
    simp only [State.resolve, Option.map_eq_none_iff, List.find?_eq_none] at hr
    intro x hx; simpa using hr x hx
  refine ⟨fun k hk => ?_, fun j => ?_, fun j => ?_, fun j a k => ?_, fun j => ?_⟩
  · rw [tv] at hk ⊢
    split at hk
    · simp [ProvisionParams.record] at hk
    · next hn => rw [if_neg hn]; exact h.empty k hk
  · rw [slotsOf_length_count, sv]
    by_cases hj : p.sector = j
    · subst hj
      rw [if_pos rfl, countP_add (p := s.belongs p.sector) (k := p.slot) (bslot _) (by rw [bv]; simp)]
      · simp only [h.population, slotsOf_length_count]
      · intro x hx; rw [bv, if_neg (Ne.symm hx)]
    · rw [if_neg hj, h.population, slotsOf_length_count]
      apply List.countP_congr
      intro x _
      rw [bv]; split
      · next e => subst e; simp [hj, bslot]
      · rfl
  · rw [sv]; split
    · next e => subst e; simp only; omega
    · exact h.limit j
  · rw [bv, tv, sv]
    by_cases hj : p.sector = j
    · subst hj
      simp only [if_true, List.mem_append, h.paired, List.mem_singleton, Prod.mk.injEq, decide_true]
      by_cases hk : p.slot = k
      · subst hk; simp [bslot, ProvisionParams.record, eq_comm]
      · simp [hk, Ne.symm hk]
    · simp only [if_neg hj, h.paired]
      by_cases hk : p.slot = k
      · subst hk; simp [bslot, hj]
      · simp [hk]
  · rw [sv]; split
    · next e =>
      subst e
      simp only [List.map_append, List.map_cons, List.map_nil]
      rw [List.nodup_append]
      refine ⟨h.once _, by simp, ?_⟩
      intro a ha b hb
      simp only [List.mem_singleton] at hb
      subst hb
      obtain ⟨x, hx, rfl⟩ := List.mem_map.mp ha
      exact hnot x hx
    · exact h.once j

theorem tableAgrees_remove (h : s.TableAgrees) {k : Slot} (he : (s.term k).state ≠ .empty) : (s.remove k).TableAgrees := by
  refine remove_keeps State.TableAgrees (fun w h => w.tableAgrees h) (fun s k h => tableAgrees_offer h k) k ?_
  have w := removed1_works he
  have h1 := w.tableAgrees h
  have hk1 : (removed1 s k).belongs (s.sectorOf k) k = true := by rw [w.belongs]; exact belongs_self he
  have hk0 : ∀ j, j ≠ s.sectorOf k → (removed1 s k).belongs j k = false := by
    intro j hj
    rw [Bool.eq_false_iff]; intro hb
    exact hj (State.sectorOf_of_belongs (by rw [w.belongs] at hb; exact hb)).symm
  generalize hv : removed2 s k = v
  have tv : ∀ k', v.term k' = if k = k' then { noticePending := ((removed1 s k).term k).noticePending } else (removed1 s k).term k' := by
    intro k'; rw [← hv]; exact State.modTerm_term _ _ _ _
  have sv : ∀ j, (v.sec j).population = (if s.sectorOf k = j then ((removed1 s k).sec j).population - 1 else ((removed1 s k).sec j).population) ∧
     (v.sec j).addressMap = (if s.sectorOf k = j then ((removed1 s k).sec j).addressMap.filter (fun p => p.2 != k) else ((removed1 s k).sec j).addressMap) := by
    intro j
    rw [← hv]; unfold removed2
    rw [State.modTerm_sec, State.modSec_sec]
    split
    · next e => subst e; exact ⟨rfl, rfl⟩
    · exact ⟨rfl, rfl⟩
  have bv : ∀ j k', v.belongs j k' = if k = k' then false else (removed1 s k).belongs j k' := by
    intro j k'
    simp only [State.belongs, tv]
    split
    · rfl
    · rfl
  refine ⟨fun k' hk => ?_, fun j => ?_, fun j => ?_, fun j a k' => ?_, fun j => ?_⟩
  · rw [tv] at hk ⊢
    split at hk
    · next e => rw [if_pos e]
    · next hn => rw [if_neg hn]; exact h1.empty k' hk
  · rw [(sv j).1, slotsOf_length_count]
    by_cases hj : s.sectorOf k = j
    · subst hj
      rw [if_pos rfl, h1.population, slotsOf_length_count,
        countP_add (p := v.belongs (s.sectorOf k)) (q := (removed1 s k).belongs (s.sectorOf k)) (k := k) (by rw [bv]; simp) hk1 ?_]
      · omega
      · intro x hx; rw [bv, if_neg (Ne.symm hx)]
    · rw [if_neg hj, h1.population, slotsOf_length_count]
      apply List.countP_congr
      intro x _
      rw [bv]; split
      · next e => subst e; simp [hk0 j (Ne.symm hj)]
      · rfl
  · rw [(sv j).1]; have := h1.limit j; split <;> omega
  · rw [(sv j).2, bv, tv]
    by_cases hj : s.sectorOf k = j
    · subst hj
      rw [if_pos rfl, List.mem_filter, h1.paired]
      by_cases hk : k = k'
      · subst hk; simp
      · simp [hk, Ne.symm hk]
    · rw [if_neg hj, h1.paired]
      by_cases hk : k = k'
      · subst hk; simp [hk0 j (Ne.symm hj)]
      · simp [hk]
  · rw [(sv j).2]; split
    · exact (h1.once j).sublist (List.filter_sublist.map _)
    · exact h1.once j

theorem tableAgrees_moves (h : s.TableAgrees) (m : Moves s t) : t.TableAgrees := by
  induction m with
  | refl => exact h
  | links m e ih => exact tableAgrees_links e ih
  | works j m w _ ih => exact w.tableAgrees ih
  | @notices u m ih =>
    refine tableAgrees_congr ih (fun k => ?_) fun j => by rw [(emitNotices_facts u).1]; simp
    rw [(emitNotices_facts u).2.2.2.2]; split
    · exact ⟨_, rfl⟩
    · exact same_term _ _
  | @begins u m j bank f hs he ih => exact tableAgrees_begin ih
  | @waits u m j f he ih => exact tableAgrees_modSec ih ⟨rfl, rfl⟩
  | @suspends u m j tag ih =>
    refine (Works.enterSector' (by decide)).tableAgrees (tableAgrees_links (State.reply_inside _ _ _ _ _) (tableAgrees_modSec ih ⟨rfl, rfl⟩))
  | @completes u m j e he ih =>
    have i0 : State.TableAgrees (u.modSec j fun r =>
        { r with lastEvaluated := if r.state = .blind then none else some e.frame.number, evaluation := none }) := tableAgrees_modSec (s := u) ih ⟨rfl, rfl⟩
    have i1 : State.TableAgrees ((u.modSec j fun r =>
        { r with lastEvaluated := if r.state = .blind then none else some e.frame.number, evaluation := none }).dropHold
          e.held) := tableAgrees_congr i0 (same_term _) fun _ => ⟨rfl, rfl⟩
    unfold State.afterCompletion
    split
    · exact (Works.enterSector' (by decide)).tableAgrees (tableAgrees_links (State.reply_inside _ _ _ _ _) (tableAgrees_modSec i1 ⟨rfl, rfl⟩))
    · split
      · have i2 : State.TableAgrees (((u.modSec j fun r =>
        { r with lastEvaluated := if r.state = .blind then none else some e.frame.number, evaluation := none }).dropHold
          e.held).modSec j fun r => { r with waitingBank := none }) := tableAgrees_modSec i1 ⟨rfl, rfl⟩
        exact tableAgrees_begin i2
      · exact i1
  | configures m j c hc ih => exact tableAgrees_modSec ih ⟨rfl, rfl⟩
  | enables m j hd ha he ih => exact tableAgrees_modSec ih ⟨rfl, rfl⟩
  | disables m j ih => exact tableAgrees_modSec ih ⟨rfl, rfl⟩
  | @provisions u m p he hl hr ih => exact tableAgrees_provision ih p he hl hr
  | removes m k he ih => exact tableAgrees_remove ih he
  | loads m i bs hh ih => exact tableAgrees_congr ih (same_term _) fun _ => ⟨rfl, rfl⟩
  | activates m hr ih => exact activate_fold State.TableAgrees (fun w h => w.tableAgrees h) _ _ _ (tableAgrees_congr ih (same_term _) fun _ => ⟨rfl, rfl⟩)

end Sys2Proof.Machine
end

