-- ==== Sys2Proof/Laws/KeptHolds.lean ====
section
/-!
SUPPORT. The hold counts of the ladder banks under every move.
-/

set_option Elab.async false

namespace Sys2Proof.Machine

variable {j : Sector} {s t u : State}

theorem fin_countP_add {n} {k : Fin n} {p q : Fin n → Bool} (hp : p k = false) (hq : q k = true) (h : ∀ x, x ≠ k → p x = q x) :
    (List.finRange n).countP q = (List.finRange n).countP p + 1 := by
  have hk : k ∈ List.finRange n := List.mem_finRange k
  have nd : (List.finRange n).Nodup := List.nodup_finRange n
  obtain ⟨a, b, e⟩ := List.append_of_mem hk
  rw [e] at nd ⊢
  rw [List.nodup_append] at nd
  have ha : ∀ x ∈ a, x ≠ k := fun x hx => nd.2.2 x hx k (by simp)
  have hb : ∀ x ∈ b, x ≠ k := by
    rintro x hx rfl
    exact (List.nodup_cons.mp nd.2.1).1 hx
  rw [List.countP_append, List.countP_append, List.countP_cons, List.countP_cons, hp, hq]
  rw [List.countP_congr (l := a) (p := q) (q := p) fun x hx => by rw [h x (ha x hx)]]
  rw [List.countP_congr (l := b) (p := q) (q := p) fun x hx => by rw [h x (hb x hx)]]
  simp; omega

/-- A sector has an evaluation in flight that holds a bank. -/
def heldBy (s : State) (i : Fin 2) (j : Sector) : Bool := (s.sec j).evaluation.map Evaluation.held == some i

theorem holders_count (s : State) (i) : s.holders i = (List.finRange 12).countP (heldBy s i) := by
  rw [State.holders, List.countP_eq_length_filter]; rfl

theorem holders_congr (h : ∀ j, (t.sec j).evaluation.map Evaluation.held = (s.sec j).evaluation.map Evaluation.held) (i) : t.holders i = s.holders i := by
  rw [holders_count, holders_count]; apply List.countP_congr; intro x _; simp only [heldBy, h]

/-- The hold counts agree again where only what they do not look at differs. -/
theorem holdsAgree_congr (h : s.HoldsAgree) (hl : t.ladder = s.ladder)
   (hs : ∀ j, (t.sec j).evaluation.map Evaluation.held = (s.sec j).evaluation.map Evaluation.held ∧ ((t.sec j).waitingBank.isSome → (s.sec j).waitingBank.isSome) ∧
      ((s.sec j).state = .disabled → (t.sec j).state = .disabled)) : t.HoldsAgree := by
  have hb : ∀ i, t.bank i = s.bank i := fun i => by simp only [State.bank, hl]
  have some' : ∀ j, (t.sec j).evaluation.isSome = (s.sec j).evaluation.isSome := fun j => by
    have := (hs j).1
    rw [← Option.isSome_map (f := Evaluation.held), this, Option.isSome_map]
  refine ⟨fun i => ?_, fun j hj => ?_, fun ha j => ?_, fun hh => ?_⟩
  · rw [hb, holders_congr (fun j => (hs j).1)]; exact h.counted i
  · rw [some']; exact h.waiting j ((hs j).2.1 hj)
  · rw [hl] at ha
    obtain ⟨h1, h2⟩ := h.inactive ha j
    refine ⟨(hs j).2.2 h1, ?_⟩
    have := some' j
    rw [h2] at this; simpa using this
  · rw [hb, hl] at hh; rw [hl]; exact h.standby hh

theorem Works.holdsAgree (w : Works j s t) (h : s.HoldsAgree) : t.HoldsAgree := by
  refine holdsAgree_congr h w.outside.ladder fun j' => ?_
  by_cases hj : j = j'
  · subst hj; exact ⟨w.kept.2.2.2.1, by rw [w.kept.2.2.2.2.1]; exact id, w.kept.2.2.2.2.2.mpr⟩
  · rw [w.sec_other hj]; exact ⟨rfl, id, id⟩

theorem holdsAgree_begin {x : IntakeBank} {f : BankedFrame} (h : s.HoldsAgree) (ha : s.ladder.active ≠ none) (he : (s.sec j).evaluation = none)
   : (s.beginEvaluation j x f).HoldsAgree := by
  obtain ⟨a, ha⟩ := Option.ne_none_iff_exists'.mp ha
  generalize hv : s.beginEvaluation j x f = v
  have hsec : ∀ j', v.sec j' = if j = j' then { s.sec j with evaluation := some { bank := x, frame := f, held := a } } else s.sec j' := by
    intro j'; rw [← hv]; unfold State.beginEvaluation; rw [ha]; exact State.modSec_sec _ _ _ _
  have hbank : ∀ i, v.bank i = if a = i then { s.bank a with holds := (s.bank a).holds + 1 } else s.bank i := by
    intro i; rw [← hv]; unfold State.beginEvaluation; rw [ha]; simp only [State.modSec_bank, State.takeHold]; exact State.modBank_bank _ _ _ _
  have hact : v.ladder.active = some a := by rw [← hv, ← ha]; rfl
  have hst : v.ladder.staged = s.ladder.staged := by rw [← hv]; rfl
  refine ⟨fun i => ?_, fun j' hj => ?_, fun h' => ?_, fun hh => ?_⟩
  · rw [hbank, holders_count]
    split
    · next e =>
      subst e
      rw [fin_countP_add (k := j) (p := heldBy s a)]
      · simp only [h.counted, holders_count]
      · simp [heldBy, he]
      · simp [heldBy, hsec]
      · intro x hx; simp [heldBy, hsec, Ne.symm hx]
    · next e =>
      rw [h.counted, holders_count]
      apply List.countP_congr; intro x _
      simp only [heldBy, hsec]; split
      · next e' => subst e'; simp [he, e]
      · rfl
  · rw [hsec] at hj ⊢; split at hj
    · next e => rw [if_pos e]; rfl
    · next e => rw [if_neg e]; exact h.waiting j' hj
  · rw [hact] at h'; cases h'
  · have hs : v.ladder.standby = s.ladder.standby := by simp only [LadderStore.standby, hact, ha]
    have hne : a ≠ s.ladder.standby := by
      simp only [LadderStore.standby, ha, otherBank]; split <;> omega
    rw [hs, hbank, if_neg hne] at hh
    rw [hst]; exact h.standby hh

theorem holdsAgree_moves (h : s.HoldsAgree) (m : Moves s t) : t.HoldsAgree := by
  have refl3 : ∀ (u : State) j, (u.sec j).evaluation.map Evaluation.held = (u.sec j).evaluation.map Evaluation.held ∧ ((u.sec j).waitingBank.isSome → (u.sec j).waitingBank.isSome) ∧
      ((u.sec j).state = .disabled → (u.sec j).state = .disabled) := fun u j => ⟨rfl, id, id⟩
  induction m with
  | refl => exact h
  | links m e ih => exact holdsAgree_congr ih e.ladder fun j => by rw [e.sec]; exact refl3 _ j
  | works j m w _ ih => exact w.holdsAgree ih
  | @notices u m ih => exact holdsAgree_congr ih (emitNotices_facts u).2.1 fun j => by rw [(emitNotices_facts u).1]; exact refl3 _ j
  | @begins u m j bank f hs he ih =>
    refine holdsAgree_begin ih ?_ he
    intro hn; rw [(ih.inactive hn j).1] at hs; cases hs
  | @waits u m j f he ih =>
    refine ⟨fun i => ?_, fun j' hj => ?_, fun h' j' => ?_, fun hh => ?_⟩
    · refine (ih.counted i).trans (holders_congr (fun j' => ?_) _).symm
      rw [State.modSec_sec]; split
      · next e => subst e; rfl
      · rfl
    · rw [State.modSec_sec] at hj ⊢
      split at hj
      · next e => subst e; simpa using he
      · next e => rw [if_neg e]; exact ih.waiting _ hj
    · have h2 := (ih.inactive h' j).2
      rw [h2] at he; cases he
    · exact ih.standby hh
  | @suspends u m j tag ih =>
    refine (Works.enterSector' (by decide)).holdsAgree ?_
    refine holdsAgree_congr ih rfl fun j' => ?_
    rw [State.reply_sec, State.modSec_sec]; split
    · next e => subst e; exact ⟨rfl, fun h => (by cases h), id⟩
    · exact refl3 _ _
  | @completes u m j e he ih =>
    generalize hv : ((u.modSec j fun r =>
        { r with lastEvaluated := if r.state = .blind then none else some e.frame.number, evaluation := none }).dropHold
          e.held) = v
    have hsec : ∀ j', v.sec j' = if j = j' then { u.sec j with lastEvaluated := if (u.sec j).state = .blind then none else some e.frame.number, evaluation := none } else u.sec j' := by
      intro j'; rw [← hv]; simp only [State.dropHold_sec, State.modSec_sec]
    have hbank : ∀ i, v.bank i = if e.held = i then { u.bank e.held with holds := (u.bank e.held).holds - 1 } else u.bank i := by
      intro i; rw [← hv]; unfold State.dropHold; rw [State.modBank_bank]; rfl
    have hact : v.ladder.active = u.ladder.active := by rw [← hv]; rfl
    have hst : v.ladder.staged = u.ladder.staged := by rw [← hv]; rfl
    have hstb : v.ladder.standby = u.ladder.standby := by simp only [LadderStore.standby, hact]
    have active : u.ladder.active ≠ none := by
      intro hn; have := (ih.inactive hn j).2; rw [he] at this; cases this
    have counted : ∀ i, (v.bank i).holds = v.holders i := by
      intro i
      rw [hbank, holders_count]
      split
      · next e' =>
        subst e'
        have := fin_countP_add (k := j) (p := heldBy v e.held) (q := heldBy u e.held) (by simp [heldBy, hsec]) (by simp [heldBy, he]) fun x hx => by simp [heldBy, hsec, Ne.symm hx]
        rw [← holders_count, ← ih.counted] at this
        simp only [this]; omega
      · next e' =>
        rw [ih.counted, holders_count]
        apply List.countP_congr; intro x _
        simp only [heldBy, hsec]; split
        · next e'' => subst e''; simp [he, e']
        · rfl
    have inactive : v.ladder.active = none → ∀ j, (v.sec j).state = .disabled ∧ (v.sec j).evaluation = none := by
      intro hn; rw [hact] at hn; exact absurd hn active
    have standby : 0 < (v.bank v.ladder.standby).holds → v.ladder.staged = Vector.replicate 3 false := by
      intro hh; rw [hst]; apply ih.standby
      rw [hstb, hbank] at hh
      split at hh
      · next e' => rw [e'] at hh; simp only at hh; omega
      · exact hh
    have wcase : ∀ (f : SectorRec → SectorRec), (∀ r, (f r).evaluation = r.evaluation ∧ (f r).waitingBank = none ∧ (f r).state = r.state) →
       (v.modSec j f).HoldsAgree := by
      intro f hf
      refine ⟨fun i => ?_, fun j' hj => ?_, fun h' => ?_, fun hh => ?_⟩
      · refine (counted i).trans (holders_congr (fun j' => ?_) _).symm
        rw [State.modSec_sec]; split
        · next e => subst e; rw [(hf _).1]
        · rfl
      · rw [State.modSec_sec] at hj ⊢
        split at hj
        · next e => subst e; rw [(hf _).2.1] at hj; cases hj
        · next e' => rw [if_neg e']; rw [hsec, if_neg e'] at hj ⊢; exact ih.waiting _ hj
      · exact absurd (hact.symm.trans h') active
      · exact standby hh
    unfold State.afterCompletion
    split
    · refine (Works.enterSector' (by decide)).holdsAgree ?_
      refine holdsAgree_congr (wcase (fun r => { r with suspendPending := false, prior := r.working, waitingBank := none }) fun r => ⟨rfl, rfl, rfl⟩) rfl fun j' => refl3 _ j'
    · split
      · refine holdsAgree_begin (wcase _ fun r => ⟨rfl, rfl, rfl⟩) (by rw [← hact] at active; exact active) ?_
        rw [State.modSec_sec_same, hsec, if_pos rfl]
      · next hw =>
        refine ⟨counted, fun j' hj => ?_, inactive, standby⟩
        by_cases e' : j = j'
        · subst e'; rw [hw] at hj; cases hj
        · rw [hsec, if_neg e'] at hj ⊢; exact ih.waiting _ hj
  | @configures u m j c hc ih =>
    refine holdsAgree_congr ih rfl fun j' => ?_
    rw [State.modSec_sec]; split
    · next e => subst e; exact refl3 _ _
    · exact refl3 _ _
  | @enables u m j hd hact he ih =>
    refine ⟨fun i => ?_, fun j' hj => ?_, fun h' j' => ?_, fun hh => ?_⟩
    · refine (ih.counted i).trans (holders_congr (fun j' => ?_) _).symm
      rw [State.modSec_sec]; split
      · next e => subst e; rfl
      · rfl
    · rw [State.modSec_sec] at hj ⊢
      split at hj
      · next e => subst e; rw [if_pos rfl]; exact ih.waiting _ hj
      · next e => rw [if_neg e]; exact ih.waiting _ hj
    · rw [show u.ladder.active = none from h'] at hact; cases hact
    · exact ih.standby hh
  | @disables u m j ih =>
    refine holdsAgree_congr ih rfl fun j' => ?_
    rw [State.modSec_sec]; split
    · next e => subst e; exact ⟨rfl, fun h => (by cases h), fun _ => rfl⟩
    · exact refl3 _ _
  | @provisions u m p he hl hr ih =>
    refine holdsAgree_congr ih (State.offerTerminal_outside _ _).ladder fun j' => ?_
    unfold State.provision
    rw [State.offerTerminal_sec]; simp only [State.modSec_sec, State.modTerm_sec]; split
    · next e => subst e; exact refl3 _ _
    · exact refl3 _ _
  | removes m k he ih =>
    refine remove_keeps State.HoldsAgree (fun w h => w.holdsAgree h) (fun s k h => holdsAgree_congr h (State.offerTerminal_outside _ _).ladder fun j => by rw [State.offerTerminal_sec]; exact refl3 _ j) k ?_
    refine holdsAgree_congr ((removed1_works he).holdsAgree ih) rfl fun j' => ?_
    unfold removed2
    simp only [State.modTerm_sec, State.modSec_sec]; split
    · next e => subst e; refine ⟨?_, id, id⟩; simp only [Option.map_map]; rfl
    · exact refl3 _ _
  | @loads u m i bs hh ih =>
    have hb : ∀ i', ((u.loadBlock i bs).bank i').holds = (u.bank i').holds := by
      intro i'
      have : (u.loadBlock i bs).bank i' = (u.modBank u.ladder.standby fun b => b.writeBlock i bs).bank i' := rfl
      rw [this, State.modBank_bank]; split
      · next e => subst e; simp only [LadderBank.writeBlock]
      · rfl
    refine ⟨fun i' => ?_, ih.waiting, ih.inactive, fun h' => ?_⟩
    · rw [hb]; exact ih.counted i'
    · have hsb : (u.loadBlock i bs).ladder.standby = u.ladder.standby := rfl
      rw [hb, hsb, hh] at h'; cases h'
  | @activates u m hr ih =>
    have h0 : State.HoldsAgree { u with ladder := { u.ladder with active := some u.ladder.standby, staged := Vector.replicate 3 false } } :=
      ⟨ih.counted, ih.waiting, fun h' => (by cases h'), fun h' => rfl⟩
    unfold State.activate
    exact activate_fold State.HoldsAgree (fun w h => w.holdsAgree h) _ _ _ h0

end Sys2Proof.Machine
end

