-- ==== Sys2Proof/Laws/KeptRungs.lean ====
section
/-!
SUPPORT. The rungs, pending targets and restore rungs under every move, while a ladder is active.
-/

set_option Elab.async false

namespace Sys2Proof.Machine

variable {j : Sector} {s t u : State}

/-- The rungs of all records lie on the active ladder, which has a rung. -/
def RungsBelow (s : State) : Prop := (∀ b, s.activeBank = some b → 1 ≤ b.rungCount) ∧ ∀ k, (s.term k).RungsWithin s.top

theorem rungsBelow_iff (s : State) : RungsBelow s ↔ ∀ b, s.activeBank = some b →
    1 ≤ b.rungCount ∧ ∀ k,
      (s.term k).rung < b.rungCount
        ∧ (∀ p, (s.term k).pendingShift = some p → p.target < b.rungCount)
        ∧ ∀ r, (s.term k).restoreRung = some r → r < b.rungCount := by
  constructor
  · rintro ⟨h1, h2⟩ b hb
    have ht : s.top = some b.top := by simp [State.top, hb]
    have := h1 b hb
    refine ⟨this, fun k => ?_⟩
    obtain ⟨x, y, z⟩ := h2 k _ ht
    simp only [LadderBank.top] at x y z
    exact ⟨by omega, fun p hp => by have := y p hp; omega, fun r hr => by have := z r hr; omega⟩
  · intro h
    refine ⟨fun b hb => (h b hb).1, fun k m hm => ?_⟩
    simp only [State.top, Option.map_eq_some_iff] at hm
    obtain ⟨b, hb, rfl⟩ := hm
    obtain ⟨x, y, z⟩ := (h b hb).2 k
    simp only [LadderBank.top]
    exact ⟨by omega, fun p hp => by have := y p hp; omega, fun r hr => by have := z r hr; omega⟩

/-- A reply changes no rung. -/
theorem rungsBelow_congr (h : RungsBelow s) (ha : t.activeBank.map LadderBank.rungCount = s.activeBank.map LadderBank.rungCount)
    (ht : ∀ k, (s.term k).RungsWithin s.top → (t.term k).RungsWithin s.top) : RungsBelow t := by
  have htop : t.top = s.top := by
    have : ∀ o : Option LadderBank, o.map LadderBank.top = (o.map LadderBank.rungCount).map (· - 1) := by
      intro o; cases o <;> rfl
    simp only [State.top, this, ha]
  refine ⟨fun b hb => ?_, fun k => by rw [htop]; exact ht k (h.2 k)⟩
  have h2 := ha
  rw [hb] at h2
  cases hs : s.activeBank with
  | none => rw [hs] at h2; cases h2
  | some b' => rw [hs] at h2; have := h.1 b' hs; simp at h2; omega

theorem Works.rungsBelow (w : Works j s t) (h : RungsBelow s) : RungsBelow t := by
  have hl := w.outside.ladder
  have hb : t.activeBank = s.activeBank := by
    have : t.bank = s.bank := funext fun i => by simp only [State.bank, hl]
    simp only [State.activeBank, hl, this]
  exact ⟨fun b hb' => h.1 b (by rw [← hb]; exact hb'), w.rungsWithin h.2⟩

theorem activeBank_ladder (h : t.ladder = s.ladder) : t.activeBank = s.activeBank := by
  have : t.bank = s.bank := funext fun i => by simp only [State.bank, h]
  simp only [State.activeBank, h, this]

theorem take_activeBank (s : State) (i) : (s.takeHold i).activeBank.map LadderBank.rungCount = s.activeBank.map LadderBank.rungCount := by
  have ha : (s.takeHold i).ladder.active = s.ladder.active := rfl
  simp only [State.activeBank, ha, Option.map_map]
  cases s.ladder.active with
  | none => rfl
  | some a =>
    simp only [Option.map_some, Function.comp, State.takeHold, State.modBank_bank]
    split
    · next e => subst e; rfl
    · rfl

theorem drop_activeBank (s : State) (i) : (s.dropHold i).activeBank.map LadderBank.rungCount = s.activeBank.map LadderBank.rungCount := by
  have ha : (s.dropHold i).ladder.active = s.ladder.active := rfl
  simp only [State.activeBank, ha, Option.map_map]
  cases s.ladder.active with
  | none => rfl
  | some a =>
    simp only [Option.map_some, Function.comp, State.dropHold, State.modBank_bank]
    split
    · next e => subst e; rfl
    · rfl

theorem standby_ne (l : LadderStore) (a) (h : l.active = some a) : l.standby ≠ a := by
  simp only [LadderStore.standby, h, otherBank]; split <;> omega

theorem rungsBelow_begin {x f} (h : RungsBelow s) : RungsBelow (s.beginEvaluation j x f) := by
  refine rungsBelow_congr h ?_ fun k hk => hk
  exact take_activeBank s _

theorem rungsBelow_modSec {f} (h : RungsBelow s) : RungsBelow (s.modSec j f) := rungsBelow_congr h rfl fun k hk => hk

theorem rungsBelow_reply {c tag st rs} (h : RungsBelow s) : RungsBelow (s.reply c tag st rs) := rungsBelow_congr h rfl fun _ hk => hk

/-- The clamps of an activation leave every rung at or below the new top rung. -/
theorem act_within (old : Option LadderBank) (new : LadderBank) (l : List Slot) (u : State) (ht : u.top = some new.top) (hz : ∀ k, (u.term k).state = .empty → (u.term k).RungsWithin u.top) :
    (∀ k, (k ∈ l ∨ (u.term k).RungsWithin u.top) → ((l.foldl (State.activateTerminal old new) u).term k).RungsWithin (l.foldl (State.activateTerminal old new) u).top) := by
  induction l generalizing u with
  | nil => intro k hk; rcases hk with hk | hk; cases hk; exact hk
  | cons x xs ih =>
    have w := Works.activateTerminal' (u := u) old new x
    intro k hk
    refine ih (State.activateTerminal old new u x) (by rw [w.top]; exact ht) (fun k' he => ?_) k ?_
    · exact w.rungs1 k' (hz k' ((w.identity k').2.2.2.2.mp he))
    · by_cases hkx : k = x
      · subst hkx
        right
        by_cases he : (u.term k).state = .empty
        · exact w.rungs1 k (hz k he)
        · -- clamp
          unfold State.activateTerminal
          rw [if_neg he]
          have hk' := belongs_self he
          let v := u.modTerm k (Terminal.clampRungs new.top)
          have w0 : Works (u.sectorOf k) u v := Works.edit .refl hk' (.clamp _ _ _)
          have hv : (v.term k).RungsWithin v.top := by
            have : v.top = some new.top := ht
            rw [this]
            intro m hm; cases hm
            simp only [v, State.modTerm_term_same, Terminal.clampRungs]
            refine ⟨Nat.min_le_right _ _, fun p hp => ?_, fun r hr => ?_⟩
            · simp only [Option.map_eq_some_iff] at hp; obtain ⟨q, -, rfl⟩ := hp; exact Nat.min_le_right _ _
            · simp only [Option.map_eq_some_iff] at hr; obtain ⟨q, -, rfl⟩ := hr; exact Nat.min_le_right _ _
          have hvb : v.belongs (u.sectorOf k) k = true := w0.belongs_of hk'
          have w1 : Works (u.sectorOf k) v (v.reclassShift k) := Works.reclassShift .refl hvb
          dsimp only
          split
          · have w2 : Works (u.sectorOf k) (v.reclassShift k) (((v.reclassShift k).modTerm k fun t => { t with pendingShift := some { target := t.rung } }).request k .shift) := by
              refine Works.request ?_ (w1.belongs_of hvb) _
              refine Works.edit .refl (w1.belongs_of hvb) ?_
              refine ⟨rfl, rfl, rfl, rfl, rfl, Iff.rfl, fun h => ⟨h.power, h.filtered, h.history, h.lossF, h.headroom, h.adjust, h.attempts⟩, fun h m hm => ?_⟩
              obtain ⟨h1, h2, h3⟩ := h m hm
              exact ⟨h1, fun p hp => by cases hp; exact h1, h3⟩
            exact w2.rungs1 k (w1.rungs1 k hv)
          · exact w1.rungs1 k hv
      · rcases hk with hk | hk
        · rcases List.mem_cons.mp hk with hk | hk
          · exact absurd hk hkx
          · exact .inl hk
        · right; exact w.rungs1 k hk

theorem rungsBelow_moves (ht : s.TableAgrees) (h : RungsBelow s) (m : Moves s t) : RungsBelow t := by
  induction m with
  | refl => exact h
  | links m e ih => exact rungsBelow_congr ih (by rw [activeBank_ladder e.ladder]) fun k hk => by rw [e.term]; exact hk
  | works j m w _ ih => exact w.rungsBelow ih
  | @notices u m ih =>
    refine rungsBelow_congr ih (by rw [activeBank_ladder (emitNotices_facts u).2.1]) fun k hk => ?_
    rw [(emitNotices_facts u).2.2.2.2]; split <;> exact hk
  | @begins u m j bank f hs he ih => exact rungsBelow_begin ih
  | @waits u m j f he ih => exact rungsBelow_modSec ih
  | @suspends u m j tag ih =>
    refine (Works.enterSector' (by decide)).rungsBelow ?_
    exact rungsBelow_reply (rungsBelow_modSec ih)
  | @completes u m j e he ih =>
    have i1 : RungsBelow ((u.modSec j fun r =>
        { r with lastEvaluated := if r.state = .blind then none else some e.frame.number, evaluation := none }).dropHold
          e.held) := rungsBelow_congr ih (drop_activeBank (u.modSec j _) _) fun k hk => hk
    unfold State.afterCompletion
    split
    · refine (Works.enterSector' (by decide)).rungsBelow ?_
      exact rungsBelow_reply (rungsBelow_modSec i1)
    · split
      · exact rungsBelow_begin (rungsBelow_modSec i1)
      · exact i1
  | @configures u m j c hc ih => exact rungsBelow_modSec ih
  | @enables u m j hd ha he ih => exact rungsBelow_modSec ih
  | @disables u m j ih => exact rungsBelow_modSec ih
  | @provisions u m p he hl hr ih =>
    refine rungsBelow_congr ih (by unfold State.provision; rw [activeBank_ladder (State.offerTerminal_outside _ _).ladder]; rfl) fun k hk => ?_
    unfold State.provision
    rw [State.offerTerminal_term]; simp only [State.modSec_term, State.modTerm_term]
    split <;> split
    all_goals first | exact hk | exact fun m hm => ⟨Nat.zero_le _, by simp [ProvisionParams.record], by simp [ProvisionParams.record]⟩
  | @removes u m k he ih =>
    refine remove_keeps RungsBelow (fun w h => w.rungsBelow h) (fun s k h => ?_) k ?_
    · refine rungsBelow_congr h (by rw [activeBank_ladder (State.offerTerminal_outside _ _).ladder]) fun k hk => ?_
      rw [State.offerTerminal_term]; split <;> exact hk
    · refine rungsBelow_congr ((removed1_works he).rungsBelow ih) rfl fun k' hk => ?_
      unfold removed2
      rw [State.modTerm_term]; split
      · exact fun m hm => ⟨Nat.zero_le _, by simp, by simp⟩
      · exact hk
  | @loads u m i bs hh ih =>
    refine rungsBelow_congr ih ?_ fun k hk => hk
    have ha : (u.loadBlock i bs).ladder.active = u.ladder.active := rfl
    simp only [State.activeBank, ha, Option.map_map]
    cases hx : u.ladder.active with
    | none => rfl
    | some a =>
      have : (u.loadBlock i bs).bank a = (u.modBank u.ladder.standby fun b => b.writeBlock i bs).bank a := rfl
      simp only [Option.map_some, Function.comp, this, State.modBank_bank]
      rw [if_neg (standby_ne _ _ hx)]
  | @activates u m hr ih =>
    have htu := tableAgrees_moves ht m
    unfold State.activate
    dsimp only
    generalize hv : ({ u with ladder := { u.ladder with active := some u.ladder.standby, staged := Vector.replicate 3 false } } : State) = v
    have hbank : v.bank u.ladder.standby = u.bank u.ladder.standby := by rw [← hv]; rfl
    have hact : v.ladder.active = some u.ladder.standby := by rw [← hv]
    have hab : v.activeBank = some (u.bank u.ladder.standby) := by simp [State.activeBank, hact, hbank]
    have htop : v.top = some (u.bank u.ladder.standby).top := by simp [State.top, hab]
    have hrc : (u.bank u.ladder.standby).rungCount ≠ 0 := by
      intro h0
      unfold rejection at hr
      split at hr
      · cases hr
      · rw [if_pos (.inl h0)] at hr; cases hr
    rw [hbank]
    have wall : ∀ (l : List Slot) x, x.activeBank = v.activeBank → (l.foldl (State.activateTerminal u.activeBank (u.bank u.ladder.standby)) x).activeBank = v.activeBank := by
      intro l
      induction l with
      | nil => exact fun x h => h
      | cons y ys ih2 =>
        intro x hx
        refine ih2 _ ?_
        rw [activeBank_ladder (Works.activateTerminal' (u := x) u.activeBank _ y).outside.ladder]; exact hx
    refine ⟨fun b hb => ?_, fun k => ?_⟩
    · rw [wall _ _ rfl, hab] at hb; cases hb; omega
    · refine act_within _ _ allSlots v htop (fun k he => ?_) k (.inl (List.mem_finRange k))
      have hu : v.term k = u.term k := by rw [← hv]; rfl
      rw [hu] at he ⊢
      rw [htu.empty k he]
      exact fun m hm => ⟨Nat.zero_le _, by simp, by simp⟩

end Sys2Proof.Machine
end

