-- ==== Sys2Proof/Laws/KeptIdle.lean ====
section
/-!
SUPPORT. While no ladder is active every terminal stays EMPTY or HELD at rung 0.
-/

set_option Elab.async false

namespace Sys2Proof.Machine

variable {j : Sector} {s t u : State}

/-- The states and the rungs of all records stand. -/
def SameStates (s t : State) : Prop := ∀ k, (t.term k).state = (s.term k).state ∧ (t.term k).rung = (s.term k).rung

theorem SameStates.refl (s : State) : SameStates s s := fun _ => ⟨rfl, rfl⟩

theorem SameStates.trans (a : SameStates s t) (b : SameStates t u) : SameStates s u := fun k => ⟨(b k).1.trans (a k).1, (b k).2.trans (a k).2⟩

theorem SameStates.modTerm {f : Terminal → Terminal} (s k) (hf : ∀ t, (f t).state = t.state ∧ (f t).rung = t.rung) : SameStates s (s.modTerm k f) := by
  intro k'; rw [State.modTerm_term]; split
  · next e => subst e; exact hf _
  · exact ⟨rfl, rfl⟩

theorem SameStates.offer (s k) : SameStates s (s.offerTerminal k) := by
  intro k'; rw [State.offerTerminal_term]; split <;> exact ⟨rfl, rfl⟩

theorem SameStates.owedScan (s j) : SameStates s (s.owedScan j) := by
  unfold State.owedScan; split
  · exact .refl _
  · split
    · exact .refl _
    · exact .trans (t := s.modSec j _) (.refl s) (.modTerm _ _ fun _ => ⟨rfl, rfl⟩)

theorem SameStates.departures (k j n) (s) : SameStates s (State.departures k j n s) := by
  induction n generalizing s with
  | zero => exact .refl _
  | succ n ih => exact .trans (.owedScan (s.modSec j fun r => { r with controlQueue := dropFirstOf k r.controlQueue }) j) (ih _)

theorem SameStates.discard (s k) : SameStates s (s.discard k) :=
  .trans (.modTerm s k (f := fun t => { t with owed := {} }) fun _ => ⟨rfl, rfl⟩) (.departures _ _ _ _)

theorem SameStates.leave (s k) : SameStates s (s.leave k) :=
  .modTerm (s.modSec _ _) k (f := fun t => { t with expectedBurst := none }) fun _ => ⟨rfl, rfl⟩

theorem SameStates.abort (s k) : SameStates s (s.modTerm k Terminal.abortExchange) :=
  .modTerm _ _ fun t => by unfold Terminal.abortExchange; split <;> exact ⟨rfl, rfl⟩

theorem SameStates.clearMarks (s j) : SameStates s (s.clearMarks j) := by
  unfold State.clearMarks
  generalize s.slotsOf j = l
  induction l generalizing s with
  | nil => exact .refl _
  | cons x xs ih => exact .trans (.modTerm s x (f := fun t => { t with probed := false }) fun _ => ⟨rfl, rfl⟩) (ih _)

theorem SameStates.enterSector (s j st) : SameStates s (s.enterSector j st) := by
  unfold State.enterSector; split
  · exact .refl _
  · intro k; simp

theorem SameStates.enterWorking (s j st) : SameStates s (s.enterWorking j st) := by
  unfold State.enterWorking; split
  · intro k; simp
  · exact .enterSector _ _ _

theorem SameStates.leadChoice (s j) : SameStates s (s.leadChoice j) := by
  unfold State.leadChoice
  split
  · exact .enterWorking (s.modSec j _) _ _
  · dsimp only; split
    · exact .clearMarks s j
    · exact .refl s

theorem SameStates.leadDeparts (s j) : SameStates s (s.leadDeparts j) := .leadChoice (s.modSec j _) j

theorem SameStates.removed1 (s k) : SameStates s (removed1 s k) := .trans (.trans (.abort s k) (.leave _ k)) (.discard _ k)

/-- Every terminal is EMPTY or HELD at rung 0. -/
def AllIdle (s : State) : Prop := ∀ k, ((s.term k).state = .empty ∨ (s.term k).state = .held) ∧ (s.term k).rung = 0

theorem AllIdle.same (h : AllIdle s) (e : SameStates s t) : AllIdle t := fun k => by rw [(e k).1, (e k).2]; exact h k

theorem AllIdle.remove (h : AllIdle s) (k) : AllIdle (s.remove k) := by
  rw [remove_eq]
  refine AllIdle.same ?_ (.offer _ k)
  have h2 : AllIdle (removed2 s k) := by
    intro k'
    unfold removed2
    rw [State.modTerm_term]; split
    · exact ⟨.inl rfl, rfl⟩
    · exact (h.same (SameStates.removed1 s k)) k'
  split
  · exact h2.same (.leadDeparts _ _)
  · exact h2

theorem SameStates.inside (e : SameInside s t) : SameStates s t := fun k => by rw [e.term]; exact ⟨rfl, rfl⟩

theorem SameStates.notices (s : State) : SameStates s s.emitNotices := fun k => by
  rw [(emitNotices_facts s).2.2.2.2]; split <;> exact ⟨rfl, rfl⟩

theorem fold_ladder (old new) (l : List Slot) (u : State) : (l.foldl (State.activateTerminal old new) u).ladder = u.ladder := by
  induction l generalizing u with
  | nil => rfl
  | cons x xs ih => rw [List.foldl_cons, ih, (Works.activateTerminal' old new x).outside.ladder]

theorem serve_Idle {f : RequestKind} {r : Request} {body : List Byte → Answer} (h : AllIdle s) (hb : ∀ ps, (body ps).1.ladder.active = none → AllIdle (body ps).1)
    (ht : (s.serve f r body).ladder.active = none) :
    AllIdle (s.serve f r body) := by
  unfold State.serve at ht ⊢
  split
  · exact h
  · next hc =>
    simp only [hc] at ht
    unfold answered at ht ⊢
    split
    · next hx => simp only [hx] at ht; exact hb _ ht
    · next hx => simp only [hx] at ht; exact hb _ ht

theorem served_of (hs : ∀ j, (s.sec j).state = .disabled) (j) : (s.sec j).state.served = false := by rw [hs]; rfl

theorem AllIdle.takeRequest (hl : s.ladder.active = none) (hs : ∀ j, (s.sec j).state = .disabled) (h : AllIdle s) (code : Byte) (r : Request)
    (hx : takeRequest code r s = .next t) (ht : t.ladder.active = none) : AllIdle t := by
  unfold Machine.takeRequest at hx
  split at hx
  · simp only [execUnknownFunction] at hx
    split at hx <;> cases hx <;> exact h
  all_goals (cases hx; refine serve_Idle h (fun ps hps => ?_) ht)
  · exact h
  · exact h
  · exact fun k => by rw [(s.deviceReset_allAtRest _).terms]; exact ⟨.inl rfl, rfl⟩
  · split
    · exact h
    · split <;> exact h
  · split
    · exact h
    · split
      · exact h
      · split
        · exact h
        · split
          · exact h
          · next p _ _ _ _ =>
            refine AllIdle.same ?_ (.offer _ p.slot)
            intro k'
            simp only [State.modSec_term, State.modTerm_term]
            split
            · exact ⟨.inr rfl, rfl⟩
            · exact h k'
  · split
    · exact h
    · split
      · exact h
      · exact h.remove _
  · split <;> exact h
  · split
    · exact h
    · next k _ =>
      split
      · exact h
      · exact h.same (.modTerm s k (f := fun t => { t.keepCap with sticky := {} }) fun _ => ⟨rfl, rfl⟩)
  · split
    · exact h
    · dsimp only; split <;> exact h
  · split <;> exact h
  · split
    · exact h
    · split
      · exact h
      · rw [hl]; exact h
  · split
    · exact h
    · next j _ => rw [if_pos (hs j)]; exact h
  · split
    · exact h
    · next j _ => rw [if_pos (served_of hs j)]; exact h
  · split
    · exact h
    · next j _ => rw [if_pos (by rw [hs]; decide)]; exact h
  · split
    · exact h
    · next j _ => rw [if_pos (served_of hs j)]; exact h
  · split
    · exact h
    · next j _ => rw [if_neg (by rw [hs]; decide)]; exact h
  · split
    · exact h
    · split
      · exact h
      · exact h
  · have this : s.activate.ladder.active = some s.ladder.standby := by
      unfold State.activate
      rw [fold_ladder]
    revert hps this
    generalize s.activate = v
    dsimp only
    split
    · exact fun _ _ => h
    · intro hps this
      rw [show v.ladder.active = none from hps] at this; cases this
  · split <;> exact h
  · split
    · exact h
    · next k _ =>
      split
      · exact h
      · next he => rw [if_pos (by rcases (h k).1 with x | x; exact absurd x he; exact x)]; exact h
  · split
    · exact h
    · next k _ =>
      split
      · exact h
      · rw [if_pos (served_of hs _)]; exact h
  · split <;> exact h

theorem Moves.active (h : Moves s t) (ha : s.ladder.active ≠ none) : t.ladder.active ≠ none := by
  induction h with
  | refl => exact ha
  | links m e ih => rw [e.ladder]; exact ih
  | works j m w _ ih => rw [w.outside.ladder]; exact ih
  | notices m ih => rw [(emitNotices_facts _).2.1]; exact ih
  | begins m j bank f hs he ih => exact ih
  | waits m j f he ih => exact ih
  | suspends m j tag ih => unfold State.suspendNow; rw [(Works.enterSector' (j := j) (by decide)).outside.ladder]; exact ih
  | completes m j e he ih =>
    unfold State.afterCompletion; split
    · unfold State.suspendNow; rw [(Works.enterSector' (j := j) (by decide)).outside.ladder]; exact ih
    · split <;> exact ih
  | configures m j c hc ih => exact ih
  | enables m j hd ha he ih => exact ih
  | disables m j ih => exact ih
  | provisions m p he hl hr ih => unfold State.provision; rw [(State.offerTerminal_outside _ _).ladder]; exact ih
  | removes m k he ih =>
    rw [remove_eq, (State.offerTerminal_outside _ _).ladder]
    have : (removed2 _ k).ladder = _ := (removed1_works he).outside.ladder
    split
    · unfold State.leadDeparts; rw [(Works.leadChoice .refl).outside.ladder]; 
      show (removed2 _ k).ladder.active ≠ none
      rw [this]; exact ih
    · rw [this]; exact ih
  | loads m i bs hh ih => exact ih
  | activates m hr ih => unfold State.activate; rw [fold_ladder]; simp

theorem idle_exec (c : Instr) (hm : s.mode = .running) (hh : s.Homed) (hT : s.TableAgrees) (hl : s.ladder.active = none) (hs : ∀ j, (s.sec j).state = .disabled ∧ (s.sec j).evaluation = none) (h : AllIdle s)
    (hx : exec c s = .next t) (ht : t.ladder.active = none) : AllIdle t := by
  have hd := fun j => (hs j).1
  have he := fun j => (hs j).2
  have req : ∀ code r, Machine.takeRequest code r s = .next t → AllIdle t := fun code r hx => AllIdle.takeRequest hl hd h code r hx ht
  cases c with
  | deviceReset cause => cases hx; exact fun k => by rw [(s.deviceReset_allAtRest _).terms]; exact ⟨.inl rfl, rfl⟩
  | startupCheckEnd o => simp only [exec, execStartupCheckEnd, hm] at hx; cases hx; exact h
  | regionTestEnd o => simp only [exec, execRegionTestEnd, hm] at hx; cases hx; exact h
  | downstreamFrame fr =>
    simp only [exec, execDownstreamFrame] at hx
    split at hx
    · split at hx
      · cases hx; exact h
      · exact req _ _ hx
    · split at hx
      · next j _ =>
        have : s.offers j = false := by simp [State.offers, served_of hd]
        rw [this] at hx; cases hx; exact h
      · cases hx; exact h
  | sectorFrameReaction j =>
    simp only [exec, execSectorFrameReaction, State.takeController] at hx
    rw [State.modSec_sec_same] at hx
    simp [hd, SectorState.served] at hx
    split at hx <;> cases hx <;> exact h
  | blindEntry j => simp [exec, execBlindEntry, SectorRec.controllerReady, hd, SectorState.served] at hx; cases hx; exact h
  | probe j => simp [exec, execProbe, SectorRec.probeReady, SectorRec.controllerReady, hd, SectorState.served] at hx; cases hx; exact h
  | progressNotice j => simp [exec, execProgressNotice, State.progressReady, SectorRec.controllerReady, hd, SectorState.served] at hx; cases hx; exact h
  | reEntrySchedulerReaction j =>
    simp only [exec, execReEntrySchedulerReaction, State.takeScheduler] at hx
    rw [State.modSec_sec_same] at hx
    simp [hd, SectorState.served] at hx
    split at hx <;> cases hx <;> exact h
  | backoffExpiry k => simp [exec, execBackoffExpiry, State.expiryReady, hd, SectorState.work] at hx; cases hx; exact h
  | shiftMaturity j k =>
    simp only [exec, execShiftMaturity] at hx
    split at hx
    · cases hx; exact h
    · rw [State.modSec_sec_same] at hx
      simp [hd, SectorState.served] at hx; cases hx; exact h
  | slotFilling j =>
    simp only [exec, execSlotFilling] at hx
    split at hx
    · cases hx; exact h
    · simp [hd, SectorState.served] at hx; cases hx; exact h
  | upstreamFrame fr b =>
    simp only [exec, execUpstreamFrame] at hx
    have hi : ∀ u : State, (∀ j, (u.sec j).state = .disabled) → AllIdle u → AllIdle (u.intake fr) := by
      intro u hu hi
      unfold State.intake
      split
      · exact hi
      · exact hi
      · split
        · exact hi.same (.inside (State.offerFault_inside _ _))
        · split
          · exact hi.same (.inside (State.offerFault_inside _ _))
          · rw [if_neg (by simp [served_of hu])]; exact hi
    have he : AllIdle (s.emit fr) := h
    split at hx <;> cases hx
    · exact hi _ (fun j => by rw [(emitNotices_facts _).1]; exact hd j) (he.same (.notices _))
    · exact (hi (s.emit fr) hd he).same (.notices _)
  | descriptorWalkStep j => simp [exec, execDescriptorWalkStep, he] at hx; cases hx; exact h
  | windowSweepStep j => simp [exec, execWindowSweepStep, he] at hx; cases hx; exact h
  | evaluationCompletion j => simp [exec, execEvaluationCompletion, he] at hx; cases hx; exact h
  | unknownFunction code r => simp only [exec, execUnknownFunction] at hx; split at hx <;> cases hx <;> exact h
  | echo r => exact req (functionCode .echo) r hx
  | readStartup r => exact req (functionCode .readStartup) r hx
  | restart r => exact req (functionCode .restart) r hx
  | readFaultLatch r => exact req (functionCode .readFaultLatch) r hx
  | provisionTerminal r => exact req (functionCode .provisionTerminal) r hx
  | removeTerminal r => exact req (functionCode .removeTerminal) r hx
  | readTerminal r => exact req (functionCode .readTerminal) r hx
  | clearHealth r => exact req (functionCode .clearHealth) r hx
  | setSector r => exact req (functionCode .setSector) r hx
  | readSector r => exact req (functionCode .readSector) r hx
  | enableSector r => exact req (functionCode .enableSector) r hx
  | disableSector r => exact req (functionCode .disableSector) r hx
  | suspendSector r => exact req (functionCode .suspendSector) r hx
  | resumeSector r => exact req (functionCode .resumeSector) r hx
  | resetSector r => exact req (functionCode .resetSector) r hx
  | forceOutage r => exact req (functionCode .forceOutage) r hx
  | loadLadderBlock r => exact req (functionCode .loadLadderBlock) r hx
  | activateLadder r => exact req (functionCode .activateLadder) r hx
  | readLadder r => exact req (functionCode .readLadder) r hx
  | holdTerminal r => exact req (functionCode .holdTerminal) r hx
  | releaseTerminal r => exact req (functionCode .releaseTerminal) r hx
  | readQueue r => exact req (functionCode .readQueue) r hx

theorem rungsOnLadder_rest (h : s.AllAtRest) : s.RungsOnLadder := by
  refine ⟨fun b hb => ?_, fun _ k => by rw [h.terms]; exact ⟨.inl rfl, rfl⟩⟩
  simp [State.activeBank, h.ladder] at hb

theorem Moves.mode (h : Moves s t) : t.mode = s.mode := by
  induction h with
  | refl => rfl
  | links m e ih => rw [e.mode]; exact ih
  | works j m w _ ih => rw [w.outside.mode]; exact ih
  | notices m ih => rw [(emitNotices_facts _).2.2.1]; exact ih
  | begins m j bank f hs he ih => exact ih
  | waits m j f he ih => exact ih
  | suspends m j tag ih => unfold State.suspendNow; rw [(Works.enterSector' (j := j) (by decide)).outside.mode]; exact ih
  | completes m j e he ih =>
    unfold State.afterCompletion; split
    · unfold State.suspendNow; rw [(Works.enterSector' (j := j) (by decide)).outside.mode]; exact ih
    · split <;> exact ih
  | configures m j c hc ih => exact ih
  | enables m j hd ha he ih => exact ih
  | disables m j ih => exact ih
  | provisions m p he hl hr ih => unfold State.provision; rw [(State.offerTerminal_outside _ _).mode]; exact ih
  | removes m k he ih =>
    rw [remove_eq, (State.offerTerminal_outside _ _).mode]
    have : (removed2 _ k).mode = _ := (removed1_works he).outside.mode
    split
    · unfold State.leadDeparts; rw [(Works.leadChoice .refl).outside.mode]; 
      show (removed2 _ k).mode = _
      rw [this]; exact ih
    · rw [this]; exact ih
  | loads m i bs hh ih => exact ih
  | @activates u m hr ih => 
    rw [← ih]
    unfold State.activate
    refine activate_fold (fun x => x.mode = u.mode) (fun w h => w.outside.mode.trans h) _ _ _ rfl

end Sys2Proof.Machine
end

