-- ==== Sys2Proof/Laws/KeptMembers.lean ====
section
/-!
SUPPORT. The re-entry queue and the window under every move.
-/

set_option Elab.async false

namespace Sys2Proof.Machine

variable {j : Sector} {s t u : State}

theorem Still.begin (s j b f) : Still s (s.beginEvaluation j b f) := by
  unfold State.beginEvaluation
  exact Still.trans (t := s.takeHold (s.ladder.active.getD 0)) ⟨fun _ => ⟨rfl, rfl, rfl⟩, fun _ => ⟨rfl, rfl⟩⟩ (Still.modSec (s.takeHold (s.ladder.active.getD 0)) j fun r => { r with evaluation := some { bank := b, frame := f, held := s.ladder.active.getD 0 } })

theorem Still.notices' (s : State) : Still s s.emitNotices := by
  refine ⟨fun k => ?_, fun j => by rw [(emitNotices_facts _).1]; exact ⟨rfl, rfl⟩⟩
  rw [(emitNotices_facts _).2.2.2.2]; split <;> exact ⟨rfl, rfl, rfl⟩

theorem Still.activate (old new) (l : List Slot) (u : State) : Still u (l.foldl (State.activateTerminal old new) u) := by
  refine Still.foldl _ (fun s k => ?_) l u
  unfold State.activateTerminal
  split
  · exact .refl _
  · dsimp only
    have h1 : Still s ((s.modTerm k (Terminal.clampRungs new.top)).reclassShift k) := (Still.modTerm s k _).trans (.reclassShift _ k)
    split
    · exact h1.trans ((Still.modTerm _ k fun t => { t with pendingShift := some { target := t.rung } }).trans (.request _ k _))
    · exact h1

theorem Still.suspendNow (s j tag) : Still s (s.suspendNow j tag) := by
  unfold State.suspendNow
  exact ((Still.modSec s j fun r => { r with suspendPending := false, prior := r.working, waitingBank := none }).trans (.inside (State.reply_inside _ _ _ _ _))).trans (.enterSector _ j _)

theorem membersAgree_remove {k : Slot} (h : s.MembersAgree) : (s.remove k).MembersAgree := by
  rw [remove_eq]
  refine (Still.offerTerminal _ k).agree ?_
  have hb : (removed1 s k).MembersBut k := (Still.discard _ k).but (((Still.abortExchange s k).agree h).leave k)
  have h2 : (removed2 s k).MembersAgree := by
    unfold removed2
    refine State.MembersBut.agree (k := k) ?_ (by rw [State.modTerm_term_same]; exact not_listed (by simp))
    generalize hv : ((removed1 s k).modSec (s.sectorOf k) fun r =>
      { r with
        addressMap := r.addressMap.filter fun p => p.2 != k
        population := r.population - 1
        evaluation := r.evaluation.map fun e => { e with handed := without k e.handed } }) = v
    have hv' : v.MembersBut k := by rw [← hv]; exact (Still.modSec _ _ _).but hb
    have tv : ∀ k', k' ≠ k → (v.modTerm k fun t => { noticePending := t.noticePending }).term k' = v.term k' :=
      fun k' hk => State.modTerm_term_other _ (Ne.symm hk)
    refine ⟨fun j k' hk => ?_, fun j k' hk => ?_, hv'.out, hv'.queueOnce, hv'.windowOnce, fun j => ?_⟩
    · rw [tv k' hk]; exact hv'.queue j k' hk
    · rw [tv k' hk]; exact hv'.window j k' hk
    · have := hv'.classes j
      rw [State.modTerm_sec]
      refine List.Pairwise.imp_of_mem (fun {a b} ha hc x => ?_) this
      have na : a ≠ k := by rintro rfl; exact (hv'.out j).1 ha
      have nb : b ≠ k := by rintro rfl; exact (hv'.out j).1 hc
      rw [tv a na, tv b nb]; exact x
  split
  · exact (Still.leadDeparts _ _).agree h2
  · exact h2

theorem membersAgree_moves (h : s.MembersAgree) (m : Moves s t) : t.MembersAgree := by
  induction m with
  | refl => exact h
  | links m e ih => exact (Still.inside e).agree ih
  | works j m w hm ih => exact hm ih
  | notices m ih => exact (Still.notices' _).agree ih
  | begins m j bank f hs he ih => exact (Still.begin _ _ _ _).agree ih
  | waits m j f he ih => exact (Still.modSec _ j _).agree ih
  | suspends m j tag ih => exact (Still.suspendNow _ _ _).agree ih
  | @completes u m j e he ih =>
    have h1 : Still u ((u.modSec j fun r =>
        { r with lastEvaluated := if r.state = .blind then none else some e.frame.number, evaluation := none }).dropHold
          e.held) := by
      have h0 : Still u (u.modSec j fun r =>
        { r with lastEvaluated := if r.state = .blind then none else some e.frame.number, evaluation := none }) := Still.modSec u j _
      exact ⟨h0.1, h0.2⟩
    unfold State.afterCompletion
    split
    · exact (Still.suspendNow _ _ _).agree (h1.agree ih)
    · split
      · exact (Still.begin _ _ _ _).agree ((Still.modSec _ j fun r => { r with waitingBank := none }).agree (h1.agree ih))
      · exact h1.agree ih
  | configures m j c hc ih => exact (Still.modSec _ j _).agree ih
  | enables m j hd ha he ih => exact (Still.modSec _ j _).agree ih
  | disables m j ih => exact (Still.modSec _ j _).agree ih
  | @provisions u m p he hl hr ih =>
    refine (Still.offerTerminal _ _).agree ((Still.modSec _ p.sector _).agree ?_)
    refine State.MembersBut.agree (k := p.slot) ?_ (by rw [State.modTerm_term_same]; exact not_listed (by simp [ProvisionParams.record]))
    have hv' := ih.but (k := p.slot) (by rw [he]; exact not_listed (by simp))
    have tv : ∀ k', k' ≠ p.slot → (u.modTerm p.slot fun t => p.record t.noticePending).term k' = u.term k' :=
      fun k' hk => State.modTerm_term_other _ (Ne.symm hk)
    refine ⟨fun j k' hk => ?_, fun j k' hk => ?_, hv'.out, hv'.queueOnce, hv'.windowOnce, fun j => ?_⟩
    · rw [tv k' hk]; exact hv'.queue j k' hk
    · rw [tv k' hk]; exact hv'.window j k' hk
    · have := hv'.classes j
      rw [State.modTerm_sec]
      refine List.Pairwise.imp_of_mem (fun {a b} ha hb x => ?_) this
      have na : a ≠ p.slot := by rintro rfl; exact (hv'.out j).1 ha
      have nb : b ≠ p.slot := by rintro rfl; exact (hv'.out j).1 hb
      rw [tv a na, tv b nb]; exact x
  | removes m k he ih => exact membersAgree_remove ih
  | loads m i bs hh ih => exact ⟨ih.1, ih.2, ih.3, ih.4, ih.5⟩
  | @activates u m hr ih =>
    have h0 : State.MembersAgree { u with ladder := { u.ladder with active := some u.ladder.standby, staged := Vector.replicate 3 false } } := ⟨ih.1, ih.2, ih.3, ih.4, ih.5⟩
    unfold State.activate
    exact (Still.activate _ _ _ _).agree h0

end Sys2Proof.Machine
end

