-- ==== Sys2Proof/Laws/Forms.lean ====
section
/-!
SUPPORT. The answers to requests as frames, the records written twice or back, and the reactions as one expression.
-/

set_option Elab.async false

namespace Sys2Proof.Machine

variable {s t u v : State} {j : Sector} {k : Slot}

theorem serve_ok {s : State} {f : RequestKind} {r : Request} {body : List Byte → Answer} (hm : s.mode.serves f = true)
    (hl : lengthAccepted f r = true) : s.serve f r body = answered f r (body (parameters r)) := by
  simp [State.serve, State.commonCheck, hm, hl]

theorem reply_sole (s : State) (c : Byte) (tag : BitVec 16) (st : Status) (rs : List Byte) (h : rs.length ≤ 192) :
    s.reply c tag st rs = s.emit (soleReply c tag (statusCode st) rs) := by
  have h0 : (rs.length - 1) / 192 = 0 := by omega
  simp only [State.reply, State.emit, replyFrames, Config.segmentLimit, h0]
  simp [replyFrame, soleReply, List.take_of_length_le h, yesNo, byteOf, Nat.min_eq_right h]

theorem unknown_code {code : Byte} (h : code ∉ knownCodes) : requestKindOf code = none := by
  have := (by decide +kernel : ∀ n : Fin 256, (BitVec.ofFin n : Byte) ∈ knownCodes ∨ requestKindOf (BitVec.ofFin n) = none) code.toFin
  exact this.resolve_left h

theorem serve_bad {s : State} {f : RequestKind} {r : Request} {body : List Byte → Answer} {st} (h : s.commonCheck f r = some st) :
    s.serve f r body = s.emit (soleReply (functionCode f) r.tag (statusCode st) []) := by
  simp only [State.serve, h]; exact reply_sole _ _ _ _ _ (by simp)

theorem set_same {s : State} (k : Slot) (t : Terminal) (h : s.term k = t) : s.setTerm k t = s := by
  have : s.terminals.set k.val t = s.terminals := by
    ext i hi
    all_goals simp only [Vector.getElem_set]
    all_goals (split <;> [(rename_i e; subst e; rw [← h]; rfl); rfl])
  simp only [State.setTerm, this]

theorem setSec_same {s : State} (j : Sector) (r : SectorRec) (h : s.sec j = r) : s.setSec j r = s := by
  have : s.sectors.set j.val r = s.sectors := by
    ext i hi
    all_goals simp only [Vector.getElem_set]
    all_goals (split <;> [(rename_i e; subst e; rw [← h]; rfl); rfl])
  simp only [State.setSec, this]

theorem zero_rest {s : State} (h : s.AllAtRest) (k : Nat) : s.zeroRegion k = s := by
  have ht : ∀ k, s.term k = {} := h.terms
  have hs : ∀ j, s.sec j = {} := h.secs
  unfold State.zeroRegion
  split
  · have : ∀ (l : List Slot) , l.foldl (fun s i => s.setTerm i {}) s = s := by
      intro l; induction l with
      | nil => rfl
      | cons x xs ih => rw [List.foldl_cons, set_same x _ (ht x)]; exact ih
    exact this _
  · have hl : s.ladder = {} := h.ladder
    have key : ∀ i : Fin 2, (s.modBank i fun b => { b with bytes := Vector.replicate 96 0 }) = s := by
      intro i
      simp only [State.modBank, State.bank, hl]
      rcases s with ⟨a1, a2, a3, a4, a5, a6, a7, a8, a9, a10, a11⟩
      simp only at hl; subst hl
      congr 1
      fin_cases i <;> rfl
    split
    · exact key 0
    · split
      · exact key 1
      · have hn : { s with notices := [] } = s := by
          rcases s with ⟨a1, a2, a3, a4, a5, a6, a7, a8, a9, a10, a11⟩
          have := h.notices; simp only at this; subst this; rfl
        rw [hn]
        have : ∀ (l : List Sector) , l.foldl (fun s j => s.modSec j fun r =>
        { r with lossLog := [], queue := [], window := [], controlQueue := [], evaluation := none, waitingBank := none }) s = s := by
          intro l; induction l with
          | nil => rfl
          | cons x xs ih => rw [List.foldl_cons, State.modSec, setSec_same x _ (by rw [hs])]; exact ih
        exact this _

theorem twoPow_bit (w : BitVec 16) (k : Nat) : withBit w k = w ||| BitVec.twoPow 16 k := by
  rfl

theorem find_region {u : StartUpRecord} {k : Nat} (hk : k < 13) (h : ∀ i, i < k → u.progress.getLsbD i = true) (h0 : u.progress.getLsbD k = false) :
    u.region = some k := by
  unfold StartUpRecord.region regions
  rw [List.find?_eq_some_iff_getElem]
  refine ⟨by simp [h0], k, by simpa using hk, by simp, fun i hi => ?_⟩
  simp [h i hi]

theorem failing_wf {o : Option WordRead} (h : o.all WordRead.wellFormed = true) : failingRead o = o := by
  cases o with
  | none => rfl
  | some w =>
    simp only [Option.all_some, WordRead.wellFormed] at h
    simp only [failingRead]
    cases hp : w.pattern <;> simp_all [patternWord]

theorem bytes16_join (t : BitVec 16) : t.extractLsb' 8 8 ++ t.extractLsb' 0 8 = t := by
  ext i hi
  simp only [BitVec.getElem_append, BitVec.getElem_extractLsb']
  split <;> rename_i h <;> simp [← BitVec.getLsbD_eq_getElem]
  congr 1; omega

theorem bytes16_word (t : BitVec 16) (l : List Byte) : word16 (bytes16 t ++ l) 0 = t := bytes16_join t

theorem kind_code (f : RequestKind) : requestKindOf (functionCode f) = some f := by cases f <;> rfl

theorem mgmt_frame (sector hi lo code : Byte) (tag : BitVec 16) (len : Byte) (bytes : List Byte) (s : State) :
    exec (.downstreamFrame ([0x6C, 0x02, sector, hi, lo, code] ++ bytes16 tag ++ [len] ++ bytes)) s = takeRequest code { tag := tag, length := len, bytes := bytes } s := by
  have h1 : isMgmt ([0x6C, 0x02, sector, hi, lo, code] ++ bytes16 tag ++ [len] ++ bytes) = true := by
    simp [isMgmt, byteAt, bytes16]
  have h2 : requestOf ([0x6C, 0x02, sector, hi, lo, code] ++ bytes16 tag ++ [len] ++ bytes) = some (code, { tag := tag, length := len, bytes := bytes }) := by
    have : ¬ ([0x6C, 0x02, sector, hi, lo, code] ++ bytes16 tag ++ [len] ++ bytes).length < 9 := by simp [bytes16]
    rw [requestOf, if_neg this]
    have hw : word16 ([0x6C, 0x02, sector, hi, lo, code] ++ bytes16 tag ++ [len] ++ bytes) 6 = tag := bytes16_join tag
    rw [hw]; rfl
  simp only [exec, execDownstreamFrame]
  rw [h1, h2]; rfl

theorem notMgmt {fr : Frame} (h : ∀ rest, fr ≠ 0x6C :: 0x02 :: rest) : isMgmt fr = false := by
  by_contra hc
  rw [Bool.not_eq_false] at hc
  rcases fr with _ | ⟨a, _ | ⟨b, rest⟩⟩
  · simp [isMgmt] at hc
  · simp [isMgmt] at hc
  · simp [isMgmt, byteAt] at hc; exact h rest (by rw [hc.1, hc.2]; rfl)

theorem sectorOfByte_some {b : Byte} {j : Sector} (h : sectorOfByte b = some j) : b = byteOf j.val := by
  unfold sectorOfByte at h
  split at h
  · cases h; simp [byteOf]
  · cases h

theorem sectorOfByte_of (j : Sector) : sectorOfByte (byteOf j.val) = some j := by
  have : (byteOf j.val).toNat = j.val := by simp [byteOf]; omega
  unfold sectorOfByte; simp [this]

theorem served_iff (x : SectorState) : x.served = true ↔ x ≠ .disabled ∧ x ≠ .suspended := by cases x <;> simp [SectorState.served]

theorem serve_pend (s : State) (f r) (body : List Byte → Answer) (h : ∀ ps, (body ps).1.pending = s.pending) : (s.serve f r body).pending = s.pending := by
  unfold State.serve
  split
  · rfl
  · unfold answered; split
    · exact h _
    · exact h _

theorem clearPending_pend (l : List NoticeItem) (u : State) : (l.foldl State.clearPending u).pending = u.pending := by
  induction l generalizing u with
  | nil => rfl
  | cons x xs ih => rw [List.foldl_cons, ih]; cases x <;> rfl

theorem emitNotices_pend (s : State) : s.emitNotices.pending = s.pending := by
  unfold State.emitNotices; split
  · rfl
  · exact clearPending_pend _ _

theorem enterSector_pend (s : State) (j st) : (s.enterSector j st).pending = s.pending := by
  unfold State.enterSector; split
  · rfl
  · unfold State.offerSector; split <;> rfl

theorem suspendNow_pend (s : State) (j tag) : (s.suspendNow j tag).pending = s.pending := by
  unfold State.suspendNow; rw [enterSector_pend]; rfl

theorem activate_pend (s : State) : s.activate.pending = s.pending := by
  unfold State.activate
  refine (?_ : ∀ (old new) (l : List Slot) (u : State), (l.foldl (State.activateTerminal old new) u).pending = u.pending) _ _ _ _
  intro old new l
  induction l with
  | nil => exact fun _ => rfl
  | cons x xs ih => exact fun u => (ih _).trans (Works.outside (Works.activateTerminal' (u := u) old new x)).pending

theorem Moves.pend {s t : State} (m : Moves s t) : t.pending = s.pending := by
  induction m with
  | refl => rfl
  | links _ e ih => exact e.pending.trans ih
  | works j _ w _ ih => exact w.outside.pending.trans ih
  | notices _ ih => exact (emitNotices_pend _).trans ih
  | begins _ j b f _ _ ih => exact ih
  | waits _ j f _ ih => exact ih
  | suspends _ j tag ih => exact (suspendNow_pend _ _ _).trans ih
  | completes _ j e he ih =>
    refine Eq.trans ?_ ih
    unfold State.afterCompletion
    split
    · exact suspendNow_pend _ _ _
    · split <;> rfl
  | configures _ j c _ ih => exact ih
  | enables _ j _ _ _ ih => exact ih
  | disables _ j ih => exact ih
  | provisions _ p _ _ _ ih =>
    refine Eq.trans ?_ ih
    unfold State.provision State.offerTerminal; dsimp only; split <;> rfl
  | removes _ k he ih =>
    refine Eq.trans ?_ ih
    refine remove_keeps (fun u => u.pending = _) (fun w h => w.outside.pending.trans h) (fun s k h => (State.offerTerminal_outside s k).pending.trans h) k ?_
    exact (removed1_works he).outside.pending
  | loads _ i bs _ ih => exact ih
  | activates _ _ ih => exact (activate_pend _).trans ih

theorem takeRequest_pend {s t : State} (code r) (hm : s.mode ≠ .running) (h : takeRequest code r s = .next t) : t.pending = s.pending := by
  have refused : ∀ f, (f ≠ .echo ∧ f ≠ .readStartup ∧ f ≠ .restart ∧ f ≠ .readFaultLatch) → s.mode.serves f ≠ true := by
    intro f hf
    revert hm
    cases s.mode <;> cases f <;> simp_all [Mode.serves]
  have bad : ∀ f (body : List Byte → Answer), s.mode.serves f ≠ true → (s.serve f r body).pending = s.pending := by
    intro f body hf
    unfold State.serve
    have : s.commonCheck f r = s.mode.refusal := by simp [State.commonCheck, hf]
    rw [this]
    cases hmm : s.mode
    · rfl
    · exact absurd hmm hm
    · rfl
  unfold takeRequest at h
  split at h
  · simp only [execUnknownFunction] at h
    split at h <;> cases h <;> rfl
  · cases h; exact serve_pend _ _ _ _ fun _ => rfl
  · cases h; exact serve_pend _ _ _ _ fun _ => rfl
  · cases h; exact serve_pend _ _ _ _ fun _ => rfl
  · cases h; refine serve_pend _ _ _ _ fun _ => ?_
    split
    · rfl
    · split <;> rfl
  all_goals
    cases h
    exact bad _ _ (refused _ (by decide))

theorem endCheck_pend (u : State) : u.endCheck.pending = u.pending := rfl

theorem setSec_setSec (s : State) (j) (a b : SectorRec) : (s.setSec j a).setSec j b = s.setSec j b := by
  simp only [State.setSec]; congr 1; exact Vector.set_set _ _

theorem setTerm_setTerm (s : State) (k) (a b : Terminal) : (s.setTerm k a).setTerm k b = s.setTerm k b := by
  simp only [State.setTerm]; congr 1; exact Vector.set_set _ _

theorem modSec_setSec (s : State) (j) (a : SectorRec) (f : SectorRec → SectorRec) : (s.setSec j a).modSec j f = s.setSec j (f a) := by
  rw [State.modSec, State.setSec_sec_same, setSec_setSec]

theorem modTerm_setTerm (s : State) (k) (a : Terminal) (f : Terminal → Terminal) : (s.setTerm k a).modTerm k f = s.setTerm k (f a) := by
  rw [State.modTerm, State.setTerm_term_same, setTerm_setTerm]

theorem takeController_eq (h : (s.sec j).state.served = true) :
    s.takeController j = (s.setSec j { s.sec j with controllerDue := (s.sec j).controllerDue - 1 }).controllerReaction j := by
  unfold State.takeController
  simp only [State.modSec, State.setSec_sec_same, h, if_true]

/-- A sector record after the count of one sector frame (R44). -/
def counted (r : SectorRec) : SectorRec := { r with controllerDue := r.controllerDue - 1, blindCounter := min (r.blindCounter + 1) 64 }

theorem sectorFrameReaction_eq {r : SectorRec} (hr : s.sec j = r) (hd : 0 < r.controllerDue) (h : r.state.served = true) :
    exec (.sectorFrameReaction j) s = .next (if r.goesBlind = true then (s.setSec j (counted r)).enterBlind j
      else ((s.setSec j (counted r)).stateWork j).progressStep j) := by
  subst hr
  simp only [exec, execSectorFrameReaction, hd, if_true]
  rw [takeController_eq h]
  unfold State.controllerReaction
  dsimp only
  rw [modSec_setSec, State.setSec_sec_same]
  rfl

theorem not_blind {r : SectorRec} (h : min (r.blindCounter + 1) 64 < r.config.blindLimit) : r.goesBlind = false := by
  have : ¬ (r.config.blindLimit ≤ r.blindCount) := Nat.not_le.mpr h
  simp [SectorRec.goesBlind, this]

theorem offerTerminal_setSec (s : State) (j) (r : SectorRec) (k) : (s.offerTerminal k).setSec j r = (s.setSec j r).offerTerminal k := by
  unfold State.offerTerminal
  by_cases h : NoticeItem.terminal k ∈ s.notices
  · rw [if_pos h, if_pos (by exact h)]
  · rw [if_neg h, if_neg (by exact h)]; rfl

theorem offerTerminal_modSec (s : State) (j) (f : SectorRec → SectorRec) (k) : (s.offerTerminal k).modSec j f = (s.modSec j f).offerTerminal k := by
  rw [State.modSec, offerTerminal_setSec, State.offerTerminal_sec]; rfl

theorem toState_change {st : TermState} (h : (s.term k).state ≠ st) (h' : (s.term k).state ≠ .empty) :
    s.toState k st = (s.setTerm k { s.term k with state := st }).offerTerminal k := by
  unfold State.toState; rw [if_neg (by tauto)]; rfl

end Sys2Proof.Machine
end

