-- ==== Sys2Proof/Laws/Turns.lean ====
section
/-!
SUPPORT. A fold over slots says of each slot what one turn does to it: the backoff count, the release walk and the admissions.
-/

set_option Elab.async false

namespace Sys2Proof.Machine

variable {s t u v : State} {j : Sector} {k : Slot}

theorem SameAround.refl (s : State) : s.SameAround s := ⟨rfl, rfl, rfl, rfl, rfl, rfl, rfl⟩

theorem SameAround.trans (a : s.SameAround t) (b : t.SameAround u) : s.SameAround u :=
  ⟨b.1.trans a.1, b.2.trans a.2, b.3.trans a.3, b.4.trans a.4, b.5.trans a.5, b.6.trans a.6, b.7.trans a.7⟩

theorem Works.around (w : Works j s t) : s.SameAround t ∧ t.controllerOut = s.controllerOut :=
  ⟨⟨w.outside.mode, w.outside.startUp, w.outside.ladder, w.outside.latch, w.outside.transit, w.outside.radioOut, w.outside.pending⟩, w.outside.controllerOut⟩

/-- What one turn at slot `k` of sector `j` does: the record becomes `g` of it, offered where `o` holds of it, and the queue may gain the
slot. -/
structure OneTurn (j : Sector) (g : Terminal → Terminal) (o : Terminal → Prop) (u v : State) (k : Slot) : Prop where
  term : (o (u.term k) → v.term k = Terminal.offered u.notices k (g (u.term k))) ∧ (¬ o (u.term k) → v.term k = g (u.term k))
  other : ∀ k', k' ≠ k → v.term k' = u.term k'
  notices : ∀ x, x ∈ v.notices ↔ x ∈ u.notices ∨ (o (u.term k) ∧ x = .terminal k)
  sec : ∀ i, i ≠ j → v.sec i = u.sec i
  same : ∃ q, v.sec j = { u.sec j with queue := q } ∧ (∀ x ∈ (u.sec j).queue, x ∈ q) ∧ (o (u.term k) → k ∈ q)
  around : u.SameAround v ∧ v.controllerOut = u.controllerOut

/-- What the turns at a list of slots do together. -/
structure ManyTurns (j : Sector) (g : Terminal → Terminal) (o : Terminal → Prop) (u v : State) (l : List Slot) : Prop where
  term : ∀ k ∈ l, (o (u.term k) → v.term k = Terminal.offered u.notices k (g (u.term k))) ∧ (¬ o (u.term k) → v.term k = g (u.term k))
  other : ∀ k', k' ∉ l → v.term k' = u.term k'
  notices : ∀ x, x ∈ v.notices ↔ x ∈ u.notices ∨ ∃ k ∈ l, (o (u.term k) ∧ x = .terminal k)
  sec : ∀ i, i ≠ j → v.sec i = u.sec i
  same : ∃ q, v.sec j = { u.sec j with queue := q } ∧ (∀ x ∈ (u.sec j).queue, x ∈ q) ∧ (∀ k ∈ l, o (u.term k) → k ∈ q)
  around : u.SameAround v ∧ v.controllerOut = u.controllerOut

theorem manyTurns {g : Terminal → Terminal} {o pre : Terminal → Prop} {f : State → Slot → State}
    (hf : ∀ u k, pre (u.term k) → OneTurn j g o u (f u k) k) (l : List Slot) (hl : l.Nodup) (hp : ∀ k ∈ l, pre (u.term k)) :
    ManyTurns j g o u (l.foldl f u) l := by
  induction l generalizing u with
  | nil => exact ⟨by simp, by simp, by simp, by simp, ⟨(u.sec j).queue, rfl, fun _ h => h, by simp⟩, SameAround.refl _, rfl⟩
  | cons x xs ih =>
    have h1 := hf u x (hp x (by simp))
    have hx := (List.nodup_cons.1 hl)
    have hne : ∀ k ∈ xs, k ≠ x := fun k hk h => hx.1 (h ▸ hk)
    have hs : ∀ k ∈ xs, (f u x).term k = u.term k := fun k hk => h1.other k (hne k hk)
    have hn : ∀ k ∈ xs, (NoticeItem.terminal k ∈ (f u x).notices ↔ NoticeItem.terminal k ∈ u.notices) := fun k hk => by
      rw [h1.notices]; simp [hne k hk]
    have h2 := ih (u := f u x) hx.2 (fun k hk => by rw [hs k hk]; exact hp k (by simp [hk]))
    rw [List.foldl_cons]
    generalize hv : xs.foldl f (f u x) = w at h2 ⊢
    refine ⟨fun k hk => ?_, fun k hk => ?_, fun i => ?_, fun i hi => (h2.sec i hi).trans (h1.sec i hi), ?_,
      SameAround.trans h1.around.1 h2.around.1, h2.around.2.trans h1.around.2⟩
    · rcases List.mem_cons.1 hk with rfl | hk
      · rw [h2.other k hx.1]; exact h1.term
      · have := h2.term k hk
        rw [hs k hk] at this
        have e : Terminal.offered (f u x).notices k (g (u.term k)) = Terminal.offered u.notices k (g (u.term k)) := by
          unfold Terminal.offered
          by_cases h : NoticeItem.terminal k ∈ u.notices
          · rw [if_pos h, if_pos ((hn k hk).2 h)]
          · rw [if_neg h, if_neg (fun h' => h ((hn k hk).1 h'))]
        rw [e] at this; exact this
    · simp only [List.mem_cons, not_or] at hk
      rw [h2.other k hk.2, h1.other k hk.1]
    · rw [h2.notices, h1.notices]
      constructor
      · rintro ((h | ⟨h, rfl⟩) | ⟨k, hk, h, rfl⟩)
        · exact .inl h
        · exact .inr ⟨x, by simp, h, rfl⟩
        · exact .inr ⟨k, by simp [hk], hs k hk ▸ h, rfl⟩
      · rintro (h | ⟨k, hk, h, rfl⟩)
        · exact .inl (.inl h)
        · rcases List.mem_cons.1 hk with rfl | hk
          · exact .inl (.inr ⟨h, rfl⟩)
          · exact .inr ⟨k, hk, (hs k hk).symm ▸ h, rfl⟩
    · obtain ⟨q, e1, i1, m1⟩ := h1.same
      obtain ⟨q', e2, i2, m2⟩ := h2.same
      refine ⟨q', by rw [e2, e1], fun y hy => i2 y (by rw [e1]; exact i1 y hy), fun k hk ho => ?_⟩
      rcases List.mem_cons.1 hk with rfl | hk
      · exact i2 k (by rw [e1]; exact m1 ho)
      · exact m2 k hk (by rw [hs k hk]; exact ho)

theorem offer_term_same (s : State) (k : Slot) : (s.offerTerminal k).term k = Terminal.offered s.notices k (s.term k) := by
  unfold State.offerTerminal Terminal.offered; split
  · rfl
  · rw [State.modTerm_term_same]; rfl

theorem offer_term_other (s : State) {k k' : Slot} (h : k' ≠ k) : (s.offerTerminal k).term k' = s.term k' := by
  unfold State.offerTerminal; split
  · rfl
  · rw [State.modTerm_term_other _ (Ne.symm h)]; rfl

theorem offer_mem (s : State) (k : Slot) (x) : x ∈ (s.offerTerminal k).notices ↔ x ∈ s.notices ∨ x = .terminal k := by
  unfold State.offerTerminal; split
  · next h => constructor
              · exact .inl
              · rintro (h' | rfl); exacts [h', h]
  · simp

/-- Becoming WAITING after an edit of the record is one turn. -/
theorem waits_one (g : Terminal → Terminal) (o : Terminal → Prop) (hg : ∀ t, (g t).sector = t.sector ∧ (g t).priority = t.priority ∧ (g t).state = t.state) (u : State) (k : Slot)
    (hj : (u.term k).sector = j) (h1 : (u.term k).state ≠ .empty) (h2 : (u.term k).state ≠ .waiting) (ho : o (u.term k)) :
    OneTurn j (fun t => { g t with state := .waiting }) o u ((u.modTerm k g).becomeWaiting k) k := by
  have hsec : (u.modTerm k g).sectorOf k = j := by rw [State.sectorOf, State.modTerm_term_same, (hg _).1, hj]
  have e : (u.modTerm k g).becomeWaiting k = (((u.modTerm k g).joinQueue k).setTerm k { g (u.term k) with state := .waiting }).offerTerminal k := by
    rw [State.becomeWaiting, toState_change]
    · rw [State.joinQueue, hsec]; simp only [State.modSec_term, State.modTerm_term_same]
    · rw [State.joinQueue]; simp only [State.modSec_term, State.modTerm_term_same]; rw [(hg _).2.2]; exact h2
    · rw [State.joinQueue]; simp only [State.modSec_term, State.modTerm_term_same]; rw [(hg _).2.2]; exact h1
  rw [e]
  refine ⟨⟨fun _ => ?_, fun h => absurd ho h⟩, fun k' hk => ?_, fun x => ?_, fun i hi => ?_, ?_, ?_⟩
  · rw [offer_term_same, State.setTerm_term_same]; rfl
  · rw [offer_term_other _ hk, State.setTerm_term, if_neg (Ne.symm hk), State.joinQueue, State.modSec_term, State.modTerm_term_other _ (Ne.symm hk)]
  · rw [offer_mem]; simp [ho, State.joinQueue]
  · rw [State.offerTerminal_sec, State.setTerm_sec, State.joinQueue, hsec, State.modSec_sec_other _ (Ne.symm hi)]; rfl
  · refine ⟨_, by rw [State.offerTerminal_sec, State.setTerm_sec, State.joinQueue, hsec, State.modSec_sec_same]; rfl, fun x hx => ?_, fun _ => ?_⟩
    · rw [mem_insertByClass]; exact .inr hx
    · rw [mem_insertByClass]; exact .inl rfl
  · have := State.offerTerminal_outside (((u.modTerm k g).joinQueue k).setTerm k { g (u.term k) with state := .waiting }) k
    exact ⟨⟨this.1, this.2, this.3, this.4, this.5, this.7, this.8⟩, this.6⟩

/-- A DEFERRED record after one frame (R112). -/
def countedDown (t : Terminal) : Terminal := if t.backoff ≤ 1 then { t with backoff := t.backoff - 1, state := .waiting } else { t with backoff := t.backoff - 1 }

theorem down_one (u : State) (k : Slot) (h : (u.term k).state = .deferred ∧ (u.term k).sector = j) :
    OneTurn j countedDown (fun t => t.backoff ≤ 1) u (u.countBackoff k) k := by
  by_cases ho : (u.term k).backoff ≤ 1
  · have e : u.countBackoff k = (u.modTerm k fun t => { t with backoff := t.backoff - 1 }).becomeWaiting k := by
      unfold State.countBackoff; dsimp only
      rw [if_pos (by rw [State.modTerm_term_same]; simp only; omega)]
    rw [e]
    have := waits_one (j := j) (fun t => { t with backoff := t.backoff - 1 }) (fun t => t.backoff ≤ 1) (fun t => ⟨rfl, rfl, rfl⟩) u k h.2 (by rw [h.1]; decide) (by rw [h.1]; decide) ho
    refine ⟨⟨fun _ => ?_, fun h => absurd ho h⟩, this.other, this.notices, this.sec, this.same, this.around⟩
    rw [this.term.1 ho, countedDown, if_pos ho]
  · have e : u.countBackoff k = (u.setTerm k { u.term k with backoff := (u.term k).backoff - 1 }) := by
      unfold State.countBackoff; dsimp only
      rw [if_neg (by rw [State.modTerm_term_same]; simp only; omega)]; rfl
    rw [e]
    refine ⟨⟨fun h => absurd h ho, fun _ => ?_⟩, fun k' hk => ?_, fun x => by simp [ho], fun i hi => rfl, ⟨_, rfl, fun x h => h, fun h => absurd h ho⟩, ⟨⟨rfl, rfl, rfl, rfl, rfl, rfl, rfl⟩, rfl⟩⟩
    · rw [State.setTerm_term_same, countedDown, if_neg ho]
    · rw [State.setTerm_term, if_neg (Ne.symm hk)]

theorem mem_slotsIn {s : State} {j : Sector} {k : Slot} {st} : k ∈ s.slotsIn j st ↔ s.belongs j k = true ∧ (s.term k).state = st := by
  rw [State.slotsIn, List.mem_filter, mem_slotsOf]; simp

theorem walkOut_one (u : State) (k : Slot) (h : (u.term k).state = .quiet ∧ (u.term k).sector = j) :
    OneTurn j (fun t => { t with attemptCount := 0, state := .waiting }) (fun _ => True) u (u.walkOut k) k := 
  waits_one (j := j) (fun t => { t with attemptCount := 0 }) (fun t => True) (fun t => ⟨rfl, rfl, rfl⟩) u k h.2 (by rw [h.1]; decide) (by rw [h.1]; decide) trivial

theorem progress_facts (w : State) (j : Sector) : ∃ p, (w.progressStep j).sec j = { w.sec j with progressCounter := p } ∧ (∀ i, i ≠ j → (w.progressStep j).sec i = w.sec i)
    ∧ (∀ k, (w.progressStep j).term k = w.term k) ∧ (∀ x ∈ w.notices, x ∈ (w.progressStep j).notices) ∧ w.SameAround (w.progressStep j) ∧ (w.progressStep j).controllerOut = w.controllerOut := by
  have hs : ∃ p, w.sec j = { w.sec j with progressCounter := p } := ⟨(w.sec j).progressCounter, rfl⟩
  obtain ⟨p, hs⟩ := hs
  have A : ∃ p, (w.countProgress j).sec j = { w.sec j with progressCounter := p } ∧ (∀ i, i ≠ j → (w.countProgress j).sec i = w.sec i)
    ∧ (∀ k, (w.countProgress j).term k = w.term k) ∧ (∀ x ∈ w.notices, x ∈ (w.countProgress j).notices) ∧ w.SameAround (w.countProgress j) ∧ (w.countProgress j).controllerOut = w.controllerOut := by
    unfold State.countProgress
    split
    · refine ⟨0, by rw [State.offerSector_sec, State.modSec_sec_same], fun i hi => by rw [State.offerSector_sec, State.modSec_sec_other _ (Ne.symm hi)], fun k => by rw [State.offerSector_term]; rfl, fun x hx => ?_, ?_, ?_⟩
      · unfold State.offerSector; split
        · exact hx
        · simp; exact .inl hx
      · unfold State.offerSector; split <;> exact ⟨rfl, rfl, rfl, rfl, rfl, rfl, rfl⟩
      · unfold State.offerSector; split <;> rfl
    · exact ⟨_, by rw [State.modSec_sec_same], fun i hi => by rw [State.modSec_sec_other _ (Ne.symm hi)], fun k => rfl, fun x h => h, ⟨rfl, rfl, rfl, rfl, rfl, rfl, rfl⟩, rfl⟩
  unfold State.progressStep
  split
  · exact A
  · exact A
  all_goals exact ⟨p, hs, fun _ _ => rfl, fun _ => rfl, fun _ h => h, SameAround.refl _, rfl⟩

/-- A record after its admission to RANGING, the offer apart (R76, R109). -/
def admitted (t : Terminal) : Terminal := { t with state := .ranging, filtered := none, history := [], roundCount := 0, expectedBurst := none }

theorem admit_eq (s : State) (j : Sector) (k : Slot) (h1 : (s.term k).state ≠ .ranging) (h2 : (s.term k).state ≠ .empty) :
    s.takeIn j k = ((s.setSec j { s.sec j with window := (s.sec j).window ++ [k] }).setTerm k (admitted (s.term k))).offerTerminal k := by
  unfold State.takeIn
  dsimp only
  rw [toState_change]
  · rw [State.modTerm_term_same]
    simp only [State.modTerm, setTerm_setTerm]; rfl
  · rw [State.modTerm_term_same]; exact h1
  · rw [State.modTerm_term_same]; exact h2

theorem admitHeads_fact (j : Sector) (n : Nat) : ∀ (u : State) (r : SectorRec), u.sec j = r → r.queue.Nodup → (∀ k ∈ r.queue, (u.term k).state = .waiting) →
    ∀ v, State.admitHeads j n u = v →
      v.sec j = { r with queue := r.queue.drop n, window := r.window ++ r.queue.take n } ∧ (∀ i, i ≠ j → v.sec i = u.sec i) ∧ u.SameAround v ∧ v.controllerOut = u.controllerOut
      ∧ (∀ k, k ∉ r.queue.take n → v.term k = u.term k) ∧ (∀ k ∈ r.queue.take n, v.term k = Terminal.offered u.notices k (admitted (u.term k)))
      ∧ v.notices = u.notices ++ ((r.queue.take n).filter fun k => decide (.terminal k ∉ u.notices)).map .terminal := by
  induction n with
  | zero =>
    rintro u r hr hn hw v rfl
    refine ⟨?_, fun _ _ => rfl, SameAround.refl _, rfl, fun _ _ => rfl, by simp, by simp [State.admitHeads]⟩
    simp [State.admitHeads, hr]
  | succ n ih =>
    intro u r hr hn hw v hv
    unfold State.admitHeads at hv
    rw [hr] at hv
    rcases hQ : r.queue with _ | ⟨x, xs⟩
    · rw [hQ] at hv; simp only at hv; subst hv
      refine ⟨?_, fun _ _ => rfl, SameAround.refl _, rfl, fun _ _ => rfl, by simp, by simp⟩
      rw [hr]; simp only [List.drop_nil, List.take_nil, List.append_nil]; rw [← hQ]
    · rw [hQ] at hv hn hw; simp only at hv
      have hx := List.nodup_cons.1 hn
      have hxw := hw x (by simp)
      rw [admit_eq _ _ _ (by show (u.term x).state ≠ _; rw [hxw]; decide) (by show (u.term x).state ≠ _; rw [hxw]; decide)] at hv
      generalize hu' : ((((u.modSec j fun r => { r with queue := xs }).setSec j _).setTerm x _).offerTerminal x) = u' at hv
      have b1 : u'.sec j = { r with queue := xs, window := r.window ++ [x] } := by
        rw [← hu', State.offerTerminal_sec, State.setTerm_sec, State.setSec_sec_same, State.modSec_sec_same, hr]
      have b2 : ∀ i, i ≠ j → u'.sec i = u.sec i := fun i hi => by
        rw [← hu', State.offerTerminal_sec, State.setTerm_sec, State.setSec_sec, if_neg (Ne.symm hi), State.modSec_sec_other _ (Ne.symm hi)]
      have b3 : u'.term x = Terminal.offered u.notices x (admitted (u.term x)) := by
        rw [← hu', offer_term_same, State.setTerm_term_same]; rfl
      have b4 : ∀ k, k ≠ x → u'.term k = u.term k := fun k hk => by
        rw [← hu', offer_term_other _ hk, State.setTerm_term, if_neg (Ne.symm hk)]; rfl
      have b5 : u'.notices = u.notices ++ (([x] : List Slot).filter fun k => decide (.terminal k ∉ u.notices)).map .terminal := by
        rw [← hu']; unfold State.offerTerminal
        by_cases h : NoticeItem.terminal x ∈ u.notices
        · rw [if_pos (by exact h)]; simp [h]
        · rw [if_neg (by exact h)]; simp [h]
      have b6 : u.SameAround u' ∧ u'.controllerOut = u.controllerOut := by
        rw [← hu']; unfold State.offerTerminal; split <;> exact ⟨⟨rfl, rfl, rfl, rfl, rfl, rfl, rfl⟩, rfl⟩
      clear hu'
      have hmem : ∀ k ∈ xs, k ≠ x := fun k hk h => hx.1 (h ▸ hk)
      have hmn : ∀ k ∈ xs, (NoticeItem.terminal k ∈ u'.notices ↔ NoticeItem.terminal k ∈ u.notices) := fun k hk => by
        rw [b5, List.mem_append]; simp [hmem k hk]
      obtain ⟨c1, c2, c3, c4, c5, c6, c7⟩ := ih u' { r with queue := xs, window := r.window ++ [x] } b1 hx.2 (fun k hk => by rw [b4 k (hmem k hk)]; exact hw k (by simp [hk])) v hv
      dsimp only at c1 c5 c6 c7
      refine ⟨by rw [c1]; simp, fun i hi => (c2 i hi).trans (b2 i hi), SameAround.trans b6.1 c3, c4.trans b6.2, fun k hk => ?_, fun k hk => ?_, ?_⟩
      · simp only [List.take_succ_cons, List.mem_cons, not_or] at hk
        rw [c5 k hk.2, b4 k hk.1]
      · simp only [List.take_succ_cons, List.mem_cons] at hk
        rcases hk with rfl | hk
        · rw [c5 k (fun h => hx.1 (List.mem_of_mem_take h)), b3]
        · have hk' := List.mem_of_mem_take hk
          rw [c6 k hk, b4 k (hmem k hk')]
          unfold Terminal.offered
          by_cases h : NoticeItem.terminal k ∈ u.notices
          · rw [if_pos h, if_pos ((hmn k hk').2 h)]
          · rw [if_neg h, if_neg (fun h' => h ((hmn k hk').1 h'))]
      · have : (xs.take n).filter (fun k => decide (NoticeItem.terminal k ∉ u'.notices)) = (xs.take n).filter (fun k => decide (NoticeItem.terminal k ∉ u.notices)) := by
          apply List.filter_congr; intro y hy
          have := hmn y (List.mem_of_mem_take hy)
          simp [this]
        rw [c7, this, b5, List.append_assoc, ← List.map_append]
        congr 2
        rw [List.take_succ_cons, List.filter_cons, List.filter_cons]
        split <;> simp

theorem setSec_setTerm (s : State) (j k) (r t) : (s.setSec j r).setTerm k t = (s.setTerm k t).setSec j r := rfl

theorem climbBound_goal {goal restore rung : Nat} {b : LadderBank} (c : SectorConfig) (t : Terminal) (dw : Nat) (hcl : t.state = .climbing) (hres : t.restoreRung = some restore)
   (hg : goal = min (min (min t.maxRung b.top) (if t.sticky.degraded = true ∨ t.capKept = true then c.degradedCap else b.top)) restore) :
   Terminal.climbBound c b { t with rung := rung, pendingShift := none, climbDwell := dw } = goal := by
  unfold Terminal.climbBound Terminal.climbCap
  dsimp only
  rw [hres]
  dsimp only
  rw [if_pos hcl, hg]
  simp only [Bool.or_eq_true]
  split <;> simp

end Sys2Proof.Machine
end

