-- ==== Sys2Proof/Laws/Links.lean ====
section
/-!
SUPPORT. The filling of one frame, the intake of an upstream frame and the notices behind it.
-/

set_option Elab.async false

namespace Sys2Proof.Machine

variable {s t u v : State} {j : Sector} {k : Slot}

theorem release_one {s : State} {fr' : Frame} {rest : List Transit} (h : s.transit = { frame := fr', fill := none } :: rest) (hr : ∀ x, rest.head? = some x → x.fill ≠ none) :
    s.release = { s with transit := rest, radioOut := s.radioOut ++ [fr'] } := by
  have h1 : rest.takeWhile (fun t => t.fill.isNone) = [] ∧ rest.dropWhile (fun t => t.fill.isNone) = rest := by
    rcases rest with _ | ⟨x, xs⟩
    · simp
    · have := hr x rfl
      have hx : x.fill.isNone = false := by
        cases hf : x.fill with
        | none => exact absurd hf this
        | some _ => rfl
      simp [List.takeWhile, List.dropWhile, hx]
  unfold State.release
  rw [h]
  simp [List.takeWhile, List.dropWhile, h1]

theorem owedScan_quiet {s : State} {j : Sector} (h : ∀ i, s.belongs j i = true → (s.term i).owed = {}) : s.owedScan j = s := by
  unfold State.owedScan
  split
  · rfl
  · have : ((s.slotsOf j).find? fun k => (s.term k).owed.any) = none := by
      rw [List.find?_eq_none]; intro x hx
      rw [mem_slotsOf] at hx
      rw [h x hx]; decide
    rw [this]

theorem inserted_keeps (c n kind) (t : Terminal) : (inserted c n kind t).owed = t.owed ∧ (inserted c n kind t).state = t.state ∧ (inserted c n kind t).sector = t.sector := by
  cases kind <;> exact ⟨rfl, rfl, rfl⟩

theorem message_length (s : State) (j n k kind) : (s.message j n k kind).length = 8 := by
  cases kind <;> simp [State.message, correctMessage, verifyMessage, powerMessage, shiftMessage, addressBytes, bytes16]

/-! ## Intake -/

theorem emitNotices_nil {s : State} (h : s.notices = []) : s.emitNotices = s := by
  unfold State.emitNotices; rw [h]

theorem intake_none (fr b) (hn : s.notices = []) (hi : (s.emit fr).intake fr = t) (ht : t.notices = []) :
    exec (.upstreamFrame fr b) s = .next t := by
  simp only [exec, execUpstreamFrame]
  cases b
  · rw [if_neg (by decide), hi, emitNotices_nil ht]
  · rw [if_pos rfl, emitNotices_nil (by exact hn), hi]

theorem offerFault_getD (s : State) (r : FaultRecord) : s.offerFault r = { s with latch := some (s.latch.getD r) } := by
  unfold State.offerFault
  cases h : s.latch with
  | none => rfl
  | some f => simp only [Option.getD_some]; rw [← h]

theorem upstream_header {fr : Frame} (h : UpstreamOf fr j) : markerFault fr = false ∧ sectorOfByte (byteAt fr 2) = some j := by
  refine ⟨?_, by rw [h.sector]; exact sectorOfByte_of j⟩
  unfold markerFault
  rw [h.marker, h.cls]
  have : ¬ fr.length < 6 := by have := h.length; omega
  simp [this]

theorem intake_pass {fr : Frame} (hm : s.mode = .running) (hu : UpstreamOf fr j) (hs : (s.sec j).InService) (hl : layoutFault fr = none)
    (hst : isStale (s.sec j).reference (frameNumber fr) = false) : s.intake fr = s.passIntake j fr := by
  unfold State.intake
  rw [hm]; try dsimp only
  rw [(upstream_header hu).1, if_neg (by decide), (upstream_header hu).2]; try dsimp only
  rw [if_pos ((served_iff _).2 hs)]
  unfold State.intakeFault
  rw [hl]; try dsimp only
  rw [hst]; rfl

theorem first_pass {fr : Frame} (hn : s.notices = []) (h : (s.emit fr).intake fr = t) : exec (.upstreamFrame fr true) s = .next t := by
  simp only [exec, execUpstreamFrame, if_true]
  rw [emitNotices_nil (by exact hn), h]

theorem stale_gap {d : Nat} {n r : FrameNo} (hd : d = (n - r).toNat) (h1 : 1 ≤ d) (h2 : d ≤ 32767) : isStale (some r) n = false ∧ isGap (some r) n = decide (2 ≤ d) := by
  unfold isStale isGap distance
  dsimp only
  rw [← hd]
  constructor
  · simp; omega
  · by_cases h : 2 ≤ d <;> simp [h, h2]

theorem begin_eq {z : State} {i : Fin 2} {R : SectorRec} (bank f) (ha : z.ladder.active = some i) :
    (z.setSec j R).beginEvaluation j bank f = (z.modBank i fun b => { b with holds := b.holds + 1 }).setSec j { R with evaluation := some { bank := bank, frame := f, held := i } } := by
  unfold State.beginEvaluation
  have : (z.setSec j R).ladder.active = some i := ha
  simp only [this, Option.getD_some]
  have e1 : ((z.setSec j R).takeHold i) = (z.modBank i fun b => { b with holds := b.holds + 1 }).setSec j R := rfl
  rw [e1, modSec_setSec]

theorem framePassed_plain {z : State} {r : SectorRec} (hzr : z.sec j = r) (hb : r.state ≠ .blind) : z.framePassed j = z.setSec j { r with blindCounter := 0 } := by
  unfold State.framePassed
  dsimp only
  rw [State.modSec_sec_same, hzr, if_neg hb, State.modSec, hzr]

theorem framePassed_blind {z : State} {r : SectorRec} {w : WorkState} (hzr : z.sec j = r) (hzn : z.notices = []) (hb : r.state = .blind) (hp : r.prior = some w) :
   z.framePassed j = ({ z with notices := [.sector j] } : State).setSec j { r with state := w.toSector, prior := none, blindCounter := 0, progressCounter := 0 } := by
  unfold State.framePassed
  dsimp only
  rw [State.modSec_sec_same, hzr, if_pos hb]
  unfold State.returnToPrior State.enterSector
  simp only [State.modSec_sec_same, hzr, hp, Option.getD_some]
  rw [if_neg (by rw [hb]; cases w <;> decide)]
  simp only [State.modSec, hzr, State.setSec_sec_same, setSec_setSec, SectorRec.enter]
  rw [if_neg (by rw [hb]; cases w <;> decide)]
  unfold State.offerSector
  rw [if_neg (by show NoticeItem.sector j ∉ z.notices; rw [hzn]; simp)]
  show State.mk _ _ _ _ _ _ (z.notices ++ _) _ _ _ _ = _
  rw [hzn]; rfl

theorem clear_fold (l : List NoticeItem) : ∀ (s : State), ∃ ts, l.foldl State.clearPending s = { s with terminals := ts } ∧
   ∀ k, ({ s with terminals := ts } : State).term k = if .terminal k ∈ l then { s.term k with noticePending := false } else s.term k := by
  induction l with
  | nil => intro s; exact ⟨s.terminals, rfl, fun k => by simp⟩
  | cons x xs ih =>
    intro s
    rw [List.foldl_cons]
    cases x with
    | sector i =>
      obtain ⟨ts, h1, h2⟩ := ih s
      exact ⟨ts, h1, fun k => by rw [h2]; simp⟩
    | terminal i =>
      obtain ⟨ts, h1, h2⟩ := ih (s.setTerm i { s.term i with noticePending := false })
      refine ⟨ts, h1, fun k => ?_⟩
      have := h2 k
      refine this.trans ?_
      rw [State.setTerm_term]
      by_cases hk : i = k
      · subst hk; simp
      · simp [hk, Ne.symm hk]

/-- What intake leaves alone: the records of the terminals, the links and the start-up record; notices are only added. -/
structure OnlyIntake (s t : State) : Prop where
  terminals : t.terminals = s.terminals
  out : t.controllerOut = s.controllerOut
  notices : s.notices <+: t.notices
  rest : t.mode = s.mode ∧ t.startUp = s.startUp ∧ t.transit = s.transit ∧ t.radioOut = s.radioOut ∧ t.pending = s.pending

theorem OnlyIntake.refl (s : State) : OnlyIntake s s := ⟨rfl, rfl, List.prefix_rfl, rfl, rfl, rfl, rfl, rfl⟩

theorem OnlyIntake.trans (a : OnlyIntake s t) (b : OnlyIntake t u) : OnlyIntake s u :=
  ⟨b.1.trans a.1, b.2.trans a.2, a.3.trans b.3, b.4.1.trans a.4.1, b.4.2.1.trans a.4.2.1, b.4.2.2.1.trans a.4.2.2.1, b.4.2.2.2.1.trans a.4.2.2.2.1, b.4.2.2.2.2.trans a.4.2.2.2.2⟩

theorem fault_quiet (s : State) (f) : OnlyIntake s (s.offerFault f) := by
  rw [offerFault_getD]; exact ⟨rfl, rfl, List.prefix_rfl, rfl, rfl, rfl, rfl, rfl⟩

theorem modSec_quiet (s : State) (j f) : OnlyIntake s (s.modSec j f) := ⟨rfl, rfl, List.prefix_rfl, rfl, rfl, rfl, rfl, rfl⟩

theorem offerSector_quiet (s : State) (j) : OnlyIntake s (s.offerSector j) := by
  unfold State.offerSector; split
  · exact OnlyIntake.refl _
  · exact ⟨rfl, rfl, List.prefix_append _ _, rfl, rfl, rfl, rfl, rfl⟩

theorem enterSector_quiet (s : State) (j st) : OnlyIntake s (s.enterSector j st) := by
  unfold State.enterSector; split
  · exact OnlyIntake.refl _
  · exact (modSec_quiet _ _ _).trans (offerSector_quiet _ _)

theorem begin_quiet (s : State) (j b f) : OnlyIntake s (s.beginEvaluation j b f) := ⟨rfl, rfl, List.prefix_rfl, rfl, rfl, rfl, rfl, rfl⟩

theorem intake_quiet (s : State) (fr) : OnlyIntake s (s.intake fr) := by
  unfold State.intake
  split
  · exact OnlyIntake.refl _
  · exact OnlyIntake.refl _
  · split
    · exact fault_quiet _ _
    · split
      · exact fault_quiet _ _
      · next j _ =>
        split
        · split
          · exact fault_quiet _ _
          · have h1 : OnlyIntake s (if isGap (s.sec j).reference (frameNumber fr) then s.offerFault (faultFrom fr .sequence none) else s) := by
              split
              · exact fault_quiet _ _
              · exact OnlyIntake.refl _
            refine h1.trans ?_
            unfold State.passIntake
            generalize (if isGap (s.sec j).reference (frameNumber fr) then s.offerFault (faultFrom fr .sequence none) else s) = z
            dsimp only
            have h2 : OnlyIntake z (z.framePassed j) := by
              unfold State.framePassed; dsimp only
              refine (modSec_quiet z j fun r => { r with blindCounter := 0 }).trans ?_
              split
              · exact (modSec_quiet _ _ _).trans (enterSector_quiet _ _ _)
              · exact OnlyIntake.refl _
            refine h2.trans ?_
            unfold State.bankFrame
            split
            · exact begin_quiet _ _ _ _
            · split
              · exact modSec_quiet _ _ _
              · exact fault_quiet _ _
        · exact OnlyIntake.refl _

/-! ## The layout checks -/

theorem fit_iff (fr : Frame) (i off : Nat) (h : off = 6 + 9 * nat8 fr 5 + ((List.range i).map (payloadLength fr)).sum) :
   DescriptorFits fr i ↔ ¬ fr.length < 6 + 9 * (i + 1) ∧ ¬ (0 < payloadLength fr i ∧ fr.length < off + payloadLength fr i) := by
  unfold DescriptorFits
  rw [List.range_succ, List.map_append, List.sum_append]
  simp only [List.map_cons, List.map_nil, List.sum_cons, List.sum_nil]
  omega

theorem unfit_next (fr : Frame) : ∀ (todo i off : Nat), off = 6 + 9 * nat8 fr 5 + ((List.range i).map (payloadLength fr)).sum →
    (∀ r, firstUnfit fr todo i off = some r → i ≤ r ∧ r < i + todo ∧ ¬ DescriptorFits fr r ∧ ∀ m, i ≤ m → m < r → DescriptorFits fr m)
    ∧ (firstUnfit fr todo i off = none → ∀ m, i ≤ m → m < i + todo → DescriptorFits fr m) := by
  intro todo
  induction todo with
  | zero => intro i off h; exact ⟨fun r h => by simp [firstUnfit] at h, fun _ m h1 h2 => by omega⟩
  | succ n ih =>
    intro i off h
    have hf := fit_iff fr i off h
    have hnext : off + payloadLength fr i = 6 + 9 * nat8 fr 5 + ((List.range (i + 1)).map (payloadLength fr)).sum := by
      rw [List.range_succ, List.map_append, List.sum_append]; simp; omega
    obtain ⟨a, b⟩ := ih (i + 1) _ hnext
    unfold firstUnfit
    by_cases h1 : fr.length < 6 + 9 * (i + 1)
    · rw [if_pos h1]
      refine ⟨fun r hr => ?_, fun h => by simp at h⟩
      obtain rfl : i = r := by simpa using hr
      exact ⟨le_refl _, by omega, fun h => (hf.1 h).1 h1, fun m h2 h3 => by omega⟩
    · rw [if_neg h1]
      by_cases h2 : 0 < payloadLength fr i ∧ fr.length < off + payloadLength fr i
      · rw [if_pos h2]
        refine ⟨fun r hr => ?_, fun h => by simp at h⟩
        obtain rfl : i = r := by simpa using hr
        exact ⟨le_refl _, by omega, fun h => (hf.1 h).2 h2, fun m h2 h3 => by omega⟩
      · rw [if_neg h2]
        have hfi : DescriptorFits fr i := hf.2 ⟨h1, h2⟩
        refine ⟨fun r hr => ?_, fun h m h3 h4 => ?_⟩
        · obtain ⟨r1, r2, r3, r4⟩ := a r hr
          refine ⟨by omega, by omega, r3, fun m h3 h4 => ?_⟩
          rcases Nat.eq_or_lt_of_le h3 with rfl | h3
          · exact hfi
          · exact r4 m h3 h4
        · rcases Nat.eq_or_lt_of_le h3 with rfl | h3
          · exact hfi
          · exact b h m h3 (by omega)

theorem right_iff (fr : Frame) (i : Nat) : lengthFits (descriptorKind fr i) (payloadLength fr i) = true ↔ DescriptorRight fr i := by
  unfold DescriptorRight descriptorKind burstKindOf
  dsimp only
  generalize byteAt fr (6 + 9 * i + 2) = b
  split
  · next h => subst h; simp [lengthFits]
  · next h1 =>
    split
    · next h => subst h; simp [lengthFits]
    · next h2 =>
      split
      · next h => subst h; simp [lengthFits]
      · next h3 => split <;> simp [lengthFits, show ¬ b = 1#8 from h1, show ¬ b = 2#8 from h2, show ¬ b = 3#8 from h3]

/-! ## The walk step -/

theorem resolve_of (h : (((s.sec j).addressMap.find? fun p => p.1 == a) = some (a, k))) : s.resolve j a = some k := by
  unfold State.resolve; rw [h]; rfl

theorem walk_eq {e : Evaluation} {d : Burst} (h : s.WalksTo j e d k) : exec (.descriptorWalkStep j) s = .next ((s.movedOn j { e with walked := e.walked + 1 }).actOn j k e d) := by
  simp only [exec, execDescriptorWalkStep]
  rw [h.flight]; dsimp only
  rw [h.descriptor]; dsimp only
  have : (s.modEvaluation j fun e => { e with walked := e.walked + 1 }) = s.movedOn j { e with walked := e.walked + 1 } := by
    unfold State.modEvaluation State.movedOn; rw [State.modSec, h.flight]; rfl
  rw [this]
  have hr : (s.movedOn j { e with walked := e.walked + 1 }).resolve j d.address = some k := by
    unfold State.resolve State.movedOn; rw [State.setSec_sec_same]; dsimp only; rw [h.paired]; rfl
  rw [hr]

end Sys2Proof.Machine
end

