-- ==== Sys2Proof/Laws/Reports.lean ====
section
/-!
SUPPORT. The walk step on one descriptor: reports, misses, losses and the ranging judgment.
-/

set_option Elab.async false

namespace Sys2Proof.Machine

variable {s t u v : State} {j : Sector} {k : Slot}

/-- The state with the notices after an offer of slot `k`. -/
def noticed (s : State) (k : Slot) : State := if .terminal k ∈ s.notices then s else { s with notices := s.notices ++ [.terminal k] }

/-- A record after an offer of slot `k`. -/
def noticedAs (s : State) (k : Slot) (t : Terminal) : Terminal := if .terminal k ∈ s.notices then t else { t with noticePending := true }

theorem offer_set (s : State) (k : Slot) (T : Terminal) : (s.setTerm k T).offerTerminal k = (noticed s k).setTerm k (noticedAs s k T) := by
  unfold noticed noticedAs
  by_cases h : NoticeItem.terminal k ∈ s.notices
  · rw [if_pos h, if_pos h]; exact if_pos h
  · rw [if_neg h, if_neg h]
    refine (if_neg h).trans ?_
    exact modTerm_setTerm ({ s with notices := s.notices ++ [.terminal k] } : State) k T _

theorem offer_set_again (s : State) (k : Slot) (T : Terminal) : ((noticed s k).setTerm k T).offerTerminal k = (noticed s k).setTerm k T := by
  unfold noticed
  by_cases h : NoticeItem.terminal k ∈ s.notices
  · rw [if_pos h]; exact if_pos h
  · rw [if_neg h]; exact if_pos (by simp)

theorem noticed_setSec (s : State) (j k R) : noticed (s.setSec j R) k = (noticed s k).setSec j R := by
  unfold noticed
  by_cases h : NoticeItem.terminal k ∈ s.notices
  · rw [if_pos h, if_pos (by exact h)]
  · rw [if_neg h, if_neg (by exact h)]; rfl

theorem noticedAs_setSec (s : State) (j k R T) : noticedAs (s.setSec j R) k T = noticedAs s k T := rfl

theorem noticed_sec (s : State) (j k) : (noticed s k).sec j = s.sec j := by unfold noticed; split <;> rfl

theorem noticed_active (s : State) (k) : (noticed s k).activeBank = s.activeBank := by unfold noticed; split <;> rfl

theorem noticed_term (s : State) (k k') : (noticed s k).term k' = s.term k' := by unfold noticed; split <;> rfl

theorem carrying_of (h : (s.term k).state ∈ [TermState.inService, .fading, .ramping, .climbing]) : (s.term k).state.carrying = true := by
  revert h; generalize (s.term k).state = st; cases st <;> simp [TermState.carrying]

/-- A request into an empty control queue joins it. -/
theorem request_empty {X : State} {R : SectorRec} {T : Terminal} {kind : MsgKind} (hj : T.sector = j) (hq : R.controlQueue = []) :
    ((X.setSec j R).setTerm k T).request k kind = ((X.setSec j { R with controlQueue := [{ slot := k, kind := kind, cls := T.classOf kind }] }).setTerm k T) := by
  unfold State.request
  have h1 : ((X.setSec j R).setTerm k T).sectorOf k = j := by rw [State.sectorOf, State.setTerm_term_same, hj]
  simp only [h1, State.setTerm_sec, State.setSec_sec_same, hq, State.setTerm_term_same]
  rw [if_neg (by simp [queuedFor]), if_pos (by simp [Config.controlQueueLimit])]
  show (((X.setTerm k T).setSec j R).modSec j _) = _
  rw [modSec_setSec, hq]; rfl

theorem report_base {e : Evaluation} {d : Burst} (hw : s.WalksTo j e d k) (hk : d.kind = .report) (hr : d.received = true) (hc : (s.term k).state.carrying = true) :
    exec (.descriptorWalkStep j) s = .next ((s.movedOn j { e with walked := e.walked + 1 }).receivedReport j k (s.bank e.held) d e.frame.number) := by
  rw [walk_eq hw]
  congr 1
  unfold State.actOn
  have ht : (s.movedOn j { e with walked := e.walked + 1 }).term k = s.term k := rfl
  simp only [ht, hk, hc, hr, if_true]; rfl

/-- A request that finds no entry of its terminal and kind, and room, joins. -/
theorem request_joins {X : State} {R : SectorRec} {T : Terminal} {kind : MsgKind} {cls : MsgClass} (hj : T.sector = j)
    (hn : queuedFor R.controlQueue k kind = false) (hl : R.controlQueue.length < 48) (hc : T.classOf kind = cls) :
    ((X.setSec j R).setTerm k T).request k kind =
      (X.setSec j { R with controlQueue := insertEntry { slot := k, kind := kind, cls := cls } R.controlQueue }).setTerm k T := by
  subst hc
  unfold State.request
  have h1 : ((X.setSec j R).setTerm k T).sectorOf k = j := by rw [State.sectorOf, State.setTerm_term_same, hj]
  simp only [h1, State.setTerm_sec, State.setSec_sec_same, State.setTerm_term_same]
  rw [if_neg (by rw [hn]; decide), if_pos (by exact hl)]
  show (((X.setTerm k T).setSec j R).modSec j _) = _
  rw [modSec_setSec]; rfl

/-- The stages of a report with what they ask of the control inserter: a POWER where P changed, a CORRECT where the timing error
exceeds the tolerance. -/
theorem stages_asked {X : State} {R : SectorRec} {b : LadderBank} {d : Burst} {x : Terminal} {corrects powers : List ControlEntry}
    (hR : X.sec j = R) (hx : x = stages1to8 R.config b d (X.term k)) (hj : x.sector = j)
    (hcor : corrects = if R.config.timingTolerance < d.timing.toInt.natAbs then [{ slot := k, kind := .correct, cls := .a }] else [])
    (hpow : powers = if x.power = (X.term k).power then [] else [{ slot := k, kind := .power, cls := .c }])
    (he : corrects ++ powers ≠ [] → R.controlQueue = []) :
    X.runStages j k b d = (X.setSec j { R with controlQueue := corrects ++ powers ++ R.controlQueue }).setTerm k x := by
  unfold State.runStages
  have hc : X.cfg j = R.config := by rw [State.cfg, hR]
  have h1 : X.modTerm k (stages1to8 R.config b d) = (X.setSec j R).setTerm k x := by
    rw [setSec_same j R hR, State.modTerm, ← hx]
  have h2 : timingOut R.config d = decide (R.config.timingTolerance < d.timing.toInt.natAbs) := rfl
  simp only [hc]
  rw [h1, State.setTerm_term_same, h2]
  by_cases hp : x.power = (X.term k).power <;> by_cases ht : R.config.timingTolerance < d.timing.toInt.natAbs
  · rw [if_pos hp] at hpow; rw [if_pos ht] at hcor; subst hpow; subst hcor
    have hq := he (by simp)
    simp only [hp, ne_eq, not_true, if_false, ht, decide_true, if_true, hq]
    rw [request_joins hj (by rw [hq]; rfl) (by rw [hq]; simp) rfl, hq]; rfl
  · rw [if_pos hp] at hpow; rw [if_neg ht] at hcor; subst hpow; subst hcor
    simp only [hp, ne_eq, not_true, if_false, ht, decide_false, List.nil_append, Bool.false_eq_true]
  · rw [if_neg hp] at hpow; rw [if_pos ht] at hcor; subst hpow; subst hcor
    have hq := he (by simp)
    simp only [hp, ne_eq, not_false_iff, if_true, ht, decide_true, hq]
    rw [request_joins hj (by rw [hq]; rfl) (by rw [hq]; simp) rfl, hq,
      request_joins hj (by simp [insertEntry, queuedFor, ControlEntry.isFor]) (by simp [insertEntry]) rfl]
    rfl
  · rw [if_neg hp] at hpow; rw [if_neg ht] at hcor; subst hpow; subst hcor
    have hq := he (by simp)
    simp only [hp, ne_eq, not_false_iff, if_true, ht, decide_false, Bool.false_eq_true, if_false, hq]
    rw [request_joins hj (by rw [hq]; rfl) (by rw [hq]; simp) rfl, hq]; rfl

theorem stages_keep (c b d) (t : Terminal) : (stages1to8 c b d t).state = t.state ∧ (stages1to8 c b d t).pendingShift = t.pendingShift ∧ (stages1to8 c b d t).sector = t.sector := by
  simp only [stages1to8, stage8, stage7, stages1to6, stage6, stages1to3, stage23, stage1, and_self]

theorem effectiveRung_none {t : Terminal} (h : t.pendingShift = none) : t.effectiveRung = t.rung ∧ t.announced = false := by
  unfold Terminal.effectiveRung Terminal.announced; rw [h]; exact ⟨rfl, rfl⟩

/-- A received report that no loss ends: its stages, its requests and its runs are done, and steps 4 to 6 follow (R91). -/
theorem report_runs {e : Evaluation} {d : Burst} {c : SectorConfig} {b : LadderBank} {x : Terminal} {q corrects powers : List ControlEntry}
    (hw : s.WalksTo j e d k) (hk : d.kind = .report) (hr : d.received = true) (hcar : (s.term k).state.carrying = true)
    (hc : c = (s.sec j).config) (hb : b = s.bank e.held) (hx : x = stages1to8 c b d (s.term k))
    (hcor : corrects = if c.timingTolerance < d.timing.toInt.natAbs then [{ slot := k, kind := .correct, cls := .a }] else [])
    (hpow : powers = if x.power = (s.term k).power then [] else [{ slot := k, kind := .power, cls := .c }])
    (hq : (s.sec j).controlQueue = q) (he : corrects ++ powers ≠ [] → q = []) (hlt : (Terminal.countRuns b x).floorRun < c.lossLimit) :
    exec (.descriptorWalkStep j) s = .next (((s.setSec j
      { s.sec j with evaluation := some { e with walked := e.walked + 1 }, controlQueue := corrects ++ powers ++ q }).setTerm k
      (Terminal.countRuns b x)).afterRuns j k b) := by
  subst hc; subst hb; subst hq
  have hj : x.sector = j := by rw [hx, (stages_keep _ _ d _).2.2]; exact State.sectorOf_of_belongs hw.home
  rw [report_base hw hk hr hcar]
  unfold State.receivedReport
  dsimp only
  rw [stages_asked (X := s.movedOn j { e with walked := e.walked + 1 }) (R := { s.sec j with evaluation := some { e with walked := e.walked + 1 } }) (State.setSec_sec_same _ _ _) hx hj hcor hpow he, modTerm_setTerm]
  have hu : (s.movedOn j { e with walked := e.walked + 1 }).setSec j { s.sec j with evaluation := some { e with walked := e.walked + 1 }, controlQueue := corrects ++ powers ++ (s.sec j).controlQueue } =
      s.setSec j { s.sec j with evaluation := some { e with walked := e.walked + 1 }, controlQueue := corrects ++ powers ++ (s.sec j).controlQueue } := setSec_setSec _ _ _ _
  dsimp only
  rw [hu, if_neg]
  rw [State.cfg, State.setTerm_sec, State.setTerm_term_same, State.setSec_sec_same]
  exact Nat.not_le.2 hlt

theorem noticedAs_eq (s : State) (k) (T) : noticedAs s k T = Terminal.offered s.notices k T := by
  unfold noticedAs Terminal.offered; rfl

theorem noticed_mem (s : State) (k) : .terminal k ∈ (noticed s k).notices := by
  unfold noticed; split
  · next h => exact h
  · simp

theorem noticed_around (s : State) (k) : s.SameAround (noticed s k) ∧ (noticed s k).controllerOut = s.controllerOut := by
  unfold noticed; split <;> exact ⟨⟨rfl, rfl, rfl, rfl, rfl, rfl, rfl⟩, rfl⟩

theorem noticed_sectors (s : State) (k) : (noticed s k).sectors = s.sectors := by
  unfold noticed; split <;> rfl

theorem noticed_notices (s : State) (k T) : (noticed s k).notices = ((s.setTerm k T).offerTerminal k).notices := by
  rw [offer_set]; rfl

theorem toState_set (X : State) (k : Slot) (T : Terminal) (st) (h1 : T.state ≠ st) (h2 : T.state ≠ .empty) :
    (X.setTerm k T).toState k st = (noticed X k).setTerm k (noticedAs X k { T with state := st }) := by
  rw [toState_change]
  · rw [State.setTerm_term_same, setTerm_setTerm, offer_set]
  · rw [State.setTerm_term_same]; exact h1
  · rw [State.setTerm_term_same]; exact h2

theorem toState_set_again (X : State) (k : Slot) (T : Terminal) (st) (h1 : T.state ≠ st) (h2 : T.state ≠ .empty) :
    ((noticed X k).setTerm k T).toState k st = (noticed X k).setTerm k { T with state := st } := by
  rw [toState_change]
  · rw [State.setTerm_term_same, setTerm_setTerm, offer_set_again]
  · rw [State.setTerm_term_same]; exact h1
  · rw [State.setTerm_term_same]; exact h2

theorem miss_base {e : Evaluation} {d : Burst} (hw : s.WalksTo j e d k) (hk : d.kind = .report) (hr : d.received = false) (hc : (s.term k).state.carrying = true) :
    exec (.descriptorWalkStep j) s = .next ((s.movedOn j { e with walked := e.walked + 1 }).miss j k e.frame.number) := by
  rw [walk_eq hw]
  congr 1
  unfold State.actOn
  have ht : (s.movedOn j { e with walked := e.walked + 1 }).term k = s.term k := rfl
  simp only [ht, hk, hc, hr, if_true]; rfl

theorem discard_set {X : State} {T : Terminal} (h : ∀ x ∈ (X.sec T.sector).controlQueue, x.slot ≠ k) :
    (X.setTerm k T).discard k = X.setTerm k { T with owed := {} } := by
  unfold State.discard
  have h1 : (X.setTerm k T).sectorOf k = T.sector := by rw [State.sectorOf, State.setTerm_term_same]
  simp only [h1, State.setTerm_sec]
  have : ((X.sec T.sector).controlQueue.filter fun e => e.slot == k) = [] := by
    rw [List.filter_eq_nil_iff]; intro x hx; simpa using h x hx
  rw [this, modTerm_setTerm]; rfl

theorem insert_split {cls : Slot → Fin 4} {front back : List Slot} (h1 : ∀ x ∈ front, cls x ≤ cls k) (h2 : ∀ x ∈ back, cls k < cls x) :
    insertByClass cls k (front ++ back) = front ++ k :: back := by
  induction front with
  | nil =>
    cases back with
    | nil => rfl
    | cons x xs =>
      have := h2 x (by simp)
      simp only [List.nil_append, insertByClass]; rw [if_neg (by omega)]
  | cons x xs ih =>
    simp only [List.cons_append, insertByClass]
    rw [if_pos (h1 x (by simp)), ih (fun y hy => h1 y (by simp [hy]))]

theorem handed_eq {e : Evaluation} : (s.movedOn j { e with walked := e.walked + 1 }).markHanded j k = s.movedOn j { e with walked := e.walked + 1, handed := k :: e.handed } := by
  unfold State.markHanded State.modEvaluation State.movedOn
  rw [modSec_setSec]; rfl

theorem ranging_base {e : Evaluation} {d : Burst} (hw : s.WalksTo j e d k) (hk : d.kind = .ranging) (h1 : (s.term k).state = .ranging) (h2 : (s.term k).expectedBurst = some e.frame.number) :
    exec (.descriptorWalkStep j) s = .next ((s.movedOn j { e with walked := e.walked + 1, handed := k :: e.handed }).judgeRanging j k (s.bank e.held) d) := by
  rw [walk_eq hw]
  congr 1
  unfold State.actOn
  have ht : (s.movedOn j { e with walked := e.walked + 1 }).term k = s.term k := rfl
  simp only [ht, hk]
  rw [if_pos ⟨h1, h2⟩, handed_eq]; rfl

theorem recover_eq {Z : State} {Q : SectorRec} (hZ : Z.sec j = Q) (ho : Q.state = .outage) :
    Z.recover j = (Z.setSec j { Q with state := .recovering, progressCounter := 0, lossLog := [], releaseCursor := Z.lowestSlot j, lead := none, leadFailures := 0, probeTimer := 0 }).offerSector j := by
  unfold State.recover State.enterWorking
  have h1 : (Z.modSec j fun r => { r with lossLog := [], releaseCursor := Z.lowestSlot j, lead := none, leadFailures := 0, probeTimer := 0 }) = Z.setSec j { Q with lossLog := [], releaseCursor := Z.lowestSlot j, lead := none, leadFailures := 0, probeTimer := 0 } := by
    rw [State.modSec, hZ]
  rw [h1, State.setSec_sec_same]
  rw [if_neg (by dsimp only; rw [ho]; decide)]
  unfold State.enterSector
  rw [State.setSec_sec_same, if_neg (by dsimp only [WorkState.toSector]; rw [ho]; decide), modSec_setSec]
  unfold SectorRec.enter
  rw [if_neg (by dsimp only [WorkState.toSector]; rw [ho]; decide)]; rfl

/-! ## The rung decisions and the climb (R97, R100, R104) -/

/-- The entries a report can have asked for before its rung decisions. -/
structure Asked (k : Slot) (corrects powers : List ControlEntry) : Prop where
  corrects : corrects = [] ∨ corrects = [{ slot := k, kind := .correct, cls := .a }]
  powers : powers = [] ∨ powers = [{ slot := k, kind := .power, cls := .c }]

theorem Asked.none {corrects powers : List ControlEntry} (h : Asked k corrects powers) :
    queuedFor (corrects ++ powers) k .shift = false ∧ (corrects ++ powers).length < 48 := by
  rcases h.corrects with h1 | h1 <;> rcases h.powers with h2 | h2 <;> subst h1 <;> subst h2 <;>
    simp [queuedFor, ControlEntry.isFor]

theorem Asked.shiftB {corrects powers : List ControlEntry} (h : Asked k corrects powers) :
    insertEntry { slot := k, kind := .shift, cls := .b } (corrects ++ powers) =
      corrects ++ [{ slot := k, kind := .shift, cls := .b }] ++ powers := by
  rcases h.corrects with h1 | h1 <;> rcases h.powers with h2 | h2 <;> subst h1 <;> subst h2 <;> rfl

theorem Asked.shiftD {corrects powers : List ControlEntry} (h : Asked k corrects powers) :
    insertEntry { slot := k, kind := .shift, cls := .d } (corrects ++ powers) =
      corrects ++ powers ++ [{ slot := k, kind := .shift, cls := .d }] := by
  rcases h.corrects with h1 | h1 <;> rcases h.powers with h2 | h2 <;> subst h1 <;> subst h2 <;> rfl

variable {X : State} {R : SectorRec} {T : Terminal} {a b : LadderBank} {corrects powers : List ControlEntry}

theorem bound_active (ha : X.activeBank = some a) (T : Terminal) (n : Nat) : (X.setTerm k T).boundRung n = min n a.top := by
  unfold State.boundRung; rw [show (X.setTerm k T).activeBank = some a from ha]

/-- A drop that a report decides (R97, R101). -/
theorem decide_drop (hR : X.sec j = R) (hj : T.sector = j) (hps : T.pendingShift = none) (ha : X.activeBank = some a)
    (hd : 0 < T.rung ∧ (belowDrop b T || onset R.config b T) = true) (hq : R.controlQueue = corrects ++ powers)
    (hk : Asked k corrects powers) :
    (X.setTerm k T).decideRung j k b =
      (X.setSec j { R with controlQueue := corrects ++ [{ slot := k, kind := .shift, cls := .b }] ++ powers }).setTerm k
        { T with
          climbDwell := 0, pendingShift := some { target := min (T.rung - 1) a.top }
          sticky := { T.sticky with onsetDrop := T.sticky.onsetDrop || (!belowDrop b T && onset R.config b T) } } := by
  unfold State.decideRung
  have hc : (X.setTerm k T).cfg j = R.config := by rw [State.cfg, State.setTerm_sec, hR]
  simp only [hc, State.setTerm_term_same, (effectiveRung_none hps).1]
  rw [if_pos hd, modTerm_setTerm]
  unfold State.shiftTo
  rw [bound_active ha, modTerm_setTerm]
  nth_rewrite 1 [← setSec_same j R hR]
  rw [request_joins (cls := .b) (by exact hj) (by rw [hq]; exact hk.none.1) (by rw [hq]; exact hk.none.2) (by exact if_pos (by show min (T.rung - 1) a.top < T.rung; have := hd.1; omega)), hq, hk.shiftB]

/-- A climb that a report decides (R100, R101). -/
theorem decide_climb (hR : X.sec j = R) (hj : T.sector = j) (hps : T.pendingShift = none) (ha : X.activeBank = some a)
    (hd : ¬(0 < T.rung ∧ (belowDrop b T || onset R.config b T) = true)) (hcc : T.climbCondition R.config b = true)
    (hdw : T.governingDwell R.config ≤ T.climbDwell + 1) (hr : T.rung ≤ a.top) (hq : R.controlQueue = corrects ++ powers)
    (hk : Asked k corrects powers) :
    (X.setTerm k T).decideRung j k b =
      (X.setSec j { R with controlQueue := corrects ++ powers ++ [{ slot := k, kind := .shift, cls := .d }] }).setTerm k
        { T with climbDwell := 0, pendingShift := some { target := min (T.rung + 1) a.top } } := by
  unfold State.decideRung
  have hc : (X.setTerm k T).cfg j = R.config := by rw [State.cfg, State.setTerm_sec, hR]
  simp only [hc, State.setTerm_term_same, (effectiveRung_none hps).1]
  rw [if_neg hd]
  simp only [hcc, if_true]
  rw [if_pos ⟨trivial, hdw⟩, modTerm_setTerm]
  unfold State.shiftTo
  rw [bound_active ha, modTerm_setTerm]
  nth_rewrite 1 [← setSec_same j R hR]
  rw [request_joins (cls := .d) (by exact hj) (by rw [hq]; exact hk.none.1) (by rw [hq]; exact hk.none.2) (by exact if_neg (by show ¬ min (T.rung + 1) a.top < T.rung; omega)), hq, hk.shiftD]

/-- A report that decides neither a drop nor a climb (R100). -/
theorem decide_dwell (hR : X.sec j = R) (hps : T.pendingShift = none)
    (hd : ¬(0 < T.rung ∧ (belowDrop b T || onset R.config b T) = true))
    (hcc : T.climbCondition R.config b = true → T.climbDwell + 1 < T.governingDwell R.config) :
    (X.setTerm k T).decideRung j k b =
      X.setTerm k { T with climbDwell := if T.climbCondition R.config b = true then T.climbDwell + 1 else 0 } := by
  unfold State.decideRung
  have hc : (X.setTerm k T).cfg j = R.config := by rw [State.cfg, State.setTerm_sec, hR]
  simp only [hc, State.setTerm_term_same, (effectiveRung_none hps).1]
  rw [if_neg hd]
  by_cases h : T.climbCondition R.config b = true
  · have := hcc h
    rw [if_pos h, if_neg (by rintro ⟨_, h'⟩; omega), modTerm_setTerm]
  · rw [if_neg h, if_neg (by rintro ⟨h', _⟩; exact h h'), modTerm_setTerm]

/-- The climb goal of a CLIMBING terminal without a kept degraded_cap bound (R98). -/
theorem climbing_bound {c : SectorConfig} {b : LadderBank} {T : Terminal} (h1 : T.state = .climbing) (h2 : T.capKept = false) :
    T.climbBound c b = min (min (min T.maxRung b.top) (if T.sticky.degraded = true then c.degradedCap else b.top)) (T.restoreRung.getD b.top) := by
  unfold Terminal.climbBound Terminal.climbCap
  rw [h1, h2, Bool.or_false]
  cases T.restoreRung with
  | none => simp only [Option.getD_none]; split <;> omega
  | some r => simp only [Option.getD_some, if_true]; split <;> omega

/-- The climb of a CLIMBING terminal after the rung decisions of a report (R104). -/
theorem climb_counted {goal : Nat} {st : TermState} (hR : X.sec j = R) (hs : T.state = .climbing) (hg : T.climbBound R.config b = goal)
    (hst : st = if 0 < T.missRun ∨ 0 < T.floorRun then .fading else .inService) :
    (X.setTerm k T).countClimb j k b =
      if goal ≤ T.rung then State.offerTerminal (X.setTerm k { T with restoreRung := none, state := st }) k
      else if R.config.climbTimeout ≤ T.phaseReports + 1 then
        State.offerTerminal (X.setTerm k { T with phaseReports := T.phaseReports + 1, state := st }) k
      else X.setTerm k { T with phaseReports := T.phaseReports + 1 } := by
  unfold State.countClimb
  have hc : ∀ t, (X.setTerm k t).cfg j = R.config := fun t => by rw [State.cfg, State.setTerm_sec, hR]
  have hat : T.atGoal R.config b = decide (goal ≤ T.rung) := by
    unfold Terminal.atGoal; rw [hs, hg]; rfl
  have hsne : st ≠ .climbing ∧ st ≠ .empty := by rw [hst]; split <;> exact ⟨by decide, by decide⟩
  simp only [hc, State.setTerm_term_same, hat, decide_eq_true_eq]
  by_cases h : goal ≤ T.rung
  · rw [if_pos h, if_pos h]
    unfold State.goalTest State.enterService
    rw [State.setTerm_term_same, hc, hat, if_pos (by simpa using h), modTerm_setTerm, State.setTerm_term_same]
    have hsv : ({ T with restoreRung := none } : Terminal).serviceState = st := hst.symm
    rw [hsv, toState_set _ _ _ _ (by rw [show ({ T with restoreRung := none } : Terminal).state = .climbing from hs]; exact hsne.1.symm) (by rw [show ({ T with restoreRung := none } : Terminal).state = .climbing from hs]; decide), offer_set]
  · rw [if_neg h, if_neg h, modTerm_setTerm]
    simp only [hc, State.setTerm_term_same]
    by_cases h2 : R.config.climbTimeout ≤ T.phaseReports + 1
    · rw [if_pos h2, if_pos h2]
      unfold State.enterService
      rw [State.setTerm_term_same]
      have hsv : ({ T with phaseReports := T.phaseReports + 1 } : Terminal).serviceState = st := hst.symm
      rw [hsv, toState_set _ _ _ _ (by rw [show ({ T with phaseReports := T.phaseReports + 1 } : Terminal).state = .climbing from hs]; exact hsne.1.symm) (by rw [show ({ T with phaseReports := T.phaseReports + 1 } : Terminal).state = .climbing from hs]; decide), offer_set]
    · rw [if_neg h2, if_neg h2]

end Sys2Proof.Machine
end

