-- ==== Sys2Proof/Laws/Attempts.lean ====
section
/-!
SUPPORT. The end of an attempt, the comparison of a payload and the sweep step on one member.
-/

set_option Elab.async false

namespace Sys2Proof.Machine

variable {s t u v : State} {j : Sector} {k : Slot}

theorem leave_set {X : State} {R : SectorRec} {T : Terminal} (hj : T.sector = j) :
    ((X.setSec j R).setTerm k T).leave k = (X.setSec j (R.drop k)).setTerm k { T with expectedBurst := none } := by
  unfold State.leave
  have h1 : ((X.setSec j R).setTerm k T).sectorOf k = j := by rw [State.sectorOf, State.setTerm_term_same, hj]
  rw [h1]
  show ((((X.setTerm k T).setSec j R).modSec j _).modTerm k _) = _
  rw [modSec_setSec]
  show (((X.setSec j (R.drop k)).setTerm k T).modTerm k _) = _
  rw [modTerm_setTerm]

theorem drop_eq {R : SectorRec} {m : Evaluation} (h1 : k ∉ R.queue) (h2 : R.evaluation = some m) (h3 : without k m.swept = m.swept) :
    R.drop k = { R with window := R.window.filter fun i => i != k } := by
  unfold SectorRec.drop
  have hq : without k R.queue = R.queue := by
    unfold without; rw [List.filter_eq_self]; intro x hx; simp; rintro rfl; exact h1 hx
  have he : R.evaluation.map (Evaluation.forget k) = R.evaluation := by
    rw [h2]; simp only [Option.map_some]; unfold Evaluation.forget; rw [h3]
  rw [hq, he]; rfl

/-- A failed attempt below attempt_limit, of a terminal that is not the lead (R119, R120). -/
theorem fail_deferred {X : State} {R : SectorRec} {T : Terminal} {n : Nat} (hj : T.sector = j) (hl : R.lead ≠ some k) (hn : n = min (T.attemptCount + 1) 15) (hlt : n < R.config.attemptLimit) (hs : T.state ≠ .deferred ∧ T.state ≠ .empty) :
    ((X.setSec j R).setTerm k T).attemptFailure j k = (noticed (X.setSec j (R.drop k)) k).setTerm k (noticedAs X k { T with state := .deferred, attemptCount := n, expectedBurst := none, backoff := min (R.config.backoffBase * 2 ^ (n - 1)) R.config.backoffCap + k.val % 8 }) := by
  subst hn
  unfold State.attemptFailure
  have hil : ((X.setSec j R).setTerm k T).isOutageLead j k = false := by
    unfold State.isOutageLead; rw [State.setTerm_sec, State.setSec_sec_same]
    have : (R.lead == some k) = false := by simpa using hl
    rw [this]; rfl
  rw [hil, if_neg (by decide)]
  dsimp only
  rw [leave_set hj, modTerm_setTerm]
  dsimp only [Config.attemptCountLimit]
  have hcf : ∀ T, (((X.setSec j (R.drop k)).setTerm k T).cfg j) = R.config := fun T => by rw [State.cfg, State.setTerm_sec, State.setSec_sec_same]; rfl
  simp only [State.setTerm_term_same, hcf]
  rw [if_neg (by omega), modTerm_setTerm, toState_set _ _ _ _ (by exact hs.1) (by exact hs.2)]
  rfl

theorem fail_held {X : State} {R : SectorRec} {T : Terminal} {n : Nat} (hj : T.sector = j) (hl : R.lead ≠ some k) (hn : n = min (T.attemptCount + 1) 15) (hge : R.config.attemptLimit ≤ n) (hs : T.state ≠ .held ∧ T.state ≠ .empty)
   (hcq : ∀ x ∈ R.controlQueue, x.slot ≠ k) :
    ((X.setSec j R).setTerm k T).attemptFailure j k = (noticed (X.setSec j (R.drop k)) k).setTerm k (noticedAs X k { T with state := .held, attemptCount := n, expectedBurst := none, owed := {}, sticky := { T.sticky with exhausted := true } }) := by
  subst hn
  unfold State.attemptFailure
  have hil : ((X.setSec j R).setTerm k T).isOutageLead j k = false := by
    unfold State.isOutageLead; rw [State.setTerm_sec, State.setSec_sec_same]
    have : (R.lead == some k) = false := by simpa using hl
    rw [this]; rfl
  rw [hil, if_neg (by decide)]
  dsimp only
  rw [leave_set hj, modTerm_setTerm]
  dsimp only [Config.attemptCountLimit]
  have hcf : ∀ T, (((X.setSec j (R.drop k)).setTerm k T).cfg j) = R.config := fun T => by rw [State.cfg, State.setTerm_sec, State.setSec_sec_same]; rfl
  simp only [State.setTerm_term_same, hcf]
  rw [if_pos (by omega)]
  unfold State.setExhausted
  simp only [State.setTerm_term_same]
  have hd : ∀ (Z : State) (Q : Terminal), Z.sec j = R.drop k → Q.sector = j → (Z.setTerm k Q).discard k = Z.setTerm k { Q with owed := {} } := fun Z Q h1 h2 => by
    apply discard_set; rw [h2, h1]; exact hcq
  by_cases hx : T.sticky.exhausted = true
  · have hst : ({ T.sticky with exhausted := true } : StickyHealth) = T.sticky := by rw [← hx]
    rw [if_pos hx, hd _ _ (State.setSec_sec_same _ _ _) (by exact hj), toState_set _ _ _ _ (by exact hs.1) (by exact hs.2), hst]
    rfl
  · rw [if_neg hx, modTerm_setTerm, offer_set, hd _ _ (by rw [noticed_sec, State.setSec_sec_same]) (by unfold noticedAs; split <;> exact hj), toState_set_again]
    · congr 1
      simp only [noticedAs_setSec]
      by_cases h : NoticeItem.terminal k ∈ X.notices
      · have hh : ∀ T, noticedAs X k T = T := fun T => if_pos h
        simp only [hh]
      · have hh : ∀ T, noticedAs X k T = { T with noticePending := true } := fun T => if_neg h
        simp only [hh]
    · unfold noticedAs; split <;> exact hs.1
    · unfold noticedAs; split <;> exact hs.2

theorem fail_lead {X : State} {R : SectorRec} {T : Terminal} (hj : T.sector = j) (hl : R.lead = some k) (ho : R.state = .outage) (hlt : R.leadFailures + 1 < R.config.probeRotate) (hs : T.state ≠ .quiet ∧ T.state ≠ .empty)
   (hcq : ∀ x ∈ R.controlQueue, x.slot ≠ k) :
    ((X.setSec j R).setTerm k T).attemptFailure j k = (noticed (X.setSec j { R.drop k with leadFailures := R.leadFailures + 1 }) k).setTerm k (noticedAs X k { T with state := .quiet, filtered := none, history := [], roundCount := 0, power := 0, pendingAdjust := none, expectedBurst := none, owed := {} }) := by
  unfold State.attemptFailure
  have hil : ((X.setSec j R).setTerm k T).isOutageLead j k = true := by
    unfold State.isOutageLead; rw [State.setTerm_sec, State.setSec_sec_same]
    unfold SectorRec.working; rw [hl, ho]; simp
  rw [hil, if_pos rfl]
  unfold State.leadFailure
  dsimp only
  rw [leave_set hj, modTerm_setTerm]
  have hd : ∀ (Z : State) (Q : Terminal), Z.sec j = R.drop k → Q.sector = j → (Z.setTerm k Q).discard k = Z.setTerm k { Q with owed := {} } := fun Z Q h1 h2 => by
    apply discard_set; rw [h2, h1]; exact hcq
  rw [hd _ _ (State.setSec_sec_same _ _ _) (by exact hj), toState_set _ _ _ _ (by exact hs.1) (by exact hs.2), noticed_setSec]
  show (if _ then _ else (((noticed X k).setTerm k _).setSec j (R.drop k)).modSec j _) = _
  rw [if_neg, modSec_setSec, noticed_setSec]
  · rfl
  · show ¬ (((((noticed X k).setTerm k _).setSec j (R.drop k)).modSec j _).cfg j).probeRotate ≤ ((((((noticed X k).setTerm k _).setSec j (R.drop k)).modSec j _).sec j)).leadFailures
    rw [modSec_setSec, State.cfg, State.setSec_sec_same]
    show ¬ R.config.probeRotate ≤ R.leadFailures + 1
    omega

theorem block_take (seed : Nat) (l : List (List Byte)) (hl : ∀ x ∈ l, x.length = 16) : ∀ (i : Nat) (x : List Byte) (extra : List Byte), l[i]? = some x →
    receivedBlock (l.flatten ++ extra) i = some x := by
  induction l with
  | nil => intro i x extra h; simp at h
  | cons y ys ih =>
    intro i x extra h
    have hy : y.length = 16 := hl y (by simp)
    cases i with
    | zero =>
      obtain rfl : y = x := by simpa using h
      unfold receivedBlock
      rw [if_pos (by simp [hy])]
      simp [hy]
    | succ i =>
      have := ih (fun z hz => hl z (by simp [hz])) i x extra (by simpa using h)
      unfold receivedBlock at this ⊢
      have hlen : (List.flatten (y :: ys) ++ extra).length = 16 + (ys.flatten ++ extra).length := by simp [hy]
      have hdr : (List.flatten (y :: ys) ++ extra).drop (16 * (i + 1)) = (ys.flatten ++ extra).drop (16 * i) := by
        rw [List.flatten_cons, List.append_assoc, show 16 * (i + 1) = y.length + 16 * i by omega, List.drop_append]
        rw [List.drop_eq_nil_of_le (by omega)]; simp
      rw [hdr, hlen]
      split at this
      · next h1 => rw [if_pos (by omega)]; exact this
      · cases this

theorem verify_base {e : Evaluation} {d : Burst} (hw : s.WalksTo j e d k) (hk : d.kind = .verify) (h1 : (s.term k).state = .verifying) (h2 : (s.term k).expectedBurst = some e.frame.number) :
    exec (.descriptorWalkStep j) s = .next ((s.movedOn j { e with walked := e.walked + 1, handed := k :: e.handed }).judgeVerify j k d) := by
  rw [walk_eq hw]
  congr 1
  unfold State.actOn
  have ht : (s.movedOn j { e with walked := e.walked + 1 }).term k = s.term k := rfl
  simp only [ht, hk]
  rw [if_pos ⟨h1, h2⟩, handed_eq]

theorem sweep_eq {e : Evaluation} {st} (h : s.SweepsTo j e k st) :
    exec (.windowSweepStep j) s = .next ((s.movedOn j { e with swept := k :: e.swept }).sweepMember j k e) := by
  simp only [exec, execWindowSweepStep]
  rw [h.flight]; dsimp only
  have hd : e.walkDone = true := by unfold Evaluation.walkDone; simpa using h.walked
  rw [if_pos hd]
  obtain ⟨front, back, hw, hf, hk⟩ := h.turn
  have hn : nextMember (s.sec j).window e.swept = some k := by
    unfold nextMember
    rw [hw, List.find?_append]
    have : front.find? (fun k => !e.swept.contains k) = none := by
      rw [List.find?_eq_none]; intro x hx; simpa using hf x hx
    rw [this]
    simp [hk]
  rw [hn]; dsimp only
  have : (s.modEvaluation j fun e => { e with swept := k :: e.swept }) = s.movedOn j { e with swept := k :: e.swept } := by
    unfold State.modEvaluation State.movedOn; rw [State.modSec, h.flight]; rfl
  rw [this]

theorem replyFrames_nil (c tag st) : replyFrames c tag st [] = [soleReply c tag (statusCode st) []] := by rfl

end Sys2Proof.Machine
end

