-- ==== Sys2Proof/Laws/Readings.lean ====
section
/-!
SUPPORT. The arithmetic of the comparison, the parameters of requests and the bytes of the readback results.
-/

set_option Elab.async false

namespace Sys2Proof.Machine

variable {s t u v : State} {j : Sector} {k : Slot} {r : Request}

theorem round_unique {e q : Int} (h1 : (8 * q - e).natAbs ≤ 4) (h2 : (8 * q - e).natAbs = 4 → e.natAbs < (8 * q).natAbs) : roundEighth e = q := by
  unfold roundEighth
  split <;> omega

theorem ofNat_mod (n : Nat) : BitVec.ofNat 8 (n % 256) = BitVec.ofNat 8 n := by
  apply BitVec.eq_of_toNat_eq; simp

theorem fails_iff (seed : Nat) (payload : List Byte) (i : Nat) : blockFails seed payload i = true ↔ ¬(16 * (i + 1) ≤ payload.length
      ∧ ∀ j, j < 16 → payload[16 * i + j]? = some (BitVec.ofNat 8 ((seed + 29 * i + 7 * j) % 256))) := by
  unfold blockFails receivedBlock
  by_cases h : 16 * (i + 1) ≤ payload.length
  · rw [if_pos h]
    simp only [h, true_and, bne_iff_ne, ne_eq]
    rw [not_iff_not]
    constructor
    · intro he j hj
      have := congrArg (fun l => l[j]?) he
      simp only [List.getElem?_take, List.getElem?_drop, hj, if_true] at this
      rw [this]
      unfold patternBlock
      rw [List.getElem?_map, List.getElem?_range hj, ofNat_mod]; rfl
    · intro hj
      apply List.ext_getElem?
      intro n
      by_cases hn : n < 16
      · rw [List.getElem?_take, if_pos hn, List.getElem?_drop, hj n hn, ofNat_mod]
        unfold patternBlock
        rw [List.getElem?_map, List.getElem?_range hn]; rfl
      · rw [List.getElem?_take, if_neg hn]
        rw [List.getElem?_eq_none]; simp [patternBlock]; omega
  · rw [if_neg h]; simp [h]

theorem sorted_unique {a b : List Nat} (ha : a.Pairwise (· < ·)) (hb : b.Pairwise (· < ·)) (h : ∀ i, i ∈ a ↔ i ∈ b) : a = b := by
  have hp : a.Perm b := (List.perm_ext_iff_of_nodup (ha.imp fun h => ne_of_lt h) (hb.imp fun h => ne_of_lt h)).2 h
  exact hp.eq_of_pairwise (le := (· < ·)) (fun x y _ _ h1 h2 => absurd (lt_trans h1 h2) (lt_irrefl _)) ha hb

theorem serve_run {f : RequestKind} {body : List Byte → Answer} (hm : s.mode = .running) (hl : r.length.toNat ≤ 64) (hb : r.length.toNat ≤ r.bytes.length)
    (ht : takesLength f r.length.toNat = true) : s.serve f r body = answered f r (body (parameters r)) :=
  serve_ok (by rw [hm]; rfl) (by simp [lengthAccepted, hl, hb, ht])

theorem slot_params (h : ForSlot r k) : r.length.toNat = 2 ∧ 2 ≤ r.bytes.length ∧ slotAt (parameters r) 0 = some k := by
  obtain ⟨h1, rest, h2⟩ := h
  refine ⟨by rw [h1]; rfl, by rw [h2]; simp [bytesOf16, bytes16], ?_⟩
  have hp : parameters r = bytes16 (BitVec.ofNat 16 k.val) ++ [] := by
    unfold parameters; rw [h1, h2]; simp [bytesOf16, bytes16]
  have hw : nat16 (parameters r) 0 = k.val := by
    unfold nat16; rw [hp, bytes16_word]; simp; omega
  unfold slotAt
  simp only [hw]; simp

theorem sector_params (h : ForSector r j) : r.length.toNat = 1 ∧ 1 ≤ r.bytes.length ∧ sectorAt (parameters r) 0 = some j := by
  obtain ⟨h1, rest, h2⟩ := h
  refine ⟨by rw [h1]; rfl, by rw [h2]; simp, ?_⟩
  have hp : parameters r = [byteOf j.val] := by
    unfold parameters; rw [h1, h2]; simp
  unfold sectorAt
  rw [hp]; exact sectorOfByte_of j

theorem slot_serve {f : RequestKind} {body : List Byte → Answer} (hm : s.mode = .running) (h : ForSlot r k) (ht : takesLength f 2 = true) :
    s.serve f r body = answered f r (body (parameters r)) := by
  obtain ⟨h1, h2, _⟩ := slot_params h
  exact serve_run hm (by omega) (by omega) (by rw [h1]; exact ht)

theorem sector_serve {f : RequestKind} {body : List Byte → Answer} (hm : s.mode = .running) (h : ForSector r j) (ht : takesLength f 1 = true) :
    s.serve f r body = answered f r (body (parameters r)) := by
  obtain ⟨h1, h2, _⟩ := sector_params h
  exact serve_run hm (by omega) (by omega) (by rw [h1]; exact ht)

theorem answered_ok (f) (X : State) (rs : List Byte) (h : rs.length ≤ 192) : answered f r (X, some (.ok, rs)) = X.emit (soleReply (functionCode f) r.tag 0x00 rs) :=
  reply_sole _ _ _ _ _ h

theorem answered_accept (f) (X : State) : answered f r X.accept = X.emit (soleReply (functionCode f) r.tag 0x00 []) :=
  reply_sole _ _ _ _ _ (by simp)

theorem answered_refuse (f) (X : State) (st) : answered f r (X.refuse st) = X.emit (soleReply (functionCode f) r.tag (statusCode st) []) :=
  reply_sole _ _ _ _ _ (by simp)

theorem nat16_pair (l : List Byte) (i : Nat) : nat16 l i = 256 * (byteAt l i).toNat + (byteAt l (i + 1)).toNat := by
  unfold nat16 word16
  rw [BitVec.toNat_append, ← Nat.shiftLeft_add_eq_or_of_lt (BitVec.isLt _), Nat.shiftLeft_eq]; omega

theorem offerSector_emit (s : State) (j) (f : Frame) : (s.emit f).offerSector j = (s.offerSector j).emit f := by
  unfold State.offerSector State.emit
  by_cases h : NoticeItem.sector j ∈ s.notices
  · rw [if_pos h, if_pos (by exact h)]
  · rw [if_neg h, if_neg (by exact h)]

theorem setTerm_setSec_comm (s : State) (j k) (R T) : (s.setTerm k T).setSec j R = (s.setSec j R).setTerm k T := rfl

theorem resolve_isSome (s : State) (j) (a : BitVec 12) : (s.resolve j a).isSome = true ↔ ∃ m, (a, m) ∈ (s.sec j).addressMap := by
  unfold State.resolve
  rw [Option.isSome_map, List.find?_isSome]
  constructor
  · rintro ⟨⟨x, y⟩, h1, h2⟩
    simp only [beq_iff_eq] at h2
    subst h2; exact ⟨y, h1⟩
  · rintro ⟨m, h⟩; exact ⟨_, h, by simp⟩

theorem standby_eq {n : Fin 2} (h1 : s.ladder.active = none → n = 0) (h2 : ∀ a, s.ladder.active = some a → n ≠ a) : s.ladder.standby = n := by
  unfold LadderStore.standby
  cases h : s.ladder.active with
  | none => exact (h1 h).symm
  | some a =>
    have := h2 a h
    unfold otherBank; dsimp only
    clear h h1 h2; revert this; revert n a; decide

theorem slot_bad {hi lo : Byte} {rest : List Byte} (hl : r.length = 2) (hb : r.bytes = hi :: lo :: rest) (h : 320 ≤ 256 * hi.toNat + lo.toNat) :
    slotAt (parameters r) 0 = none := by
  have hp : parameters r = [hi, lo] := by unfold parameters; rw [hl, hb]; simp
  unfold slotAt
  rw [dif_neg]
  rw [hp]
  have := nat16_pair [hi, lo] 0
  simp [byteAt] at this
  omega

theorem sector_bad {b : Byte} {rest ps : List Byte} (hp : ps = b :: rest) (h : 12 ≤ b.toNat) : sectorAt ps 0 = none := by
  unfold sectorAt
  rw [hp]
  show sectorOfByte b = none
  unfold sectorOfByte; rw [dif_neg (by omega)]

theorem right_iff_accepted (c : SectorConfig) : c.Right ↔ c.Accepted := by
  unfold SectorConfig.Accepted SectorConfig.inRange
  simp only [Bool.and_eq_true, decide_eq_true_eq]
  constructor
  · intro h
    have := h.windowSize; have := h.grantLead; have := h.filterShift; have := h.fadeHorizon; have := h.targetMargin; have := h.deadband
    have := h.maxStep; have := h.timingTolerance; have := h.lossLimit; have := h.climbDwell; have := h.recoveryDwell; have := h.climbTimeout
    have := h.rampSettle; have := h.rampLimit; have := h.shiftDelay; have := h.rangingRounds; have := h.attemptLimit; have := h.backoffBase
    have := h.backoffCap; have := h.verifyBlocks; have := h.verifyTolerance; have := h.degradedCap; have := h.outageCount; have := h.outageWindow
    have := h.probeInterval; have := h.probeRotate; have := h.releaseBatch; have := h.blindLimit; have := h.progressInterval; have := h.agree
    clear h
    repeat' apply And.intro
    all_goals omega
  · rintro ⟨h, h'⟩
    constructor <;> omega

theorem nat8_of (l : List Byte) (i x : Nat) (h : byteAt l i = byteOf x) (hx : x < 256) : nat8 l i = x := by
  unfold nat8; rw [h]; simp [byteOf]; omega

theorem nat16_of (l : List Byte) (i x : Nat) (h : byteAt l i ++ byteAt l (i + 1) = BitVec.ofNat 16 x) (hx : x < 65536) : nat16 l i = x := by
  unfold nat16 word16; rw [h]; simp; omega

theorem configOf_wire (b : Byte) (c : SectorConfig) (hf : c.Fits) : configOf (b :: c.wire) = c := by
  obtain ⟨h1, h2⟩ := hf
  simp only [List.mem_cons, List.not_mem_nil, or_false, forall_eq_or_imp, forall_eq] at h1 h2
  obtain ⟨c1, c2, c3, c4, c5, c6, c7, c8, c9, c10, c11, c12, c13, c14, c15, c16, c17, c18, c19, c20, c21, c22, c23, c24, c25, c26, c27, c28, c29⟩ := c
  dsimp only at h1 h2
  unfold configOf SectorConfig.wire
  rw [SectorConfig.mk.injEq]
  refine ⟨nat8_of _ _ _ rfl (by omega), nat8_of _ _ _ rfl (by omega), nat8_of _ _ _ rfl (by omega), nat8_of _ _ _ rfl (by omega), nat8_of _ _ _ rfl (by omega), nat8_of _ _ _ rfl (by omega), nat8_of _ _ _ rfl (by omega), nat8_of _ _ _ rfl (by omega), nat8_of _ _ _ rfl (by omega), nat8_of _ _ _ rfl (by omega), nat8_of _ _ _ rfl (by omega), nat16_of _ _ _ (bytes16_join _) (by omega), nat8_of _ _ _ rfl (by omega), nat8_of _ _ _ rfl (by omega), nat8_of _ _ _ rfl (by omega), nat8_of _ _ _ rfl (by omega), nat8_of _ _ _ rfl (by omega), nat8_of _ _ _ rfl (by omega), nat16_of _ _ _ (bytes16_join _) (by omega), nat8_of _ _ _ rfl (by omega), nat8_of _ _ _ rfl (by omega), nat8_of _ _ _ rfl (by omega), nat8_of _ _ _ rfl (by omega), nat16_of _ _ _ (bytes16_join _) (by omega), nat16_of _ _ _ (bytes16_join _) (by omega), nat8_of _ _ _ rfl (by omega), nat8_of _ _ _ rfl (by omega), nat8_of _ _ _ rfl (by omega), nat8_of _ _ _ rfl (by omega)⟩

theorem wire_length (c : SectorConfig) : c.wire.length = 33 := rfl

theorem optByte_length (o) : (optByte o).length = 2 := by cases o <;> rfl

theorem optWord_length (o) : (optWord o).length = 3 := by cases o <;> rfl

theorem ps_length (o) : (pendingShiftBytes o).length = 4 := by
  cases o with
  | none => rfl
  | some p => rcases p with ⟨t, e⟩; cases e <;> rfl

theorem ff_length (o) : (firstFaultBytes o).length = 6 := by
  cases o with
  | none => rfl
  | some p => simp [firstFaultBytes, optByte_length]

theorem history_eq (h : List Nat) : historyBytes h = [byteOf h.length] ++ bytesOf16 (h.getD 0 0) ++ bytesOf16 (h.getD 1 0) ++ bytesOf16 (h.getD 2 0)
   ++ bytesOf16 (h.getD 3 0) ++ bytesOf16 (h.getD 4 0) ++ bytesOf16 (h.getD 5 0) ++ bytesOf16 (h.getD 6 0) ++ bytesOf16 (h.getD 7 0) := rfl

theorem eq_two_of_length {l : List Byte} (h : l.length = 2) : ∃ a b, l = [a, b] := by
  rcases l with _|⟨a,_|⟨b,_|_⟩⟩ <;> simp_all

theorem eq_three_of_length {l : List Byte} (h : l.length = 3) : ∃ a b c, l = [a, b, c] := by
  rcases l with _|⟨a,_|⟨b,_|⟨c,_|_⟩⟩⟩ <;> simp_all

theorem eq_four_of_length {l : List Byte} (h : l.length = 4) : ∃ a b c d, l = [a, b, c, d] := by
  rcases l with _|⟨a,_|⟨b,_|⟨c,_|⟨d,_|_⟩⟩⟩⟩ <;> simp_all

theorem eq_six_of_length {l : List Byte} (h : l.length = 6) : ∃ a b c d e f, l = [a, b, c, d, e, f] := by
  rcases l with _|⟨a,_|⟨b,_|⟨c,_|⟨d,_|⟨e,_|⟨f,_|_⟩⟩⟩⟩⟩⟩ <;> simp_all

theorem bytesOf16_length (n) : (bytesOf16 n).length = 2 := rfl

theorem bytes16_length (n) : (bytes16 n).length = 2 := rfl

/-- A list of placed byte fields follows each other without gaps from an offset on. -/
def Contiguous : Nat → List (Nat × List Byte) → Prop
  | _, [] => True
  | o, f :: fs => f.1 = o ∧ Contiguous (o + f.2.length) fs

theorem fields_ok : ∀ (fs : List (Nat × List Byte)) (rs : List Byte) (o : Nat), Contiguous o fs → rs.drop o = (fs.map (·.2)).flatten →
    ∀ f ∈ fs, (rs.drop f.1).take f.2.length = f.2 := by
  intro fs
  induction fs with
  | nil => intro rs o _ _ f hf; simp at hf
  | cons x xs ih =>
    intro rs o hc hd f hf
    rcases List.mem_cons.1 hf with rfl | hf
    · rw [hc.1, hd]; simp
    · refine ih rs _ hc.2 ?_ f hf
      rw [← List.drop_drop, hd]; simp

theorem ps_eq (o : Option PendingShift) : pendingShiftBytes o = (match o with
            | none => [0, 0, 0, 0]
            | some { target := p, effective := none } => [1, byteOf p, 0, 0]
            | some { target := p, effective := some e } => [2, byteOf p] ++ bytes16 e) := by
  rcases o with _ | ⟨p, _ | e⟩ <;> rfl

theorem ff_eq (o : Option FirstFault) : firstFaultBytes o = (match o with
            | none => [0, 0, 0, 0, 0, 0]
            | some f => [1, byteOf f.block, byteOf f.offset, f.expected] ++ optByte f.received) := by
  cases o <;> rfl

theorem reply_two (s : State) (c : Byte) (tag : BitVec 16) (st : Status) (rs : List Byte) (h1 : 192 < rs.length) (h2 : rs.length ≤ 384) :
    s.reply c tag st rs = (s.emit ([0x93, 0x03, 0xFF, 0x00, 0x00, c] ++ bytes16 tag ++ [statusCode st, 0x00, 0x00, 192] ++ rs.take 192)).emit
      ([0x93, 0x03, 0xFF, 0x00, 0x00, c] ++ bytes16 tag ++ [statusCode st, 0x01, 0x01, byteOf (rs.length - 192)] ++ rs.drop 192) := by
  have h0 : (rs.length - 1) / 192 = 1 := by omega
  simp only [State.reply, State.emit, replyFrames, Config.segmentLimit, h0]
  congr 1
  rw [List.append_assoc]
  congr 1
  have hr : List.range (1 + 1) = [0, 1] := rfl
  rw [hr]
  simp only [List.map_cons, List.map_nil, replyFrame, List.cons_append, List.nil_append, List.length_take, List.length_drop, Nat.mul_zero, Nat.mul_one, List.drop_zero, Nat.sub_zero]
  have e1 : min 192 rs.length = 192 := by omega
  have e2 : min 192 (rs.length - 192) = rs.length - 192 := by omega
  have e3 : (rs.drop 192).take 192 = rs.drop 192 := List.take_of_length_le (by simp; omega)
  rw [e1, e2, e3]
  rfl

theorem sum_const {α : Type} (l : List α) (f : α → Nat) (c : Nat) (h : ∀ x ∈ l, f x = c) : (l.map f).sum = c * l.length := by
  induction l with
  | nil => simp
  | cons x xs ih => simp only [List.map_cons, List.sum_cons, List.length_cons]; rw [ih (fun y hy => h y (by simp [hy])), h x (by simp)]; ring

theorem sector_count (s : State) (j) (st : TermState) : s.countIn j (· == st) = ((List.finRange 320).countP fun k => s.belongs j k && (s.term k).state == st) := by
  unfold State.countIn State.slotsOf allSlots
  rw [List.filter_filter, List.countP_eq_length_filter]
  congr 1; apply List.filter_congr; intro k _; rw [Bool.and_comm]

theorem slotsIn_eq (s : State) (j) (st : TermState) : s.slotsIn j st = (List.finRange 320).filter fun k => s.belongs j k && (s.term k).state == st := by
  unfold State.slotsIn State.slotsOf allSlots
  rw [List.filter_filter]
  apply List.filter_congr; intro k _; rw [Bool.and_comm]

theorem config_wire (c : SectorConfig) : configBytes c = c.wire := rfl

end Sys2Proof.Machine
end

