-- ==== Sys2Proof/Laws/Resets.lean ====
section
/-!
SUPPORT. The records of a sector under RESET SECTOR and under a declaration, and the lead that is chosen.
-/

set_option Elab.async false

namespace Sys2Proof.Machine

variable {s t u v : State} {j : Sector} {k : Slot} {r : Request}

/-- What one turn at slot `k` of sector `j` does, where the sector record becomes `h k` of it. -/
structure Turn (j : Sector) (g : Terminal → Terminal) (o : Terminal → Prop) (h : Slot → SectorRec → SectorRec) (u v : State) (k : Slot) : Prop where
  term : (o (u.term k) → v.term k = Terminal.offered u.notices k (g (u.term k))) ∧ (¬ o (u.term k) → v.term k = g (u.term k))
  other : ∀ k', k' ≠ k → v.term k' = u.term k'
  notices : ∀ x, x ∈ v.notices ↔ x ∈ u.notices ∨ (o (u.term k) ∧ x = .terminal k)
  sec : ∀ i, i ≠ j → v.sec i = u.sec i
  same : v.sec j = h k (u.sec j)
  around : u.SameAround v ∧ v.controllerOut = u.controllerOut

/-- What the turns at a list of slots do together. -/
structure Turns (j : Sector) (g : Terminal → Terminal) (o : Terminal → Prop) (h : Slot → SectorRec → SectorRec) (u v : State) (l : List Slot) : Prop where
  term : ∀ k ∈ l, (o (u.term k) → v.term k = Terminal.offered u.notices k (g (u.term k))) ∧ (¬ o (u.term k) → v.term k = g (u.term k))
  other : ∀ k', k' ∉ l → v.term k' = u.term k'
  notices : ∀ x, x ∈ v.notices ↔ x ∈ u.notices ∨ ∃ k ∈ l, (o (u.term k) ∧ x = .terminal k)
  sec : ∀ i, i ≠ j → v.sec i = u.sec i
  same : v.sec j = l.foldl (fun r k => h k r) (u.sec j)
  around : u.SameAround v ∧ v.controllerOut = u.controllerOut

theorem turns {g : Terminal → Terminal} {o pre : Terminal → Prop} {h : Slot → SectorRec → SectorRec} {P : State → Prop} {f : State → Slot → State}
    (hf : ∀ u k, P u → pre (u.term k) → Turn j g o h u (f u k) k ∧ P (f u k)) (l : List Slot) (hl : l.Nodup) (hP : P u) (hp : ∀ k ∈ l, pre (u.term k)) :
    Turns j g o h u (l.foldl f u) l ∧ P (l.foldl f u) := by
  induction l generalizing u with
  | nil => exact ⟨⟨by simp, by simp, by simp, by simp, rfl, SameAround.refl _, rfl⟩, hP⟩
  | cons x xs ih =>
    obtain ⟨h1, hP1⟩ := hf u x hP (hp x (by simp))
    have hx := (List.nodup_cons.1 hl)
    have hne : ∀ k ∈ xs, k ≠ x := fun k hk h => hx.1 (h ▸ hk)
    have hs : ∀ k ∈ xs, (f u x).term k = u.term k := fun k hk => h1.other k (hne k hk)
    have hn : ∀ k ∈ xs, (NoticeItem.terminal k ∈ (f u x).notices ↔ NoticeItem.terminal k ∈ u.notices) := fun k hk => by
      rw [h1.notices]; simp [hne k hk]
    obtain ⟨h2, hP2⟩ := ih (u := f u x) hx.2 hP1 (fun k hk => by rw [hs k hk]; exact hp k (by simp [hk]))
    rw [List.foldl_cons]
    generalize hv : xs.foldl f (f u x) = w at h2 hP2 ⊢
    refine ⟨⟨fun k hk => ?_, fun k hk => ?_, fun i => ?_, fun i hi => (h2.sec i hi).trans (h1.sec i hi), ?_,
      SameAround.trans h1.around.1 h2.around.1, h2.around.2.trans h1.around.2⟩, hP2⟩
    · rcases List.mem_cons.1 hk with rfl | hk
      · rw [h2.other k hx.1]; exact h1.term
      · have := h2.term k hk
        rw [hs k hk] at this
        have e : Terminal.offered (f u x).notices k (g (u.term k)) = Terminal.offered u.notices k (g (u.term k)) := by
          unfold Terminal.offered
          by_cases h : NoticeItem.terminal k ∈ u.notices
          · rw [if_pos h, if_pos ((hn k hk).2 h)]
          · rw [if_neg h, if_neg (fun h' => h ((hn k hk).1 h'))]
        rw [e] at this; exact this
    · simp only [List.mem_cons, not_or] at hk
      rw [h2.other k hk.2, h1.other k hk.1]
    · rw [h2.notices, h1.notices]
      constructor
      · rintro ((h | ⟨h, rfl⟩) | ⟨k, hk, h, rfl⟩)
        · exact .inl h
        · exact .inr ⟨x, by simp, h, rfl⟩
        · exact .inr ⟨k, by simp [hk], hs k hk ▸ h, rfl⟩
      · rintro (h | ⟨k, hk, h, rfl⟩)
        · exact .inl (.inl h)
        · rcases List.mem_cons.1 hk with rfl | hk
          · exact .inl (.inr ⟨h, rfl⟩)
          · exact .inr ⟨k, hk, (hs k hk).symm ▸ h, rfl⟩
    · rw [h2.same, h1.same]; rfl

/-- A queue built by joining slots one by one stands in class order, equal classes in the order of joining. -/
theorem rebuilt (cls : Slot → Fin 4) (l : List Slot) :
    l.foldl (fun q k => insertByClass cls k q) [] = ((List.finRange 4).map fun p => l.filter fun k => cls k == p).flatten := by
  induction l using List.reverseRecOn with
  | nil => rfl
  | append_singleton l k ih =>
    rw [List.foldl_append, List.foldl_cons, List.foldl_nil, ih]
    have hr : List.finRange 4 = [0, 1, 2, 3] := by decide
    rw [hr]
    simp only [List.map_cons, List.map_nil, List.flatten_cons, List.flatten_nil, List.append_nil, List.filter_append]
    have key : ∀ (c : Fin 4) (A B : List Slot), cls k = c → (∀ x ∈ A, cls x ≤ c) → (∀ x ∈ B, c < cls x) → insertByClass cls k (A ++ B) = A ++ k :: B := by
      intro c A B hc hA hB
      exact insert_split (by rw [hc]; exact hA) (by rw [hc]; exact hB)
    have mem : ∀ (p : Fin 4) x, x ∈ l.filter (fun k => cls k == p) → cls x = p := by
      intro p x hx; simpa using (List.mem_filter.1 hx).2
    generalize hA0 : l.filter (fun k => cls k == 0) = A0 at *
    generalize hA1 : l.filter (fun k => cls k == 1) = A1 at *
    generalize hA2 : l.filter (fun k => cls k == 2) = A2 at *
    generalize hA3 : l.filter (fun k => cls k == 3) = A3 at *
    have m0 := hA0 ▸ mem 0
    have m1 := hA1 ▸ mem 1
    have m2 := hA2 ▸ mem 2
    have m3 := hA3 ▸ mem 3
    have hk : cls k = 0 ∨ cls k = 1 ∨ cls k = 2 ∨ cls k = 3 := by
      generalize cls k = c; revert c; decide
    rcases hk with hk | hk | hk | hk
    · have := key 0 A0 (A1 ++ (A2 ++ A3)) hk (fun x hx => by rw [m0 x hx]) (fun x hx => by
        simp only [List.mem_append] at hx
        rcases hx with hx | hx | hx
        · rw [m1 x hx]; decide
        · rw [m2 x hx]; decide
        · rw [m3 x hx]; decide)
      rw [this]
      simp [hk]
    · have := key 1 (A0 ++ A1) (A2 ++ A3) hk (fun x hx => by
        simp only [List.mem_append] at hx
        rcases hx with hx | hx
        · rw [m0 x hx]; decide
        · rw [m1 x hx]) (fun x hx => by
        simp only [List.mem_append] at hx
        rcases hx with hx | hx
        · rw [m2 x hx]; decide
        · rw [m3 x hx]; decide)
      rw [List.append_assoc] at this
      rw [this]
      simp [hk]
    · have := key 2 (A0 ++ (A1 ++ A2)) A3 hk (fun x hx => by
        simp only [List.mem_append] at hx
        rcases hx with hx | hx | hx
        · rw [m0 x hx]; decide
        · rw [m1 x hx]; decide
        · rw [m2 x hx]) (fun x hx => by
        rw [m3 x hx]; decide)
      rw [List.append_assoc, List.append_assoc] at this
      rw [this]
      simp [hk]
    · have := key 3 (A0 ++ (A1 ++ (A2 ++ A3))) [] hk (fun x hx => by
        simp only [List.mem_append] at hx
        rcases hx with hx | hx | hx | hx
        · rw [m0 x hx]; decide
        · rw [m1 x hx]; decide
        · rw [m2 x hx]; decide
        · rw [m3 x hx]) (fun x hx => by simp at hx)
      rw [List.append_nil] at this
      rw [this]
      simp [hk]

theorem abort_eq (t : Terminal) : t.abortExchange = { t with verification := if t.state = .verifying ∧ t.verification.started = true ∧ t.verification.completed = false ∧ t.verification.outcome = .none then { t.verification with outcome := .aborted } else t.verification } := by
  unfold Terminal.abortExchange VerificationRecord.inFlight
  by_cases h : t.state = .verifying ∧ t.verification.started = true ∧ t.verification.completed = false ∧ t.verification.outcome = .none
  · rw [if_pos h, if_pos]; simp [h.1, h.2.1, h.2.2.1, h.2.2.2]
  · rw [if_neg h, if_neg]
    intro hc; apply h; simpa [and_assoc] using hc

/-- A record after RESET SECTOR, the offer apart (R61). -/
def resetTo (t : Terminal) : Terminal :=
  { t with
    state := .waiting, rung := 0, power := 0, filtered := none, history := [], pendingShift := none
    pendingAdjust := none, expectedBurst := none, missRun := 0, floorRun := 0, climbDwell := 0, rampSettle := 0
    phaseReports := 0, attemptCount := 0, roundCount := 0, backoff := 0, probed := false
    owed := { correct := false, verify := false, power := false, shift := false }
    verification := if t.state = .verifying ∧ t.verification.started = true ∧ t.verification.completed = false ∧ t.verification.outcome = .none then { t.verification with outcome := .aborted } else t.verification }

theorem reset_turn (u : State) (k : Slot) (h : (u.term k).state ≠ .empty) :
    Turn j resetTo (fun t => t.state ≠ .waiting) (fun _ r => r) u (u.resetTerminal k) k := by
  have e0 : u.resetTerminal k = (u.setTerm k ((u.term k).abortExchange.backToStart)).toState k .waiting := rfl
  have hst : ((u.term k).abortExchange.backToStart).state = (u.term k).state := by rw [abort_eq]; rfl
  by_cases hw : (u.term k).state = .waiting
  · have e : u.resetTerminal k = u.setTerm k (resetTo (u.term k)) := by
      rw [e0]; unfold State.toState
      rw [State.setTerm_term_same, hst, if_pos (.inl hw)]
      congr 1
      rw [abort_eq]; unfold resetTo Terminal.backToStart Terminal.fresh
      rw [← hw]
    rw [e]
    refine ⟨⟨fun h => absurd hw h, fun _ => State.setTerm_term_same _ _ _⟩, fun k' hk => ?_, fun x => ?_, fun i hi => rfl, rfl, ⟨rfl, rfl, rfl, rfl, rfl, rfl, rfl⟩, rfl⟩
    · rw [State.setTerm_term, if_neg (Ne.symm hk)]
    · show x ∈ u.notices ↔ _
      simp [hw]
  · have e : u.resetTerminal k = (u.setTerm k (resetTo (u.term k))).offerTerminal k := by
      rw [e0, toState_change (by rw [State.setTerm_term_same, hst]; exact hw) (by rw [State.setTerm_term_same, hst]; exact h), State.setTerm_term_same, setTerm_setTerm]
      congr 2
      rw [abort_eq]; rfl
    rw [e]
    have ho := State.offerTerminal_outside (u.setTerm k (resetTo (u.term k))) k
    refine ⟨⟨fun _ => ?_, fun h => absurd hw h⟩, fun k' hk => ?_, fun x => ?_, fun i hi => ?_, ?_, ⟨ho.1, ho.2, ho.3, ho.4, ho.5, ho.7, ho.8⟩, ho.6⟩
    · rw [offer_term_same, State.setTerm_term_same]; rfl
    · rw [offer_term_other _ hk, State.setTerm_term, if_neg (Ne.symm hk)]
    · rw [offer_mem]; simp [hw]
    · rw [State.offerTerminal_sec]; rfl
    · rw [State.offerTerminal_sec]; rfl

theorem foldl_id {α β : Type} (l : List α) (b : β) : l.foldl (fun r _ => r) b = b := by
  induction l with
  | nil => rfl
  | cons x xs ih => exact ih

theorem erase_filter (k : Slot) : ∀ (q : List ControlEntry) (n : Nat), (q.filter fun e => e.slot == k).length = n + 1 →
    ((dropFirstOf k q).filter fun e => e.slot == k).length = n ∧ (dropFirstOf k q).filter (fun e => e.slot != k) = q.filter fun e => e.slot != k := by
  intro q
  induction q with
  | nil => intro n h; simp at h
  | cons x xs ih =>
    intro n h
    unfold dropFirstOf
    by_cases hx : x.slot = k
    · rw [List.eraseP_cons_of_pos (by simpa using hx)]
      rw [List.filter_cons_of_pos (by simpa using hx)] at h
      refine ⟨by simpa using h, ?_⟩
      rw [List.filter_cons_of_neg (by simpa using hx)]
    · rw [List.eraseP_cons_of_neg (by simpa using hx)]
      rw [List.filter_cons_of_neg (by simpa using hx)] at h
      obtain ⟨h1, h2⟩ := ih n h
      unfold dropFirstOf at h1 h2
      refine ⟨?_, ?_⟩
      · rw [List.filter_cons_of_neg (by simpa using hx)]; exact h1
      · rw [List.filter_cons_of_pos (by simpa using hx), List.filter_cons_of_pos (by simpa using hx), h2]

theorem departures_eq (k : Slot) (j : Sector) : ∀ (n : Nat) (Y : State) (R : SectorRec), Y.sec j = R → (R.controlQueue.filter fun e => e.slot == k).length = n →
    (∀ i, Y.belongs j i = true → (Y.term i).owed = {}) →
    State.departures k j n Y = Y.setSec j { R with controlQueue := R.controlQueue.filter fun e => e.slot != k } := by
  intro n
  induction n with
  | zero =>
    intro Y R hR hl ho
    have : R.controlQueue.filter (fun e => e.slot != k) = R.controlQueue := by
      rw [List.filter_eq_self]
      intro a ha
      have := List.length_eq_zero_iff.1 hl
      rw [List.filter_eq_nil_iff] at this
      simpa using this a ha
    rw [this]
    exact (setSec_same j R hR).symm
  | succ n ih =>
    intro Y R hR hl ho
    unfold State.departures
    obtain ⟨h1, h2⟩ := erase_filter k _ _ hl
    have e1 : (Y.modSec j fun r => { r with controlQueue := dropFirstOf k r.controlQueue }) = Y.setSec j { R with controlQueue := dropFirstOf k R.controlQueue } := by
      rw [State.modSec, hR]
    rw [e1, owedScan_quiet (by exact ho)]
    rw [ih _ _ (State.setSec_sec_same _ _ _) h1 ho, setSec_setSec]
    dsimp only
    rw [h2]

theorem discard_gen {X : State} {R : SectorRec} {T : Terminal} (hj : T.sector = j) (ho : ∀ i, X.belongs j i = true → i ≠ k → (X.term i).owed = {}) :
    ((X.setSec j R).setTerm k T).discard k = (X.setSec j { R with controlQueue := R.controlQueue.filter fun e => e.slot != k }).setTerm k { T with owed := {} } := by
  unfold State.discard
  have h1 : ((X.setSec j R).setTerm k T).sectorOf k = j := by rw [State.sectorOf, State.setTerm_term_same, hj]
  dsimp only
  rw [h1]
  have h2 : ((X.setSec j R).setTerm k T).sec j = R := State.setSec_sec_same _ _ _
  rw [modTerm_setTerm]
  rw [departures_eq k j _ _ R (by exact State.setSec_sec_same _ _ _) (by rw [h2])]
  · rw [setTerm_setSec_comm, setSec_setSec]
  · intro i hi
    by_cases hik : i = k
    · subst hik; rw [State.setTerm_term_same]
    · rw [State.setTerm_term, if_neg (Ne.symm hik)]
      refine ho i ?_ hik
      unfold State.belongs at hi ⊢
      rw [State.setTerm_term, if_neg (Ne.symm hik)] at hi
      exact hi

/-- A record moved to QUIET by a declaration, the offer apart (R47). -/
def silent (t : Terminal) : Terminal :=
  { t with
    state := .quiet, expectedBurst := none, backoff := 0, roundCount := 0, filtered := none, history := [], power := 0
    pendingAdjust := none, owed := {}
    verification := if t.state = .verifying ∧ t.verification.started = true ∧ t.verification.completed = false ∧ t.verification.outcome = .none then { t.verification with outcome := .aborted } else t.verification }

/-- A sector record without one slot in its collections. -/
def withoutSlot (k : Slot) (r : SectorRec) : SectorRec := { r.drop k with controlQueue := r.controlQueue.filter fun e => e.slot != k }

theorem silence_turn (u : State) (k : Slot) (hP : ∀ i, u.belongs j i = true → (u.term i).owed = {}) (h : (u.term k).state.reEntering = true ∧ (u.term k).sector = j) :
    Turn j silent (fun _ => True) withoutSlot u (u.silence k) k ∧ (∀ i, (u.silence k).belongs j i = true → ((u.silence k).term i).owed = {}) := by
  have hne : (u.term k).state ≠ .quiet ∧ (u.term k).state ≠ .empty := by
    constructor <;> (intro hc; rw [hc] at h; simp [TermState.reEntering] at h)
  have e : u.silence k = ((u.setSec j (withoutSlot k (u.sec j))).setTerm k (silent (u.term k))).offerTerminal k := by
    unfold State.silence
    dsimp only
    have e1 : u.modTerm k Terminal.abortExchange = (u.setSec j (u.sec j)).setTerm k (u.term k).abortExchange := by
      rw [setSec_same j _ rfl]; rfl
    have hs : (u.term k).abortExchange.sector = j := by rw [abort_eq]; exact h.2
    rw [e1, leave_set hs, modTerm_setTerm, discard_gen (by exact hs) (fun i hi _ => hP i hi)]
    rw [toState_change]
    · rw [State.setTerm_term_same, setTerm_setTerm]
      congr 2
      rw [abort_eq]; rfl
    · rw [State.setTerm_term_same, abort_eq]; exact hne.1
    · rw [State.setTerm_term_same, abort_eq]; exact hne.2
  rw [e]
  have ho := State.offerTerminal_outside ((u.setSec j (withoutSlot k (u.sec j))).setTerm k (silent (u.term k))) k
  have hterm : (((u.setSec j (withoutSlot k (u.sec j))).setTerm k (silent (u.term k))).offerTerminal k).term k = Terminal.offered u.notices k (silent (u.term k)) := by
    rw [offer_term_same, State.setTerm_term_same]; rfl
  have hoth : ∀ k', k' ≠ k → (((u.setSec j (withoutSlot k (u.sec j))).setTerm k (silent (u.term k))).offerTerminal k).term k' = u.term k' := by
    intro k' hk; rw [offer_term_other _ hk, State.setTerm_term, if_neg (Ne.symm hk)]; rfl
  refine ⟨⟨⟨fun _ => hterm, fun h => absurd trivial h⟩, hoth, fun x => ?_, fun i hi => ?_, ?_, ⟨ho.1, ho.2, ho.3, ho.4, ho.5, ho.7, ho.8⟩, ho.6⟩, fun i hi => ?_⟩
  · rw [offer_mem]
    show x ∈ u.notices ∨ _ ↔ _
    simp
  · rw [State.offerTerminal_sec, State.setTerm_sec, State.setSec_sec, if_neg (Ne.symm hi)]
  · rw [State.offerTerminal_sec, State.setTerm_sec, State.setSec_sec_same]
  · by_cases hik : i = k
    · subst hik; rw [hterm]; unfold Terminal.offered; split <;> rfl
    · rw [hoth i hik]
      refine hP i ?_
      unfold State.belongs at hi ⊢
      rw [hoth i hik] at hi; exact hi

theorem without_fold (l : List Slot) : ∀ r : SectorRec, l.foldl (fun r k => withoutSlot k r) r =
    { r with
      queue := r.queue.filter fun k => !l.contains k
      window := r.window.filter fun k => !l.contains k
      controlQueue := r.controlQueue.filter fun e => !l.contains e.slot
      evaluation := r.evaluation.map fun e => { e with swept := e.swept.filter fun k => !l.contains k } } := by
  induction l with
  | nil =>
    intro r
    cases h : r.evaluation <;> simp [← h]
  | cons x xs ih =>
    intro r
    rw [List.foldl_cons, ih]
    unfold withoutSlot SectorRec.drop without Evaluation.forget without
    dsimp only
    simp only [List.filter_filter, Option.map_map, List.contains_cons, Bool.not_or]
    congr 1
    · congr 1; funext e; simp only [Function.comp, List.filter_filter]; congr 1; apply List.filter_congr; intro y _; cases hb : (y == x) <;> simp [hb, bne]
    · congr 1; funext y; cases hb : (y == x) <;> simp [hb, bne]
    · congr 1; funext y; cases hb : (y == x) <;> simp [hb, bne]
    · congr 1; funext y; cases hb : (y.slot == x) <;> simp [hb, bne]

theorem marks_fold (l : List Slot) : ∀ (s : State), ∃ ts, l.foldl (fun s k => s.modTerm k fun t => { t with probed := false }) s = { s with terminals := ts } ∧
   ∀ k, ({ s with terminals := ts } : State).term k = if k ∈ l then { s.term k with probed := false } else s.term k := by
  induction l with
  | nil => intro s; exact ⟨s.terminals, rfl, fun k => by simp⟩
  | cons x xs ih =>
    intro s
    rw [List.foldl_cons]
    obtain ⟨ts, h1, h2⟩ := ih (s.modTerm x fun t => { t with probed := false })
    refine ⟨ts, h1, fun k => ?_⟩
    have := h2 k
    refine this.trans ?_
    by_cases hk : k = x
    · subst hk
      rw [State.modTerm_term_same]; simp
    · rw [State.modTerm_term_other _ (Ne.symm hk)]; simp [hk]

theorem best_first (s : State) : ∀ (l : List Slot), l ≠ [] → l.Pairwise (· < ·) → ∃ m ∈ l, s.best l = some m ∧ ∀ i ∈ l, i ≠ m →
    (s.term i).leadRank < (s.term m).leadRank ∨ (s.term i).leadRank = (s.term m).leadRank ∧ m < i := by
  intro l
  induction l with
  | nil => intro h; exact absurd rfl h
  | cons k ks ih =>
    intro _ hp
    obtain ⟨hk, hp'⟩ := List.pairwise_cons.1 hp
    by_cases hks : ks = []
    · subst hks
      refine ⟨k, by simp, rfl, fun i hi hne => ?_⟩
      simp at hi; exact absurd hi hne
    · obtain ⟨m, hm, hb, hall⟩ := ih hks hp'
      unfold State.best
      rw [hb]; dsimp only
      by_cases hc : (s.term k).leadRank < (s.term m).leadRank
      · rw [if_pos hc]
        refine ⟨m, by simp [hm], rfl, fun i hi hne => ?_⟩
        rcases List.mem_cons.1 hi with rfl | hi
        · exact .inl hc
        · exact hall i hi hne
      · rw [if_neg hc]
        refine ⟨k, by simp, rfl, fun i hi hne => ?_⟩
        rcases List.mem_cons.1 hi with rfl | hi
        · exact absurd rfl hne
        · have hki := hk i hi
          by_cases him : i = m
          · subst him; rcases Nat.lt_or_eq_of_le (Nat.le_of_not_lt hc) with h | h
            · exact .inl h
            · exact .inr ⟨h, hki⟩
          · rcases hall i hi him with h | ⟨h, _⟩
            · exact .inl (by omega)
            · rcases Nat.lt_or_eq_of_le (Nat.le_of_not_lt hc) with h' | h'
              · exact .inl (by omega)
              · exact .inr ⟨by omega, hki⟩

theorem offered_eq (q k) (t : Terminal) : ∃ b, Terminal.offered q k t = { t with noticePending := b } := by
  unfold Terminal.offered; split
  · exact ⟨t.noticePending, rfl⟩
  · exact ⟨true, rfl⟩

theorem leadless_eq (Q : SectorRec) (h1 : Q.progressCounter = 0) (h2 : Q.leadFailures = 0) :
    ({ Q with state := .clear, lead := none, leadFailures := 0, probeTimer := 0, progressCounter := 0 } : SectorRec) = { Q with state := .clear, lead := none, probeTimer := 0 } := by
  obtain ⟨q1, q2, q3, q4, q5, q6, q7, q8, q9, q10, q11, q12, q13, q14, q15, q16, q17, q18, q19, q20, q21⟩ := Q
  dsimp only at h1 h2 ⊢
  subst h1; subst h2; rfl

end Sys2Proof.Machine
end

