-- ==== Sys2Proof/Laws/Activations.lean ====
section
/-!
SUPPORT. The next lead at a departure, the checks and the clamps of an activation, and what stays outside a sector.
-/

set_option Elab.async false

namespace Sys2Proof.Machine

variable {s t u v : State} {j : Sector} {k : Slot} {r : Request}

/-- A lead choice in which slot `k` is no candidate takes the best of the others (R48). -/
theorem lead_chosen {Y : State} {m : Slot} (hY : ∀ i, i ≠ k → Y.term i = s.term i)
    (hk : Y.belongs j k = false ∨ (Y.term k).state ≠ .quiet ∨ (Y.term k).probed = true) (hn : s.NextLead j k m) :
    Y.leadChoice j = Y.setSec j { Y.sec j with lead := some m } := by
  unfold State.leadChoice
  have hq : ∀ i, i ≠ k → (i ∈ Y.slotsIn j .quiet ↔ s.belongs j i = true ∧ (s.term i).state = .quiet) := by
    intro i hik
    rw [mem_slotsIn]
    unfold State.belongs; rw [hY i hik]
  have hsort : (Y.slotsIn j .quiet).Pairwise (· < ·) := by
    rw [slotsIn_eq]; exact (List.pairwise_lt_finRange 320).filter _
  have hkc : k ∉ (Y.slotsIn j .quiet).filter fun k => !(Y.term k).probed := by
    rw [List.mem_filter, mem_slotsIn]
    rintro ⟨⟨h1, h2⟩, h3⟩
    rcases hk with h | h | h
    · rw [h] at h1; cases h1
    · exact h h2
    · rw [h] at h3; cases h3
  cases hl : Y.slotsIn j .quiet with
  | nil =>
    exfalso
    have := (hq m hn.other).2 ⟨hn.home, hn.quiet⟩
    rw [hl] at this; simp at this
  | cons a as =>
    dsimp only
    rw [hl] at hq hsort hkc
    generalize a :: as = l at hq hsort hkc
    have hm : m ∈ l.filter (fun k => !(Y.term k).probed) := by
      rw [List.mem_filter, hq m hn.other, hY m hn.other, hn.unmarked]; exact ⟨⟨hn.home, hn.quiet⟩, rfl⟩
    rw [if_neg (List.ne_nil_of_mem hm)]
    obtain ⟨b, hb, hbest, hall⟩ := best_first Y _ (List.ne_nil_of_mem hm) (hsort.filter _)
    have hbm : b = m := by
      by_contra hne
      have b2 : b ≠ k := fun h => hkc (h ▸ hb)
      rw [List.mem_filter, hq b b2, hY b b2] at hb
      have h1 := hn.highest b hb.1.1 b2 hb.1.2 (by simpa using hb.2) hne
      have h2 := hall m hm (Ne.symm hne)
      rw [hY m hn.other, hY b b2] at h2
      rcases h1 with h1 | ⟨h1, h1'⟩ <;> rcases h2 with h2 | ⟨h2, h2'⟩
      · omega
      · omega
      · omega
      · exact absurd h1' (not_lt.2 (le_of_lt h2'))
    rw [hbest, hbm]; rfl

theorem lead_next {Y : State} {m : Slot} (hY : ∀ i, i ≠ k → Y.term i = s.term i)
    (hk : Y.belongs j k = false ∨ (Y.term k).state ≠ .quiet) (hn : s.NextLead j k m) :
    Y.leadDeparts j = Y.setSec j { Y.sec j with lead := some m, leadFailures := 0 } := by
  unfold State.leadDeparts
  rw [lead_chosen (Y := Y.modSec j fun r => { r with lead := none, leadFailures := 0 }) (k := k) (m := m) (s := s) hY
    (hk.imp_right .inl) hn, State.modSec, State.setSec_sec_same, setSec_setSec]

/-- A sector record after the departure of one slot. -/
def dropped (k : Slot) (R : SectorRec) : SectorRec :=
  { R with
    queue := R.queue.filter fun i => i != k
    window := R.window.filter fun i => i != k
    controlQueue := R.controlQueue.filter fun e => e.slot != k
    evaluation := R.evaluation.map fun e => { e with swept := e.swept.filter fun i => i != k } }

theorem belongs_facts (h : s.belongs j k = true) : (s.term k).state ≠ .empty ∧ (s.term k).sector = j := by
  unfold State.belongs at h; simpa using h

theorem outage_working {R : SectorRec} (h : R.state = .outage) : R.working = some .outage := by
  unfold SectorRec.working; rw [h]

theorem rungValid_iff (b : LadderBank) (n : Nat) : b.rungValid n = true ↔ b.RungRight n := by
  unfold LadderBank.rungValid LadderBank.RungRight
  simp only [Bool.and_eq_true, Bool.or_eq_true, decide_eq_true_eq, beq_iff_eq]
  constructor
  · rintro ⟨⟨h1, h2⟩, h3⟩
    refine ⟨h1.1, h1.2.1, h1.2.2, fun h => ?_, fun h => ?_⟩
    · rcases h2 with h2 | h2
      · omega
      · exact h2
    · rcases h3 with h3 | h3
      · omega
      · exact h3
  · rintro ⟨h1, h2, h3, h4, h5⟩
    refine ⟨⟨⟨h1, h2, h3⟩, ?_⟩, ?_⟩
    · by_cases h : n = 0
      · exact .inl h
      · exact .inr (h4 (by omega))
    · by_cases h : n < 2
      · exact .inl h
      · exact .inr (h5 (by omega))

theorem needed (n : Nat) : neededBlocks n = (8 + 4 * n + 31) / 32 := rfl

theorem staged_iff (v : Vector Bool 3) (m : Nat) : ((v.toList.take m).all id) = true ↔ ∀ i : Fin 3, i.val < m → v[i.val] = true := by
  have : v.toList = [v[0], v[1], v[2]] := by
    apply List.ext_getElem
    · simp
    · intro n h1 h2; simp at h2; rcases n with _|_|_|n
      · simp
      · simp
      · simp
      · omega
  rw [this]
  generalize ha : v[0] = a; generalize hb : v[1] = b; generalize hc : v[2] = c
  constructor
  · intro h i hi
    rw [List.all_eq_true] at h
    have : ∀ x, x ∈ [a, b, c].take m → x = true := fun x hx => by simpa using h x hx
    have hm : [a,b,c][i.val]? = some v[i.val] := by
      fin_cases i
      · simp [← ha]
      · simp [← hb]
      · simp [← hc]
    apply this
    rw [List.mem_iff_getElem?]
    exact ⟨i.val, by rw [List.getElem?_take, if_pos hi, hm]⟩
  · intro h
    rw [List.all_eq_true]
    intro x hx
    rw [List.mem_iff_getElem?] at hx
    obtain ⟨i, hi⟩ := hx
    rw [List.getElem?_take] at hi
    split at hi
    · next hlt =>
      rcases i with _|_|_|i
      · simp at hi; rw [← hi, ← ha]; exact h 0 hlt
      · simp at hi; rw [← hi, ← hb]; exact h 1 hlt
      · simp at hi; rw [← hi, ← hc]; exact h 2 hlt
      · simp at hi
    · cases hi

/-- The rejection of an image follows its first check that fails. -/
theorem rejection_cases (b : LadderBank) (st : Vector Bool 3) :
    (∀ reason, 1 ≤ reason → reason ≤ 5 → (∀ m, 1 ≤ m → m < reason → b.Check st m) → ¬b.Check st reason → rejection b st = some [byteOf reason])
    ∧ (∀ m, (∀ c, 1 ≤ c → c ≤ 5 → b.Check st c) → m < b.rungCount → ¬b.RungRight m → (∀ i, i < m → b.RungRight i) → rejection b st = some [6, byteOf m])
    ∧ ((∀ c, 1 ≤ c → c ≤ 6 → b.Check st c) → rejection b st = none) := by
  have c1 : b.Check st 1 ↔ ¬ (b.byte 0 ≠ 0x5A ∨ b.byte 1 ≠ 0xC3) :=
    ⟨fun h => by have := h.signature rfl; tauto, fun h => ⟨fun _ => by tauto, fun h => by omega, fun h => by omega, fun h => by omega, fun h => by omega, fun h => by omega⟩⟩
  have c2 : b.Check st 2 ↔ ¬ (b.rungCount = 0 ∨ 16 < b.rungCount) :=
    ⟨fun h => by have := h.rungs rfl; omega, fun h => ⟨fun h => by omega, fun _ => by omega, fun h => by omega, fun h => by omega, fun h => by omega, fun h => by omega⟩⟩
  have c3 : b.Check st 3 ↔ ¬ ((b.byte 3).toNat ≠ neededBlocks b.rungCount) :=
    ⟨fun h => by have := h.blocks rfl; rw [needed]; omega, fun h => ⟨fun h => by omega, fun h => by omega, fun _ => by rw [needed] at h; omega, fun h => by omega, fun h => by omega, fun h => by omega⟩⟩
  have c4 : b.Check st 4 ↔ ¬ (((st.toList.take (neededBlocks b.rungCount)).all id) = false) := by
    rw [Bool.not_eq_false, staged_iff]
    exact ⟨fun h => h.loaded rfl, fun h => ⟨fun h => by omega, fun h => by omega, fun h => by omega, fun _ => h, fun h => by omega, fun h => by omega⟩⟩
  have c5 : b.Check st 5 ↔ ¬ (crc16 b.rungBytes ≠ b.crcField) := by
    rw [not_not]
    exact ⟨fun h => h.crc rfl, fun h => ⟨fun h => by omega, fun h => by omega, fun h => by omega, fun h => by omega, fun _ => h, fun h => by omega⟩⟩
  refine ⟨fun reason h1 h2 hall hn => ?_, fun m hall hm hb hb' => ?_, fun hall => ?_⟩
  · have hr : reason = 1 ∨ reason = 2 ∨ reason = 3 ∨ reason = 4 ∨ reason = 5 := by omega
    unfold rejection
    rcases hr with rfl | rfl | rfl | rfl | rfl
    · rw [if_pos (by rw [c1] at hn; tauto)]; rfl
    · rw [if_neg (c1.1 (hall 1 (by omega) (by omega))), if_pos (by rw [c2] at hn; tauto)]; rfl
    · rw [if_neg (c1.1 (hall 1 (by omega) (by omega))), if_neg (c2.1 (hall 2 (by omega) (by omega))), if_pos (by rw [c3] at hn; tauto)]; rfl
    · rw [if_neg (c1.1 (hall 1 (by omega) (by omega))), if_neg (c2.1 (hall 2 (by omega) (by omega))), if_neg (c3.1 (hall 3 (by omega) (by omega))), if_pos (by rw [c4] at hn; tauto)]; rfl
    · rw [if_neg (c1.1 (hall 1 (by omega) (by omega))), if_neg (c2.1 (hall 2 (by omega) (by omega))), if_neg (c3.1 (hall 3 (by omega) (by omega))), if_neg (c4.1 (hall 4 (by omega) (by omega))), if_pos (by rw [c5] at hn; tauto)]; rfl
  · unfold rejection
    rw [if_neg (c1.1 (hall 1 (by omega) (by omega))), if_neg (c2.1 (hall 2 (by omega) (by omega))), if_neg (c3.1 (hall 3 (by omega) (by omega))), if_neg (c4.1 (hall 4 (by omega) (by omega))), if_neg (c5.1 (hall 5 (by omega) (by omega)))]
    have : b.firstInvalid = some m := by
      unfold LadderBank.firstInvalid
      rw [List.find?_range_eq_some]
      refine ⟨?_, by simpa using hm, fun i hi => ?_⟩
      · rw [Bool.not_eq_true', ← Bool.not_eq_true, rungValid_iff]; exact hb
      · rw [Bool.not_not, rungValid_iff]; exact hb' i hi
    rw [this]
  · unfold rejection
    rw [if_neg (c1.1 (hall 1 (by omega) (by omega))), if_neg (c2.1 (hall 2 (by omega) (by omega))), if_neg (c3.1 (hall 3 (by omega) (by omega))), if_neg (c4.1 (hall 4 (by omega) (by omega))), if_neg (c5.1 (hall 5 (by omega) (by omega)))]
    have : b.firstInvalid = none := by
      unfold LadderBank.firstInvalid
      rw [List.find?_eq_none]
      intro i hi
      have := (hall 6 (by omega) (by omega)).valid rfl i (by simpa using hi)
      rw [← rungValid_iff] at this
      simp [this]
    rw [this]

/-- What an activation does to one record. -/
structure ActivatedOne (old : Option LadderBank) (new : LadderBank) (u v : State) (k : Slot) : Prop where
  form : ∃ ts ss, v = { u with terminals := ts, sectors := ss }
  other : ∀ k', k' ≠ k → v.term k' = u.term k'
  sec : ∀ j, v.sec j = { u.sec j with controlQueue := (v.sec j).controlQueue }
  keep : ∀ j i kd, queuedFor (u.sec j).controlQueue i kd = true → queuedFor (v.sec j).controlQueue i kd = true
  empty : (u.term k).state = .empty → v.term k = u.term k
  plain : (u.term k).state ≠ .empty → (needsAnnouncement old new (u.term k) ((u.term k).clampRungs new.top) && ((u.term k).clampRungs new.top).pendingShift.isNone) = false →
    v.term k = (u.term k).clampRungs new.top
  ann : (u.term k).state ≠ .empty → (needsAnnouncement old new (u.term k) ((u.term k).clampRungs new.top) && ((u.term k).clampRungs new.top).pendingShift.isNone) = true →
    (v.term k = { (u.term k).clampRungs new.top with pendingShift := some { target := ((u.term k).clampRungs new.top).rung } } ∧ queuedFor (v.sec (u.term k).sector).controlQueue k .shift = true)
    ∨ v.term k = { (u.term k).clampRungs new.top with pendingShift := some { target := ((u.term k).clampRungs new.top).rung }, owed := { (u.term k).owed with shift := true } }

theorem keep_reclassed (t : Terminal) (k : Slot) (q : List ControlEntry) (i kd) (h : queuedFor q i kd = true) : queuedFor (reclassed t k q) i kd = true := by
  unfold reclassed
  split
  · rw [queuedFor_iff] at h ⊢
    obtain ⟨e, he, h1, h2⟩ := h
    by_cases hk : e.isFor k .shift = true
    · refine ⟨_, (mem_insertEntry _ _ _).2 (.inl rfl), ?_⟩
      unfold ControlEntry.isFor at hk
      simp at hk
      exact ⟨hk.1 ▸ h1, hk.2 ▸ h2⟩
    · exact ⟨e, (mem_insertEntry _ _ _).2 (.inr (List.mem_filter.2 ⟨he, by simpa using hk⟩)), h1, h2⟩
  · exact h

theorem keep_insert (e : ControlEntry) (q : List ControlEntry) (i kd) (h : queuedFor q i kd = true) : queuedFor (insertEntry e q) i kd = true := by
  rw [queuedFor_iff] at h ⊢
  obtain ⟨x, hx, h1⟩ := h
  exact ⟨x, (mem_insertEntry _ _ _).2 (.inr hx), h1⟩

theorem activated_one (old : Option LadderBank) (new : LadderBank) (u : State) (k : Slot) : ActivatedOne old new u (State.activateTerminal old new u k) k := by
  unfold State.activateTerminal
  by_cases he : (u.term k).state = .empty
  · rw [if_pos he]
    exact ⟨⟨u.terminals, u.sectors, rfl⟩, fun _ _ => rfl, fun _ => rfl, fun _ _ _ h => h, fun _ => rfl, fun h => absurd he h, fun h => absurd he h⟩
  · rw [if_neg he]
    dsimp only
    generalize hT : (u.term k).clampRungs new.top = T
    have hTs : T.sector = (u.term k).sector := by rw [← hT]; rfl
    have hTo : T.owed = (u.term k).owed := by rw [← hT]; rfl
    generalize hj : (u.term k).sector = j at hTs
    let Q : SectorRec := { u.sec j with controlQueue := reclassed T k (u.sec j).controlQueue }
    have e1 : (u.modTerm k (Terminal.clampRungs new.top)).reclassShift k = (u.setSec j Q).setTerm k T := by
      rw [State.modTerm, hT]
      unfold State.reclassShift
      have : (u.setTerm k T).sectorOf k = j := by rw [State.sectorOf, State.setTerm_term_same, hTs]
      rw [this, State.modSec, State.setTerm_sec, State.setTerm_term_same, setTerm_setSec_comm]
    rw [e1]
    rw [State.setTerm_term_same]
    -- common facts on states of the form (u.setSec j Q').setTerm k T'
    have common : ∀ (q : List ControlEntry) (T' : Terminal), (∀ i kd, queuedFor (u.sec j).controlQueue i kd = true → queuedFor q i kd = true) →
        (∃ ts ss, (u.setSec j { Q with controlQueue := q }).setTerm k T' = { u with terminals := ts, sectors := ss })
        ∧ (∀ k', k' ≠ k → ((u.setSec j { Q with controlQueue := q }).setTerm k T').term k' = u.term k')
        ∧ (∀ j', ((u.setSec j { Q with controlQueue := q }).setTerm k T').sec j' = { u.sec j' with controlQueue := (((u.setSec j { Q with controlQueue := q }).setTerm k T').sec j').controlQueue })
        ∧ (∀ j' i kd, queuedFor (u.sec j').controlQueue i kd = true → queuedFor (((u.setSec j { Q with controlQueue := q }).setTerm k T').sec j').controlQueue i kd = true) := by
      intro q T' hq
      refine ⟨⟨_, _, rfl⟩, fun k' hk => ?_, fun j' => ?_, fun j' i kd h => ?_⟩
      · rw [State.setTerm_term, if_neg (Ne.symm hk)]; rfl
      · rw [State.setTerm_sec, State.setSec_sec]
        by_cases hjj : j = j'
        · subst hjj; rw [if_pos rfl]
        · rw [if_neg hjj]
      · rw [State.setTerm_sec, State.setSec_sec]
        by_cases hjj : j = j'
        · subst hjj; rw [if_pos rfl]; exact hq i kd h
        · rw [if_neg hjj]; exact h
    have keepQ : ∀ i kd, queuedFor (u.sec j).controlQueue i kd = true → queuedFor Q.controlQueue i kd = true := fun i kd h => keep_reclassed _ _ _ _ _ h
    by_cases hc : (needsAnnouncement old new (u.term k) T && T.pendingShift.isNone) = true
    · rw [if_pos hc, modTerm_setTerm]
      generalize hT' : ({ T with pendingShift := some { target := T.rung } } : Terminal) = T'
      have hT's : T'.sector = j := by rw [← hT']; exact hTs
      unfold State.request
      have hso : ((u.setSec j Q).setTerm k T').sectorOf k = j := by rw [State.sectorOf, State.setTerm_term_same, hT's]
      dsimp only
      rw [hso]
      have hsecQ : ((u.setSec j Q).setTerm k T').sec j = Q := State.setSec_sec_same _ _ _
      rw [hsecQ]
      by_cases hq : queuedFor Q.controlQueue k .shift = true
      · rw [if_pos hq]
        have e2 : ((u.setSec j Q).setTerm k T').reclassShift k = (u.setSec j { Q with controlQueue := reclassed T' k Q.controlQueue }).setTerm k T' := by
          unfold State.reclassShift
          rw [hso, State.modSec, hsecQ, State.setTerm_term_same, setTerm_setSec_comm, setSec_setSec]
        rw [e2]
        obtain ⟨f1, f2, f3, f4⟩ := common (reclassed T' k Q.controlQueue) T' (fun i kd h => keep_reclassed _ _ _ _ _ (keepQ i kd h))
        refine ⟨f1, f2, f3, f4, fun h => absurd h he, fun _ h => ?_, fun _ _ => .inl ⟨?_, ?_⟩⟩
        · rw [hT] at h; rw [h] at hc; cases hc
        · rw [State.setTerm_term_same, hT, hT']
        · rw [State.setTerm_sec, hj, State.setSec_sec_same]
          exact keep_reclassed _ _ _ _ _ hq
      · rw [if_neg hq]
        by_cases hl : Q.controlQueue.length < Config.controlQueueLimit
        · rw [if_pos hl]
          have e2 : ∀ e, (((u.setSec j Q).setTerm k T').modSec j fun r => { r with controlQueue := insertEntry e r.controlQueue }) = (u.setSec j { Q with controlQueue := insertEntry e Q.controlQueue }).setTerm k T' := by
            intro e
            rw [State.modSec, hsecQ, setTerm_setSec_comm, setSec_setSec]
          rw [State.setTerm_term_same, e2]
          obtain ⟨f1, f2, f3, f4⟩ := common (insertEntry { slot := k, kind := .shift, cls := T'.classOf .shift } Q.controlQueue) T' (fun i kd h => keep_insert _ _ _ _ (keepQ i kd h))
          refine ⟨f1, f2, f3, f4, fun h => absurd h he, fun _ h => ?_, fun _ _ => .inl ⟨?_, ?_⟩⟩
          · rw [hT] at h; rw [h] at hc; cases hc
          · rw [State.setTerm_term_same, hT, hT']
          · rw [State.setTerm_sec, hj, State.setSec_sec_same, queuedFor_iff]
            exact ⟨_, (mem_insertEntry _ _ _).2 (.inl rfl), rfl, rfl⟩
        · rw [if_neg hl, modTerm_setTerm]
          obtain ⟨f1, f2, f3, f4⟩ := common Q.controlQueue { T' with owed := T'.owed.put .shift true } keepQ
          refine ⟨f1, f2, f3, f4, fun h => absurd h he, fun _ h => ?_, fun _ _ => .inr ?_⟩
          · rw [hT] at h; rw [h] at hc; cases hc
          · rw [State.setTerm_term_same, hT, ← hT', ← hTo]; rfl
    · rw [if_neg hc]
      obtain ⟨f1, f2, f3, f4⟩ := common Q.controlQueue T keepQ
      refine ⟨f1, f2, f3, f4, fun h => absurd h he, fun _ h => ?_, fun _ h => ?_⟩
      · rw [hT]; exact State.setTerm_term_same _ _ _
      · rw [hT] at h; exact absurd h hc

theorem bytes16_split (a b : Byte) : bytes16 (a ++ b) = [a, b] := by
  unfold bytes16
  congr 1
  · ext i hi
    rw [BitVec.getElem_extractLsb', BitVec.getLsbD_append]
    simp [show ¬ (8 + i < 8) by omega, BitVec.getLsbD_eq_getElem hi]
  · congr 1
    ext i hi
    rw [BitVec.getElem_extractLsb', BitVec.getLsbD_append]
    simp [hi, BitVec.getLsbD_eq_getElem hi]

/-- What an activation does to a list of records. -/
structure ActivatedAll (old : Option LadderBank) (new : LadderBank) (u v : State) (l : List Slot) : Prop where
  form : ∃ ts ss, v = { u with terminals := ts, sectors := ss }
  other : ∀ k', k' ∉ l → v.term k' = u.term k'
  sec : ∀ j, v.sec j = { u.sec j with controlQueue := (v.sec j).controlQueue }
  keep : ∀ j i kd, queuedFor (u.sec j).controlQueue i kd = true → queuedFor (v.sec j).controlQueue i kd = true
  empty : ∀ k ∈ l, (u.term k).state = .empty → v.term k = u.term k
  plain : ∀ k ∈ l, (u.term k).state ≠ .empty → (needsAnnouncement old new (u.term k) ((u.term k).clampRungs new.top) && ((u.term k).clampRungs new.top).pendingShift.isNone) = false →
    v.term k = (u.term k).clampRungs new.top
  ann : ∀ k ∈ l, (u.term k).state ≠ .empty → (needsAnnouncement old new (u.term k) ((u.term k).clampRungs new.top) && ((u.term k).clampRungs new.top).pendingShift.isNone) = true →
    (v.term k = { (u.term k).clampRungs new.top with pendingShift := some { target := ((u.term k).clampRungs new.top).rung } } ∧ queuedFor (v.sec (u.term k).sector).controlQueue k .shift = true)
    ∨ v.term k = { (u.term k).clampRungs new.top with pendingShift := some { target := ((u.term k).clampRungs new.top).rung }, owed := { (u.term k).owed with shift := true } }

theorem activated_all (old new) : ∀ (l : List Slot) (u : State), l.Nodup → ActivatedAll old new u (l.foldl (State.activateTerminal old new) u) l := by
  intro l
  induction l with
  | nil => intro u _; exact ⟨⟨u.terminals, u.sectors, rfl⟩, fun _ _ => rfl, fun _ => rfl, fun _ _ _ h => h, by simp, by simp, by simp⟩
  | cons x xs ih =>
    intro u hnd
    obtain ⟨hx, hnd'⟩ := List.nodup_cons.1 hnd
    rw [List.foldl_cons]
    have h1 := activated_one old new u x
    have h2 := ih (State.activateTerminal old new u x) hnd'
    generalize State.activateTerminal old new u x = w at h1 h2 ⊢
    generalize xs.foldl (State.activateTerminal old new) w = v at h2 ⊢
    have hne : ∀ k ∈ xs, k ≠ x := fun k hk h => hx (h ▸ hk)
    have hs : ∀ k ∈ xs, w.term k = u.term k := fun k hk => h1.other k (hne k hk)
    refine ⟨?_, fun k hk => ?_, fun j => ?_, fun j i kd h => h2.keep j i kd (h1.keep j i kd h), fun k hk h => ?_, fun k hk h h' => ?_, fun k hk h h' => ?_⟩
    · obtain ⟨a, b, e1⟩ := h1.form
      obtain ⟨c, d, e2⟩ := h2.form
      exact ⟨c, d, by rw [e2, e1]⟩
    · simp only [List.mem_cons, not_or] at hk
      rw [h2.other k hk.2, h1.other k hk.1]
    · rw [h2.sec j]
      generalize (v.sec j).controlQueue = cq
      rw [h1.sec j]
    · rcases List.mem_cons.1 hk with rfl | hk
      · rw [h2.other k hx]; exact h1.empty h
      · rw [h2.empty k hk (by rw [hs k hk]; exact h), hs k hk]
    · rcases List.mem_cons.1 hk with rfl | hk
      · rw [h2.other k hx]; exact h1.plain h h'
      · have := h2.plain k hk; rw [hs k hk] at this; exact this h h'
    · rcases List.mem_cons.1 hk with rfl | hk
      · rw [h2.other k hx]
        rcases h1.ann h h' with ⟨e1, e2⟩ | e1
        · exact .inl ⟨e1, h2.keep _ _ _ e2⟩
        · exact .inr e1
      · have := h2.ann k hk; rw [hs k hk] at this; exact this h h'

/-- Nothing outside sector `j` differs. -/
structure OwnOnly (j : Sector) (s t : State) : Prop where
  secs : ∀ i, i ≠ j → t.sec i = s.sec i
  terms : ∀ k, s.belongs j k = false → t.term k = s.term k
  rest : t.mode = s.mode ∧ t.startUp = s.startUp ∧ t.latch = s.latch ∧ t.pending = s.pending

theorem OwnOnly.refl (j) (s : State) : OwnOnly j s s := ⟨fun _ _ => rfl, fun _ _ => rfl, rfl, rfl, rfl, rfl⟩

theorem Works.own (w : Works j s t) : OwnOnly j s t :=
  ⟨fun i hi => w.sec_other (Ne.symm hi), fun k hk => w.term_other hk, w.outside.mode, w.outside.startUp, w.outside.latch, w.outside.pending⟩

theorem OwnOnly.links (o : OwnOnly j s t) (h1 : u.sectors = t.sectors) (h2 : u.terminals = t.terminals) (h3 : u.mode = t.mode) (h4 : u.startUp = t.startUp) (h5 : u.latch = t.latch) (h6 : u.pending = t.pending) : OwnOnly j s u :=
  ⟨fun i hi => by rw [← o.secs i hi]; unfold State.sec; rw [h1], fun k hk => by rw [← o.terms k hk]; unfold State.term; rw [h2], h3.trans o.rest.1, h4.trans o.rest.2.1, h5.trans o.rest.2.2.1, h6.trans o.rest.2.2.2⟩

theorem reply_sec' (Y : State) (c t st l) (i) : (Y.reply c t st l).sec i = Y.sec i := rfl

theorem hold_sec' (Y : State) (a) (i) : (Y.takeHold a).sec i = Y.sec i := rfl

theorem own_completion (j : Sector) (h : exec (.evaluationCompletion j) s = .next t) : OwnOnly j s t := by
  simp only [exec, execEvaluationCompletion] at h
  split at h
  · cases h; exact .refl _ _
  · next e he =>
    split at h <;> cases h
    · have h0 : ∀ X : State, (∀ i, i ≠ j → X.sec i = s.sec i) → X.terminals = s.terminals → X.mode = s.mode → X.startUp = s.startUp → X.latch = s.latch → X.pending = s.pending → OwnOnly j s (X.afterCompletion j e.bank) := by
        intro X h1 h2 h3 h4 h5 h6
        unfold State.afterCompletion
        have ht : ∀ k, X.term k = s.term k := fun k => by unfold State.term; rw [h2]
        split
        · have hs : ∀ (Y : State) st, Y.enterSector j st = Y ∨ ∃ R ns, Y.enterSector j st = { Y.setSec j R with notices := ns } := by
            intro Y st
            unfold State.enterSector
            split
            · exact .inl rfl
            · right; unfold State.offerSector; split
              · exact ⟨_, Y.notices, rfl⟩
              · exact ⟨_, _, rfl⟩
          unfold State.suspendNow
          rcases hs ((X.modSec j fun r => { r with suspendPending := false, prior := r.working, waitingBank := none }).reply (functionCode .suspendSector) (X.sec j).suspendTag .ok []) .suspended with e1 | ⟨R, ns, e1⟩
          · rw [e1]
            exact ⟨fun i hi => (reply_sec' _ _ _ _ _ i).trans ((State.modSec_sec_other _ (Ne.symm hi)).trans (h1 i hi)), fun k _ => ht k, h3, h4, h5, h6⟩
          · rw [e1]
            refine ⟨fun i hi => ?_, fun k _ => ht k, h3, h4, h5, h6⟩
            rw [← h1 i hi]
            refine Eq.trans (?_ : _ = (((X.modSec j fun r => { r with suspendPending := false, prior := r.working, waitingBank := none }).reply (functionCode .suspendSector) (X.sec j).suspendTag .ok []).setSec j R).sec i) ?_
            · rfl
            · rw [State.setSec_sec, if_neg (Ne.symm hi), reply_sec', State.modSec_sec_other _ (Ne.symm hi)]
        · split
          · unfold State.beginEvaluation
            dsimp only
            refine ⟨fun i hi => ?_, fun k _ => ht k, h3, h4, h5, h6⟩
            rw [State.modSec_sec_other _ (Ne.symm hi)]
            rw [hold_sec', State.modSec_sec_other _ (Ne.symm hi), h1 i hi]
          · exact ⟨h1, fun k _ => ht k, h3, h4, h5, h6⟩
      refine h0 _ (fun i hi => ?_) rfl rfl rfl rfl rfl
      refine Eq.trans (?_ : _ = (s.modSec j fun r => { r with lastEvaluated := if r.state = .blind then none else some e.frame.number, evaluation := none }).sec i) (State.modSec_sec_other _ (Ne.symm hi))
      rfl
    · exact .refl _ _

end Sys2Proof.Machine
end

