-- ==== Sys2Proof/Laws/Filling.lean ====
section
/-!
SUPPORT. What the filling of a frame does (R146, R147, R149): the grants, the departures from the front of the control queue and
what they write, and the owed scan behind a departure.
-/

set_option Elab.async false

namespace Sys2Proof.Machine

variable {s t : State} {j : Sector} {k : Slot} {n : FrameNo} {c : SectorConfig}

/-! ## A state with a control queue and terminal records of its own -/

/-- The state with another control queue of a sector and other terminal records. -/
def State.filled (s : State) (j : Sector) (q : List ControlEntry) (f : Slot → Terminal) : State :=
  { s.setSec j { s.sec j with controlQueue := q } with terminals := Vector.ofFn f }

@[simp] theorem State.filled_term (s : State) (j q f k) : (s.filled j q f).term k = f k := by
  simp [State.filled, State.term]

@[simp] theorem State.filled_sec (s : State) (j q f) : (s.filled j q f).sec j = { s.sec j with controlQueue := q } := by
  unfold State.filled
  generalize Vector.ofFn f = v
  exact State.setSec_sec_same s j _

@[simp] theorem State.filled_cfg (s : State) (j q f) : (s.filled j q f).cfg j = s.cfg j := by
  rw [State.cfg, State.filled_sec]; rfl

@[simp] theorem State.filled_activeBank (s : State) (j q f) : (s.filled j q f).activeBank = s.activeBank := by
  unfold State.filled
  generalize Vector.ofFn f = v
  rfl

theorem State.filled_self (s : State) (j : Sector) : s.filled j (s.sec j).controlQueue s.term = s := by
  have h1 : s.setSec j (s.sec j) = s := by
    unfold State.setSec State.sec
    rw [Vector.set_getElem_self]
  have h2 : Vector.ofFn s.term = s.terminals := by
    ext1 i hi; simp [State.term]
  unfold State.filled
  rw [h2]
  exact h1

theorem State.filled_modQueue (s : State) (j q f) (g : List ControlEntry → List ControlEntry) :
    ((s.filled j q f).modSec j fun r => { r with controlQueue := g r.controlQueue }) = s.filled j (g q) f := by
  rw [State.modSec, State.filled_sec]
  unfold State.filled
  generalize Vector.ofFn f = v
  have : ({ s.setSec j { s.sec j with controlQueue := q } with terminals := v } : State).setSec j
      { s.sec j with controlQueue := g q }
      = { (s.setSec j { s.sec j with controlQueue := q }).setSec j { s.sec j with controlQueue := g q } with terminals := v } := rfl
  exact this.trans (by rw [setSec_setSec])

theorem State.filled_setQueue (s : State) (j q f) (q' : List ControlEntry) :
    ((s.filled j q f).modSec j fun r => { r with controlQueue := q' }) = s.filled j q' f :=
  s.filled_modQueue j q f fun _ => q'

theorem State.filled_modTerm (s : State) (j q f) (i : Slot) (g : Terminal → Terminal) :
    (s.filled j q f).modTerm i g = s.filled j q fun k => if k = i then g (f k) else f k := by
  have h : (Vector.ofFn f).set i.val (g (f i)) = Vector.ofFn fun k => if k = i then g (f k) else f k := by
    ext1 x hx
    simp only [Vector.getElem_set, Vector.getElem_ofFn, Fin.ext_iff]
    split
    · next h => subst h; rw [if_pos rfl]
    · next h => rw [if_neg (fun hh => h hh.symm)]
  rw [State.modTerm, State.filled_term]
  unfold State.filled
  rw [← h]
  generalize Vector.ofFn f = v
  rfl

/-! ## The free positions of a frame -/

/-- Messages of eight bytes stand in the first free positions, and the rest of the frame is as it came (R146, R172). -/
theorem writeSlots_messages (fr : Frame) {free : Nat} {ms : List (List Byte)} (hf : free ≤ 8) (h : ∀ m ∈ ms, m.length = 8) :
    writeSlots fr free ms
      = fr.take (70 - 8 * free) ++ ms.flatten ++ fr.drop (70 - 8 * free + 8 * ms.length) := by
  have hl : ms.flatten.length = 8 * ms.length := by
    induction ms with
    | nil => rfl
    | cons x xs ih =>
      rw [List.flatten_cons, List.length_append, List.length_cons, h x List.mem_cons_self,
        ih fun y hy => h y (List.mem_cons_of_mem _ hy)]
      omega
  unfold writeSlots
  rw [show 6 + 8 * (8 - free) = 70 - 8 * free by omega, hl]

/-! ## What insertions write -/

/-- A terminal record after the insertion of the listed entries: what each kind writes, if an entry of the terminal and the kind
is among them (R149). -/
def sent (c : SectorConfig) (n : FrameNo) (l : List ControlEntry) (k : Slot) (t : Terminal) : Terminal :=
  { t with
    expectedBurst := if queuedFor l k .verify then some (later n c.grantLead) else t.expectedBurst
    pendingAdjust := if queuedFor l k .correct then none else t.pendingAdjust
    verification := if queuedFor l k .verify
      then { started := true, completed := false, outcome := .none, startFrame := n } else t.verification
    pendingShift := if queuedFor l k .shift
      then t.pendingShift.map fun p => { p with effective := some (later n c.shiftDelay) } else t.pendingShift }

theorem sent_cons (c n) (x : ControlEntry) (l : List ControlEntry) (k : Slot) (t : Terminal) :
    sent c n (x :: l) k t = sent c n l k (if k = x.slot then inserted c n x.kind t else t) := by
  unfold sent queuedFor
  simp only [List.any_cons, ControlEntry.isFor]
  by_cases hk : k = x.slot
  · rw [if_pos hk]
    subst hk
    rcases x with ⟨i, kind, cls⟩
    cases kind <;> by_cases h1 : (l.any fun e => e.slot == i && e.kind == .correct) = true <;>
      by_cases h2 : (l.any fun e => e.slot == i && e.kind == .verify) = true <;>
      by_cases h3 : (l.any fun e => e.slot == i && e.kind == .shift) = true <;>
      simp [inserted, h1, h2, h3, Function.comp_def]
  · simp [hk, Ne.symm hk]

theorem message_filled (s : State) (j q q' f n k kind) :
    (s.filled j q f).message j n k kind = (s.filled j q' f).message j n k kind := by
  cases kind <;> simp only [State.message, State.filled_term, State.filled_cfg, State.filled_activeBank]

/-- The insertion of one entry leaves the message of another as it is: no kind writes what another kind's message reads. -/
theorem message_inserted (s : State) (j q f n) {e x : ControlEntry} (h : ¬(e.slot = x.slot ∧ e.kind = x.kind)) :
    (s.filled j q fun k => if k = x.slot then inserted (s.cfg j) n x.kind (f k) else f k).message j n e.slot e.kind
      = (s.filled j q f).message j n e.slot e.kind := by
  rcases e with ⟨i, kind, cls⟩
  rcases x with ⟨i', kind', cls'⟩
  dsimp only at *
  by_cases hi : i = i'
  · subst hi
    have hk : kind ≠ kind' := fun hk => h ⟨rfl, hk⟩
    have hst : ∀ (t : Terminal), (inserted (s.cfg j) n kind' t).shiftTarget = t.shiftTarget := by
      intro t
      unfold Terminal.shiftTarget inserted
      cases kind' <;> cases t.pendingShift <;> rfl
    cases kind <;> cases kind' <;> first | exact absurd rfl hk | skip
    all_goals simp only [State.message, correctMessage, verifyMessage, powerMessage, shiftMessage, State.filled_term, if_true,
      State.filled_cfg, State.filled_activeBank, hst]
    all_goals simp only [inserted]
  · cases kind <;> simp only [State.message, State.filled_term, State.filled_cfg, State.filled_activeBank, if_neg hi]

/-- A queue pass of a sector that owes nothing: the entries at the front leave, each with its message and its writes (R147). -/
theorem queuePass_quiet (s : State) (j n) : ∀ (m : Nat) (q : List ControlEntry) (f : Slot → Terminal),
    (∀ k, (f k).state = (s.term k).state ∧ (f k).sector = (s.term k).sector) →
    (m = 0 ∨ ∀ k, s.belongs j k = true → (f k).owed = {}) → ((q.take m).map fun e => (e.slot, e.kind)).Nodup →
    State.queuePass j n m (s.filled j q f)
      = (s.filled j (q.drop m) fun k => sent (s.cfg j) n (q.take m) k (f k),
        (q.take m).map fun e => (s.filled j q f).message j n e.slot e.kind) := by
  have h0 : ∀ (f : Slot → Terminal), (fun k => sent (s.cfg j) n [] k (f k)) = f := fun f => by
    funext k; simp [sent, queuedFor]
  intro m
  induction m with
  | zero => intro q f _ _ _; simp only [State.queuePass, List.take_zero, List.drop_zero, h0, List.map_nil]
  | succ m ih =>
    intro q f hf ho hn
    have ho := ho.resolve_left (by omega)
    unfold State.queuePass
    rw [State.filled_sec]
    cases q with
    | nil => simp only [List.take_nil, List.drop_nil, h0, List.map_nil]
    | cons x rest =>
      dsimp only
      rw [State.filled_setQueue, State.filled_cfg, State.filled_modTerm]
      have hf' : ∀ k, (if k = x.slot then inserted (s.cfg j) n x.kind (f k) else f k).state = (s.term k).state
          ∧ (if k = x.slot then inserted (s.cfg j) n x.kind (f k) else f k).sector = (s.term k).sector
          ∧ (if k = x.slot then inserted (s.cfg j) n x.kind (f k) else f k).owed = (f k).owed := by
        intro k
        have := inserted_keeps (s.cfg j) n x.kind (f k)
        split
        · exact ⟨this.2.1.trans (hf k).1, this.2.2.trans (hf k).2, this.1⟩
        · exact ⟨(hf k).1, (hf k).2, rfl⟩
      have hq : ∀ q' : List ControlEntry, (s.filled j q' fun k => if k = x.slot then inserted (s.cfg j) n x.kind (f k) else f k).owedScan j
          = s.filled j q' fun k => if k = x.slot then inserted (s.cfg j) n x.kind (f k) else f k := by
        intro q'
        apply owedScan_quiet
        intro i hi
        rw [State.filled_term, (hf' i).2.2]
        refine ho i ?_
        simpa only [State.belongs, State.filled_term, (hf' i).1, (hf' i).2.1] using hi
      rw [hq]
      simp only [List.take_succ_cons, List.map_cons, List.nodup_cons] at hn
      rw [ih rest _ (fun k => ⟨(hf' k).1, (hf' k).2.1⟩) (.inr fun k hk => by rw [(hf' k).2.2]; exact ho k hk) hn.2]
      simp only [List.take_succ_cons, List.drop_succ_cons, List.map_cons, sent_cons]
      rw [Prod.mk.injEq]
      refine ⟨rfl, congrArg _ (List.map_congr_left fun e he => ?_)⟩
      rw [message_inserted]
      · exact message_filled _ _ _ _ _ _ _ _
      · intro h
        exact hn.1 (List.mem_map.2 ⟨e, he, by rw [h.1, h.2]⟩)

/-! ## The grants and the owed scan -/

theorem grantAll_filled (s : State) (j n) : ∀ (ks : List Slot) (f : Slot → Terminal) (q : List ControlEntry),
    (s.filled j q f).grantAll j n ks = s.filled j q fun k =>
      if k ∈ ks then { f k with expectedBurst := some (later n (s.cfg j).grantLead) } else f k := by
  intro ks
  induction ks with
  | nil => intro f q; simp [State.grantAll]
  | cons x xs ih =>
    intro f q
    have hc : ∀ z : State, z.grantAll j n (x :: xs)
        = (z.modTerm x fun t => { t with expectedBurst := some (later n (z.cfg j).grantLead) }).grantAll j n xs := fun _ => rfl
    rw [hc, State.filled_modTerm, State.filled_cfg, ih]
    congr 1
    funext k
    by_cases h1 : k = x <;> by_cases h2 : k ∈ xs <;> simp [h1, h2]

/-- The class order joins an entry between those of its own and earlier classes and those of later ones (R140). -/
theorem insertEntry_between (e : ControlEntry) {front back : List ControlEntry} (h1 : ∀ x ∈ front, x.cls.rank ≤ e.cls.rank)
    (h2 : ∀ x ∈ back, e.cls.rank < x.cls.rank) : insertEntry e (front ++ back) = front ++ e :: back := by
  induction front with
  | nil =>
    cases back with
    | nil => rfl
    | cons y ys =>
      simp only [List.nil_append, insertEntry]
      rw [if_neg (by have := h2 y (by simp); omega)]
  | cons x xs ih =>
    simp only [List.cons_append, insertEntry]
    rw [if_pos (h1 x (by simp)), ih fun y hy => h1 y (List.mem_cons_of_mem _ hy)]

/-- The owed scan of a sector that owes takes one kind of its lowest slot that owes back into the queue (R144). -/
theorem owedScan_takes (s : State) (j : Sector) {f : Slot → Terminal} {front back : List ControlEntry} {i : Slot} {kind : MsgKind}
    {cls : MsgClass} (hf : ∀ k, (f k).state = (s.term k).state ∧ (f k).sector = (s.term k).sector)
    (hl : (front ++ back).length < 48) (hi : s.belongs j i = true) (ho : (f i).owed.any = true)
    (hlow : ∀ l, l < i → s.belongs j l = true → (f l).owed = {})
    (hkind : (f i).owedChoice = kind) (hcls : (f i).classOf kind = cls)
    (hno : ∀ e ∈ front ++ back, ¬(e.slot = i ∧ e.kind = kind))
    (h1 : ∀ e ∈ front, e.cls.rank ≤ cls.rank) (h2 : ∀ e ∈ back, cls.rank < e.cls.rank) :
    (s.filled j (front ++ back) f).owedScan j
      = s.filled j (front ++ { slot := i, kind := kind, cls := cls } :: back)
        fun k => if k = i then { f k with owed := (f k).owed.put kind false } else f k := by
  have hb : ∀ k, (s.filled j (front ++ back) f).belongs j k = s.belongs j k := fun k => by
    simp only [State.belongs, State.filled_term, (hf k).1, (hf k).2]
  have hfind : (((s.filled j (front ++ back) f).slotsOf j).find? fun k => (((s.filled j (front ++ back) f).term k).owed.any)) = some i := by
    rw [List.find?_eq_some_iff_append]
    refine ⟨by rw [State.filled_term]; exact ho, ?_⟩
    have hm : i ∈ (s.filled j (front ++ back) f).slotsOf j := mem_slotsOf.2 ((hb i).trans hi)
    obtain ⟨as, bs, hab⟩ := List.append_of_mem hm
    refine ⟨as, bs, hab, fun a ha => ?_⟩
    have hs : ((s.filled j (front ++ back) f).slotsOf j).Pairwise (· < ·) := by
      unfold State.slotsOf allSlots
      exact (List.pairwise_lt_finRange 320).filter _
    rw [hab, List.pairwise_append] at hs
    have hlt := hs.2.2 a ha i List.mem_cons_self
    have hba : s.belongs j a = true := by
      rw [← hb a]; exact mem_slotsOf.1 (by rw [hab]; exact List.mem_append_left _ ha)
    rw [State.filled_term, hlow a hlt hba]
    decide
  unfold State.owedScan
  rw [State.filled_sec]
  rw [if_neg (by show ¬ 48 ≤ _; exact Nat.not_le.2 hl), hfind]
  dsimp only
  rw [State.filled_term, hkind, hcls]
  have hj : joinOnce { slot := i, kind := kind, cls := cls } (front ++ back) = front ++ { slot := i, kind := kind, cls := cls } :: back := by
    unfold joinOnce
    rw [if_neg, insertEntry_between _ h1 h2]
    rw [queuedFor_iff]
    rintro ⟨e, he, h⟩
    exact hno e he h
  have hq := s.filled_modQueue j (front ++ back) f (joinOnce { slot := i, kind := kind, cls := cls })
  rw [hj] at hq
  rw [hq, State.filled_modTerm]

end Sys2Proof.Machine
end

