-- ==== Sys2Proof/Laws/Walk.lean ====
section
/-!
SUPPORT. What one step of the release walk can do (R53, R54).
-/

set_option Elab.async false

namespace Sys2Proof.Machine

variable {s t u v : State} {j : Sector} {k : Slot}

/-- A slot that joins by class joins. -/
theorem insertByClass_perm (cls : Slot → Fin 4) (k : Slot) (q : List Slot) : (insertByClass cls k q).Perm (q ++ [k]) := by
  induction q with
  | nil => exact .refl _
  | cons x xs ih =>
    unfold insertByClass
    split
    · exact ih.cons x
    · exact (List.perm_append_singleton k (x :: xs)).symm

theorem walk_queue (l : List Slot) : ∀ u : State, l.Nodup → (∀ k ∈ l, (u.term k).state = .quiet ∧ (u.term k).sector = j) →
    (((l.foldl State.walkOut u).sec j).queue).Perm ((u.sec j).queue ++ l) := by
  induction l with
  | nil => intro u _ _; simp
  | cons x xs ih =>
    intro u hn hp
    obtain ⟨hx, hn'⟩ := List.nodup_cons.1 hn
    rw [List.foldl_cons]
    have hT := walkOut_one u x (hp x (by simp))
    have h := ih (u.walkOut x) hn' (fun k hk => by
      rw [hT.other k (fun h => hx (h ▸ hk))]; exact hp k (by simp [hk]))
    refine h.trans ?_
    have e : ((u.walkOut x).sec j).queue = insertByClass (u.modTerm x fun t => { t with attemptCount := 0 }).classOfSlot x (u.sec j).queue := by
      have hs : (u.modTerm x fun t => { t with attemptCount := 0 }).sectorOf x = j := by
        rw [State.sectorOf, State.modTerm_term_same]; exact (hp x (by simp)).2
      unfold State.walkOut State.becomeWaiting
      rw [toState_change]
      · rw [State.offerTerminal_sec, State.setTerm_sec, State.joinQueue, hs, State.modSec_sec_same]; rfl
      · rw [State.joinQueue, State.modSec_term, State.modTerm_term_same]; show (u.term x).state ≠ _; rw [(hp x (by simp)).1]; decide
      · rw [State.joinQueue, State.modSec_term, State.modTerm_term_same]; show (u.term x).state ≠ _; rw [(hp x (by simp)).1]; decide
    rw [e]
    have := (insertByClass_perm (u.modTerm x fun t => { t with attemptCount := 0 }).classOfSlot x (u.sec j).queue).append_right xs
    simpa using this

/-- What one walk step leaves of the sector and its terminals. -/
structure Walked (j : Sector) (u v : State) (moved : List Slot) (next : Option Slot) : Prop where
  sec : ∃ q, v.sec j = { u.sec j with
      queue := q, state := if next = none then .clear else .recovering, releaseCursor := next
      progressCounter := if next = none then 0 else (u.sec j).progressCounter }
    ∧ (∀ k ∈ moved, k ∈ q) ∧ q.Perm ((u.sec j).queue ++ moved)
  ended : next = none → .sector j ∈ v.notices
  secs : ∀ i, i ≠ j → v.sec i = u.sec i
  term : ∀ k ∈ moved, v.term k = Terminal.offered u.notices k { u.term k with attemptCount := 0, state := .waiting }
  other : ∀ k, k ∉ moved → v.term k = u.term k
  notices : ∀ k ∈ moved, .terminal k ∈ v.notices
  around : u.SameAround v ∧ v.controllerOut = u.controllerOut

theorem walked {c : Slot} {batch : Nat} {ahead moved : List Slot} {next : Option Slot}
    (hst : (u.sec j).state = .recovering) (hc : (u.sec j).releaseCursor = some c) (hbt : batch = (u.sec j).config.releaseBatch)
    (hah' : ahead = (u.slotsOf j).filter fun k => decide (c ≤ k))
    (hm : moved = (ahead.filter fun k => (u.term k).state == .quiet).take batch)
    (h0 : batch = 0 → next = if ahead = [] then none else some c)
    (h1 : batch ≠ 0 → next = if moved.length < batch then none else (ahead.filter fun k => moved.all fun m => decide (m < k)).head?) :
    Walked j u (u.stateWork j) moved next := by
  have hmp : ∀ k' ∈ moved, (u.term k').state = .quiet ∧ (u.term k').sector = j := fun k' hk' => by
      have := List.mem_of_mem_take (hm ▸ hk')
      rw [List.mem_filter, hah', List.mem_filter, mem_slotsOf] at this
      exact ⟨by simpa using this.2, State.sectorOf_of_belongs this.1.1⟩
  have hnd : moved.Nodup := by rw [hm, hah']; exact (((slotsOf_nodup u j).filter _).filter _).sublist (List.take_sublist _ _)
  have hM := manyTurns (j := j) (u := u) (pre := fun t => t.state = .quiet ∧ t.sector = j) (f := State.walkOut) (fun u k h => walkOut_one u k h) moved
    hnd hmp
  have hperm := walk_queue moved u hnd hmp
  obtain ⟨q, hq, -, hq2⟩ := hM.same
  generalize hw : moved.foldl State.walkOut u = w at hM hq hperm
  have hq' : (w.sec j).queue = q := by rw [hq]
  rw [hq'] at hperm
  have hws : (w.sec j).state = .recovering := by rw [hq]; exact hst
  have e2 : u.stateWork j = next.elim (w.endWalk j) (fun k => w.modSec j fun r => { r with releaseCursor := some k }) := by
    have h1' : u.stateWork j = u.walkStep j := by
      unfold State.stateWork; rw [hst]
    rw [h1']; unfold State.walkStep
    have hcfg : (u.cfg j).releaseBatch = batch := by rw [State.cfg, hbt]
    have hcur : (u.sec j).releaseCursor.getD 0 = c := by rw [hc]; rfl
    dsimp only
    rw [hcur, hcfg, ← hah', ← hm, hw]
    by_cases hb0 : batch = 0
    · simp only [if_pos hb0]
      have h := h0 hb0
      by_cases hah2 : ahead = []
      · rw [if_pos hah2] at h; rw [h, hah2]; rfl
      · rw [if_neg hah2] at h; rw [h]
        have : ahead.head?.isNone = false := by
          cases ahead with
          | nil => exact absurd rfl hah2
          | cons a as => rfl
        rw [this, if_neg (by decide)]
        rw [Option.elim_some, State.modSec]
        symm
        apply setSec_same
        rw [hq, ← hc]
    · simp only [if_neg hb0]
      rw [← h1 hb0]
      cases next <;> rfl
  rw [e2]
  cases next with
  | some x =>
    refine ⟨⟨q, ?_, fun k hk => hq2 k hk trivial, hperm⟩, by simp, fun i hi => ?_, fun k hk => (hM.term k hk).1 trivial, fun k hk => hM.other k hk, fun k hk => (hM.notices _).2 (.inr ⟨k, hk, trivial, rfl⟩), SameAround.trans hM.around.1 ⟨rfl, rfl, rfl, rfl, rfl, rfl, rfl⟩, hM.around.2⟩
    · rw [Option.elim_some, State.modSec_sec_same, hq, if_neg (by simp), if_neg (by simp), ← hst]
    · rw [Option.elim_some, State.modSec_sec_other _ (Ne.symm hi)]; exact hM.sec i hi
  | none =>
    have e3 : w.endWalk j = (w.setSec j { w.sec j with state := .clear, releaseCursor := none, progressCounter := 0 }).offerSector j := by
      unfold State.endWalk State.enterSector
      rw [State.modSec_sec_same, if_neg (by rw [hws]; decide)]
      rw [State.modSec, State.modSec, State.setSec_sec]
      simp only [if_true]
      rw [setSec_setSec]; unfold SectorRec.enter
      rw [if_neg (by dsimp only; rw [hws]; decide)]
    show Walked j u (w.endWalk j) moved none
    rw [e3]
    have hn : ∀ x, x ∈ ((w.setSec j { w.sec j with state := .clear, releaseCursor := none, progressCounter := 0 }).offerSector j).notices ↔ x ∈ w.notices ∨ x = .sector j := by
      intro x
      unfold State.offerSector; split
      · next h => exact ⟨.inl, fun h' => h'.elim id (fun h' => h' ▸ h)⟩
      · simp
    refine ⟨⟨q, ?_, fun k hk => hq2 k hk trivial, hperm⟩, fun _ => (hn _).2 (.inr rfl), fun i hi => ?_, fun k hk => ?_, fun k hk => ?_, fun k hk => (hn _).2 (.inl ((hM.notices _).2 (.inr ⟨k, hk, trivial, rfl⟩))), SameAround.trans hM.around.1 ?_, Eq.trans ?_ hM.around.2⟩
    · rw [State.offerSector_sec, State.setSec_sec_same, hq, if_pos rfl, if_pos rfl]
    · rw [State.offerSector_sec, State.setSec_sec, if_neg (Ne.symm hi)]; exact hM.sec i hi
    · rw [State.offerSector_term]; exact (hM.term k hk).1 trivial
    · rw [State.offerSector_term]; exact hM.other k hk
    · unfold State.offerSector; split <;> exact ⟨rfl, rfl, rfl, rfl, rfl, rfl, rfl⟩
    · unfold State.offerSector; split <;> rfl

end Sys2Proof.Machine
end

