-- ==== Sys2Proof/Laws/Leads.lean ====
section
/-!
SUPPORT. What the choice of a lead can do: at the declaration of an outage and at the rotation of a lead (R47, R48, R51).
-/

set_option Elab.async false

namespace Sys2Proof.Machine

variable {s t u v : State} {j : Sector} {k : Slot} {r : Request}

/-! ## The declaration of an outage (R47) -/

/-- What the declaration of an outage leaves, where the sector's terminals owe no message: `moved` are the terminals it silences
and `quiet` the QUIET ones after it. -/
structure Declared (j : Sector) (s t : State) (moved quiet : List Slot) : Prop where
  around : s.SameAround t ∧ t.controllerOut = s.controllerOut
  secs : ∀ i, i ≠ j → t.sec i = s.sec i
  outside : ∀ k, s.belongs j k = false → t.term k = s.term k
  still : ∀ k, s.belongs j k = true → k ∉ moved → t.term k = { s.term k with probed := false }
  silenced : ∀ k ∈ moved, t.term k = Terminal.offered s.notices k { silent (s.term k) with probed := false }
  kept : ∀ x ∈ s.notices, x ∈ t.notices
  offers : (∀ k ∈ moved, .terminal k ∈ t.notices) ∧ .sector j ∈ t.notices
  sec : ∃ lead, (quiet = [] ∧ lead = none
      ∨ ∃ m ∈ quiet, lead = some m ∧ ∀ i ∈ quiet, i ≠ m →
        (s.term i).leadRank < (s.term m).leadRank ∨ (s.term i).leadRank = (s.term m).leadRank ∧ m < i)
    ∧ t.sec j =
      { s.sec j with
        state := if quiet = [] then .clear else .outage
        progressCounter := 0, releaseCursor := none, lead := lead, leadFailures := 0
        probeTimer := if quiet = [] then 0 else (s.sec j).config.probeInterval
        queue := (s.sec j).queue.filter fun k => !moved.contains k
        window := (s.sec j).window.filter fun k => !moved.contains k
        controlQueue := (s.sec j).controlQueue.filter fun e => !moved.contains e.slot
        evaluation := (s.sec j).evaluation.map fun e =>
          { e with swept := e.swept.filter fun k => !moved.contains k } }

theorem declared {moved quiet : List Slot} (hst : (s.sec j).state = .clear ∨ (s.sec j).state = .recovering)
    (howed : ∀ k, s.belongs j k = true → (s.term k).owed = {})
    (hmoved : moved = (List.finRange 320).filter fun k =>
      s.belongs j k && [.waiting, .deferred, .ranging, .verifying].contains (s.term k).state)
    (hquiet : quiet = (List.finRange 320).filter fun k => k ∈ moved || (s.belongs j k && (s.term k).state == .quiet)) :
    Declared j s (s.declareOutage j) moved quiet := by
  have hre : ∀ st : TermState, [TermState.waiting, .deferred, .ranging, .verifying].contains st = st.reEntering := by intro st; cases st <;> rfl
  have hmv : (s.slotsOf j).filter (fun k => (s.term k).state.reEntering) = moved := by
    rw [hmoved]; unfold State.slotsOf allSlots; rw [List.filter_filter]
    apply List.filter_congr; intro k _; rw [hre, Bool.and_comm]
  have hmem : ∀ k, k ∈ moved ↔ s.belongs j k = true ∧ (s.term k).state.reEntering = true := by
    intro k; rw [← hmv, List.mem_filter, mem_slotsOf]
  have hnd : moved.Nodup := by rw [hmoved]; exact (List.nodup_finRange 320).filter _
  -- the entry into OUTAGE
  let R0 : SectorRec := { s.sec j with state := .outage, progressCounter := 0, releaseCursor := none }
  have hent : (s.modSec j fun r => { r.enter .outage with releaseCursor := none }) = s.setSec j R0 := by
    rw [State.modSec]; unfold SectorRec.enter
    rw [if_neg (by rintro (h | h) <;> (rcases hst with h' | h' <;> rw [h'] at h <;> cases h))]
  -- the moved terminals
  obtain ⟨T, -⟩ := turns (j := j) (P := fun u => ∀ i, u.belongs j i = true → (u.term i).owed = {}) (u := s.setSec j R0) (pre := fun t => t.state.reEntering = true ∧ t.sector = j) (f := State.silence)
    (fun u k hP h => silence_turn u k hP h) moved hnd howed (fun k hk => ⟨((hmem k).1 hk).2, by
      have := ((hmem k).1 hk).1; unfold State.belongs at this; simp at this; exact this.2⟩)
  unfold State.declareOutage
  dsimp only
  rw [hent]
  have hmv' : ((s.setSec j R0).slotsOf j).filter (fun k => ((s.setSec j R0).term k).state.reEntering) = moved := hmv
  rw [hmv']
  generalize moved.foldl State.silence (s.setSec j R0) = m at T ⊢
  have Tterm : ∀ k, ∃ b, m.term k = if k ∈ moved then { silent (s.term k) with noticePending := b } else s.term k := by
    intro k
    by_cases hk : k ∈ moved
    · obtain ⟨b, hb⟩ := offered_eq s.notices k (silent (s.term k))
      refine ⟨b, ?_⟩
      rw [if_pos hk, (T.term k hk).1 trivial, ← hb]; rfl
    · refine ⟨true, ?_⟩
      rw [if_neg hk, T.other k hk]; rfl
  have hbel : ∀ k, m.belongs j k = s.belongs j k := by
    intro k
    obtain ⟨b, hb⟩ := Tterm k
    unfold State.belongs
    rw [hb]
    by_cases hk : k ∈ moved
    · rw [if_pos hk]
      have h2 := ((hmem k).1 hk).1
      unfold State.belongs at h2
      rw [h2]
      simp at h2
      simp [silent, h2.2]
    · rw [if_neg hk]
  have hslots : m.slotsOf j = s.slotsOf j := by
    unfold State.slotsOf; apply List.filter_congr; intro k _; exact hbel k
  obtain ⟨ts, hc1, hc2⟩ := marks_fold (m.slotsOf j) m
  have hclear : m.clearMarks j = { m with terminals := ts } := hc1
  rw [hclear]
  have hmsec : m.sec j = _ := T.same
  rw [without_fold] at hmsec
  have hsR0 : (s.setSec j R0).sec j = R0 := State.setSec_sec_same _ _ _
  rw [hsR0] at hmsec
  generalize hZ : ({ m with terminals := ts } : State) = Z at hc2 ⊢
  have Zsec : ∀ i, Z.sec i = m.sec i := by intro i; rw [← hZ]; rfl
  have Zn : Z.notices = m.notices := by rw [← hZ]
  have Zterm : ∀ k, ∃ b, Z.term k = if k ∈ moved then { silent (s.term k) with probed := false, noticePending := b } else if s.belongs j k = true then { s.term k with probed := false } else s.term k := by
    intro k
    obtain ⟨b, hb⟩ := Tterm k
    refine ⟨b, ?_⟩
    rw [hc2, hb, hslots]
    by_cases hk : k ∈ moved
    · rw [if_pos hk, if_pos hk, if_pos (mem_slotsOf.2 ((hmem k).1 hk).1)]
    · rw [if_neg hk, if_neg hk]
      by_cases hk' : s.belongs j k = true
      · rw [if_pos hk', if_pos (mem_slotsOf.2 hk')]
      · rw [if_neg hk', if_neg (fun h => hk' (mem_slotsOf.1 h))]
  have hrank : ∀ k, (Z.term k).leadRank = (s.term k).leadRank := by
    intro k
    obtain ⟨b, hb⟩ := Zterm k
    rw [hb]
    split
    · rfl
    · split <;> rfl
  have Zbel : ∀ k, Z.belongs j k = s.belongs j k := by
    intro k
    obtain ⟨b, hb⟩ := Zterm k
    unfold State.belongs
    rw [hb]
    by_cases hk : k ∈ moved
    · rw [if_pos hk]
      have h2 := ((hmem k).1 hk).1
      unfold State.belongs at h2
      rw [h2]
      simp at h2
      simp [silent, h2.2]
    · rw [if_neg hk]; split <;> rfl
  have Zquiet : Z.slotsIn j .quiet = quiet := by
    rw [slotsIn_eq, hquiet]
    apply List.filter_congr
    intro k _
    rw [Zbel]
    obtain ⟨b, hb⟩ := Zterm k
    rw [hb]
    by_cases hk : k ∈ moved
    · rw [if_pos hk]
      have h2 := ((hmem k).1 hk).1
      simp [hk, h2, silent]
    · rw [if_neg hk]
      by_cases hb' : s.belongs j k = true
      · rw [if_pos hb']; simp [hk]
      · rw [if_neg hb']; simp [hk]
  have Zunm : quiet.filter (fun k => !(Z.term k).probed) = quiet := by
    rw [List.filter_eq_self]
    intro k hk
    obtain ⟨b, hb⟩ := Zterm k
    rw [hb]
    rw [hquiet, List.mem_filter] at hk
    by_cases hk' : k ∈ moved
    · rw [if_pos hk']; rfl
    · have : s.belongs j k = true := by have := hk.2; simp [hk'] at this; exact this.1
      rw [if_neg hk', if_pos this]; rfl
  have around : s.SameAround Z ∧ Z.controllerOut = s.controllerOut := by
    have ha := T.around
    rw [← hZ]; exact ⟨⟨ha.1.1, ha.1.2, ha.1.3, ha.1.4, ha.1.5, ha.1.6, ha.1.7⟩, ha.2⟩
  have Zfin : ∀ k, (s.belongs j k = false → Z.term k = s.term k) ∧ (s.belongs j k = true → k ∉ moved → Z.term k = { s.term k with probed := false }) := by
    intro k
    obtain ⟨b, hb⟩ := Zterm k
    refine ⟨fun h => ?_, fun h h' => ?_⟩
    · have : k ∉ moved := fun hc => by rw [((hmem k).1 hc).1] at h; cases h
      rw [hb, if_neg this, if_neg (by simp [h])]
    · rw [hb, if_neg h', if_pos h]
  have Zmoved : ∀ k ∈ moved, Z.term k = Terminal.offered s.notices k { silent (s.term k) with probed := false } := by
    intro k hk
    rw [hc2, hslots, if_pos (mem_slotsOf.2 ((hmem k).1 hk).1), (T.term k hk).1 trivial]
    show ({ Terminal.offered s.notices k (silent (s.term k)) with probed := false } : Terminal) = _
    unfold Terminal.offered; split <;> rfl
  have hnot : ∀ k ∈ moved, NoticeItem.terminal k ∈ Z.notices := by
    intro k hk; rw [Zn, T.notices]; exact .inr ⟨k, hk, trivial, rfl⟩
  have hqp : quiet.Pairwise (· < ·) := by rw [hquiet]; exact (List.pairwise_lt_finRange 320).filter _
  -- the lead choice
  let Q : SectorRec := { m.sec j with leadFailures := 0, probeTimer := (m.sec j).config.probeInterval }
  have e4 : (Z.modSec j fun r => { r with leadFailures := 0, probeTimer := r.config.probeInterval }) = Z.setSec j Q := by
    rw [State.modSec, Zsec]
  rw [e4]
  have main : ∃ (ns : List NoticeItem) (lead : Option Slot), (((Z.setSec j Q).leadChoice j).offerSector j) =
      { Z.setSec j { Q with state := if quiet = [] then .clear else .outage, lead := lead, probeTimer := if quiet = [] then 0 else Q.config.probeInterval } with notices := ns }
      ∧ (∀ x ∈ Z.notices, x ∈ ns) ∧ .sector j ∈ ns ∧ (quiet = [] ∧ lead = none ∨ ∃ m ∈ quiet, lead = some m ∧ ∀ i ∈ quiet, i ≠ m →
              (s.term i).leadRank < (s.term m).leadRank ∨ (s.term i).leadRank = (s.term m).leadRank ∧ m < i) := by
    have off : ∀ (Y : State), ∃ ns, Y.offerSector j = { Y with notices := ns } ∧ (∀ x ∈ Y.notices, x ∈ ns) ∧ .sector j ∈ ns := by
      intro Y; unfold State.offerSector
      by_cases h : NoticeItem.sector j ∈ Y.notices
      · rw [if_pos h]; exact ⟨Y.notices, rfl, fun x hx => hx, h⟩
      · rw [if_neg h]; exact ⟨_, rfl, fun x hx => by simp [hx], by simp⟩
    have hQst : Q.state = .outage := by show (m.sec j).state = _; rw [hmsec]
    have hQpc : Q.progressCounter = 0 := by show (m.sec j).progressCounter = _; rw [hmsec]
    have hQlf : Q.leadFailures = 0 := rfl
    have hsl : (Z.setSec j Q).slotsIn j .quiet = quiet := Zquiet
    unfold State.leadChoice
    rw [hsl]
    cases hq : quiet with
    | nil =>
      dsimp only
      rw [modSec_setSec]
      unfold State.enterWorking
      rw [if_neg (by rw [State.setSec_sec_same, hQst]; decide)]
      unfold State.enterSector
      rw [if_neg (by rw [State.setSec_sec_same]; show ¬ (Q.state = _ ∨ Q.state = _); rw [hQst]; decide), modSec_setSec]
      unfold SectorRec.enter
      rw [if_neg (by show ¬ (Q.state = _ ∨ Q.state = _); rw [hQst]; decide)]
      obtain ⟨ns, h1, h2, h3⟩ := off (Z.setSec j { Q with state := .clear, lead := none, leadFailures := 0, probeTimer := 0, progressCounter := 0 })
      have : ({ Q with state := .clear, lead := none, leadFailures := 0, probeTimer := 0, progressCounter := 0 } : SectorRec) = { Q with state := .clear, lead := none, probeTimer := 0 } := leadless_eq Q hQpc hQlf
      rw [this] at h1 h2
      obtain ⟨ns', h1', h2', h3'⟩ := off ((Z.setSec j { Q with state := .clear, lead := none, probeTimer := 0 }).offerSector j)
      refine ⟨ns', none, ?_, ?_, h3', .inl ⟨rfl, rfl⟩⟩
      · rw [if_pos rfl, if_pos rfl]
        have e5 : (State.offerSector (Z.setSec j { Q with state := .clear, lead := none, leadFailures := 0, probeTimer := 0, progressCounter := 0 }) j).offerSector j = { Z.setSec j { Q with state := .clear, lead := none, probeTimer := 0 } with notices := ns' } := by
          rw [this, h1', h1]
        exact e5
      · intro x hx
        apply h2'; rw [h1]; exact h2 x hx
    | cons k ks =>
      dsimp only
      have e6 : (k :: ks).filter (fun k => !((Z.setSec j Q).term k).probed) = k :: ks := by rw [← hq]; exact Zunm
      rw [e6, if_neg (by simp), modSec_setSec]
      obtain ⟨a, ha, hb, hall⟩ := best_first (Z.setSec j Q) (k :: ks) (by simp) (hq ▸ hqp)
      rw [hb]
      obtain ⟨ns, h1, h2, h3⟩ := off (Z.setSec j { Q with lead := some a })
      refine ⟨ns, some a, ?_, h2, h3, .inr ⟨a, ha, rfl, fun i hi hne => ?_⟩⟩
      · rw [h1, if_neg (by simp), if_neg (by simp)]
        have : ({ Q with lead := some a } : SectorRec) = { Q with state := .outage, lead := some a, probeTimer := Q.config.probeInterval } := by rw [← hQst]
        rw [this]
      · have := hall i hi hne
        rw [State.setSec_term, State.setSec_term, hrank, hrank] at this
        exact this
  obtain ⟨ns, lead, e, hn1, hn2, hlead⟩ := main
  rw [e]
  refine ⟨⟨⟨around.1.1, around.1.2, around.1.3, around.1.4, around.1.5, around.1.6, around.1.7⟩, around.2⟩, fun i hi => ?_, fun k hk => (Zfin k).1 hk,
    fun k hk hk' => (Zfin k).2 hk hk', fun k hk => Zmoved k hk, fun x hx => hn1 x ?_, ⟨fun k hk => hn1 _ (hnot k hk), hn2⟩, lead, hlead, ?_⟩
  · show (Z.setSec j _).sec i = _
    rw [State.setSec_sec, if_neg (Ne.symm hi), Zsec, T.sec i hi, State.setSec_sec, if_neg (Ne.symm hi)]
  · rw [Zn, T.notices]; exact .inl hx
  · show (Z.setSec j _).sec j = _
    rw [State.setSec_sec_same]
    have hQ : Q = { m.sec j with leadFailures := 0, probeTimer := (m.sec j).config.probeInterval } := rfl
    rw [hmsec] at hQ
    rw [hQ]

/-! ## The rotation of a lead (R51) -/

/-- The failure of a lead that reaches probe_rotate: the record of the failed lead is marked, and the choice is made. -/
theorem fail_rotates {X : State} {R : SectorRec} {T : Terminal} (hj : T.sector = j) (hl : R.lead = some k) (ho : R.state = .outage)
    (hge : R.config.probeRotate ≤ R.leadFailures + 1) (hs : T.state ≠ .quiet ∧ T.state ≠ .empty) (hcq : ∀ x ∈ R.controlQueue, x.slot ≠ k) :
    ((X.setSec j R).setTerm k T).attemptFailure j k =
      (((noticed X k).setSec j { R.drop k with leadFailures := 0 }).setTerm k
        (noticedAs X k
          { T with
            state := .quiet, filtered := none, history := [], roundCount := 0, power := 0, pendingAdjust := none
            expectedBurst := none, owed := {}, probed := true })).leadChoice j := by
  unfold State.attemptFailure
  have hil : ((X.setSec j R).setTerm k T).isOutageLead j k = true := by
    unfold State.isOutageLead; rw [State.setTerm_sec, State.setSec_sec_same]
    unfold SectorRec.working; rw [hl, ho]; simp
  rw [hil, if_pos rfl]
  unfold State.leadFailure
  dsimp only
  rw [leave_set hj, modTerm_setTerm]
  have hd : ∀ (Z : State) (Q : Terminal), Z.sec j = R.drop k → Q.sector = j → (Z.setTerm k Q).discard k = Z.setTerm k { Q with owed := {} } := fun Z Q h1 h2 => by
    apply discard_set; rw [h2, h1]; exact hcq
  rw [hd _ _ (State.setSec_sec_same _ _ _) (by exact hj), toState_set _ _ _ _ (by exact hs.1) (by exact hs.2), noticed_setSec]
  rw [setSec_setTerm, modSec_setSec]
  rw [if_pos (by rw [State.cfg, State.setSec_sec_same]; exact hge)]
  rw [← setSec_setTerm, modTerm_setTerm, setSec_setTerm, modSec_setSec, ← setSec_setTerm]
  congr 2
  simp only [noticedAs_setSec]
  by_cases h : NoticeItem.terminal k ∈ X.notices
  · have hh : ∀ T, noticedAs X k T = T := fun T => if_pos h
    simp only [hh]; rfl
  · have hh : ∀ T, noticedAs X k T = { T with noticePending := true } := fun T => if_neg h
    simp only [hh]; rfl

/-- A choice with no unmarked candidate clears the marks of all the sector's terminals and takes the best of all (R48). -/
theorem lead_again {Y : State} {m : Slot} (hm : Y.belongs j m = true ∧ (Y.term m).state = .quiet)
    (hall : ∀ i, Y.belongs j i = true → (Y.term i).state = .quiet → (Y.term i).probed = true)
    (hbest : ∀ i, Y.belongs j i = true → (Y.term i).state = .quiet → i ≠ m →
      (Y.term i).leadRank < (Y.term m).leadRank ∨ (Y.term i).leadRank = (Y.term m).leadRank ∧ m < i) :
    ∃ ts, Y.leadChoice j = { Y.setSec j { Y.sec j with lead := some m } with terminals := ts }
      ∧ ∀ i, ({ Y with terminals := ts } : State).term i = if Y.belongs j i = true then { Y.term i with probed := false } else Y.term i := by
  have hsort : (Y.slotsIn j .quiet).Pairwise (· < ·) := by
    rw [slotsIn_eq]; exact (List.pairwise_lt_finRange 320).filter _
  have hmem : m ∈ Y.slotsIn j .quiet := mem_slotsIn.2 hm
  have hnone : (Y.slotsIn j .quiet).filter (fun k => !(Y.term k).probed) = [] := by
    rw [List.filter_eq_nil_iff]
    intro i hi
    obtain ⟨h1, h2⟩ := mem_slotsIn.1 hi
    simp [hall i h1 h2]
  obtain ⟨b, hb, hbb, hba⟩ := best_first Y _ (List.ne_nil_of_mem hmem) hsort
  have hbm : b = m := by
    by_contra hne
    obtain ⟨h1, h2⟩ := mem_slotsIn.1 hb
    have h3 := hbest b h1 h2 hne
    have h4 := hba m hmem (Ne.symm hne)
    rcases h3 with h3 | ⟨h3, h3'⟩ <;> rcases h4 with h4 | ⟨h4, h4'⟩
    · omega
    · omega
    · omega
    · exact absurd h3' (not_lt.2 (le_of_lt h4'))
  unfold State.leadChoice
  cases hl : Y.slotsIn j .quiet with
  | nil => rw [hl] at hmem; simp at hmem
  | cons a as =>
    dsimp only
    rw [hl] at hnone hbb
    rw [if_pos hnone, hbb, hbm]
    obtain ⟨ts, h1, h2⟩ := marks_fold (Y.slotsOf j) Y
    refine ⟨ts, ?_, fun i => ?_⟩
    · unfold State.clearMarks; rw [h1]; rfl
    · rw [h2]
      by_cases h : Y.belongs j i = true
      · rw [if_pos h, if_pos (mem_slotsOf.2 h)]
      · rw [if_neg h, if_neg (fun h' => h (mem_slotsOf.1 h'))]

end Sys2Proof.Machine
end

