-- ==== Sys2Proof/Laws/Notices.lean ====
section
/-!
SUPPORT. What a NOTICE frame carries, written out, and what intake changes of it (R56, R168, R169).
-/

set_option Elab.async false

namespace Sys2Proof.Machine

variable {s t : State} {j : Sector} {k : Slot} {fr : Frame}

/-! ## What intake changes of what items show -/

/-- The frame returns the sector from BLIND to a prior state: it passes intake (R56). -/
structure Returns (s : State) (fr : Frame) (j : Sector) (w : WorkState) : Prop where
  mode : s.mode = .running
  header : UpstreamOf fr j
  layout : layoutFault fr = none
  blind : (s.sec j).state = .blind
  prior : (s.sec j).prior = some w

/-- Equal in what notice items show, but for the states of the sectors. -/
structure SameItems (s t : State) : Prop where
  terminals : t.terminals = s.terminals
  code : ∀ r, t.activeBank.map (fun b => b.code r) = s.activeBank.map fun b => b.code r

/-- A state shows what another does, with a notice queue and sector states as stated. -/
structure ShownAs (s t : State) (queue : List NoticeItem) (shown : Sector → SectorState) : Prop where
  items : SameItems s t
  queue : t.notices = queue
  states : ∀ i, (t.sec i).state = shown i

theorem SameItems.refl (s : State) : SameItems s s := ⟨rfl, fun _ => rfl⟩

theorem ShownAs.fault {q shown} (h : ShownAs s t q shown) (f : FaultRecord) : ShownAs s (t.offerFault f) q shown := by
  rw [offerFault_getD]; exact ⟨⟨h.items.terminals, h.items.code⟩, h.queue, h.states⟩

theorem ShownAs.mod {q shown} (h : ShownAs s t q shown) {f : SectorRec → SectorRec} (hf : (f (t.sec j)).state = (t.sec j).state) :
    ShownAs s (t.modSec j f) q shown where
  items := ⟨h.items.terminals, h.items.code⟩
  queue := h.queue
  states i := by
    rw [State.modSec, State.setSec_sec]
    split
    · next hi => subst hi; rw [hf]; exact h.states _
    · exact h.states i

theorem ShownAs.hold {q shown} (h : ShownAs s t q shown) (i : Fin 2) : ShownAs s (t.takeHold i) q shown where
  items := ⟨h.items.terminals, fun r => by
    rw [← h.items.code r]
    unfold State.activeBank State.takeHold State.modBank State.bank
    simp only [Option.map_map]
    congr 1
    funext a
    simp only [Function.comp_apply, Vector.getElem_set]
    split
    · next hi => obtain rfl : i = a := Fin.ext hi; rfl
    · rfl⟩
  queue := h.queue
  states := h.states

theorem ShownAs.bank {q shown} (h : ShownAs s t q shown) (j : Sector) (fr : Frame) : ShownAs s (t.bankFrame j fr) q shown := by
  unfold State.bankFrame
  split
  · exact (h.hold _).mod (j := j) (f := fun r => { r with evaluation := _ }) rfl
  · split
    · exact h.mod (j := j) (f := fun r => { r with waitingBank := _ }) rfl
    · exact h.fault _

/-- A frame that returns no sector from BLIND changes nothing that an item shows, and offers nothing. -/
theorem intake_shown (h : ∀ i, (s.sec i).state = .blind → ∃ w, (s.sec i).prior = some w) (hn : ∀ i w, ¬Returns s fr i w) :
    ShownAs s (s.intake fr) s.notices fun i => (s.sec i).state := by
  have h0 : ShownAs s s s.notices fun i => (s.sec i).state := ⟨.refl s, rfl, fun _ => rfl⟩
  unfold State.intake
  split
  · exact h0
  · exact h0
  · next hmode =>
    split
    · exact h0.fault _
    · next hm =>
      split
      · exact h0.fault _
      · next i hi =>
        split
        · split
          · exact h0.fault _
          · next hok =>
            have hu : UpstreamOf fr i := by
              unfold markerFault at hm
              simp only [Bool.or_eq_true, decide_eq_true_eq, bne_iff_ne, not_or, not_not, not_lt] at hm
              exact ⟨hm.1.1, hm.1.2, hm.2, sectorOfByte_some hi⟩
            have hl : layoutFault fr = none := by
              unfold State.intakeFault at hok
              split at hok
              · cases hok
              · assumption
            have hb : (s.sec i).state ≠ .blind := fun hb => by
              obtain ⟨w, hw⟩ := h i hb
              exact hn i w ⟨hmode, hu, hl, hb, hw⟩
            unfold State.passIntake
            refine ShownAs.bank ?_ i fr
            have h1 : ShownAs s (if isGap (s.sec i).reference (frameNumber fr) then s.offerFault (faultFrom fr .sequence none) else s)
                s.notices fun i => (s.sec i).state := by
              split
              · exact h0.fault _
              · exact h0
            have h2 : (State.sec (if isGap (s.sec i).reference (frameNumber fr) then s.offerFault (faultFrom fr .sequence none) else s) i).state ≠ .blind := by
              rw [h1.states]; exact hb
            rw [framePassed_plain rfl h2]
            exact h1.mod (f := fun r => { r with blindCounter := 0 }) rfl
        · exact h0

/-- A frame that returns its sector from BLIND offers the sector, which then shows its prior state (R56). -/
theorem intake_returns {w : WorkState} (h : Returns s fr j w) :
    ShownAs s (s.intake fr) (if .sector j ∈ s.notices then s.notices else s.notices ++ [.sector j])
      fun i => if i = j then w.toSector else (s.sec i).state := by
  have hserv : (s.sec j).InService := by rw [SectorRec.InService, h.blind]; decide
  have href : (s.sec j).reference = none := by unfold SectorRec.reference; rw [if_pos h.blind]
  rw [intake_pass h.mode h.header hserv h.layout (by rw [href]; rfl)]
  unfold State.passIntake
  rw [href, show isGap none (frameNumber fr) = false from rfl, if_neg (by decide)]
  refine ShownAs.bank ?_ j fr
  unfold State.framePassed
  dsimp only
  rw [State.modSec_sec_same, if_pos h.blind]
  unfold State.returnToPrior State.enterSector
  simp only [State.modSec_sec_same, h.prior, Option.getD_some]
  rw [if_neg (by rw [h.blind]; cases w <;> decide)]
  unfold State.offerSector
  have hs : ∀ i : Sector, ((((s.modSec j fun r => { r with blindCounter := 0 }).modSec j fun r => { r with prior := none }).modSec j
      fun r => r.enter w.toSector).sec i).state = if i = j then w.toSector else (s.sec i).state := by
    intro i
    simp only [State.modSec, State.setSec_sec]
    by_cases hi : j = i
    · subst hi
      simp only [if_true, SectorRec.enter]
      rw [if_neg (by rw [h.blind]; cases w <;> decide)]
    · simp [hi, Ne.symm hi]
  split
  · next hm => exact ⟨⟨rfl, fun _ => rfl⟩, (if_pos hm).symm, hs⟩
  · next hm => exact ⟨⟨rfl, fun _ => rfl⟩, (if_neg hm).symm, hs⟩

/-! ## Items, byte by byte -/

theorem stickyByte_sum (h : StickyHealth) :
    stickyByte h = byteOf ((if h.ceiling then 1 else 0) + (if h.degraded then 2 else 0) + (if h.rampUnsettled then 4 else 0)
      + (if h.exhausted then 8 else 0) + (if h.onsetDrop then 16 else 0)) := by
  obtain ⟨a, b, c, d, e⟩ := h
  revert a b c d e
  decide

theorem SameItems.term (h : SameItems s t) (k : Slot) : t.term k = s.term k := by unfold State.term; simp only [h.terminals]

/-- A terminal item, written out, of any state that shows the same (R169, 11-3). -/
theorem terminalItem_bytes (h : SameItems s t) (k : Slot) :
    t.terminalItem k =
      [0x01] ++ bytesOf16 k.val
        ++ [byteOf ([TermState.empty, .held, .inService, .fading, .quiet, .waiting, .deferred, .ranging, .verifying, .ramping,
            .climbing].idxOf (s.term k).state), byteOf (s.term k).rung]
        ++ (match s.activeBank with
          | none => [0x00, 0x00]
          | some b => [0x01, b.code (s.term k).rung])
        ++ [signedByte (s.term k).power,
          byteOf ((if (s.term k).sticky.ceiling then 1 else 0) + (if (s.term k).sticky.degraded then 2 else 0)
            + (if (s.term k).sticky.rampUnsettled then 4 else 0) + (if (s.term k).sticky.exhausted then 8 else 0)
            + (if (s.term k).sticky.onsetDrop then 16 else 0))] := by
  unfold State.terminalItem
  dsimp only
  rw [h.term, h.code, stickyByte_sum]
  have hc : termStateCode (s.term k).state = byteOf ([TermState.empty, .held, .inService, .fading, .quiet, .waiting, .deferred,
      .ranging, .verifying, .ramping, .climbing].idxOf (s.term k).state) := by
    cases (s.term k).state <;> rfl
  rw [hc]
  cases s.activeBank <;> rfl

/-- The count of a sector's terminals in some states that are not EMPTY. -/
theorem countIn_states (h : SameItems s t) (j : Sector) {p : TermState → Bool} {states : List TermState}
    (hp : ∀ st, (p st = true ↔ st ∈ states)) (he : TermState.empty ∉ states) :
    t.countIn j p = (List.finRange 320).countP fun k => (s.term k).sector = j ∧ (s.term k).state ∈ states := by
  unfold State.countIn State.slotsOf allSlots
  rw [List.filter_filter, ← List.countP_eq_length_filter]
  refine List.countP_congr fun k _ => ?_
  simp only [State.belongs, h.term, Bool.and_eq_true, bne_iff_ne, beq_iff_eq, hp, decide_eq_true_eq]
  constructor
  · rintro ⟨h1, -, h2⟩; exact ⟨h2, h1⟩
  · rintro ⟨h2, h1⟩; exact ⟨h1, fun h => he (h ▸ h1), h2⟩

/-- A sector item, written out, of any state that shows the same terminals (R169, 11-3). -/
theorem sectorItem_bytes (h : SameItems s t) (j : Sector) :
    t.sectorItem j =
      [0x02, byteOf j.val,
        byteOf ([SectorState.disabled, .clear, .outage, .recovering, .blind, .suspended].idxOf (t.sec j).state)]
      ++ [[TermState.inService, .fading, .ramping, .climbing], [.quiet], [.waiting, .deferred], [.ranging, .verifying],
          [.held]].map fun states =>
        byteOf ((List.finRange 320).countP fun k => (s.term k).sector = j ∧ (s.term k).state ∈ states) := by
  unfold State.sectorItem
  have hc : sectorStateCode (t.sec j).state
      = byteOf ([SectorState.disabled, .clear, .outage, .recovering, .blind, .suspended].idxOf (t.sec j).state) := by
    cases (t.sec j).state <;> rfl
  simp only [hc, List.map_cons, List.map_nil]
  rw [countIn_states h j (states := [.inService, .fading, .ramping, .climbing]) (fun st => by cases st <;> decide) (by decide),
    countIn_states h j (states := [.quiet]) (fun st => by cases st <;> decide) (by decide),
    countIn_states h j (states := [.waiting, .deferred]) (fun st => by cases st <;> decide) (by decide),
    countIn_states h j (states := [.ranging, .verifying]) (fun st => by cases st <;> decide) (by decide),
    countIn_states h j (states := [.held]) (fun st => by cases st <;> decide) (by decide)]
  rfl

/-! ## The check of the notice queue -/

/-- All that the check does: one NOTICE frame with the items at the head, which leave, and their notice pending made no
(R168). -/
theorem emitNotices_does (s : State) : ∃ ts, s.emitNotices =
    { s with
      controllerOut := s.controllerOut ++ (if s.notices = [] then []
        else [[0x93, 0x04, 0xFF, 0x00, 0x00, byteOf (min s.notices.length 8)] ++ ((s.notices.take 8).map s.itemBytes).flatten])
      notices := s.notices.drop 8
      terminals := ts }
    ∧ ∀ k, ({ s with terminals := ts } : State).term k
        = if .terminal k ∈ s.notices.take 8 then { s.term k with noticePending := false } else s.term k := by
  rcases hn : s.notices with _ | ⟨x, xs⟩
  · refine ⟨s.terminals, ?_, fun k => by simp⟩
    rw [emitNotices_nil hn]
    simp only [if_pos, List.append_nil, List.drop_nil]
    conv => rhs; rw [← hn]
  · obtain ⟨ts, h1, h2⟩ := clear_fold (s.notices.take 8)
      { s.emit (noticeFrame ((s.notices.take 8).map s.itemBytes)) with notices := s.notices.drop 8 }
    refine ⟨ts, ?_, fun k => by rw [← hn]; exact h2 k⟩
    have he : s.emitNotices = (s.notices.take 8).foldl State.clearPending
        { s.emit (noticeFrame ((s.notices.take 8).map s.itemBytes)) with notices := s.notices.drop 8 } := by
      unfold State.emitNotices
      split
      · next h => rw [hn] at h; cases h
      · rfl
    rw [he, h1, if_neg (by simp), ← hn]
    unfold noticeFrame
    rw [List.length_map, List.length_take, Nat.min_comm]
    rfl

end Sys2Proof.Machine
end

