-- ==== Sys2Proof/Tests/Slice0.lean ====
section
/-!
SUPPORT. Tests of the model on single steps. The expected values are the spec's: most stand in the worked examples that close its
chapters (1-8, 2-7, 3-12, 4-9, 5-7, 6-7, 7-7, 8-8, 12), the others are written out from the numbered rule a test names. Below the
tests stand the witnesses: for every statement with hypotheses, states and operands that meet them together.
-/

namespace Sys2Proof.Tests

open Sys2Proof Sys2Proof.Machine

set_option Elab.async false

/-! ## The states of the tests -/

/-- A command gives a next state with a property. -/
def gives (c : Instr) (s : State) (p : State → Bool) : Bool :=
  match exec c s with
  | .next t => p t
  | .fault _ => false
  | .refused _ => false

/-- The rung bytes of the ladder of 12-1, with the profile codes 0x10 to 0x14. -/
def rainRungs : List Byte :=
  [0x10, 0, 24, 16, 0x11, 48, 44, 36, 0x12, 72, 68, 60, 0x13, 96, 92, 84, 0x14, 120, 116, 108]

/-- A bank that holds an image of some rungs, with a right header, as version 7. -/
def bankOf (rungs : List Byte) (blocks : Byte) : LadderBank :=
  { bytes := Vector.ofFn fun i : Fin 96 =>
      ([0x5A, 0xC3, byteOf (rungs.length / 4), blocks] ++ bytes16 (crc16 rungs) ++ [0, 7] ++ rungs).getD i.val 0 }

/-- The bank of the ladder of 12-1. -/
def rainBank : LadderBank := bankOf rainRungs 1

/-- A part in RUNNING mode with the ladder of 12-1 active in bank 0. -/
def running : State :=
  { State.reset with mode := .running, ladder := { active := some 0, banks := #v[rainBank, {}] } }

/-- That part with one sector record and some terminal records. -/
def site (j : Sector) (r : SectorRec) (ts : List (Slot × Terminal)) : State :=
  ts.foldl (fun s p => s.setTerm p.1 p.2) (running.setSec j r)

/-- A request with tag 7 and exactly its parameter bytes. -/
def request (ps : List Byte) : Request := { tag := 7, length := byteOf ps.length, bytes := ps }

/-- The reply segment of 11-3 to a request with tag 7. -/
def answer (code status : Byte) (results : List Byte) : Frame :=
  [0x93, 0x03, 0xFF, 0, 0, code, 0, 7, status, 0, 1, byteOf results.length] ++ results

/-- A received burst of some kind. -/
def burst (a : BitVec 12) (kind : BurstKind) (snr timing : Byte) (payload : List Byte := []) : Burst :=
  { address := a, kind := kind, received := true, snr := snr, timing := timing, headroom := 20, payload := payload }

/-- An evaluation in flight of the frame with a number, on bank 0. -/
def flight (n : FrameNo) (bursts : List Burst) : Evaluation :=
  { bank := .a, frame := { number := n, bursts := bursts }, held := 0 }

/-- A sector frame of sector `j` with number `n` that declares four free slots (11-2). -/
def sectorFrameOf (j hi lo : Byte) : Frame := [0x6C, 0x01, j, hi, lo, 4] ++ List.replicate 64 0xEE

/-- An upstream frame of sector `j` without bursts (11-3). -/
def upstreamOf (j hi lo : Byte) : Frame := [0x93, 0x01, j, hi, lo, 0]

/-! ## The form of commands -/

/-- No row of the table gives bits, so no word spells a command. -/
theorem test_no_word_spells_a_command : decodeTableWord 0 0 = none ∧ decodeTableWord 32 0xFFFFFFFF = none := by decide

/-- Smoke: an UNKNOWN_FUNCTION with the code of ECHO is ill formed, one with 0x05 is not (R154). -/
theorem test_wellformed_unknown_function :
    (Instr.unknownFunction 0x01 (request [])).wellFormed = false
      ∧ (Instr.unknownFunction 0x05 (request [])).wellFormed = true := by decide

/-- Smoke: a failing word of a region test that holds the pattern of its pass is ill formed (R161). -/
theorem test_wellformed_region_test :
    (Instr.regionTestEnd (some { pattern := .p5555, offset := 0, value := 0x5555 })).wellFormed = false
      ∧ (Instr.regionTestEnd (some { pattern := .pAAAA, offset := 0, value := 0xAAAA })).wellFormed = false
      ∧ (Instr.regionTestEnd (some { pattern := .p0000, offset := 0, value := 0x0001 })).wellFormed = true := by decide

/-- Smoke: the same at the end of the check. -/
theorem test_wellformed_check_end :
    (Instr.startupCheckEnd (some { pattern := .p0000, offset := 9, value := 0x0000 })).wellFormed = false
      ∧ (Instr.startupCheckEnd (some { pattern := .p5555, offset := 9, value := 0xAAAA })).wellFormed = true
      ∧ (Instr.startupCheckEnd none).wellFormed = true := by decide

/-! ## The arithmetic -/

/-- The check value of R84: the digits 1 to 9 give 0x29B1. -/
theorem test_crc : crc16 [0x31, 0x32, 0x33, 0x34, 0x35, 0x36, 0x37, 0x38, 0x39] = 0x29B1 := by decide +kernel

/-- 4-3: with k = 2 and s = 70, F falls from 310 to 302 and rises from 250 to 257. -/
theorem test_filter :
    ([310, 250, 277].map fun f =>
      (stages1to3 {} (burst 1 .report 70 0) { filtered := some f }).filtered) = [some 302, some 257, some 277] := by
  decide +kernel

/-- 4-9: the history of report 1 has the slope -7, truncated toward zero; 12-2: slope -10 and prediction 310. -/
theorem test_slope :
    slope [352, 350, 346, 340, 330, 320, 310, 298] = some (-7)
      ∧ slope [420, 410, 400, 390, 380, 370, 360, 350] = some (-10)
      ∧ prediction {} 350 [420, 410, 400, 390, 380, 370, 360, 350] = some 310 := by decide +kernel

/-- 4-6, cases b, e and g of the shaped step, for rung 0 with target 144: P, and CEILING. -/
theorem test_power_step :
    (([(157, 0, 10), (84, 38, 40), (104, 10, 0)] : List (Nat × Int × Byte)).map fun x =>
      let t := stage7 {} rainBank { burst 1 .report 0 0 with headroom := x.2.2 } { filtered := some x.1, power := x.2.1 }
      (t.power, t.sticky.ceiling)) = [(-2, false), (40, true), (10, true)] := by decide +kernel

/-- 4-7: reports with timing errors +9, +7 and, from an absent adjust, -128. -/
theorem test_timing :
    (stage8 {} (burst 1 .report 0 9) {}).pendingAdjust = some (-9)
      ∧ (stage8 {} (burst 1 .report 0 7) { pendingAdjust := some (-9) }).pendingAdjust = some (-16)
      ∧ (stage8 {} (burst 1 .report 0 0x80) {}).pendingAdjust = some 127 := by decide +kernel

/-! ## The link, the sector controller and the re-entry scheduler -/

/-- R160: a device reset. -/
theorem test_device_reset :
    gives (.deviceReset .line) running (fun t => t.mode == .starting && t.startUp.cause == .line && t.ladder.active == none)
      = true := by decide +kernel

/-- R161: the first region of the check. -/
theorem test_region_test_end :
    gives (.regionTestEnd (some { pattern := .pAAAA, offset := 5, value := 0xAAAB })) State.reset (fun t =>
      t.startUp.progress == 1 && t.startUp.failure == 1
        && t.startUp.firstFailure == some { region := 0, offset := 5, expected := 0xAAAA, value := 0xAAAB }) = true := by
  decide +kernel

/-- R161, 10-4: a ladder bank is 48 words, so no reading beyond them is part of region 10's test. -/
theorem test_region_test_end_bounds :
    (([47, 48] : List (BitVec 16)).map fun o =>
      gives (.regionTestEnd (some { pattern := .p5555, offset := o, value := 0 }))
        { State.reset with startUp := { progress := 0x03FF } } (fun t => t.startUp.progress == 0x07FF)) = [true, false] := by
  decide +kernel

/-- R162, R164: the end of a check that passes, and its READY notice (11-3). -/
theorem test_startup_check_end :
    gives (.startupCheckEnd none) { State.reset with startUp := { progress := 0x0FFF } } (fun t =>
      t.mode == .running
        && t.controllerOut == [[0x93, 0x04, 0xFF, 0, 0, 1, 3, 0x1F, 0xFF, 0, 0, 1, 1, 0x31, 0x40, 0x01]]) = true := by
  decide +kernel

/-- R1, R2, R44: a sector frame of a CLEAR sector waits for its slots and is due to its reactions. -/
theorem test_sector_frame_arrives :
    gives (.downstreamFrame (sectorFrameOf 8 0x13 0x88)) (site 8 { state := .clear } []) (fun t =>
      (t.sec 8).controllerDue == 1 && (t.sec 8).schedulerDue == 1 && t.transit.length == 1 && t.radioOut == []) = true := by
  decide +kernel

/-- R1, R152: a MGMT frame with an ECHO of two bytes. -/
theorem test_mgmt_frame :
    gives (.downstreamFrame [0x6C, 0x02, 0, 0, 0, 0x01, 0, 7, 2, 0xAB, 0xCD]) State.reset (fun t =>
      t.controllerOut == [answer 0x01 0 [0xAB, 0xCD]]) = true := by decide +kernel

/-- A terminal of sector 2 in 3-12. -/
def rotated (p : Fin 4) (st : TermState) (f : Option Nat) : Terminal :=
  { sector := 2, priority := p, maxRung := 4, state := st, lossF := f }

/-- The terminals of 3-12 when the walk begins. -/
def walkSite : State :=
  site 2 { state := .recovering, config := { probeRotate := 2, releaseBatch := 2 }, releaseCursor := some 10, window := [10],
           controllerDue := 1, population := 6 }
    [(10, rotated 1 .verifying (some 400)), (12, rotated 1 .quiet (some 452)), (15, rotated 0 .quiet none),
      (31, rotated 1 .held (some 452)), (33, rotated 1 .quiet (some 380)), (60, rotated 1 .inService none)]

/-- 3-12, the first walk step: 12 and 15 move, 15 stands first in the queue, the cursor is 31. -/
theorem test_release_walk :
    gives (.sectorFrameReaction 2) walkSite (fun t =>
      (t.sec 2).queue == [15, 12] && (t.sec 2).releaseCursor == some 31 && (t.sec 2).state == .recovering) = true := by
  decide +kernel

/-- R55: the eighth frame without upstream traffic. -/
theorem test_blind_entry :
    gives (.blindEntry 2) (site 2 { state := .clear, blindCounter := 7, controllerDue := 1, lastEvaluated := some 9 } [])
      (fun t => (t.sec 2).state == .blind && (t.sec 2).prior == some .clear && (t.sec 2).lastEvaluated == none) = true := by
  decide +kernel

/-- 12-4, sector frame 6159: the lead is admitted and the timer reloaded. -/
theorem test_probe :
    gives (.probe 4) (site 4 { state := .outage, lead := some 44, probeTimer := 1, controllerDue := 1 }
        [(44, { sector := 4, state := .quiet, lossF := some 286 })])
      (fun t => (t.sec 4).window == [44] && (t.sec 4).probeTimer == 50 && (t.term 44).state == .ranging) = true := by
  decide +kernel

/-- 12-4: the sector is offered at the 25th frame counted. -/
theorem test_progress_notice :
    gives (.progressNotice 4) (site 4 { state := .outage, probeTimer := 26, progressCounter := 24, controllerDue := 1 } [])
      (fun t => t.notices == [.sector 4] && (t.sec 4).progressCounter == 0) = true := by decide +kernel

/-- A terminal of sector 8 in 7-7. -/
def attempting (a : BitVec 12) (p : Fin 4) (n : Nat) (st : TermState) : Terminal :=
  { sector := 8, linkAddress := a, priority := p, maxRung := 4, state := st, attemptCount := n }

/-- 7-7, frame 5000: slots 90 and 21 are admitted, in that order. -/
theorem test_admission :
    gives (.reEntrySchedulerReaction 8)
      (site 8 { state := .clear, queue := [90, 21, 22], schedulerDue := 1 }
        [(90, attempting 0x90 0 0 .waiting), (21, attempting 0x21 1 2 .waiting), (22, attempting 0x22 1 0 .waiting)])
      (fun t => (t.sec 8).window == [90, 21] && (t.sec 8).queue == [22] && (t.term 21).state == .ranging) = true := by
  decide +kernel

/-- 7-7, frame 5048: the backoff of slot 21 ends and the empty window takes it at once, with P 8 and attempt count 3. -/
theorem test_backoff_expiry :
    gives (.backoffExpiry 21)
      (site 8 { state := .clear, schedulerDue := 1 }
        [(21, { attempting 0x21 1 3 .deferred with backoff := 1, power := 8, roundCount := 4 })])
      (fun t => (t.sec 8).window == [21] && (t.term 21).power == 8 && (t.term 21).attemptCount == 3
        && (t.term 21).roundCount == 0 && (t.term 21).backoff == 0) = true := by decide +kernel

/-- 6-7, sector frame 3114: the climb ends in service at its goal. -/
theorem test_shift_maturity :
    gives (.shiftMaturity 6 130)
      (site 6 { state := .clear, maturityDue := [(3114, 130)] }
        [(130, { sector := 6, maxRung := 4, state := .climbing, rung := 1, restoreRung := some 2, phaseReports := 11,
                 pendingShift := some { target := 2, effective := some 3114 } })])
      (fun t => (t.term 130).rung == 2 && (t.term 130).state == .inService && (t.term 130).restoreRung == none
        && t.notices == [.terminal 130]) = true := by decide +kernel

/-! ## The control inserter -/

/-- The sector of 7-7 at frame 5003 (0x138B), with four free positions of the control area. -/
def fillingSite : State :=
  { site 8 { state := .clear, window := [90, 21],
             controlQueue := [{ slot := 90, kind := .verify, cls := .a }, { slot := 21, kind := .correct, cls := .a }] }
      [(90, attempting 0x090 0 0 .verifying),
        (21, { attempting 0x2A1 1 2 .ranging with roundCount := 1, power := 4, pendingAdjust := some (-9) })] with
    transit := [{ frame := sectorFrameOf 8 0x13 0x8B, fill := some 8 }] }

/-- 7-7, frame 5003, with the CORRECT bytes of 11-2: the grant of slot 21, VERIFY 90 with the seed of R127,
(37 × 90 + 5003 mod 256) mod 256 = 3469 mod 256 = 141, and CORRECT 21; the fourth slot leaves as it came. -/
theorem test_slot_filling :
    gives (.slotFilling 8) fillingSite (fun t =>
      t.radioOut == [[0x6C, 0x01, 8, 0x13, 0x8B, 4] ++ List.replicate 32 0xEE
          ++ [0x01, 0x02, 0xA1, 0x02, 2, 0, 0, 0] ++ [0x03, 0x00, 0x90, 141, 8, 2, 0, 0]
          ++ [0x02, 0x02, 0xA1, 0xF7, 0x04, 0, 0, 0] ++ List.replicate 8 0xEE]
        && (t.term 21).expectedBurst == some 5005 && (t.term 90).expectedBurst == some 5005
        && (t.term 21).pendingAdjust == none && (t.sec 8).controlQueue == []) = true := by decide +kernel

/-! ## Intake and evaluation -/

/-- Sector 7 of 1-8 when frame 1003 arrives: 1001 in evaluation, 1002 waiting. -/
def lateSite : State :=
  site 7 { state := .clear, lastEvaluated := some 1000, evaluation := some (flight 1001 []),
           waitingBank := some { number := 1002, bursts := [] }, blindCounter := 3 } []

/-- 1-8: frame 1003 is overrun, the blind counter returns to 0, and the banks stay. -/
theorem test_overrun :
    gives (.upstreamFrame (upstreamOf 7 0x03 0xEB) true) lateSite (fun t =>
      t.latch == some { kind := .overrun, sector := 7, frame := 1003, burst := none } && (t.sec 7).blindCounter == 0
        && t.controllerOut == [upstreamOf 7 0x03 0xEB]
        && (t.sec 7).waitingBank == some { number := 1002, bursts := [] }) = true := by decide +kernel

/-- 1-8: frame 1001 again is STALE against 1002 waiting, and leaves the blind counter. -/
theorem test_stale :
    gives (.upstreamFrame (upstreamOf 7 0x03 0xE9) false) lateSite (fun t =>
      t.latch == some { kind := .stale, sector := 7, frame := 1001, burst := none } && (t.sec 7).blindCounter == 3) = true := by
  decide +kernel

/-- 1-8: the evaluation of 1001 completes, and 1002 begins in bank B. -/
theorem test_evaluation_completion :
    gives (.evaluationCompletion 7) lateSite (fun t =>
      (t.sec 7).lastEvaluated == some 1001 && (t.sec 7).waitingBank == none
        && (t.sec 7).evaluation == some { flight 1002 [] with bank := .b }) = true := by decide +kernel

/-- Slot 44 of 12-2 at the report in upstream 6060. -/
def onsetSite : State :=
  site 4 { state := .clear, population := 1, addressMap := [(0x2A1, 44)],
           evaluation := some (flight 6060 [burst 0x2A1 .report 80 0]) }
    [(44, { sector := 4, linkAddress := 0x2A1, priority := 1, maxRung := 4, state := .inService, rung := 3,
            filtered := some 360, history := [430, 420, 410, 400, 390, 380, 370, 360], power := 10 })]

/-- 12-2: a predictive drop to rung 2, P 14, and the entries SHIFT in class B and POWER in class C. -/
theorem test_onset_drop :
    gives (.descriptorWalkStep 4) onsetSite (fun t =>
      (t.term 44).filtered == some 350 && (t.term 44).power == 14 && (t.term 44).sticky.onsetDrop
        && (t.term 44).pendingShift == some { target := 2, effective := none }
        && (t.sec 4).controlQueue == [{ slot := 44, kind := .shift, cls := .b }, { slot := 44, kind := .power, cls := .c }])
      = true := by decide +kernel

/-- 8-8, upstream 20002: the payload of the failed exchange, seven blocks of the pattern of seed 248 with one byte changed. -/
def failedPayload : List Byte :=
  (((List.range 7).map fun i => (List.range 16).map fun b => BitVec.ofNat 8 (248 + 29 * i + 7 * b)).flatten).set 53 0x76

/-- 8-8: FAILED with two failed blocks, DEGRADED set, and a backoff of 17. -/
theorem test_failed_verification :
    gives (.descriptorWalkStep 5)
      (site 5 { state := .clear, addressMap := [(0x137, 137)], window := [137],
                evaluation := some (flight 20002 [burst 0x137 .verify 30 0 failedPayload]) }
        [(137, { sector := 5, linkAddress := 0x137, maxRung := 4, state := .verifying, attemptCount := 1,
                 restoreRung := some 3, expectedBurst := some 20002,
                 verification := { started := true, startFrame := 20000 } })])
      (fun t => (t.term 137).state == .deferred && (t.term 137).backoff == 17 && (t.term 137).sticky.degraded
        && (t.term 137).verification ==
          { started := true, completed := true, outcome := .failed, startFrame := 20000, failedBlocks := 2,
            firstFault := some { block := 3, offset := 5, expected := 0x72, received := some 0x76 } }) = true := by
  decide +kernel

/-- 7-7, upstream 5011: the fourth round without success ends the attempt, DEFERRED with backoff 37. -/
theorem test_no_show :
    gives (.windowSweepStep 8)
      (site 8 { state := .clear, window := [21], evaluation := some (flight 5011 []) }
        [(21, { attempting 0x21 1 2 .ranging with roundCount := 3, expectedBurst := some 5011, power := 8 })])
      (fun t => (t.term 21).state == .deferred && (t.term 21).backoff == 37 && (t.term 21).attemptCount == 3
        && (t.term 21).roundCount == 4 && (t.sec 8).window == []) = true := by decide +kernel

/-! ## Requests -/

/-- R154: function code 0x05 in RUNNING mode. -/
theorem test_unknown_function :
    gives (.unknownFunction 0x05 (request [])) running (fun t => t.controllerOut == [answer 0x05 0x01 []]) = true := by
  decide +kernel

/-- R165, 11-4: READ STARTUP during the check. -/
theorem test_read_startup :
    gives (.readStartup (request [])) State.reset (fun t =>
      t.controllerOut == [answer 0x02 0 [0, 0, 0, 0, 0, 0, 0, 0, 0, 0, 0, 0, 0, 0, 0, 1, 0x31, 0x40, 1]]) = true := by
  decide +kernel

/-- R166: RESTART gives no reply and records its cause. -/
theorem test_restart :
    gives (.restart (request [])) running (fun t =>
      t.mode == .starting && t.startUp.cause == .restart && t.controllerOut == []) = true := by decide +kernel

/-- R9, R158: the latch of 1-8 read with unlock 1. -/
theorem test_read_fault_latch :
    gives (.readFaultLatch (request [1]))
      { running with latch := some { kind := .overrun, sector := 7, frame := 1003, burst := none } } (fun t =>
        t.latch == none && t.controllerOut == [answer 0x04 0 [1, 7, 7, 0x03, 0xEB, 0, 0]]) = true := by decide +kernel

/-- 2-7: sector 9 with 63 terminals, of which slot 151 holds address 0x2A0. -/
def crowded : State :=
  site 9 { state := .clear, population := 63, addressMap := [(0x2A0, 151)] }
    [(151, { sector := 9, linkAddress := 0x2A0, maxRung := 4, state := .inService, rung := 3 })]

/-- 2-7: the first request finds its address paired, the second fills slot 300. -/
theorem test_provision_terminal :
    gives (.provisionTerminal (request [0x01, 0x2C, 9, 0x02, 0xA0, 1, 4])) crowded (fun t =>
        t.controllerOut == [answer 0x10 0x07 []] && t.notices == [])
      && gives (.provisionTerminal (request [0x01, 0x2C, 9, 0x02, 0xA1, 1, 4])) crowded (fun t =>
        t.controllerOut == [answer 0x10 0 []] && (t.sec 9).population == 64 && t.notices == [.terminal 300]
          && (t.term 300).state == .held && (t.term 300).linkAddress == 0x2A1) = true := by decide +kernel

/-- 2-7: slot 151 is removed. -/
theorem test_remove_terminal :
    gives (.removeTerminal (request [0, 151])) (crowded.modSec 9 fun r =>
        { r with controlQueue := [{ slot := 151, kind := .shift, cls := .b }, { slot := 151, kind := .power, cls := .c }] })
      (fun t => t.term 151 == { noticePending := true } && (t.sec 9).controlQueue == [] && (t.sec 9).population == 62
        && (t.sec 9).addressMap == []) = true := by decide +kernel

/-- R36, 11-4: the first bytes of READ TERMINAL for slot 151 of 2-7. -/
theorem test_read_terminal :
    gives (.readTerminal (request [0, 151])) crowded (fun t =>
      (t.controllerOut.map fun fr => (fr.drop 8).take 13) == [[0, 0, 1, 72, 0, 151, 9, 0x02, 0xA0, 0, 4, 2, 3]]) = true := by
  decide +kernel

/-- R37: CLEAR HEALTH of an EMPTY slot, and of a degraded terminal. -/
theorem test_clear_health :
    gives (.clearHealth (request [0, 150])) crowded (fun t => t.controllerOut == [answer 0x13 0x04 []])
      && gives (.clearHealth (request [0, 151])) (crowded.modTerm 151 fun t => { t with sticky := { degraded := true } })
        (fun t => !(t.term 151).sticky.degraded && t.notices == []) = true := by decide +kernel

/-- R31, R37, R104: after CLEAR HEALTH the goal of a climb is still bounded by degraded_cap at a maturity before the next report,
so the terminal at that bound ends its climb; without the clearing's bound it climbs on. -/
theorem test_maturity_after_clear_health :
    gives (.clearHealth (request [0, 44]))
        (site 4 { state := .clear, maturityDue := [(3114, 44)] } [(44,
          { sector := 4, linkAddress := 0x2A1, maxRung := 4, state := .climbing, rung := 0, restoreRung := some 3
            sticky := { degraded := true }, pendingShift := some { target := 1, effective := some 3114 } })])
        (fun u => !(u.term 44).sticky.degraded
          && gives (.shiftMaturity 4 44) u (fun t => (t.term 44).state == .inService && (t.term 44).rung == 1)
          && gives (.shiftMaturity 4 44) (u.modTerm 44 fun t => { t with capKept := false }) (fun t => (t.term 44).state == .climbing))
      = true := by decide +kernel

/-- The 33 configuration bytes of the defaults of 3-2 (10-2). -/
def defaultBytes : List Byte :=
  [2, 2, 2, 4, 12, 8, 4, 4, 3, 16, 4, 0, 64, 2, 16, 4, 4, 6, 8, 0x01, 0x90, 8, 1, 1, 4, 0, 200, 0, 50, 3, 4, 8, 24]

/-- R39: SET SECTOR with the defaults but a probe interval of 20, with the probe timer at 33 (R40); and with window_size 9. -/
theorem test_set_sector :
    gives (.setSector (request (4 :: defaultBytes.set 28 20))) (site 4 { state := .outage, probeTimer := 33 } []) (fun t =>
        (t.sec 4).config == { probeInterval := 20 } && (t.sec 4).probeTimer == 20 && t.controllerOut == [answer 0x20 0 []])
      && gives (.setSector (request (4 :: defaultBytes.set 0 9))) running (fun t =>
        t.controllerOut == [answer 0x20 0x03 []]) = true := by decide +kernel

/-- R41, 11-4: READ SECTOR of a sector after device reset gives 68 bytes that begin with its index, its state and no prior. -/
theorem test_read_sector :
    gives (.readSector (request [4])) running (fun t =>
      t.controllerOut.map (fun fr => (fr.drop 8).take 9) == [[0, 0, 1, 68, 4, 0, 0, 0, 0]]) = true := by decide +kernel

/-- R42: ENABLE SECTOR of a DISABLED sector. -/
theorem test_enable_sector :
    gives (.enableSector (request [4])) running (fun t =>
      (t.sec 4).state == .clear && t.notices == [.sector 4] && t.controllerOut == [answer 0x22 0 []]) = true := by
  decide +kernel

/-- R43: DISABLE SECTOR of a sector that still has a terminal in service. -/
theorem test_disable_sector :
    gives (.disableSector (request [9])) crowded (fun t => t.controllerOut == [answer 0x23 0x04 []]) = true := by
  decide +kernel

/-- R57: SUSPEND SECTOR at once, and pending behind an evaluation in flight. -/
theorem test_suspend_sector :
    gives (.suspendSector (request [9])) crowded (fun t =>
        (t.sec 9).state == .suspended && (t.sec 9).prior == some .clear && t.controllerOut == [answer 0x24 0 []])
      && gives (.suspendSector (request [7])) lateSite (fun t =>
        (t.sec 7).state == .clear && (t.sec 7).suspendPending && t.controllerOut == []) = true := by decide +kernel

/-- R59: RESUME SECTOR. -/
theorem test_resume_sector :
    gives (.resumeSector (request [4])) (site 4 { state := .suspended, prior := some .outage, blindCounter := 5 } []) (fun t =>
      (t.sec 4).state == .outage && (t.sec 4).prior == none && (t.sec 4).blindCounter == 0) = true := by decide +kernel

/-- R61: RESET SECTOR of the sector of 3-12: every terminal but the HELD one waits, in class and slot order. -/
theorem test_reset_sector :
    gives (.resetSector (request [2])) walkSite (fun t =>
      (t.sec 2).queue == [15, 10, 12, 33, 60] && (t.sec 2).window == [] && (t.sec 2).state == .clear
        && (t.term 31).state == .held && (t.term 60).rung == 0) = true := by decide +kernel

/-- 3-12: the declaration, here forced, makes slot 12 the lead, the lower of the two with loss F 452. -/
theorem test_force_outage :
    gives (.forceOutage (request [2]))
      (site 2 { state := .clear, queue := [15, 33, 10, 31, 12], population := 6 }
        [(10, rotated 1 .waiting (some 400)), (12, rotated 1 .waiting (some 452)), (15, rotated 0 .waiting none),
          (31, rotated 1 .waiting (some 452)), (33, rotated 1 .waiting (some 380)), (60, rotated 1 .inService none)])
      (fun t => (t.sec 2).state == .outage && (t.sec 2).lead == some 12 && (t.sec 2).probeTimer == 50
        && (t.sec 2).queue == [] && (t.term 60).state == .inService) = true := by decide +kernel

/-- R82: LOAD LADDER BLOCK of block 1 of the standby bank. -/
theorem test_load_ladder_block :
    gives (.loadLadderBlock (request (1 :: List.replicate 32 0x55))) running (fun t =>
      t.ladder.staged == #v[false, true, false] && (t.bank 1).byte 32 == 0x55 && (t.bank 1).byte 31 == 0
        && (t.bank 1).byte 64 == 0 && t.controllerOut == [answer 0x30 0 []]) = true := by decide +kernel

/-- 5-7: the bank of the 4-rung image, whose rung 2 has a new code, loaded into bank 1. -/
def shorterSite : State :=
  let s := site 3 { state := .clear }
    [(70, { sector := 3, maxRung := 5, state := .inService, rung := 4 }),
      (72, { sector := 3, maxRung := 5, state := .climbing, rung := 1, restoreRung := some 4 }),
      (74, { sector := 3, maxRung := 5, state := .held, rung := 4 }),
      (75, { sector := 3, maxRung := 5, state := .inService, rung := 2 })]
  { s with ladder :=
    { active := some 0, staged := #v[true, false, false]
      banks := #v[rainBank, bankOf [0x10, 0, 24, 16, 0x11, 48, 44, 36, 0x22, 72, 68, 60, 0x13, 96, 92, 84] 1] } }

/-- 5-7: the activation reduces the rungs above 3 and re-announces slots 70 and 75. -/
theorem test_activate_ladder :
    gives (.activateLadder (request [])) shorterSite (fun t =>
      (t.term 70).rung == 3 && (t.term 70).pendingShift == some { target := 3 } && (t.term 72).restoreRung == some 3
        && (t.term 72).pendingShift == none && (t.term 74).rung == 3 && (t.term 75).pendingShift == some { target := 2 }
        && (t.sec 3).controlQueue == [{ slot := 70, kind := .shift, cls := .d }, { slot := 75, kind := .shift, cls := .d }]
        && t.ladder.active == some 1 && t.controllerOut == [answer 0x31 0 [1, 0, 7]]) = true := by decide +kernel

/-- 5-7: a declared block count that is not the needed one is rejected with reason 3. -/
theorem test_activate_ladder_rejects :
    gives (.activateLadder (request [])) { running with ladder :=
        { active := some 0, staged := #v[true, false, false], banks := #v[rainBank, bankOf rainRungs 2] } } (fun t =>
      t.ladder.active == some 0 && t.controllerOut == [answer 0x31 0x08 [3]]) = true := by decide +kernel

/-- R90: READ LADDER of the active bank shows its index and its image, the rung 2 of 12-1 at bytes 16 to 19 (11-5). -/
theorem test_read_ladder :
    gives (.readLadder (request [0])) running (fun t =>
      t.controllerOut.map (fun fr => ((fr.drop 12).take 4, (fr.drop 32).take 4, fr.length))
        == [([1, 0, 0, 0], [0x12, 72, 68, 60], 112)]) = true := by decide +kernel

/-- 3-12: the hold of the lead, slot 31, makes slot 10 the lead and leaves the timer at 23. -/
theorem test_hold_terminal :
    gives (.holdTerminal (request [0, 31]))
      (site 2 { state := .outage, lead := some 31, probeTimer := 23, population := 6 }
        [(10, rotated 1 .quiet (some 400)), (12, { rotated 1 .quiet (some 452) with probed := true }),
          (15, rotated 0 .quiet none), (31, rotated 1 .quiet (some 452)), (33, rotated 1 .quiet (some 380))])
      (fun t => (t.sec 2).lead == some 10 && (t.sec 2).probeTimer == 23 && (t.term 31).state == .held) = true := by
  decide +kernel

/-- R125: a HELD terminal of a CLEAR sector joins the queue. -/
theorem test_release_terminal :
    gives (.releaseTerminal (request [0, 31])) (walkSite.modSec 2 fun r => { r with state := .clear }) (fun t =>
      (t.sec 2).queue == [31] && (t.term 31).state == .waiting && t.controllerOut == [answer 0x41 0 []]) = true := by
  decide +kernel

/-- R126, 11-4: READ QUEUE of the sector of 7-7 before frame 5006: the window holds slot 21 in round 2. -/
theorem test_read_queue :
    gives (.readQueue (request [8]))
      (site 8 { state := .clear, queue := [22], window := [21] }
        [(21, { attempting 0x21 1 2 .ranging with roundCount := 2 }), (22, attempting 0x22 1 0 .waiting)])
      (fun t => t.controllerOut == [answer 0x42 0 [1, 2, 1, 0, 22, 1, 0, 1, 0, 21, 7, 2, 2, 0, 0, 0, 0]]) = true := by
  decide +kernel

/-- The queue of commands: step takes the front command; on an empty queue the part idles (log entry 1). -/
theorem test_step :
    step { State.reset with pending := [.echo (request []), .restart (request [])] }
        = exec (.echo (request [])) { State.reset with pending := [.restart (request [])] }
      ∧ step State.reset = .next State.reset := ⟨rfl, rfl⟩

/-! ## Witnesses: states of one terminal -/

/-- The part in RUNNING mode with one sector record and one terminal record. -/
def spot (j : Sector) (r : SectorRec) (k : Slot) (t : Terminal) : State := (running.setSec j r).setTerm k t

theorem spot_term (j : Sector) (r : SectorRec) (k i : Slot) (t : Terminal) :
    (spot j r k t).term i = if i = k then t else {} := by
  have h : running.term i = {} := State.reset_term i
  simp only [spot, State.setTerm_term, State.setSec_term, h, eq_comm]

theorem spot_sec (j i : Sector) (r : SectorRec) (k : Slot) (t : Terminal) :
    (spot j r k t).sec i = if i = j then r else {} := by
  have h : running.sec i = {} := State.reset_sec i
  simp only [spot, State.setTerm_sec, State.setSec_sec, h, eq_comm]

theorem spot_belongs (j i : Sector) (r : SectorRec) (k m : Slot) (t : Terminal) :
    (spot j r k t).belongs i m = true ↔ m = k ∧ t.state ≠ .empty ∧ t.sector = i := by
  unfold State.belongs
  rw [spot_term]
  split <;> simp_all

/-- Nothing but slot `k` of such a state owes a message. -/
theorem spot_owed (j : Sector) (r : SectorRec) (k m : Slot) (t : Terminal) (h : t.owed = {}) :
    ((spot j r k t).term m).owed = {} := by
  rw [spot_term]
  split <;> simp_all

/-- A terminal of sector 4 at address 0x2A1, of class 1, in some state. -/
def one (st : TermState) (rung : Nat := 0) : Terminal :=
  { sector := 4, linkAddress := 0x2A1, priority := 1, maxRung := 4, state := st, rung := rung }

/-- Sector 4 in some state, with slot 44 as its only terminal. -/
def four (st : SectorState) : SectorRec :=
  { state := st, population := 1, addressMap := [(0x2A1, 44)], controllerDue := 1, schedulerDue := 1 }

/-! ## Witnesses: the machine -/

/-- Slot 44 waits in the queue of sector 4, and both have notices. -/
def settled : State :=
  { spot 4 { four .clear with queue := [44] } 44 { one .waiting with noticePending := true } with
    notices := [.terminal 44, .sector 4], pending := [.reEntrySchedulerReaction 4, .evaluationCompletion 4] }

theorem settled_term (k : Slot) :
    settled.term k = if k = 44 then { one .waiting with noticePending := true } else {} := spot_term 4 _ 44 k _

theorem settled_sec (j : Sector) : settled.sec j = if j = 4 then { four .clear with queue := [44] } else {} :=
  spot_sec 4 j _ 44 { one .waiting with noticePending := true }

theorem settled_belongs (j : Sector) (k : Slot) : settled.belongs j k = true ↔ k = 44 ∧ j = 4 := by
  have h := spot_belongs 4 j { four .clear with queue := [44] } 44 k { one .waiting with noticePending := true }
  exact h.trans (by simp [one, eq_comm])

/-- `ExecKeepsQueue`, `StructureKept`, `SectorsAreIsolated`: the first invariants in a state that lists something. -/
theorem witness_structure : settled.AtRest ∧ settled.Homed ∧ settled.TableAgrees := by
  refine ⟨fun h => absurd rfl h, fun j k h => ?_, ?_, fun j => ?_, fun j => ?_, fun j a k => ?_, fun j => ?_⟩
  · rw [settled_belongs]
    rw [settled_sec] at h
    split at h <;> simp_all [SectorRec.Names, four]
  · intro k h
    rw [settled_term] at h ⊢
    split at h <;> simp_all [one]
  · exact (by decide +kernel : ∀ j, (settled.sec j).population = (settled.slotsOf j).length) j
  · rw [settled_sec]
    split <;> simp [four]
  · rw [settled_belongs, settled_term, settled_sec]
    by_cases hj : j = 4
    · by_cases hk : k = 44
      · simpa [hj, hk, four, one] using eq_comm
      · simp [hj, hk, four]
    · simp [hj]
  · rw [settled_sec]
    split <;> simp [four]

/-- `NoticesKept`, `MembersKept` and `AdmissionFillsTheWindow`: notices and members in the same state. -/
theorem witness_members : settled.NoticesAgree ∧ settled.MembersAgree := by
  refine ⟨⟨by decide, fun k => ?_⟩, fun j k => ?_, fun j k => ?_, fun j => ?_, fun j => ?_, fun j => ?_⟩
  · rw [settled_term]
    split <;> simp_all [settled]
  · rw [settled_sec, settled_term]
    by_cases hj : j = 4 <;> by_cases hk : k = 44 <;> simp [hj, hk, four, one, eq_comm]
  · rw [settled_sec, settled_term]
    by_cases hj : j = 4 <;> by_cases hk : k = 44 <;> simp [hj, hk, four, one, eq_comm]
  all_goals
    rw [settled_sec]
    split <;> simp [four]

/-- `RangesKept` and `LadderStoreKept`: the ranges and the ladder store in the same state. -/
theorem witness_ranges :
    (∀ k, (settled.term k).InRange) ∧ (∀ j, (settled.sec j).InRange) ∧ settled.HoldsAgree ∧ settled.RungsOnLadder := by
  refine ⟨fun k => ?_, fun j => ?_, ⟨by decide +kernel, fun j => ?_, fun h => absurd h (by decide), by decide +kernel⟩,
    ⟨fun b hb => ?_, fun h => absurd h (by decide)⟩⟩
  · rw [settled_term]
    split <;> constructor <;> simp [one]
  · rw [settled_sec]
    split <;> refine ⟨⟨by decide, by decide⟩, ?_, ?_, ?_, ?_, ?_, ?_, ?_⟩ <;> simp [four]
  · rw [settled_sec]
    split <;> simp [four]
  · have hc : b.rungCount = 5 := by
      rw [← (Option.some.inj hb)]
      decide +kernel
    rw [hc]
    refine ⟨by omega, fun k => ?_⟩
    rw [settled_term]
    split <;> simp [one]

/-- The same statements: a step of that state answers next; and `StepRunsFrontCommand` idles on an empty queue. -/
theorem witness_step : (∃ t, step settled = .next t) ∧ step State.reset = .next State.reset ∧ State.reset.pending = [] :=
  ⟨⟨_, rfl⟩, rfl, rfl⟩

/-- `SectorsAreIsolated`: the commands of sector 4, and the backoff of its own slot 44. -/
theorem witness_isolated :
    (Instr.probe 4 ∈ ([.sectorFrameReaction 4, .blindEntry 4, .probe 4, .progressNotice 4, .reEntrySchedulerReaction 4,
        .slotFilling 4, .descriptorWalkStep 4, .windowSweepStep 4, .evaluationCompletion 4] : List Instr))
      ∧ settled.belongs 4 44 = true ∧ ∃ t, exec (.reEntrySchedulerReaction 4) settled = .next t :=
  ⟨by decide, (settled_belongs 4 44).2 ⟨rfl, rfl⟩, _, rfl⟩

/-- `DeviceResetEmptiesThePart`, `RestartResetsThePart`, `ReadStartupShowsTheRecord` and `EchoReturnsItsBytes` at both ends
of their lengths. -/
theorem witness_resets :
    (State.reset.controllerOut = [] ∧ State.reset.radioOut = [] ∧ State.reset.transit = [] ∧ State.reset.pending = [])
      ∧ (request []).length = 0 ∧ (request [1]).length ≠ 0
      ∧ (let r := request (List.replicate 64 1); r.length.toNat = 64 ∧ r.bytes.length = 64)
      ∧ (request []).length.toNat ≤ (request []).bytes.length := by decide

/-- `StartUpCheckRecordsItsRegions`: the first region, the last of the first clause, and the end of the check. -/
theorem witness_startup :
    State.reset.AtRest ∧ State.reset.mode = .starting ∧ State.reset.startUp.progress.getLsbD 0 = false
      ∧ (let s : State := { State.reset with startUp := { progress := 0x07FF } }
        s.AtRest ∧ (∀ i, i < 11 → s.startUp.progress.getLsbD i = true) ∧ s.startUp.progress.getLsbD 11 = false)
      ∧ (let s : State := { State.reset with startUp := { progress := 0x0FFF } }
        s.AtRest ∧ s.mode = .starting ∧ s.startUp.progress = 0x0FFF)
      ∧ (Instr.regionTestEnd none).wellFormed = true
      ∧ (Instr.startupCheckEnd (some { pattern := .p5555, offset := 0, value := 0 })).wellFormed = true :=
  ⟨fun _ => ⟨State.reset_term, State.reset_sec, rfl, rfl, rfl⟩, rfl, rfl,
    ⟨fun _ => ⟨State.reset_term, State.reset_sec, rfl, rfl, rfl⟩, by decide, by decide⟩,
    ⟨fun _ => ⟨State.reset_term, State.reset_sec, rfl, rfl, rfl⟩, rfl, rfl⟩, rfl, by decide⟩

/-- `StartUpCheckRecordsItsRegions`: the last word of region 10. -/
theorem witness_startup_ladder :
    let s : State := { State.reset with startUp := { progress := 0x03FF } }
    let w : WordRead := { pattern := .p5555, offset := 47, value := 0 }
    s.AtRest ∧ s.mode = .starting ∧ (∀ i, i < 10 → s.startUp.progress.getLsbD i = true) ∧ s.startUp.progress.getLsbD 10 = false
      ∧ (Instr.regionTestEnd (some w)).wellFormed = true ∧ w.offset.toNat < 48 :=
  ⟨fun _ => ⟨State.reset_term, State.reset_sec, rfl, rfl, rfl⟩, rfl, by decide, by decide, by decide, by decide⟩

/-- `CommonChecksRefuse`: a request the mode does not serve in each mode; a length above 64, a length the frame does not hold,
and one the function does not take; an unknown code. -/
theorem witness_common_checks :
    (State.reset.mode = .starting ∧ RequestKind.readFaultLatch ≠ .echo)
      ∧ (({ State.reset with mode := .bypass } : State).mode = .bypass ∧ RequestKind.readQueue ≠ .readFaultLatch)
      ∧ running.mode = .running
      ∧ 64 < ({ tag := 0, length := 65, bytes := [] } : Request).length.toNat
      ∧ (let r : Request := { tag := 0, length := 1, bytes := [] }; r.bytes.length < r.length.toNat)
      ∧ takesLength .readQueue (request []).length.toNat = false
      ∧ (0x05 : Byte) ∉ knownCodes := by decide

/-- `MgmtFrameTakesItsRequest`: an unknown code, and the longest frame that is too short. -/
theorem witness_mgmt_frame : (0x05 : Byte) ∉ knownCodes ∧ (List.replicate 6 (0 : Byte)).length < 7 := by decide

/-- `DownstreamFramesGoTheirWay`: a sector frame one byte too short goes its way, behind nothing and behind a frame that waits;
and a sector frame for a CLEAR sector is offered. -/
theorem witness_downstream :
    (let fr := (sectorFrameOf 4 0 9).take 69;
      (∀ rest, fr ≠ 0x6C :: 0x02 :: rest) ∧ ¬70 ≤ fr.length)
      ∧ (({ frame := [], fill := some 4 } : Transit).fill ≠ none)
      ∧ ∃ (fr : Frame) (j : Sector) (rest : List Byte) (s : State), fr = 0x6C :: 0x01 :: byteOf j.val :: rest
        ∧ fr.length = 70 ∧ s.mode = .running ∧ (s.sec j).InService ∧ s.HeadWaits := by
  refine ⟨⟨fun rest h => ?_, by decide⟩, by decide, sectorFrameOf 4 0 9, 4, _, spot 4 (four .clear) 44 (one .inService),
    rfl, by decide, rfl, ?_, fun x h => ?_⟩
  · exact absurd (congrArg (fun l => l.getD 1 0) h) (by simp [sectorFrameOf])
  · rw [spot_sec]
    exact ⟨by decide, by decide⟩
  · cases h

/-! ## Witnesses: the reactions to a sector frame -/

/-- `SectorFrameCounts`: the last frame before BLIND in CLEAR, BLIND itself, OUTAGE at both sides of the progress interval. -/
theorem witness_sector_frame :
    (let r := (spot 4 { four .clear with blindCounter := 6 } 44 (one .inService)).sec 4;
      0 < r.controllerDue ∧ r.state = .clear ∧ min (r.blindCounter + 1) 64 + 1 = r.config.blindLimit)
      ∧ (let r := (spot 4 { four .blind with blindCounter := 64 } 44 (one .inService)).sec 4
        0 < r.controllerDue ∧ r.state = .blind)
      ∧ (let r := (spot 4 { four .outage with probeTimer := 2, progressCounter := 23 } 44 (one .quiet)).sec 4
        0 < r.controllerDue ∧ r.state = .outage ∧ min (r.blindCounter + 1) 64 < r.config.blindLimit ∧ 2 ≤ r.probeTimer
          ∧ r.progressCounter < r.config.progressInterval)
      ∧ (let r := (spot 4 { four .outage with probeTimer := 2, progressCounter := 24 } 44 (one .quiet)).sec 4
        0 < r.controllerDue ∧ r.state = .outage ∧ min (r.blindCounter + 1) 64 < r.config.blindLimit ∧ 2 ≤ r.probeTimer
          ∧ r.config.progressInterval ≤ r.progressCounter) := by
  simp only [spot_sec]
  decide

/-- `BlindEntryKeepsTheWork`: the frame that reaches blind_limit in OUTAGE. -/
theorem witness_blind_entry :
    let r := (spot 4 { four .outage with blindCounter := 7 } 44 (one .quiet)).sec 4
    0 < r.controllerDue ∧ r.state = WorkState.outage.toSector ∧ r.config.blindLimit ≤ min (r.blindCounter + 1) 64 := by
  simp only [spot_sec]
  decide

/-- `ProbeAdmitsTheLead`: a QUIET lead, and a RANGING one, on both sides of the progress interval. -/
theorem witness_probe : ∀ st ∈ [TermState.quiet, .ranging], ∀ p ∈ [23, 24],
    let s := spot 4 { four .outage with lead := some 44, probeTimer := 1, progressCounter := p } 44 (one st)
    let r := s.sec 4
    0 < r.controllerDue ∧ r.state = .outage ∧ min (r.blindCounter + 1) 64 < r.config.blindLimit ∧ r.probeTimer = 1
      ∧ r.lead = some 44 ∧ (s.term 44).state = st
      ∧ (p = 23 ∧ r.progressCounter < r.config.progressInterval ∨ p = 24 ∧ r.config.progressInterval ≤ r.progressCounter)
      ∧ ∃ item : State → State, ∀ u, item u = if r.config.progressInterval ≤ r.progressCounter then u.offerSector 4 else u := by
  intro st _ p hp
  refine ⟨?_, ?_, ?_, ?_, ?_, ?_, ?_, _, fun _ => rfl⟩
  all_goals simp [spot_sec, spot_term, four, one]
  simp only [List.mem_cons, List.not_mem_nil, or_false] at hp
  omega

/-- `ReleaseWalkMovesABatch`: the walk at the slot of a QUIET terminal, with batches of 4 and of 0, and with its progress item due.
Slot 44 is the only one ahead of the cursor. -/
theorem witness_release_walk : ∀ batch ∈ [4, 0], ∀ p ∈ [23, 24],
    let s := spot 4 { four .recovering with
      releaseCursor := some 44, progressCounter := p, config := { releaseBatch := batch } } 44 (one .quiet)
    0 < (s.sec 4).controllerDue ∧ (s.sec 4).state = .recovering
      ∧ min ((s.sec 4).blindCounter + 1) 64 < (s.sec 4).config.blindLimit ∧ (s.sec 4).releaseCursor = some 44
      ∧ (s.sec 4).config.releaseBatch = batch ∧ (s.sec 4).progressCounter = p
      ∧ ((List.finRange 320).filter fun k => s.belongs 4 k && decide (44 ≤ k)) = [44]
      ∧ (([44] : List Slot).filter fun k => (s.term k).state == .quiet).take batch = if batch = 0 then [] else [44] := by
  intro batch hb p _
  refine ⟨?_, ?_, ?_, ?_, ?_, ?_, ?_, ?_⟩
  case refine_7 =>
    rw [List.filter_congr (q := fun k => decide (k = 44))]
    · decide +kernel
    · intro k _
      rw [Bool.eq_iff_iff, Bool.and_eq_true, spot_belongs]
      simp only [decide_eq_true_eq]
      exact ⟨fun h => h.1.1, fun h => ⟨⟨h, by decide, rfl⟩, h ▸ le_refl _⟩⟩
  case refine_8 =>
    simp only [List.mem_cons, List.not_mem_nil, or_false] at hb
    rcases hb with rfl | rfl <;> simp [spot_term, one]
  all_goals simp [spot_sec, four]

/-- `AdmissionFillsTheWindow`: the settled sector admits slot 44; none of its terminals is DEFERRED. -/
theorem witness_admission :
    settled.MembersAgree ∧ settled.NoticesAgree ∧ 0 < (settled.sec 4).schedulerDue ∧ (settled.sec 4).state = .clear
      ∧ (∀ k, settled.belongs 4 k = true → (settled.term k).state ≠ .deferred)
      ∧ (settled.sec 4).queue.take ((settled.sec 4).config.windowSize - (settled.sec 4).window.length) = [44] := by
  refine ⟨witness_members.2, witness_members.1, ?_, ?_, fun k _ => ?_, ?_⟩
  · simp [settled_sec, four]
  · simp [settled_sec, four]
  · rw [settled_term]
    split <;> simp [one]
  · simp [settled_sec, four]

/-- `BackoffsCountDown`: a last frame of backoff in OUTAGE, and in CLEAR with a full window. -/
theorem witness_backoff :
    (let s := spot 4 (four .outage) 44 { one .deferred with backoff := 1 };
      0 < (s.sec 4).schedulerDue ∧ (s.sec 4).state = .outage ∧ s.belongs 4 44 = true ∧ (s.term 44).state = .deferred
        ∧ (s.term 44).backoff = 1)
      ∧ (let s := spot 4 { four .clear with window := [1, 2] } 44 { one .deferred with backoff := 1 }
        0 < (s.sec 4).schedulerDue ∧ (s.sec 4).state = .clear ∧ (s.sec 4).config.windowSize ≤ (s.sec 4).window.length
          ∧ s.belongs 4 44 = true ∧ (s.term 44).state = .deferred ∧ (s.term 44).backoff = 1) := by
  simp [spot_sec, spot_term, spot_belongs, four, one]

/-- `ShiftMatures`: a shift due at its frame, in service, and climbing below and at its goal; a goal of 2, and one bounded to 1 by
a DEGRADED that is set or whose bound is kept. -/
theorem witness_shift : ∀ x ∈ ([(.inService, 0, false, false, 2), (.climbing, 1, false, false, 2), (.climbing, 2, false, false, 2),
      (.climbing, 0, true, false, 1), (.climbing, 1, true, false, 1), (.climbing, 1, false, true, 1)] :
      List (TermState × Nat × Bool × Bool × Nat)),
    let s := spot 4 { four .clear with maturityDue := [(3114, 44)] } 44
      { one x.1 1 with
        restoreRung := some 2, pendingShift := some { target := x.2.1, effective := some 3114 }
        sticky := { degraded := x.2.2.1 }, capKept := x.2.2.2.1 }
    (s.sec 4).maturityDue = [(3114, 44)] ∧ (s.sec 4).InService ∧ s.belongs 4 44 = true
      ∧ (s.term 44).pendingShift = some { target := x.2.1, effective := some 3114 }
      ∧ ¬65521 ≤ ((3114 : FrameNo) - 3114).toNat ∧ s.activeBank = some rainBank
      ∧ (s.term 44).state = x.1 ∧ (s.term 44).restoreRung = some 2 ∧ (s.term 44).missRun = 0 ∧ (s.term 44).floorRun = 0
      ∧ min (min (min (s.term 44).maxRung rainBank.top)
          (if (s.term 44).sticky.degraded = true ∨ (s.term 44).capKept = true then (s.sec 4).config.degradedCap
            else rainBank.top)) 2 = x.2.2.2.2
      ∧ (x.1 = .inService ∨ min x.2.1 rainBank.top < x.2.2.2.2 ∨ x.2.2.2.2 ≤ min x.2.1 rainBank.top) := by
  have ht : rainBank.top = 4 := by decide +kernel
  intro x hx
  simp only [List.mem_cons, List.not_mem_nil, or_false] at hx
  rcases hx with rfl | rfl | rfl | rfl | rfl | rfl <;>
    (refine ⟨by simp [spot_sec], ?_, ?_, ?_, by decide, rfl, ?_, ?_, ?_, ?_, ?_, ?_⟩ <;>
      simp [spot_sec, spot_term, spot_belongs, four, one, SectorRec.InService, ht])

/-- Sector 4 with a control queue, three of its terminals, and a sector frame with some free slots that waits for its filling: slot
44 in the window as RANGING, slot 45 VERIFYING, and slot 46 in service with a drop queued and some kinds owed. -/
def filling (st : SectorState) (queue : List ControlEntry) (owed : OwedKinds) (count : Byte) : State :=
  { site 4 { four st with window := [44, 45], controlQueue := queue }
      [(44, one .ranging), (45, { one .verifying with attemptCount := 1 }),
        (46, { one .fading 2 with pendingShift := some { target := 1 }, owed := owed })] with
    transit := [{ frame := [0x6C, 0x01, 4, 0x13, 0x88, count] ++ List.replicate 64 0xEE, fill := some 4 }] }

/-- `FillingGrantsAndInserts`: a grant and three insertions in a frame of four slots, insertions alone in BLIND, and a frame
without a free slot, whatever is owed. -/
theorem witness_filling : ∀ x ∈ ([(.clear, {}, 4, [44], 3), (.blind, {}, 2, [], 2), (.clear, { power := true }, 0, [], 0)] :
      List (SectorState × OwedKinds × Byte × List Slot × Nat)),
    let queue : List ControlEntry := [{ slot := 45, kind := .verify, cls := .a }, { slot := 46, kind := .shift, cls := .b },
      { slot := 46, kind := .power, cls := .c }]
    let s := filling x.1 queue x.2.1 x.2.2.1
    (s.sec 4).InService ∧ (s.sec 4).controlQueue = queue
      ∧ x.2.2.2.1 = (if (s.sec 4).state = .blind then []
        else ((s.sec 4).window.filter fun k => (s.term k).state = .ranging ∧ (s.term k).expectedBurst = none).take
          (min x.2.2.1.toNat 8))
      ∧ x.2.2.2.2 = min x.2.2.1.toNat 8 - x.2.2.2.1.length
      ∧ (x.2.2.2.2 = 0 ∨ ∀ i, s.belongs 4 i = true → (s.term i).owed = {})
      ∧ ((queue.take x.2.2.2.2).map fun e => (e.slot, e.kind)).Nodup
      ∧ s.activeBank = some rainBank ∧ (s.term 46).pendingShift = some { target := 1 } := by
  simp only [SectorRec.InService]
  decide +kernel

/-- `FillingGrantsAndInserts`: slot 46 owes SHIFT or POWER alone, filled with three slots, and all four kinds, with one; the entry
joins between the CORRECT of slot 45 that leaves and what stands behind its class. -/
theorem witness_owed : ∀ x ∈ ([({ shift := true }, 4, .shift, .b, []), ({ power := true }, 4, .power, .c, [{ slot := 44, kind := .power, cls := .c }]),
      ({ correct := true, verify := true, power := true, shift := true }, 2, .correct, .a, [])] :
      List (OwedKinds × Byte × MsgKind × MsgClass × List ControlEntry)),
    let back : List ControlEntry := if x.2.2.2.2 = [] then [{ slot := 44, kind := .power, cls := .c }] else []
    let s := filling .clear ({ slot := 45, kind := .correct, cls := .a } :: (x.2.2.2.2 ++ back)) x.1 x.2.1
    let m := min x.2.1.toNat 8 - 1
    (s.sec 4).InService ∧ 1 ≤ m ∧ s.belongs 4 46 = true ∧ (s.term 46).owed ≠ {}
      ∧ (s.term 46).pendingShift = some { target := 1 }
      ∧ (∀ l, l < 46 → s.belongs 4 l = true → (s.term l).owed = {})
      ∧ (x.2.2.1, x.2.2.2.1) = (if (s.term 46).owed.correct then (.correct, .a)
          else if (s.term 46).owed.verify then (.verify, .a)
          else if (s.term 46).owed.shift ∧ 1 < (s.term 46).rung then (.shift, .b)
          else if (s.term 46).owed.power then (.power, .c)
          else (.shift, .d))
      ∧ (∀ e ∈ x.2.2.2.2 ++ back, ¬(e.slot = 46 ∧ e.kind = x.2.2.1))
      ∧ (∀ e ∈ x.2.2.2.2, e.cls.rank ≤ x.2.2.2.1.rank) ∧ (∀ e ∈ back, x.2.2.2.1.rank < e.cls.rank)
      ∧ (m = 1 ∨ ∀ k, s.belongs 4 k = true →
        (if k = 46 then (s.term k).owed.put x.2.2.1 false else (s.term k).owed) = {}) := by
  simp only [SectorRec.InService]
  decide +kernel

/-! ## Witnesses: intake -/

/-- An upstream frame with one descriptor: sector 4, frame 6060, address 0x2A1, kind, status RECEIVED, payload length. -/
def single (kind len : Byte) : Frame :=
  [0x93, 0x01, 4, 0x17, 0xAC, 1] ++ [0x02, 0xA1, kind, 0x01, 80, 0, 20, 0, len]

/-- `LayoutChecksFindTheFirstFault`: 97 bursts, a payload that does not fit, a report with a payload, and a frame that passes. -/
theorem witness_layout :
    96 < (byteAt [0x93, 0x01, 4, 0, 0, 97] 5).toNat
      ∧ (let fr := single 0x01 1; (byteAt fr 5).toNat = 1 ∧ ¬DescriptorFits fr 0)
      ∧ (let fr := single 0x01 1 ++ [0]; DescriptorFits fr 0 ∧ ¬DescriptorRight fr 0)
      ∧ (let fr := single 0x01 0; DescriptorFits fr 0 ∧ DescriptorRight fr 0) := by
  simp only [DescriptorFits, DescriptorRight]
  decide

/-- `FaultsLockTheLatch`: outside RUNNING mode, each check that fails, a sector out of service, and a stale frame against each
reference. -/
theorem witness_faults :
    (State.reset.notices = [] ∧ State.reset.mode ≠ .running ∧ running.notices = [] ∧ running.mode = .running)
      ∧ ([] : Frame).length < 6 ∧ 12 ≤ (byteAt (upstreamOf 12 0 0) 2).toNat
      ∧ (UpstreamOf (upstreamOf 4 0x17 0xAC) 4 ∧ ¬(running.sec 4).InService)
      ∧ (let s := spot 4 (four .clear) 44 (one .inService)
        (s.sec 4).InService ∧ UpstreamOf (single 0x01 1) 4 ∧ layoutFault (single 0x01 1) = some (.count, some 0))
      ∧ (let s := spot 4 { four .clear with lastEvaluated := some 6060 } 44 (one .inService)
        (s.sec 4).InService ∧ (s.sec 4).state ≠ .blind ∧ layoutFault (upstreamOf 4 0x17 0xAC) = none
          ∧ (s.sec 4).waitingBank = none ∧ (s.sec 4).evaluation = none ∧ (s.sec 4).lastEvaluated = some 6060
          ∧ (frameNumber (upstreamOf 4 0x17 0xAC) - 6060).toNat = 0)
      ∧ (let s := spot 4 { four .clear with evaluation := some (flight 6060 []) } 44 (one .inService)
        (s.sec 4).InService ∧ (s.sec 4).waitingBank = none ∧ (s.sec 4).evaluation = some (flight 6060 [])
          ∧ 32768 = (frameNumber (upstreamOf 4 0x97 0xAC) - (flight 6060 []).frame.number).toNat)
      ∧ (let s := spot 4 { four .clear with waitingBank := some { number := 6060, bursts := [] } } 44 (one .inService)
        (s.sec 4).InService ∧ (s.sec 4).waitingBank = some { number := 6060, bursts := [] }
          ∧ 32768 ≤ (frameNumber (upstreamOf 4 0x17 0xAB) - 6060).toNat) := by
  have hr : running.sec 4 = {} := State.reset_sec 4
  simp only [spot_sec, if_true, hr, SectorRec.InService]
  refine ⟨by decide, by decide, by decide, ⟨⟨by decide, by decide, by decide, by decide⟩, by decide⟩,
    ⟨by decide, ⟨by decide, by decide, by decide, by decide⟩, by decide⟩, by decide, by decide, by decide⟩

/-- `PassingFrameIsTaken` and `OverrunLeavesTheBanks`: a first frame, gaps of 1 and of 32767, and frames in
BLIND, with no evaluation in flight and with one. -/
theorem witness_passing :
    running.mode = .running ∧ running.notices = [] ∧ running.ladder.active = some 0
      ∧ UpstreamOf (upstreamOf 4 0x17 0xAC) 4 ∧ layoutFault (upstreamOf 4 0x17 0xAC) = none
      ∧ (let r := four .clear
        r.InService ∧ r.state ≠ .blind ∧ r.waitingBank = none ∧ r.evaluation = none ∧ r.lastEvaluated = none)
      ∧ (let r := { four .clear with lastEvaluated := some 6059 }
        r.InService ∧ r.state ≠ .blind ∧ r.evaluation = none
          ∧ (frameNumber (upstreamOf 4 0x17 0xAC) - 6059).toNat = 1)
      ∧ (let r := { four .outage with evaluation := some (flight 6060 []) }
        r.InService ∧ r.state ≠ .blind ∧ r.waitingBank = none
          ∧ (frameNumber (upstreamOf 4 0x97 0xAB) - (flight 6060 []).frame.number).toNat = 32767)
      ∧ (let r := { four .blind with prior := some .recovering }
        r.state = .blind ∧ r.prior = some .recovering ∧ r.evaluation = none ∧ r.waitingBank = none)
      ∧ (let r := { four .blind with prior := some .outage, evaluation := some (flight 6058 []) }
        r.state = .blind ∧ r.prior = some .outage ∧ r.evaluation = some (flight 6058 []) ∧ r.waitingBank = none)
      ∧ (let r := { four .clear with
            evaluation := some (flight 6058 []), waitingBank := some { number := 6059, bursts := [] } }
        r.InService ∧ r.state ≠ .blind ∧ (frameNumber (upstreamOf 4 0x17 0xAC) - 6059).toNat = 1)
      ∧ (let r := { four .blind with
            prior := some .clear, evaluation := some (flight 6058 []), waitingBank := some { number := 6059, bursts := [] } }
        r.state = .blind ∧ r.prior = some .clear) := by
  simp only [SectorRec.InService]
  refine ⟨rfl, rfl, rfl, ⟨by decide, by decide, by decide, by decide⟩, by decide, by decide, by decide, by decide, by decide,
    by decide, by decide, by decide⟩

/-- `NoticesFollowForwardedFrames`: a frame that returns a sector from BLIND, with the sector's item in the queue and not, and one
that returns none. -/
theorem witness_notices :
    (let s := spot 4 { four .blind with prior := some .outage } 44 (one .quiet);
      s.mode = .running ∧ UpstreamOf (upstreamOf 4 0x17 0xAC) 4 ∧ layoutFault (upstreamOf 4 0x17 0xAC) = none
        ∧ (s.sec 4).state = .blind ∧ (s.sec 4).prior = some .outage ∧ .sector 4 ∉ s.notices
        ∧ .sector 4 ∈ { s with notices := [.sector 4] }.notices)
      ∧ (∀ j, (settled.sec j).state ≠ .blind) ∧ settled.notices ≠ [] := by
  refine ⟨⟨rfl, ⟨by decide, by decide, by decide, by decide⟩, by decide, ?_, ?_, by decide, by decide⟩, fun j => ?_, by decide⟩
  · rw [spot_sec]; rfl
  · rw [spot_sec]; rfl
  · rw [settled_sec]; split <;> decide

/-! ## Witnesses: the walk and the sweep -/

/-- Sector 4 with a one-descriptor evaluation of frame 6060 in flight. -/
def walking (r : SectorRec) (d : Burst) : SectorRec := { r with evaluation := some (flight 6060 [d]) }

/-- The walk stands at a descriptor of slot 44. -/
theorem walks {st : SectorState} {d : Burst} {t : Terminal} (f : SectorRec → SectorRec)
    (hf : (f (four st)).addressMap = [(0x2A1, 44)]) (hd : d.address = 0x2A1) (ht : t.sector = 4) (hs : t.state ≠ .empty) :
    (spot 4 (walking (f (four st)) d) 44 t).WalksTo 4 (flight 6060 [d]) d 44 where
  flight := by simp [spot_sec, walking]
  descriptor := rfl
  paired := by simp [spot_sec, walking, hf, hd]
  home := (spot_belongs 4 4 _ 44 44 t).2 ⟨rfl, hs, ht⟩

/-- `WalkPassesOtherDescriptors`: an unpaired address, and a report of a HELD terminal. -/
theorem witness_walk_passes :
    (∀ k, ((0x2A2 : BitVec 12), k) ∉ ((spot 4 (walking (four .clear) (burst 0x2A2 .report 80 0)) 44 (one .held)).sec 4).addressMap)
      ∧ (spot 4 (walking (four .clear) (burst 0x2A1 .report 80 0)) 44 (one .held)).WalksTo 4
        (flight 6060 [burst 0x2A1 .report 80 0]) (burst 0x2A1 .report 80 0) 44
      ∧ ((spot 4 (walking (four .clear) (burst 0x2A1 .report 80 0)) 44 (one .held)).term 44).state
        ∉ [.inService, .fading, .ramping, .climbing] := by
  refine ⟨?_, walks id rfl rfl rfl (by decide), ?_⟩
  · intro k
    simp [spot_sec, walking, four]
  · simp [spot_term, one]

/-- A report whose headroom is 0, so that no step raises P. -/
def capped (snr : Byte) : Burst := { burst 0x2A1 .report snr 0 with headroom := 0 }

/-- `ReportDecidesTheRung`: a steady report at the top rung, a drop below the threshold, one at rung 0, and the end of a climb
dwell. Each names the terminal after stages 1 to 8 by its rung, its P and its F. -/
theorem witness_report :
    (let c : SectorConfig := {}; let t := one .inService 4; let x := stages1to8 c rainBank (capped 128) t;
      x.power = t.power ∧ x.filtered = some 512 ∧ 4 * rainBank.drop x.rung ≤ 512 ∧ prediction c 512 x.history = none
        ∧ rainBank.top ≤ x.rung)
      ∧ (let c : SectorConfig := {}; let t := one .inService 1; let x := stages1to8 c rainBank (capped 35) t
        x.power = t.power ∧ x.filtered = some 140 ∧ 0 < x.rung ∧ 140 < 4 * rainBank.drop x.rung)
      ∧ (let c : SectorConfig := {}; let t := { one .inService with floorRun := 1 }
        let x := stages1to8 c rainBank (capped 15) t
        x.power = t.power ∧ x.filtered = some 60 ∧ x.rung = 0 ∧ 60 < 4 * rainBank.drop 0 ∧ rainBank.drop 0 ≤ rainBank.enter 1
          ∧ x.floorRun + 1 < c.lossLimit)
      ∧ (let c : SectorConfig := { fadeHorizon := 0 }
        let t := { one .inService with power := -40, filtered := some 192, history := List.replicate 7 192, climbDwell := 15 }
        let x := stages1to8 c rainBank (capped 48) t
        x.power = t.power ∧ x.filtered = some 192 ∧ 4 * rainBank.drop x.rung ≤ 192 ∧ x.rung < rainBank.top
          ∧ 4 * rainBank.enter (x.rung + 1) ≤ 192 ∧ slope x.history = some 0 ∧ x.rung + 1 ≤ x.maxRung
          ∧ x.sticky.degraded = false ∧ c.climbDwell ≤ x.climbDwell + 1)
      ∧ (spot 4 (walking (four .clear) (capped 128)) 44 (one .inService 4)).WalksTo 4 (flight 6060 [capped 128]) (capped 128) 44 :=
  ⟨by decide +kernel, by decide +kernel, by decide +kernel, by decide +kernel, walks id rfl rfl rfl (by decide)⟩

/-- A report whose headroom is 0, so that no step raises P, with a timing error outside the tolerance. -/
def late (snr : Byte) : Burst := { capped snr with timing := 9 }

/-- `ReportDecidesTheRung`: a report that requests a CORRECT and, as P falls, a POWER, into an empty control queue. -/
theorem witness_report_requests :
    (let c : SectorConfig := {}; let t := one .inService 4; let x := stages1to8 c rainBank (late 160) t;
      x.power ≠ t.power ∧ c.timingTolerance < (late 160).timing.toInt.natAbs ∧ x.filtered = some 640
        ∧ 4 * rainBank.drop x.rung ≤ 640 ∧ prediction c 640 x.history = none ∧ x.rung = rainBank.top)
      ∧ (walking (four .clear) (late 160)).controlQueue = []
      ∧ (spot 4 (walking (four .clear) (late 160)) 44 (one .inService 4)).WalksTo 4 (flight 6060 [late 160]) (late 160) 44 :=
  ⟨by decide +kernel, rfl, walks id rfl rfl rfl (by decide)⟩

/-- A climbing terminal with a steady history of 192 at P -40, which no stage moves at SNR 48. -/
def climbing (rung restore dwell reports : Nat) : Terminal :=
  { one .climbing rung with
    restoreRung := some restore, climbDwell := dwell, phaseReports := reports, power := -40, filtered := some 192
    history := List.replicate 7 192 }

/-- `ReportDecidesTheRung`, in CLIMBING: terminals with whether the report drops, whether it meets the climb condition, the goal, the
floor run after it, and the dwell and the phase reports it comes to. The report finds a rung it cannot leave, dwells, climbs after
recovery_dwell, drops, ends the climb at its goal in service and in FADING, and at climb_timeout. -/
theorem witness_report_climbing : ∀ y ∈ ([(climbing 1 2 0 0, 48, false, false, 2, 0, 1, 1), (climbing 0 2 2 0, 48, false, true, 2, 0, 3, 1),
      (climbing 0 2 3 0, 48, false, true, 2, 0, 4, 1), (({ one .climbing 1 with power := -40, restoreRung := some 2 } : Terminal), 35, true, false, 2, 0, 1, 1),
      (climbing 0 0 0 0, 48, false, false, 0, 0, 1, 1), (({ one .climbing 0 with power := -40, restoreRung := some 0 } : Terminal), 15, false, false, 0, 1, 1, 1),
      (climbing 1 2 0 63, 48, false, false, 2, 0, 1, 64)] : List (Terminal × Byte × Bool × Bool × Nat × Nat × Nat × Nat)),
    let c : SectorConfig := {}
    let f := 4 * y.2.1.toNat
    let x := stages1to8 c rainBank (capped y.2.1) y.1
    x.power = y.1.power ∧ (capped y.2.1).timing.toInt.natAbs ≤ c.timingTolerance ∧ x.filtered = some f
      ∧ (prediction c f x.history = none ∧ slope x.history = none ∨ prediction c f x.history = some f ∧ slope x.history = some 0)
      ∧ (y.2.2.1 = true ↔ 0 < x.rung ∧ f < 4 * rainBank.drop x.rung)
      ∧ (y.2.2.2.1 = true ↔ x.rung < rainBank.top ∧ 4 * rainBank.enter (x.rung + 1) ≤ f ∧ slope x.history = some 0
        ∧ x.rung + 1 ≤ y.2.2.2.2.1)
      ∧ y.2.2.2.2.1 = min (min (min x.maxRung rainBank.top) (if x.sticky.degraded = true then c.degradedCap else rainBank.top))
          (x.restoreRung.getD rainBank.top)
      ∧ y.2.2.2.2.2.1 = (if x.rung = 0 ∧ f < 4 * rainBank.drop 0 then x.floorRun + 1 else 0) ∧ y.2.2.2.2.2.1 < c.lossLimit
      ∧ y.2.2.2.2.2.2.1 = x.climbDwell + 1 ∧ y.2.2.2.2.2.2.2 = x.phaseReports + 1 ∧ c.recoveryDwell = 4 ∧ c.climbTimeout = 64 := by
  decide +kernel

/-- `RampEndsInClimbing`: a first settled report, and the one that reaches ramp_settle. -/
theorem witness_ramp : ∀ n ∈ [0, 1],
    let t := { one .ramping with rampSettle := n, restoreRung := some 2 }
    let x := stages1to8 {} rainBank (capped 36) t
    x.power = t.power ∧ (capped 36).timing.toInt.natAbs ≤ ({} : SectorConfig).timingTolerance
      ∧ 4 * rainBank.drop x.rung ≤ x.filtered.getD 0
      ∧ (4 * ((rainBank.hold x.rung : Int) + ({} : SectorConfig).targetMargin) - (x.filtered.getD 0 : Nat)).natAbs
          < ({} : SectorConfig).deadband
      ∧ x.rampSettle = n ∧ x.phaseReports + 1 < ({} : SectorConfig).rampLimit
      ∧ (spot 4 (walking (four .clear) (capped 36)) 44 t).WalksTo 4 (flight 6060 [capped 36]) (capped 36) 44 := by
  intro n hn
  have h : ∀ m ∈ [0, 1], let x := stages1to8 {} rainBank (capped 36) { one .ramping with rampSettle := m, restoreRung := some 2 }
      x.power = 0 ∧ 4 * rainBank.drop x.rung ≤ x.filtered.getD 0
        ∧ (4 * ((rainBank.hold x.rung : Int) + ({} : SectorConfig).targetMargin) - (x.filtered.getD 0 : Nat)).natAbs
          < ({} : SectorConfig).deadband
        ∧ x.rampSettle = m ∧ x.phaseReports + 1 < ({} : SectorConfig).rampLimit := by decide +kernel
  exact ⟨(h n hn).1, by decide, (h n hn).2.1, (h n hn).2.2.1, (h n hn).2.2.2.1, (h n hn).2.2.2.2,
    walks id rfl rfl rfl (by simp [one])⟩

/-- `RampEndsInClimbing`: a ramp report that requests a CORRECT and, as P falls, a POWER. -/
theorem witness_ramp_requests :
    let t := { one .ramping with restoreRung := some 2 }
    let x := stages1to8 {} rainBank (late 48) t
    x.power ≠ t.power ∧ ({} : SectorConfig).timingTolerance < (late 48).timing.toInt.natAbs
      ∧ 4 * rainBank.drop x.rung ≤ x.filtered.getD 0 ∧ x.rampSettle = 0 ∧ x.phaseReports + 1 < ({} : SectorConfig).rampLimit
      ∧ (walking (four .clear) (late 48)).controlQueue = []
      ∧ (spot 4 (walking (four .clear) (late 48)) 44 t).WalksTo 4 (flight 6060 [late 48]) (late 48) 44 := by
  have h : let x := stages1to8 {} rainBank (late 48) { one .ramping with restoreRung := some 2 }
      x.power ≠ 0 ∧ ({} : SectorConfig).timingTolerance < (late 48).timing.toInt.natAbs
        ∧ 4 * rainBank.drop x.rung ≤ x.filtered.getD 0 ∧ x.rampSettle = 0 ∧ x.phaseReports + 1 < ({} : SectorConfig).rampLimit := by
    decide +kernel
  exact ⟨h.1, h.2.1, h.2.2.1, h.2.2.2.1, h.2.2.2.2, rfl, walks id rfl rfl rfl (by simp [one])⟩

/-- A report that was not received. -/
def missed : Burst := { burst 0x2A1 .report 0 0 with received := false }

/-- `MissCountsAndFades`: the first miss at rung 0 and at rung 2, and the last miss before a loss. -/
theorem witness_miss : ∀ t ∈ [one .inService, one .inService 2, { one .fading 2 with missRun := 1 }],
    let s := spot 4 (walking (four .clear) missed) 44 t
    s.WalksTo 4 (flight 6060 [missed]) missed 44 ∧ missed.kind = .report ∧ missed.received = false
      ∧ (s.term 44).missRun + 1 < (s.sec 4).config.lossLimit ∧ s.activeBank = some rainBank
      ∧ (s.term 44).pendingShift = none ∧ (s.sec 4).controlQueue = []
      ∧ ((s.term 44).state = .inService ∧ (s.term 44).missRun = 0 ∨ (s.term 44).state = .fading ∧ 1 ≤ (s.term 44).missRun) := by
  intro t ht
  simp only [List.mem_cons, List.not_mem_nil, or_false] at ht
  rcases ht with rfl | rfl | rfl <;>
    exact ⟨walks id rfl rfl rfl (by decide), rfl, rfl, by rw [spot_sec, spot_term]; decide, rfl, by rw [spot_term]; decide,
      by rw [spot_sec]; decide, by rw [spot_term]; decide⟩

/-- `LossClearsAndPlaces`: the third miss in CLEAR, between a class 0 and a class 2 terminal of the queue, and in OUTAGE; the
aged entry leaves the log. -/
theorem witness_loss :
    (let r := walking { four .clear with queue := [7, 9], lossLog := [{ slot := 9, frame := 5860 }] } missed;
      let s := (spot 4 r 44 { one .fading 2 with missRun := 2 }).setTerm 9 { sector := 4, priority := 2 }
      s.WalksTo 4 (flight 6060 [missed]) missed 44 ∧ (s.term 44).state ∈ [.inService, .fading, .ramping, .climbing]
        ∧ s.sec 4 = r ∧ r.config.lossLimit ≤ (s.term 44).missRun + 1 ∧ s.activeBank = some rainBank
        ∧ r.working = some .clear ∧ (∀ x ∈ r.controlQueue, x.slot ≠ 44)
        ∧ (∀ x ∈ [7], (s.term x).priority ≤ (s.term 44).priority) ∧ (∀ x ∈ [9], (s.term 44).priority < (s.term x).priority)
        ∧ r.queue = [7] ++ [9]
        ∧ (r.lossLog.filter fun x => decide (((6060 : FrameNo) - x.frame).toNat < r.config.outageWindow)) = []
        ∧ ([{ slot := 44, frame := 6060 }] : List LossEntry).length < r.config.outageCount)
      ∧ (let r := walking (four .outage) missed
        r.working = some .outage ∧ (r.state ≠ .clear ∧ r.state ≠ .recovering) ∧ r.config.lossLimit ≤ 2 + 1) := by
  have hw : (spot 4 (walking { four .clear with queue := [7, 9], lossLog := [{ slot := 9, frame := 5860 }] } missed) 44
      { one .fading 2 with missRun := 2 }).WalksTo 4 (flight 6060 [missed]) missed 44 :=
    walks (fun r => { r with queue := [7, 9], lossLog := [{ slot := 9, frame := 5860 }] }) rfl rfl rfl (by decide)
  refine ⟨⟨⟨?_, rfl, ?_, ?_⟩, ?_, ?_, ?_, rfl, rfl, ?_, ?_, ?_, rfl, ?_, ?_⟩, by decide⟩
  · exact hw.flight
  · exact hw.paired
  · simp [State.belongs, State.setTerm_term, spot_term, one]
  all_goals simp [State.setTerm_term, spot_term, spot_sec, walking, four, one]

/-- `LossClearsAndPlaces`: the loss that brings a log of three to outage_count, in CLEAR and in RECOVERING, with a WAITING terminal
beside it. -/
theorem witness_outage : ∀ st ∈ [SectorState.clear, .recovering],
    let log : List LossEntry := [{ slot := 45, frame := 6058 }, { slot := 45, frame := 6059 }, { slot := 45, frame := 6060 }]
    let r := walking { four st with queue := [45], lossLog := log } missed
    let s := (spot 4 r 44 { one .fading 2 with missRun := 2 }).setTerm 45 (one .waiting)
    s.WalksTo 4 (flight 6060 [missed]) missed 44 ∧ (s.term 44).state = .fading ∧ s.sec 4 = r
      ∧ r.config.lossLimit ≤ (s.term 44).missRun + 1 ∧ s.activeBank = some rainBank ∧ r.working ≠ none
      ∧ (r.lossLog.filter fun x => decide (((6060 : FrameNo) - x.frame).toNat < r.config.outageWindow)) = log
      ∧ r.config.outageCount ≤ (log ++ [({ slot := 44, frame := 6060 } : LossEntry)]).length ∧ r.state = st
      ∧ (∀ i, s.belongs 4 i = true → (s.term i).owed = {}) ∧ s.belongs 4 45 = true ∧ (s.term 45).state = .waiting := by
  intro st hst
  have hw : (spot 4 (walking { four st with
      queue := [45], lossLog := [{ slot := 45, frame := 6058 }, { slot := 45, frame := 6059 }, { slot := 45, frame := 6060 }] }
      missed) 44 { one .fading 2 with missRun := 2 }).WalksTo 4 (flight 6060 [missed]) missed 44 :=
    walks (fun r => { r with
      queue := [45], lossLog := [{ slot := 45, frame := 6058 }, { slot := 45, frame := 6059 }, { slot := 45, frame := 6060 }] })
      rfl rfl rfl (by decide)
  refine ⟨⟨?_, rfl, ?_, ?_⟩, ?_, ?_, ?_, rfl, ?_, ?_, ?_, ?_, fun i _ => ?_, ?_, ?_⟩
  · exact hw.flight
  · exact hw.paired
  · simp [State.belongs, State.setTerm_term, spot_term, one]
  case refine_11 =>
    simp only [State.setTerm_term, spot_term]
    split <;> [skip; split] <;> simp [one]
  all_goals
    simp only [List.mem_cons, List.not_mem_nil, or_false] at hst
    rcases hst with rfl | rfl <;>
      simp [State.setTerm_term, spot_term, spot_sec, walking, four, one, State.belongs, SectorRec.working]

/-- `RangingIsJudged`: a success of an ordinary member and of a lead, a burst not received, and a burst below drop(0). -/
theorem witness_ranging : ∀ x ∈ ([(.clear, none, burst 0x2A1 .ranging 16 4), (.outage, some 44, burst 0x2A1 .ranging 16 4),
      (.clear, none, { burst 0x2A1 .ranging 0 0 with received := false }), (.clear, none, burst 0x2A1 .ranging 15 0)] :
      List (SectorState × Option Slot × Burst)),
    let d := x.2.2
    let t := { one .ranging with roundCount := 2, expectedBurst := some 6060 }
    let s := spot 4 (walking { four x.1 with lead := x.2.1 } d) 44 t
    s.WalksTo 4 (flight 6060 [d]) d 44 ∧ d.kind = .ranging ∧ (s.term 44).state = .ranging
      ∧ (s.term 44).expectedBurst = some (flight 6060 [d]).frame.number ∧ (s.sec 4).controlQueue = []
      ∧ (s.term 44).filtered = none ∧ (s.term 44).history = []
      ∧ (s.term 44).roundCount + 1 < (s.sec 4).config.rangingRounds ∧ (s.sec 4).lead = x.2.1 ∧ (s.sec 4).state = x.1
      ∧ s.bank (flight 6060 [d]).held = rainBank
      ∧ (d.received = true ∧ d.timing.toInt.natAbs ≤ ({} : SectorConfig).timingTolerance
          ∧ rainBank.drop 0 ≤ min d.snr.toNat 200
        ∨ d.received = false ∨ min d.snr.toNat 200 < rainBank.drop 0) := by
  intro x hx
  have hd : x.2.2.address = 0x2A1 ∧ x.2.2.kind = .ranging := by
    revert x
    decide
  refine ⟨walks (fun r => { r with lead := x.2.1 }) rfl hd.1 rfl (by simp [one]), hd.2, ?_, ?_, ?_, ?_, ?_, ?_, ?_, ?_, rfl, ?_⟩
  · rw [spot_term]; rfl
  · rw [spot_term]; rfl
  · rw [spot_sec]; rfl
  · rw [spot_term]; rfl
  · rw [spot_term]; rfl
  · simp [spot_term, spot_sec, walking, four]
  · rw [spot_sec]; rfl
  · rw [spot_sec]; rfl
  · revert x
    decide +kernel

/-- The expected pattern of 8 blocks with a seed. -/
def patternOf (seed : Nat) : List Byte :=
  ((List.range 8).map fun i => (List.range 16).map fun b => BitVec.ofNat 8 (seed + 29 * i + 7 * b)).flatten

/-- `VerificationIsCompared`: a payload of exactly the pattern, and one of six of its blocks, with two missing. The seed is that
of slot 44 with attempt count 1 and start frame 6109: (1628 + 11 + 221) mod 256 = 68. -/
theorem witness_verification : ∀ p ∈ [patternOf 68, (patternOf 68).take 96],
    let t := { one .verifying with attemptCount := 1, expectedBurst := some 6060, verification := { startFrame := 6109 } }
    let d := burst 0x2A1 .verify 30 0 p
    let s := spot 4 (walking { four .clear with window := [44] } d) 44 t
    s.WalksTo 4 (flight 6060 [d]) d 44 ∧ d.kind = .verify ∧ d.received = true ∧ (s.term 44).state = .verifying
      ∧ (s.term 44).expectedBurst = some (flight 6060 [d]).frame.number ∧ s.activeBank = some rainBank
      ∧ (s.sec 4).lead ≠ some 44 ∧ 44 ∉ (s.sec 4).queue ∧ (flight 6060 [d]).swept = []
      ∧ (37 * 44 + 11 * (s.term 44).attemptCount + (s.term 44).verification.startFrame.toNat % 256) % 256 = 68
      ∧ (d.payload = patternOf 68 ++ [] ∨ (s.sec 4).config.verifyTolerance < (failingBlocks 68 d.payload 8).length)
      ∧ min ((s.term 44).attemptCount + 1) 15 < (s.sec 4).config.attemptLimit := by
  intro p hp
  refine ⟨walks (fun r => { r with window := [44] }) rfl rfl rfl (by simp [one]), rfl, rfl, ?_, ?_, rfl, ?_, ?_, rfl, ?_, ?_, ?_⟩
  · rw [spot_term]; rfl
  · rw [spot_term]; rfl
  · simp [spot_sec, walking, four]
  · simp [spot_sec, walking, four]
  · rw [spot_term]; rfl
  · rw [spot_sec]
    have h : ∀ q ∈ [patternOf 68, (patternOf 68).take 96], q = patternOf 68 ++ [] ∨ 1 < (failingBlocks 68 q 8).length := by
      decide +kernel
    exact h p hp
  · simp [spot_term, spot_sec, walking, four]

/-- `VerificationIsCompared`: a payload of seven of the eight blocks of the pattern is DEGRADED with the default tolerance of 1. -/
theorem witness_degraded :
    let n := (failingBlocks 68 ((patternOf 68).take 112) ({} : SectorConfig).verifyBlocks).length
    1 ≤ n ∧ n ≤ ({} : SectorConfig).verifyTolerance := by decide +kernel

/-- The sweep stands at slot 44 of sector 4. -/
theorem sweeps {e : Evaluation} {r : SectorRec} {t : Terminal} (hr : r.evaluation = some e) (he : e.frame.bursts = [])
    (hs : e.swept = []) (hw : r.window = [44]) (ht : t.sector = 4) (hne : t.state ≠ .empty) :
    (spot 4 r 44 t).SweepsTo 4 e 44 t.state where
  flight := by simpa [spot_sec] using hr
  walked := by simp [he]
  turn := ⟨[], [], by simpa [spot_sec] using hw, by simp, by simp [hs]⟩
  home := (spot_belongs 4 4 _ 44 44 t).2 ⟨rfl, hne, ht⟩
  member := by simp [spot_term]

/-- Sector 4 with slot 44 in its window and an evaluation of frame 6060 that has walked its descriptors. -/
def sweeping (st : SectorState) : SectorRec := { four st with window := [44], evaluation := some (flight 6060 []) }

/-- `SweepJudgesAMember`: a member without an expected frame, one 15 frames ahead, one due and judged or not, and one the frame
is past, by 1 and by 65520. -/
theorem witness_sweep : ∀ st ∈ [TermState.ranging, .verifying],
    (let s := spot 4 (sweeping .clear) 44 (one st);
      s.SweepsTo 4 (flight 6060 []) 44 st ∧ (s.term 44).expectedBurst = none)
      ∧ (∀ due, due ∈ [6075, 6060, 6059, 6076] →
        let s := spot 4 (sweeping .clear) 44 { one st with expectedBurst := some due }
        s.SweepsTo 4 (flight 6060 []) 44 st ∧ (s.term 44).expectedBurst = some due ∧ (s.sec 4).controlQueue = []
          ∧ (s.term 44).roundCount + 1 < (s.sec 4).config.rangingRounds ∧ 44 ∉ (flight 6060 []).handed)
      ∧ ((6060 : FrameNo) - 6075).toNat = 65521 ∧ ((6060 : FrameNo) - 6060).toNat = 0 ∧ ((6060 : FrameNo) - 6059).toNat = 1
      ∧ ((6060 : FrameNo) - 6076).toNat = 65520 := by
  intro st hst
  have hne : st ≠ .empty := by
    revert st
    decide
  refine ⟨⟨sweeps rfl rfl rfl rfl rfl hne, by simp [spot_term, one]⟩, fun due _ => ⟨?_, ?_, ?_, ?_, by decide⟩, by decide⟩
  · exact sweeps (t := { one st with expectedBurst := some due }) rfl rfl rfl rfl rfl hne
  · simp [spot_term]
  · simp [spot_sec, sweeping, four]
  · simp [spot_sec, spot_term, sweeping, four, one]

/-- `AttemptFailureEndsTheAttempt`: the last no-show and a missing verification burst; below attempt_limit, at it, and as the
lead of an OUTAGE sector. -/
theorem witness_attempt : ∀ st ∈ [TermState.ranging, .verifying], ∀ n ∈ [4, 5],
    ∀ x ∈ [(SectorState.clear, (none : Option Slot)), (.outage, some 44)],
    let r := { sweeping x.1 with lead := x.2 }
    let t := { one st with expectedBurst := some 6060, roundCount := 3, attemptCount := n }
    let s := spot 4 r 44 t
    s.sec 4 = r ∧ (s.term 44).expectedBurst = some (flight 6060 []).frame.number ∧ 44 ∉ (flight 6060 []).handed
      ∧ 44 ∉ r.queue ∧ s.SweepsTo 4 (flight 6060 []) 44 st ∧ r.config.rangingRounds ≤ (s.term 44).roundCount + 1
      ∧ (n = 4 ∧ min ((s.term 44).attemptCount + 1) 15 < r.config.attemptLimit
        ∨ n = 5 ∧ r.config.attemptLimit ≤ min ((s.term 44).attemptCount + 1) 15)
      ∧ (∀ i ∈ r.controlQueue, i.slot ≠ 44) ∧ r.leadFailures + 1 < r.config.probeRotate
      ∧ (r.lead ≠ some 44 ∨ r.lead = some 44 ∧ r.state = .outage) := by
  intro st hst n hn x hx
  have hne : st ≠ .empty := by
    revert st
    decide
  refine ⟨by simp [spot_sec], by simp [spot_term, flight], by decide, by simp [sweeping, four], ?_, ?_, ?_, ?_, ?_, ?_⟩
  · exact sweeps (t := { one st with expectedBurst := some 6060, roundCount := 3, attemptCount := n }) rfl rfl rfl rfl rfl hne
  · simp [spot_term, sweeping, four]
  · have h : ∀ m ∈ [4, 5], m = 4 ∧ min (m + 1) 15 < 6 ∨ m = 5 ∧ 6 ≤ min (m + 1) 15 := by decide
    simpa [spot_term, sweeping, four] using h n hn
  · simp [sweeping, four]
  · simp [sweeping, four]
  · revert x
    decide

/-- A lead that fails its attempt while slot 45 is QUIET beside it, marked as probed or not. -/
def rotating (probed : Bool) : State :=
  (spot 4 { sweeping .outage with lead := some 44, leadFailures := 2 } 44
    { one .ranging with expectedBurst := some 6060, roundCount := 3, lossF := some 100 }).setTerm 45
    { one .quiet with probed := probed, lossF := some 200 }

theorem rotating_term (p : Bool) (i : Slot) : (rotating p).term i =
    if i = 45 then { one .quiet with probed := p, lossF := some 200 }
    else if i = 44 then { one .ranging with expectedBurst := some 6060, roundCount := 3, lossF := some 100 } else {} := by
  rw [rotating, State.setTerm_term, spot_term]
  simp only [eq_comm]

theorem rotating_belongs (p : Bool) (i : Slot) : (rotating p).belongs 4 i = true ↔ i = 44 ∨ i = 45 := by
  unfold State.belongs
  rw [rotating_term]
  split
  · simp_all [one]
  · split <;> simp_all [one]

/-- `AttemptFailureEndsTheAttempt`: the failure that reaches probe_rotate, with an unmarked QUIET terminal, and with every other one
marked; the lead's own failure reaches it with the last no-show. -/
theorem witness_rotation :
    (∀ p, let s := rotating p
      let r := { sweeping .outage with lead := some 44, leadFailures := 2 }
      s.sec 4 = r ∧ s.SweepsTo 4 (flight 6060 []) 44 .ranging ∧ (s.term 44).expectedBurst = some 6060
        ∧ r.config.rangingRounds ≤ (s.term 44).roundCount + 1 ∧ r.config.probeRotate ≤ r.leadFailures + 1 ∧ r.state = .outage
        ∧ (s.term 44).leadRank < (s.term 45).leadRank ∧ (s.term 45).state = .quiet)
      ∧ (rotating false).NextLead 4 44 45
      ∧ ∀ i, (rotating true).belongs 4 i = true → i ≠ 44 → ((rotating true).term i).state = .quiet →
          ((rotating true).term i).probed = true := by
  have h44 : ∀ p, (rotating p).term 44 = { one .ranging with expectedBurst := some 6060, roundCount := 3, lossF := some 100 } :=
    fun p => rotating_term p 44
  have h45 : ∀ p, (rotating p).term 45 = { one .quiet with probed := p, lossF := some 200 } := fun p =>
    rotating_term p 45
  have hr : ∀ p, (rotating p).sec 4 = { sweeping .outage with lead := some 44, leadFailures := 2 } := fun p => by
    simp [rotating, spot_sec]
  refine ⟨fun p => ⟨hr p, ⟨by rw [hr]; rfl, by decide, ⟨[], [], by rw [hr]; rfl, by simp, by decide⟩,
    (rotating_belongs p 44).2 (.inl rfl), by rw [h44]; rfl⟩, by rw [h44], by rw [h44]; decide, by decide, rfl, ?_, by rw [h45]; rfl⟩,
    ⟨(rotating_belongs _ 45).2 (.inr rfl), by decide, by rw [h45]; rfl, by rw [h45], ?_⟩, ?_⟩
  · rw [h44, h45]; cases p <;> decide
  · intro i h1 h2 _ _ h3
    rcases (rotating_belongs _ i).1 h1 with rfl | rfl
    · exact absurd rfl h2
    · exact absurd rfl h3
  · intro i h1 h2 _
    rcases (rotating_belongs _ i).1 h1 with rfl | rfl
    · exact absurd rfl h2
    · rw [h45]

/-- `EvaluationCompletes`: the evaluation has walked and swept everything; alone, with a waiting frame, and with a suspend
pending in CLEAR and in BLIND. -/
theorem witness_completion :
    (let r := { sweeping .clear with window := [] };
      r.evaluation = some (flight 6060 []) ∧ (flight 6060 []).frame.bursts.length ≤ (flight 6060 []).walked
        ∧ (∀ k ∈ r.window, k ∈ (flight 6060 []).swept) ∧ r.suspendPending = false ∧ r.waitingBank = none)
      ∧ (let r := { sweeping .clear with window := [], waitingBank := some { number := 6061, bursts := [] } }
        r.suspendPending = false ∧ r.waitingBank = some { number := 6061, bursts := [] } ∧ running.ladder.active = some 0)
      ∧ (let r := { sweeping .clear with window := [], suspendPending := true }
        r.suspendPending = true ∧ r.state = WorkState.clear.toSector)
      ∧ (let r := { sweeping .blind with window := [], suspendPending := true, prior := some .outage }
        r.state = .blind ∧ r.prior = some .outage) := by decide +kernel

/-- `FilterFollowsTheSample`, `SlopeAndPrediction`, `PowerAndTimingSteps`: an F at its bound, a rise, a history of 8, and a step at
a half that is rounded away from zero. -/
theorem witness_arithmetic :
    (({ filtered := some 800 } : Terminal).filtered = some 800 ∧ 800 ≤ 800) ∧ ({} : Terminal).filtered = none
      ∧ slope [0, 1, 2, 3, 4, 5, 6, 7] = some 1 ∧ slope [] = none ∧ 0 < ({} : SectorConfig).fadeHorizon
      ∧ ((8 * (2 : Int) - 12).natAbs = 4 ∧ (12 : Int).natAbs < (8 * (2 : Int)).natAbs)
      ∧ (8 * (2 : Int) - 13).natAbs ≤ 4 := by decide

/-- `ComparisonCountsFailedBlocks`: no failed block; one missing block of one; and one block that differs at byte 4. -/
theorem witness_comparison :
    (let fails : Nat → Prop := fun _ => False;
      ([] : List Nat).Pairwise (· < ·) ∧ ∀ i, i ∈ ([] : List Nat) ↔ i < 0 ∧ fails i)
      ∧ (([] : List Byte).length < 16 * (0 + 1))
      ∧ (let p := ((patternOf 248).take 16).set 4 0
        16 * (0 + 1) ≤ p.length ∧ p[16 * 0 + 4]? = some (0 : Byte) ∧ (0 : Byte) ≠ BitVec.ofNat 8 ((248 + 29 * 0 + 7 * 4) % 256)
          ∧ ∀ m, m < 4 → p[16 * 0 + m]? = some (BitVec.ofNat 8 ((248 + 29 * 0 + 7 * m) % 256))) := by
  refine ⟨⟨List.Pairwise.nil, by simp⟩, by decide, by decide +kernel⟩

/-! ## Witnesses: requests -/

/-- A request for slot 44, and one for sector 4. -/
theorem for_slot : ForSlot (request [0, 44]) 44 := ⟨rfl, [], rfl⟩

theorem for_sector : ForSector (request [4]) 4 := ⟨rfl, [], rfl⟩

/-- `ReadFaultLatchShowsTheLatch`, in BYPASS mode too. -/
theorem witness_latch :
    running.mode ≠ .starting ∧ ({ State.reset with mode := .bypass } : State).mode ≠ .starting ∧ (request [1]).length = 1
      ∧ (request [1]).bytes = 1 :: [] ∧ (2 : Byte) ≠ 0 ∧ (2 : Byte) ≠ 1 := by decide

/-- `ProvisionFillsTheSlot`: an EMPTY slot, the highest address and the last place of the sector. -/
theorem witness_provision :
    let s := spot 4 { four .clear with population := 63 } 44 (one .inService)
    let r := request (bytesOf16 319 ++ [4] ++ bytes16 (BitVec.setWidth 16 (0xFFE : BitVec 12)) ++ [3, 15])
    s.mode = .running ∧ r.length = 7
      ∧ r.bytes = bytesOf16 (319 : Slot).val ++ [byteOf (4 : Sector).val] ++ bytes16 (BitVec.setWidth 16 (0xFFE : BitVec 12))
          ++ [byteOf (3 : Fin 4).val, byteOf 15] ++ []
      ∧ (0xFFE : BitVec 12).toNat = 4094 ∧ (s.term 319).state = .empty ∧ (s.sec 4).population = 63
      ∧ ∀ x ∈ (s.sec 4).addressMap, x.1 ≠ 0xFFE := by
  refine ⟨rfl, by decide +kernel, by decide +kernel, by decide, ?_, ?_, ?_⟩
  · simp [spot_term]
  · simp [spot_sec]
  · simp [spot_sec, four]

/-- Two QUIET terminals of an OUTAGE sector, of which slot 44 is the lead. -/
def pair : State :=
  (spot 4 { four .outage with lead := some 44, population := 2 } 44 (one .quiet)).setTerm 45 (one .quiet)

theorem pair_term (k : Slot) : pair.term k = if k = 45 then one .quiet else if k = 44 then one .quiet else {} := by
  rw [pair, State.setTerm_term, spot_term]
  simp only [eq_comm]

theorem pair_belongs (k : Slot) : pair.belongs 4 k = true ↔ k = 44 ∨ k = 45 := by
  unfold State.belongs
  rw [pair_term]
  split
  · simp_all [one]
  · split <;> simp_all [one]

/-- `RemoveEmptiesTheSlot`, `HoldAndReleaseTerminal`: the departure of a lead, of another terminal, and an EMPTY slot. -/
theorem witness_departure :
    pair.mode = .running ∧ ForSlot (request [0, 44]) 44 ∧ pair.belongs 4 44 = true ∧ (pair.term 44).state ≠ .held
      ∧ (∀ i, pair.belongs 4 i = true → i ≠ 44 → (pair.term i).owed = {}) ∧ (pair.sec 4).lead = some 44
      ∧ (pair.sec 4).state = .outage ∧ pair.NextLead 4 44 45
      ∧ ((spot 4 (four .clear) 44 (one .inService)).sec 4).lead ≠ some 44 ∧ (running.term 44).state = .empty := by
  refine ⟨rfl, for_slot, (pair_belongs 44).2 (.inl rfl), by rw [pair_term]; decide, fun i _ _ => ?_, ?_, ?_,
    ⟨(pair_belongs 45).2 (.inr rfl), by decide, by rw [pair_term]; decide, by rw [pair_term]; decide, ?_⟩, ?_, ?_⟩
  · rw [pair_term]
    by_cases h : i = 45
    · simp [h, one]
    · by_cases h' : i = 44 <;> simp [h, h', one]
  · rw [pair, State.setTerm_sec, spot_sec]; rfl
  · rw [pair, State.setTerm_sec, spot_sec]; rfl
  · intro i h1 h2 _ _ h3
    rcases (pair_belongs i).1 h1 with rfl | rfl
    · exact absurd rfl h2
    · exact absurd rfl h3
  · rw [spot_sec]; decide
  · rw [show running.term 44 = {} from State.reset_term 44]

/-- `HoldAndReleaseTerminal`: a HELD terminal, released into a queue between classes, and into an outage. -/
theorem witness_release :
    (let s := spot 4 (four .clear) 44 (one .held);
      (s.term 44).state = .held ∧ (s.sec 4).InService ∧ s.belongs 4 44 = true ∧ (s.sec 4).working ≠ some .outage
        ∧ (s.sec 4).queue = [] ++ [])
      ∧ ((spot 4 (four .outage) 44 (one .held)).sec 4).working = some .outage := by
  refine ⟨⟨?_, ?_, (spot_belongs 4 4 _ 44 44 _).2 ⟨rfl, by decide, rfl⟩, ?_, ?_⟩, ?_⟩
  · rw [spot_term]; rfl
  · rw [spot_sec]; exact ⟨by decide, by decide⟩
  · rw [spot_sec]; decide
  · rw [spot_sec]; rfl
  · rw [spot_sec]; rfl

/-- `ReadTerminalShowsTheRecord`, `ClearHealthClearsStickyFields`, `OwnersRefuse`: the lowest slot number out of range. -/
theorem witness_slot_range :
    (request [0x01, 0x40]).length = 2 ∧ (request [0x01, 0x40]).bytes = 0x01 :: 0x40 :: []
      ∧ 320 = 256 * (0x01 : Byte).toNat + (0x40 : Byte).toNat ∧ (request [12]).bytes = 12 :: [] ∧ 12 = (12 : Byte).toNat := by
  decide

/-- `SetSectorReplacesTheConfiguration`: the defaults, and the defaults with verify_tolerance above verify_blocks. -/
theorem witness_set_sector :
    (let c : SectorConfig := {};
      let r := request (byteOf (4 : Sector).val :: c.wire ++ [])
      r.length = 34 ∧ r.bytes = byteOf (4 : Sector).val :: c.wire ++ [] ∧ c.Fits ∧ c.Right)
      ∧ (let c : SectorConfig := { verifyTolerance := 9 }; c.Fits ∧ ¬c.Right) := by
  refine ⟨⟨by decide, by decide, ⟨by decide, by decide⟩, ?_⟩, ⟨by decide, by decide⟩, fun h => absurd h.agree (by decide)⟩
  constructor <;> decide

/-- `SectorReadsShowTheSector`: a loss log of 64 entries, and the sent frames it names. -/
theorem witness_sector_reads :
    ForSector (request [4]) 4 ∧ (List.replicate 64 ({ slot := 1, frame := 2 } : LossEntry)).length ≤ 64
      ∧ ∃ sent : Byte → List Byte → State, ∀ code results,
        (results.length ≤ 192 → sent code results = running.emit (soleReply code 7 0x00 results))
          ∧ (192 < results.length → results.length ≤ 384 → sent code results =
            State.emit (running.emit ([0x93, 0x03, 0xFF, 0x00, 0x00, code] ++ bytes16 7 ++ [0x00, 0x00, 0x00, 192] ++ results.take 192))
              ([0x93, 0x03, 0xFF, 0x00, 0x00, code] ++ bytes16 7 ++ [0x00, 0x01, 0x01, byteOf (results.length - 192)]
                ++ results.drop 192)) := by
  refine ⟨for_sector, by decide, fun code results => if results.length ≤ 192 then running.emit (soleReply code 7 0x00 results)
    else State.emit (running.emit ([0x93, 0x03, 0xFF, 0x00, 0x00, code] ++ bytes16 7 ++ [0x00, 0x00, 0x00, 192] ++ results.take 192))
      ([0x93, 0x03, 0xFF, 0x00, 0x00, code] ++ bytes16 7 ++ [0x00, 0x01, 0x01, byteOf (results.length - 192)]
        ++ results.drop 192), fun code results => ⟨fun h => if_pos h, fun h _ => if_neg (by omega)⟩⟩

/-- `EnableAndDisableSector`, `SuspendAndResumeSector`, `ResetSectorRestartsReEntry`, `ForceOutageSilencesTheSector`: a sector for each
clause. -/
theorem witness_sector_requests :
    ForSector (request [4]) 4 ∧ running.ladder.active ≠ none
      ∧ (four .disabled).evaluation = none
      ∧ (let s := spot 4 (four .blind) 44 (one .held)
        (s.sec 4).state ≠ .disabled ∧ (s.sec 4).suspendPending = false
          ∧ ∀ k, s.belongs 4 k = true → (s.term k).state = .held)
      ∧ ((four .outage).InService ∧ (four .outage).suspendPending = false ∧ (four .outage).state = WorkState.outage.toSector)
      ∧ (let r := { four .blind with prior := some .clear }; r.InService ∧ r.state = .blind ∧ r.prior = some .clear)
      ∧ (sweeping .clear).evaluation ≠ none
      ∧ (let r := { four .suspended with prior := some .recovering }; r.state = .suspended ∧ r.prior = some .recovering)
      ∧ (let s := spot 4 { four .recovering with window := [44] } 44 (one .verifying)
        (s.sec 4).state = .recovering ∧ ∀ k, s.belongs 4 k = true → (s.term k).owed = {}) := by
  refine ⟨for_sector, by decide, rfl, ⟨?_, ?_, fun k hk => ?_⟩, ⟨⟨by decide, by decide⟩, rfl, rfl⟩,
    ⟨⟨by decide, by decide⟩, rfl, rfl⟩, by decide, ⟨rfl, rfl⟩, ?_, fun k _ => spot_owed 4 _ 44 k _ rfl⟩
  · rw [spot_sec]; decide
  · rw [spot_sec]; rfl
  · rw [((spot_belongs 4 4 _ 44 k _).1 hk).1, spot_term]; rfl
  · rw [spot_sec]; rfl

/-- `LoadLadderBlockStagesABlock`, `ReadLadderShowsABank`: the last block of the standby bank, a held standby bank, block 3,
bank 1 and bank 2. -/
theorem witness_ladder_requests :
    (let r := request (2 :: List.replicate 32 0x55);
      r.length = 33 ∧ r.bytes = 2 :: List.replicate 32 0x55 ++ [] ∧ (List.replicate 32 (0x55 : Byte)).length = 32)
      ∧ (running.ladder.active = none → (1 : Fin 2) = 0) ∧ (∀ a, running.ladder.active = some a → 1 ≠ a)
      ∧ (2 : Byte).toNat < 3 ∧ (running.bank 1).holds = 0
      ∧ 0 < (({ running with ladder := { running.ladder with banks := #v[rainBank, { holds := 1 }] } } : State).bank 1).holds
      ∧ 3 ≤ (3 : Byte).toNat ∧ (1 : Byte).toNat = (1 : Fin 2).val ∧ 2 ≤ (2 : Byte).toNat := by decide

/-- `ActivateLadderChecksAndClamps`: the image of 5-7 passes all six checks; an empty bank fails the first, a bank with a wrong CRC
the fifth, and a bank whose rung 1 has the drop of its rung 0 the sixth. -/
theorem witness_activation :
    (∀ c, 1 ≤ c → c ≤ 6 → (shorterSite.bank 1).Check shorterSite.ladder.staged c)
      ∧ ¬({} : LadderBank).Check (Vector.replicate 3 false) 1
      ∧ (let b := { rainBank with bytes := rainBank.bytes.set 8 0x77 }
        (∀ m, 1 ≤ m → m < 5 → b.Check #v[true, false, false] m) ∧ ¬b.Check #v[true, false, false] 5)
      ∧ (let b := bankOf [0x10, 0, 24, 16, 0x11, 48, 44, 16] 1
        (∀ c, 1 ≤ c → c ≤ 5 → b.Check #v[true, false, false] c) ∧ 1 < b.rungCount ∧ ¬b.RungRight 1 ∧ ∀ i, i < 1 → b.RungRight i) := by
  have hv : ∀ n, n < (shorterSite.bank 1).rungCount → (shorterSite.bank 1).RungRight n := by
    simp only [LadderBank.RungRight]
    decide +kernel
  refine ⟨fun c h1 h2 => ⟨fun _ => ?_, fun _ => ?_, fun _ => ?_, fun _ => ?_, fun _ => ?_, fun _ => hv⟩,
    fun h => absurd (h.signature rfl) (by decide +kernel),
    ⟨fun m h1 h2 => ⟨fun _ => ?_, fun _ => ?_, fun _ => ?_, fun _ => ?_, fun h => ?_, fun h => ?_⟩,
      fun h => absurd (h.crc rfl) (by decide +kernel)⟩,
    ⟨fun m h1 h2 => ⟨fun _ => ?_, fun _ => ?_, fun _ => ?_, fun _ => ?_, fun _ => ?_, fun h => ?_⟩, by decide +kernel, ?_, ?_⟩⟩
  all_goals first
    | omega
    | (simp only [LadderBank.RungRight]; decide +kernel)
    | decide +kernel

/-- `OwnersRefuse`: for each refusal a state that meets its hypotheses. -/
theorem witness_refusals :
    (running.mode = .running ∧ ∃ refused : Byte → Byte → Result,
        ∀ code status, refused code status = .next (running.emit (soleReply code (request []).tag status [])))
      ∧ (let r := request (12 :: List.replicate 33 0); r.length = 34 ∧ 34 ≤ r.bytes.length)
      ∧ (let r := request [0, 44, 4, 0x0F, 0xFF, 4, 16]
        r.length = 7 ∧ 4095 ≤ 256 * (0x0F : Byte).toNat + (0xFF : Byte).toNat ∧ 4 ≤ (4 : Byte).toNat ∧ 16 ≤ (16 : Byte).toNat)
      ∧ (let s := spot 4 (four .clear) 44 (one .inService)
        (s.term 44).state ≠ .empty ∧ (s.term 45).state = .empty ∧ (s.sec 4).population < 64
          ∧ ((0x2A1 : BitVec 12), (44 : Slot)) ∈ (s.sec 4).addressMap ∧ 1 ≤ (0x2A1 : BitVec 12).toNat)
      ∧ (running.term 44).state = .empty
      ∧ ((four .clear).state ≠ .disabled ∧ State.reset.ladder.active = none)
      ∧ ({ sweeping .disabled with window := [] }.evaluation ≠ none)
      ∧ (let r := { four .clear with suspendPending := true }; r.InService ∧ r.state ≠ .disabled ∧ r.suspendPending = true)
      ∧ (let s := spot 4 (four .clear) 44 (one .inService)
        s.belongs 4 44 = true ∧ (s.term 44).state ≠ .held)
      ∧ (¬(four .suspended).InService ∧ (four .blind).state ≠ .suspended ∧ (four .outage).state ≠ .clear
        ∧ (four .outage).state ≠ .recovering) := by
  refine ⟨⟨rfl, _, fun _ _ => rfl⟩, by decide, by decide, ⟨?_, ?_, ?_, ?_, by decide⟩, ?_, by decide, by decide,
    ⟨⟨by decide, by decide⟩, by decide, rfl⟩, ⟨(spot_belongs 4 4 _ 44 44 _).2 ⟨rfl, by decide, rfl⟩, ?_⟩,
    fun h => h.2 rfl, by decide, by decide, by decide⟩
  · rw [spot_term]; decide
  · rw [spot_term]; decide
  · rw [spot_sec]; decide
  · rw [spot_sec]; decide
  · rw [show running.term 44 = {} from State.reset_term 44]
  · rw [spot_term]; decide

end Sys2Proof.Tests
end

section
/-!
The frame path: what every step keeps of the ladder store, which way frames go, intake, the evaluation, and the requests that
turn a sector on and off. The proofs assemble the lemmas of the Laws files; what those lack stands before its first use.
-/

namespace Sys2Proof.Machine

variable {s t : State} {j : Sector} {k : Slot} {fr : Frame}

/-! ## What every step keeps of the ladder store (R13, R81, R85, R89) -/

/-- At rest no evaluation is in flight and no bank is held. -/
theorem holdsAgree_rest (h : s.AllAtRest) : s.HoldsAgree where
  counted i := by
    have hb : (s.bank i).holds = 0 := by simp [State.bank, h.ladder]
    have hn : s.holders i = 0 := by simp [holders_count, heldBy, h.secs]
    rw [hb, hn]
  waiting j hj := by simp [h.secs] at hj
  inactive _ j := by simp [h.secs]
  standby _ := by rw [h.ladder]

/-- A running part's command keeps the rungs on the ladder: while one is active every move keeps them, and a part that ends
without one had none before, so that only idle terminals stand in it. -/
theorem exec_rungsOnLadder {c : Instr} (hm : s.mode = .running) (hh : s.Homed) (ht : s.TableAgrees) (hH : s.HoldsAgree)
    (hR : s.RungsOnLadder) (hx : exec c s = .next t) : t.RungsOnLadder := by
  rcases exec_moves c hm hh ht hx with m | ⟨cause, rfl⟩
  · refine ⟨(rungsBelow_iff t).1 (rungsBelow_moves ht ((rungsBelow_iff s).2 hR.active) m), fun hn => ?_⟩
    have hs : s.ladder.active = none := by
      by_contra hne
      exact m.active hne hn
    exact idle_exec c hm hh ht hs (hH.inactive hs) (hR.inactive hs) hx hn
  · exact rungsOnLadder_rest (s.deviceReset_allAtRest cause)

theorem step_holdsAgree (ha : s.AtRest) (hh : s.Homed) (ht : s.TableAgrees) (hH : s.HoldsAgree) (hx : step s = .next t) :
    t.HoldsAgree :=
  step_keeps State.HoldsAgree (fun _ => holdsAgree_rest) (fun _ _ h => ⟨h.counted, h.waiting, h.inactive, h.standby⟩)
    (fun _ _ _ _ _ h m => holdsAgree_moves h m) ha hh ht hH hx

theorem step_rungsOnLadder (ha : s.AtRest) (hh : s.Homed) (ht : s.TableAgrees) (hH : s.HoldsAgree) (hR : s.RungsOnLadder)
    (hx : step s = .next t) : t.RungsOnLadder := by
  unfold step at hx
  split at hx
  · cases hx; exact hR
  · next c rest _ =>
    by_cases hm : s.mode = .running
    · exact exec_rungsOnLadder (s := { s with pending := rest }) hm hh
        ⟨ht.empty, ht.population, ht.limit, ht.paired, ht.once⟩ ⟨hH.counted, hH.waiting, hH.inactive, hH.standby⟩
        ⟨hR.active, hR.inactive⟩ hx
    · exact rungsOnLadder_rest (exec_atRest c (State.allAtRest (s := { s with pending := rest }) ha hm) hm hx)

/-- Settles O59: the holds by the moves a command can make, the rungs by those while a ladder is active and by the commands of
an idle part while none is. -/
theorem ladderStoreKept : Obligations.LadderStoreKept := fun _ _ ha hh ht hH hx =>
  ⟨step_holdsAgree ha hh ht hH hx, fun hR => step_rungsOnLadder ha hh ht hH hR hx⟩

/-! ## Downstream frames (R1, R2, R4, R152) -/

/-- The taking of a request by its function code is the command of that request. -/
theorem takeRequest_functionCode (f : RequestKind) (r : Request) (s : State) :
    takeRequest (functionCode f) r s = exec (commandOf f r) s := by
  cases f <;> rfl

theorem takeRequest_unknown {code : Byte} (h : code ∉ knownCodes) (r : Request) (s : State) :
    takeRequest code r s = exec (.unknownFunction code r) s := by
  unfold takeRequest
  rw [unknown_code h]
  rfl

/-- Settles O10: a frame with the management header is its request, and a shorter one is dropped. -/
theorem mgmtFrameTakesItsRequest : Obligations.MgmtFrameTakesItsRequest := by
  refine ⟨fun f sector hi lo tag len bytes s => ?_, fun code sector hi lo tag len bytes s hc => ?_, fun rest s hl => ?_⟩
  · rw [mgmt_frame, takeRequest_functionCode]
  · rw [mgmt_frame, takeRequest_unknown hc]
  · have hm : isMgmt (0x6C :: 0x02 :: rest) = true := by simp [isMgmt, byteAt]
    have hr : requestOf (0x6C :: 0x02 :: rest) = none := if_pos (by simp only [List.length_cons]; omega)
    simp only [exec, execDownstreamFrame, hm, hr, if_true]

/-- A sector frame has the marker, the class and the sector byte of its header, and at least 70 bytes (R2). -/
theorem sectorFrame_some (h : sectorFrame fr = some j) :
    70 ≤ fr.length ∧ ∃ rest, fr = 0x6C :: 0x01 :: byteOf j.val :: rest := by
  unfold sectorFrame at h
  split at h
  · next hc =>
    obtain ⟨hl, h0, h1⟩ := hc
    refine ⟨hl, ?_⟩
    rcases fr with _ | ⟨a, _ | ⟨b, _ | ⟨c, rest⟩⟩⟩
    iterate 3 · simp at hl
    obtain rfl : a = 0x6C := h0
    obtain rfl : b = 0x01 := h1
    obtain rfl : c = byteOf j.val := sectorOfByte_some h
    exact ⟨rest, rfl⟩
  · cases h

theorem sectorFrame_cons {rest : List Byte} (hl : 70 ≤ (0x6C :: 0x01 :: byteOf j.val :: rest : Frame).length) :
    sectorFrame (0x6C :: 0x01 :: byteOf j.val :: rest) = some j := by
  unfold sectorFrame
  rw [if_pos ⟨hl, rfl, rfl⟩]
  exact sectorOfByte_of j

theorem offers_iff : s.offers j = true ↔ s.mode = .running ∧ (s.sec j).InService := by
  simp only [State.offers, Bool.and_eq_true, beq_iff_eq, served_iff, SectorRec.InService]

/-- No frame leaves while the oldest one waits for its filling (R4). -/
theorem release_waits (h : s.HeadWaits) : s.release = s := by
  unfold State.release
  rcases ht : s.transit with _ | ⟨x, xs⟩
  · simp only [List.takeWhile_nil, List.dropWhile_nil, List.map_nil, List.append_nil]
    rw [← ht]
  · have hx : x.fill.isNone = false := by
      rw [Option.isNone_eq_false_iff, Option.isSome_iff_ne_none]
      exact h x (by rw [ht]; rfl)
    simp only [List.takeWhile_cons, List.dropWhile_cons, hx, Bool.false_eq_true, if_false, List.map_nil,
      List.append_nil]
    rw [← ht]

/-- A frame behind one that waits for its filling, or itself waiting for one, stays between the links (R4). -/
theorem forward_waits (o : Option Sector) (h : s.HeadWaits) (ho : s.transit = [] → o ≠ none) :
    s.forward fr o = { s with transit := s.transit ++ [{ frame := fr, fill := o }] } := by
  refine release_waits fun x hx => ?_
  rcases ht : s.transit with _ | ⟨y, ys⟩
  · rw [ht] at hx
    cases hx
    exact ho ht
  · rw [ht] at hx
    cases hx
    exact h _ (by rw [ht]; rfl)

/-- A frame for which nothing waits leaves at once (R4). -/
theorem forward_leaves (h : s.transit = []) : s.forward fr none = { s with radioOut := s.radioOut ++ [fr] } := by
  unfold State.forward
  rw [release_one (rest := []) (by rw [h]; rfl) (by simp)]
  rw [← h]

/-- A frame that is neither MGMT nor offered to a sector is forwarded untouched (R1, R2). -/
theorem downstream_forwards (hm : isMgmt fr = false) (h : ∀ j, sectorFrame fr = some j → s.offers j = false) :
    exec (.downstreamFrame fr) s = .next (s.forward fr none) := by
  simp only [exec, execDownstreamFrame, hm, Bool.false_eq_true, if_false]
  split
  · next j hj => rw [h j hj]; rfl
  · rfl

/-- A sector frame of a served sector makes its reactions due and waits for its filling (R2, R44). -/
theorem downstream_offers {rest : List Byte} (hfr : fr = 0x6C :: 0x01 :: byteOf j.val :: rest) (hl : 70 ≤ fr.length)
    (h : s.offers j = true) :
    exec (.downstreamFrame fr) s = .next ((s.offer j (frameNumber fr)).forward fr (some j)) := by
  subst hfr
  have hm : isMgmt (0x6C :: 0x01 :: byteOf j.val :: rest) = false := by simp [isMgmt, byteAt]
  simp only [exec, execDownstreamFrame, hm, sectorFrame_cons hl, h, if_true, Bool.false_eq_true, if_false]

/-- Settles O11: by what the head of the frames between the links waits for. -/
theorem downstreamFramesGoTheirWay : Obligations.DownstreamFramesGoTheirWay := by
  refine ⟨fun fr s hmgmt hsec => ?_, fun fr j rest s hfr hl hm hserv hw => ?_⟩
  · have hx := downstream_forwards (s := s) (notMgmt hmgmt) fun j hj => by
      obtain ⟨hl, rest, hfr⟩ := sectorFrame_some hj
      rw [Bool.eq_false_iff, Ne, offers_iff]
      rintro ⟨hm, hs⟩
      exact hsec j hm hs hl rest hfr
    refine ⟨fun ht => by rw [hx, forward_leaves ht], fun x xs ht hf => ?_⟩
    rw [hx, forward_waits none (fun y hy => ?_) (by simp [ht])]
    rw [ht] at hy
    cases hy
    exact hf
  · rw [downstream_offers hfr hl (offers_iff.2 ⟨hm, hserv⟩),
      forward_waits (s := s.offer j (frameNumber fr)) (some j) hw (fun _ => Option.some_ne_none j)]
    rfl

/-! ## Intake (R5 to R11) -/

theorem firstUnfit_some {i : Nat} (hi : i < nat8 fr 5) (hf : ∀ m, m < i → DescriptorFits fr m) (hn : ¬DescriptorFits fr i) :
    firstUnfit fr (nat8 fr 5) 0 (6 + 9 * nat8 fr 5) = some i := by
  obtain ⟨hsome, hnone⟩ := unfit_next fr (nat8 fr 5) 0 (6 + 9 * nat8 fr 5) (by simp)
  rcases hr : firstUnfit fr (nat8 fr 5) 0 (6 + 9 * nat8 fr 5) with _ | r
  · exact absurd (hnone hr i (Nat.zero_le i) (by omega)) hn
  · obtain ⟨-, -, hur, hbefore⟩ := hsome r hr
    have h1 : ¬i < r := fun h => hn (hbefore i (Nat.zero_le i) h)
    have h2 : ¬r < i := fun h => hur (hf r h)
    rw [show r = i by omega]

theorem firstUnfit_none (h : ∀ m, m < nat8 fr 5 → DescriptorFits fr m) :
    firstUnfit fr (nat8 fr 5) 0 (6 + 9 * nat8 fr 5) = none := by
  obtain ⟨hsome, -⟩ := unfit_next fr (nat8 fr 5) 0 (6 + 9 * nat8 fr 5) (by simp)
  rcases hr : firstUnfit fr (nat8 fr 5) 0 (6 + 9 * nat8 fr 5) with _ | r
  · rfl
  · obtain ⟨-, hlt, hur, -⟩ := hsome r hr
    exact absurd (h r (by omega)) hur

theorem firstWrongLength_some {n i : Nat} (hi : i < n) (hr : ∀ m, m < i → DescriptorRight fr m)
    (hn : ¬DescriptorRight fr i) : firstWrongLength fr n = some i := by
  rw [← right_iff, Bool.not_eq_true] at hn
  exact List.find?_range_eq_some.2
    ⟨by rw [hn]; rfl, List.mem_range.2 hi, fun m hm => by rw [(right_iff fr m).2 (hr m hm)]; rfl⟩

theorem firstWrongLength_none {n : Nat} (h : ∀ m, m < n → DescriptorRight fr m) : firstWrongLength fr n = none :=
  List.find?_range_eq_none.2 fun m hm => by rw [(right_iff fr m).2 (h m hm)]; rfl

/-- Settles O21: check 3 by the first descriptor that does not fit, check 4 by the first of a wrong length. -/
theorem layoutChecksFindTheFirstFault : Obligations.LayoutChecksFindTheFirstFault := by
  intro fr n hn
  obtain rfl : n = nat8 fr 5 := hn
  unfold layoutFault
  refine ⟨fun h => if_pos h, fun hn i hi hf hu => ?_, fun hn hf => ⟨fun i hi hr hw => ?_, fun hr => ?_⟩⟩
  · simp only [Config.burstLimit, if_neg (Nat.not_lt.2 hn), firstUnfit_some hi hf hu]
  · simp only [Config.burstLimit, if_neg (Nat.not_lt.2 hn), firstUnfit_none hf, firstWrongLength_some hi hr hw]
  · simp only [Config.burstLimit, if_neg (Nat.not_lt.2 hn), firstUnfit_none hf, firstWrongLength_none hr]

theorem markerFault_iff : markerFault fr = true ↔ fr.length < 6 ∨ byteAt fr 0 ≠ 0x93 ∨ byteAt fr 1 ≠ 0x01 := by
  simp only [markerFault, Bool.or_eq_true, decide_eq_true_eq, bne_iff_ne, or_assoc]

/-- Outside RUNNING mode no frame is checked (R5). -/
theorem intake_off (h : s.mode ≠ .running) : s.intake fr = s := by
  unfold State.intake
  split
  · rfl
  · rfl
  · next hm => exact absurd hm h

theorem intake_marker (hm : s.mode = .running) (h : markerFault fr = true) :
    s.intake fr = s.offerFault (faultFrom fr .marker none) := by
  simp only [State.intake, hm, h, if_true]

theorem intake_sector (hm : s.mode = .running) (h : markerFault fr = false) (hs : sectorOfByte (byteAt fr 2) = none) :
    s.intake fr = s.offerFault (faultFrom fr .sector none) := by
  simp only [State.intake, hm, h, hs, Bool.false_eq_true, if_false]

/-- A frame of a DISABLED or SUSPENDED sector is not checked further (R5). -/
theorem intake_unserved (hm : s.mode = .running) (hu : UpstreamOf fr j) (hs : ¬(s.sec j).InService) : s.intake fr = s := by
  obtain ⟨h1, h2⟩ := upstream_header hu
  have hserved : (s.sec j).state.served = false := Bool.eq_false_iff.2 fun h => hs ((served_iff _).1 h)
  simp only [State.intake, hm, h1, h2, hserved, Bool.false_eq_true, if_false]

theorem intake_rejects {f : FaultKind × Option Nat} (hm : s.mode = .running) (hu : UpstreamOf fr j)
    (hs : (s.sec j).InService) (hf : s.intakeFault j fr = some f) : s.intake fr = s.offerFault (faultFrom fr f.1 f.2) := by
  obtain ⟨h1, h2⟩ := upstream_header hu
  have hserved : (s.sec j).state.served = true := (served_iff _).2 hs
  simp only [State.intake, hm, h1, h2, hserved, hf, Bool.false_eq_true, if_false, if_true]

/-- The intake reference is the number of the latest frame the sector still knows (R7). -/
theorem reference_eq {r : SectorRec} {n : FrameNo} (hb : r.state ≠ .blind)
    (h : (∃ w, r.waitingBank = some w ∧ n = w.number)
      ∨ r.waitingBank = none ∧ ((∃ e, r.evaluation = some e ∧ n = e.frame.number)
        ∨ r.evaluation = none ∧ r.lastEvaluated = some n)) : r.reference = some n := by
  unfold SectorRec.reference
  rw [if_neg hb]
  rcases h with ⟨w, hw, rfl⟩ | ⟨hw, ⟨e, he, rfl⟩ | ⟨he, hn⟩⟩
  · rw [hw]
  · rw [hw, he]
  · rw [hw, he, ← hn]

/-- Settles O22: by the checks in their order; each stops at the offer of its fault. -/
theorem faultsLockTheLatch : Obligations.FaultsLockTheLatch := by
  intro fr b s locked hn hlocked
  have hforwards (h : (s.emit fr).intake fr = s.emit fr) :
      exec (.upstreamFrame fr b) s = .next { s with controllerOut := s.controllerOut ++ [fr] } := intake_none fr b hn h hn
  have hlocks {kind i} (h : (s.emit fr).intake fr = (s.emit fr).offerFault (faultFrom fr kind i)) :
      exec (.upstreamFrame fr b) s = .next (locked kind i) := by
    rw [offerFault_getD] at h
    rw [hlocked]
    exact intake_none fr b hn h hn
  refine ⟨fun hm => hforwards (intake_off hm), fun hm hf => hlocks (intake_marker hm (markerFault_iff.2 hf)),
    fun hm h6 h0 h1 h12 => hlocks (intake_sector hm ?_ (dif_neg (Nat.not_lt.2 h12))), fun j hm hu => ⟨fun hs => ?_, ?_, ?_⟩⟩
  · rw [← Bool.not_eq_true, markerFault_iff]
    rintro (h | h | h)
    · omega
    · exact h h0
    · exact h h1
  · exact hforwards (intake_unserved hm hu hs)
  · intro kind i hs hl
    refine hlocks (intake_rejects (f := (kind, i)) hm hu hs ?_)
    unfold State.intakeFault
    rw [hl]
  · intro n hs hb hl hr hd
    refine hlocks (intake_rejects (f := (.stale, none)) hm hu hs ?_)
    have hstale : isStale ((s.emit fr).sec j).reference (frameNumber fr) = true := by
      rw [State.emit_sec, reference_eq hb hr]
      exact decide_eq_true hd
    unfold State.intakeFault
    rw [hl, hstale]
    rfl

/-! ## The frame that passes intake (R7, R9 to R11, R13, R56) -/

theorem faultFrom_upstream (hu : UpstreamOf fr j) (kind : FaultKind) (burst : Option Nat) :
    faultFrom fr kind burst = { kind := kind, sector := byteOf j.val, frame := frameNumber fr, burst := burst } := by
  unfold faultFrom
  rw [hu.sector]

/-- A frame that passes outside BLIND offers SEQUENCE at a gap and returns the blind counter to 0, before it reaches the
banks. -/
theorem passIntake_plain {r : SectorRec} {latch : Option FaultRecord} (hr : s.sec j = r) (hb : r.state ≠ .blind)
    (hl : latch = if isGap r.reference (frameNumber fr) = true then some (s.latch.getD (faultFrom fr .sequence none))
      else s.latch) :
    s.passIntake j fr = (({ s with latch := latch } : State).setSec j { r with blindCounter := 0 }).bankFrame j fr := by
  subst hl
  unfold State.passIntake
  dsimp only
  rw [hr, offerFault_getD]
  split
  · rw [framePassed_plain (z := { s with latch := some (s.latch.getD (faultFrom fr .sequence none)) }) hr hb]
  · rw [framePassed_plain hr hb]

/-- A frame that passes in BLIND has no reference to be past; it returns the sector to its prior state and offers it. -/
theorem passIntake_blind {r : SectorRec} {w : WorkState} (hr : s.sec j = r) (hn : s.notices = []) (hb : r.state = .blind)
    (hp : r.prior = some w) :
    s.passIntake j fr = (({ s with notices := [.sector j] } : State).setSec j
      { r with state := w.toSector, prior := none, blindCounter := 0, progressCounter := 0 }).bankFrame j fr := by
  have href : r.reference = none := if_pos hb
  unfold State.passIntake
  simp only [hr, href, isGap, Bool.false_eq_true, if_false]
  rw [framePassed_blind hr hn hb hp]

theorem bankFrame_begins {r : SectorRec} {i : Fin 2} (he : r.evaluation = none) (ha : s.ladder.active = some i) :
    (s.setSec j r).bankFrame j fr = (s.modBank i fun b => { b with holds := b.holds + 1 }).setSec j
      { r with evaluation := some { bank := .a, frame := bankedFrame fr, held := i } } := by
  unfold State.bankFrame
  simp only [State.setSec_sec_same, he]
  exact begin_eq _ _ ha

theorem bankFrame_waits {r : SectorRec} {e : Evaluation} (he : r.evaluation = some e) (hw : r.waitingBank = none) :
    (s.setSec j r).bankFrame j fr = s.setSec j { r with waitingBank := some (bankedFrame fr) } := by
  unfold State.bankFrame
  rw [State.setSec_sec_same]
  split
  · next h => rw [he] at h; cases h
  · split
    · exact modSec_setSec _ _ _ _
    · next h => rw [hw] at h; cases h

theorem bankFrame_overrun {r : SectorRec} {e : Evaluation} {w : BankedFrame} (hu : UpstreamOf fr j)
    (he : r.evaluation = some e) (hw : r.waitingBank = some w) :
    (s.setSec j r).bankFrame j fr = State.setSec
      { s with
        latch := some (s.latch.getD
          { kind := .overrun, sector := byteOf j.val, frame := frameNumber fr, burst := none }) } j r := by
  unfold State.bankFrame
  simp only [State.setSec_sec_same, he, hw]
  rw [offerFault_getD, faultFrom_upstream hu]
  rfl

/-- The number is past the reference by `d` frames, or there is no reference. -/
def PastBy (reference : Option FrameNo) (n : FrameNo) (d : Nat) : Prop :=
  reference = none ∧ d = 0 ∨ ∃ m, reference = some m ∧ d = (n - m).toNat ∧ 1 ≤ d ∧ d ≤ 32767

theorem PastBy.intake {o : Option FrameNo} {n : FrameNo} {d : Nat} (h : PastBy o n d) :
    isStale o n = false ∧ isGap o n = decide (2 ≤ d) := by
  rcases h with ⟨rfl, rfl⟩ | ⟨m, rfl, hd, h1, h2⟩
  · exact ⟨rfl, rfl⟩
  · exact stale_gap hd h1 h2

/-- A frame that passes intake outside BLIND reaches the banks behind the offer of SEQUENCE for a gap. -/
theorem upstream_passes {r : SectorRec} {d : Nat} {latch : Option FaultRecord} (hm : s.mode = .running) (hn : s.notices = [])
    (hu : UpstreamOf fr j) (hl : layoutFault fr = none) (hr : s.sec j = r) (hs : r.InService) (hb : r.state ≠ .blind)
    (hd : PastBy r.reference (frameNumber fr) d)
    (hlatch : latch = if 2 ≤ d then
      some (s.latch.getD { kind := .sequence, sector := byteOf j.val, frame := frameNumber fr, burst := none }) else s.latch) :
    exec (.upstreamFrame fr true) s = .next
      (((State.emit { s with latch := latch } fr).setSec j { r with blindCounter := 0 }).bankFrame j fr) := by
  subst hr
  obtain ⟨hstale, hgap⟩ := hd.intake
  refine first_pass hn ?_
  rw [intake_pass (s := s.emit fr) hm hu hs hl hstale]
  refine passIntake_plain rfl hb ?_
  rw [faultFrom_upstream hu, hgap, hlatch]
  simp only [decide_eq_true_eq, State.emit_latch]

/-- A frame that passes intake in BLIND returns the sector to its prior state, offers it, and reaches the banks. -/
theorem upstream_ends_blind {r : SectorRec} {w : WorkState} (hm : s.mode = .running) (hn : s.notices = [])
    (hu : UpstreamOf fr j) (hl : layoutFault fr = none) (hr : s.sec j = r) (hb : r.state = .blind) (hp : r.prior = some w) :
    exec (.upstreamFrame fr true) s = .next
      (((State.emit { s with notices := [.sector j] } fr).setSec j
        { r with state := w.toSector, prior := none, blindCounter := 0, progressCounter := 0 }).bankFrame j fr) := by
  subst hr
  have hs : (s.sec j).InService := by rw [SectorRec.InService, hb]; decide
  have href : (s.sec j).reference = none := if_pos hb
  refine first_pass hn ?_
  rw [intake_pass (s := s.emit fr) hm hu hs hl (by rw [State.emit_sec, href]; rfl)]
  exact passIntake_blind rfl hn hb hp

/-- Settles O23: outside BLIND and in it, with no evaluation in flight and behind one. -/
theorem passingFrameIsTaken : Obligations.PassingFrameIsTaken := by
  intro fr j i s r d latch hm hn hu hl hr hw ha hlatch
  refine ⟨fun hs hb he hd => ?_, fun e hs hb he hd h1 h2 => ?_, fun w hb hp he => ?_, fun w e hb hp he => ?_⟩
  · have href : r.reference = r.lastEvaluated := by simp only [SectorRec.reference, if_neg hb, hw, he]
    rw [upstream_passes hm hn hu hl hr hs hb (by rw [href]; exact hd) hlatch]
    exact congrArg Host.Outcome.next (bankFrame_begins he ha)
  · have href : r.reference = some e.frame.number := reference_eq hb (.inr ⟨hw, .inl ⟨e, he, rfl⟩⟩)
    rw [upstream_passes hm hn hu hl hr hs hb (.inr ⟨_, href, hd, h1, h2⟩) hlatch]
    exact congrArg Host.Outcome.next (bankFrame_waits he hw)
  · rw [upstream_ends_blind hm hn hu hl hr hb hp]
    exact congrArg Host.Outcome.next (bankFrame_begins he ha)
  · rw [upstream_ends_blind hm hn hu hl hr hb hp]
    exact congrArg Host.Outcome.next (bankFrame_waits he hw)

/-- Settles O24: OVERRUN comes behind the SEQUENCE of a gap, so it is recorded only in a latch both found EMPTY and left so. -/
theorem overrunLeavesTheBanks : Obligations.OverrunLeavesTheBanks := by
  intro fr j s r e w d hm hn hu hl hr he hw hd
  refine ⟨fun hs hb h1 h2 => ?_, fun p hb hp => ?_⟩
  · have href : r.reference = some w.number := reference_eq hb (.inl ⟨w, hw, rfl⟩)
    rw [upstream_passes hm hn hu hl hr hs hb (.inr ⟨_, href, hd, h1, h2⟩) rfl]
    by_cases h : 2 ≤ d
    · simp only [if_pos h]
      exact congrArg Host.Outcome.next (bankFrame_overrun hu he hw)
    · simp only [if_neg h]
      exact congrArg Host.Outcome.next (bankFrame_overrun hu he hw)
  · rw [upstream_ends_blind hm hn hu hl hr hb hp]
    exact congrArg Host.Outcome.next (bankFrame_overrun hu he hw)

/-! ## The notices behind a forwarded frame (R3, R168, R169) -/

/-- A forwarded frame shows in no item. -/
theorem ShownAs.of_emit {q shown} (h : ShownAs (s.emit fr) t q shown) : ShownAs s t q shown :=
  ⟨⟨h.items.terminals, h.items.code⟩, h.queue, h.states⟩

/-- Settles O20: the check of the notice queue before or after the frame's intake, on a state that shows what the statement
says. -/
theorem noticesFollowForwardedFrames : Obligations.NoticesFollowForwardedFrames := by
  intro fr first s queue shown item returns hreturns hqueue hterm hsec
  have hitems {u : State} (hu : ShownAs s u queue shown) : u.itemBytes = item := by
    funext x
    cases x with
    | terminal k => exact (terminalItem_bytes hu.items k).trans (hterm k).symm
    | sector i => rw [hsec, ← hu.states]; exact sectorItem_bytes hu.items i
  have hreturn {i w} : Returns (s.emit fr) fr i w ↔ returns i w := by
    rw [hreturns]
    exact ⟨fun h => ⟨h.mode, h.header, h.layout, h.blind, h.prior⟩,
      fun ⟨hmode, hheader, hlayout, hblind, hprior⟩ => ⟨hmode, hheader, hlayout, hblind, hprior⟩⟩
  have horder : first = true ∧ ShownAs s (s.emit fr) queue shown
      ∨ first = false ∧ ShownAs s ((s.emit fr).intake fr) queue shown := by
    rcases hqueue with ⟨rfl, hs, h⟩ | ⟨i, w, rfl, hret, hs, rfl⟩ <;> obtain rfl := funext hs
    · cases first with
      | true => exact .inl ⟨rfl, ⟨rfl, fun _ => rfl⟩, rfl, fun _ => rfl⟩
      | false =>
        obtain ⟨hprior, hno⟩ := h.resolve_left Bool.false_ne_true
        have hx := intake_shown (s := s.emit fr) (fr := fr) (fun i hi => Option.ne_none_iff_exists'.1 (hprior i hi))
          fun i w hr => hno i w (hreturn.1 hr)
        exact .inr ⟨rfl, hx.of_emit⟩
    · exact .inr ⟨rfl, (intake_returns (hreturn.2 hret)).of_emit⟩
  rcases horder with ⟨rfl, hu⟩ | ⟨rfl, hu⟩
  · obtain ⟨ts, he, ht⟩ := emitNotices_does (s.emit fr)
    rw [hu.queue, hitems hu] at he
    rw [hu.queue] at ht
    have hx : exec (.upstreamFrame fr true) s = .next ((s.emit fr).emitNotices.intake fr) := rfl
    have hq := intake_quiet (s.emit fr).emitNotices fr
    refine ⟨_, hx, ?_, ?_, fun h => absurd h (by decide), fun k => ?_, ?_⟩
    · rw [hq.out, he]; rfl
    · rw [← show (s.emit fr).emitNotices.notices = queue.drop 8 by rw [he]]; exact hq.notices
    · rw [State.term, hq.terminals, he]; exact ht k
    · rw [he] at hq ⊢; exact hq.rest
  · obtain ⟨ts, he, ht⟩ := emitNotices_does ((s.emit fr).intake fr)
    rw [hu.queue, hitems hu] at he
    rw [hu.queue] at ht
    have hx : exec (.upstreamFrame fr false) s = .next ((s.emit fr).intake fr).emitNotices := rfl
    have hq := intake_quiet (s.emit fr) fr
    refine ⟨_, hx, ?_, ?_, fun _ => ?_, fun k => ?_, ?_⟩
    · rw [he]; exact congrArg (· ++ _) hq.out
    · rw [he]
    · rw [he]
    · rw [he]; exact (ht k).trans (by rw [State.term, hq.terminals]; rfl)
    · rw [he]; exact hq.rest

/-! ## The evaluation (R12 to R20, R58) -/

/-- A walk step whose address is paired with no slot only moves on (R20). -/
theorem walk_unresolved {e : Evaluation} {d : Burst} (he : (s.sec j).evaluation = some e)
    (hd : e.frame.bursts[e.walked]? = some d) (h : ∀ k, (d.address, k) ∉ (s.sec j).addressMap) :
    exec (.descriptorWalkStep j) s = .next (s.movedOn j { e with walked := e.walked + 1 }) := by
  have hmoved : (s.modEvaluation j fun e => { e with walked := e.walked + 1 })
      = s.movedOn j { e with walked := e.walked + 1 } := by
    unfold State.modEvaluation State.movedOn
    rw [State.modSec, he]
    rfl
  have hr : (s.movedOn j { e with walked := e.walked + 1 }).resolve j d.address = none := by
    rw [← Option.not_isSome_iff_eq_none, resolve_isSome, State.movedOn, State.setSec_sec_same]
    rintro ⟨k, hk⟩
    exact h k hk
  simp only [exec, execDescriptorWalkStep, he, hd, hmoved, hr]

theorem not_carrying {st : TermState} (h : st ∉ [TermState.inService, .fading, .ramping, .climbing]) :
    st.carrying = false := by
  revert h; cases st <;> decide

/-- A descriptor of a kind or for a state that R14 hands to nothing acts on nothing. -/
theorem actOn_passes {e : Evaluation} {d : Burst}
    (h : d.kind = .traffic ∨ d.kind = .unknown
      ∨ d.kind = .report ∧ (s.term k).state ∉ [.inService, .fading, .ramping, .climbing]
      ∨ d.kind = .ranging ∧ ((s.term k).state ≠ .ranging ∨ (s.term k).expectedBurst ≠ some e.frame.number)
      ∨ d.kind = .verify ∧ ((s.term k).state ≠ .verifying ∨ (s.term k).expectedBurst ≠ some e.frame.number)) :
    s.actOn j k e d = s := by
  unfold State.actOn
  rcases h with h | h | ⟨h, hs⟩ | ⟨h, hs⟩ | ⟨h, hs⟩
  · rw [h]
  · rw [h]
  · simp only [h, not_carrying hs, Bool.false_eq_true, if_false]
  · simp only [h]; rw [if_neg (by tauto)]
  · simp only [h]; rw [if_neg (by tauto)]

/-- Settles O25: an address no slot is paired with, or a descriptor that acts on nothing. -/
theorem walkPassesOtherDescriptors : Obligations.WalkPassesOtherDescriptors := by
  rintro j e d s he hd (h | ⟨k, hw, h⟩)
  · exact walk_unresolved he hd h
  · rw [walk_eq hw, actOn_passes (s := s.movedOn j { e with walked := e.walked + 1 }) h]

theorem distance_eq_zero {n due : FrameNo} : (n - due).toNat = 0 ↔ n = due := by bv_omega

theorem sweepMember_none {e : Evaluation} (h : (s.term k).expectedBurst = none) : s.sweepMember j k e = s := by
  simp only [State.sweepMember, h]

/-- The sweep leaves a member whose burst the walk judged, and one whose burst is 1 to 15 frames ahead (R15). -/
theorem sweepMember_leaves {e : Evaluation} {due : FrameNo} (h : (s.term k).expectedBurst = some due)
    (hn : 65521 ≤ (e.frame.number - due).toNat ∨ (e.frame.number - due).toNat = 0 ∧ k ∈ e.handed) :
    s.sweepMember j k e = s := by
  simp only [State.sweepMember, h]
  rcases hn with hn | ⟨h0, hk⟩
  · have hahead : shortlyBefore e.frame.number due = true := decide_eq_true hn
    rw [if_neg (by rw [← distance_eq_zero]; omega), if_pos hahead]
  · rw [if_pos (distance_eq_zero.1 h0), if_pos (List.contains_iff_mem.2 hk)]

/-- The sweep reissues a member the frame is past (R15, R118, R136). -/
theorem sweepMember_reissues {e : Evaluation} {due : FrameNo} (h : (s.term k).expectedBurst = some due)
    (h1 : 1 ≤ (e.frame.number - due).toNat) (h2 : (e.frame.number - due).toNat ≤ 65520) :
    s.sweepMember j k e = if (s.term k).state = .verifying then s.reissueVerify k else s.reissueRanging k := by
  have hlate : shortlyBefore e.frame.number due = false := decide_eq_false (by unfold distance; omega)
  simp only [State.sweepMember, h, hlate, beq_iff_eq, Bool.false_eq_true, if_false]
  rw [if_neg (by rw [← distance_eq_zero]; omega)]

theorem sweep_reissues {e : Evaluation} {st : TermState} {due : FrameNo} (hw : s.SweepsTo j e k st)
    (hd : (s.term k).expectedBurst = some due) (h1 : 1 ≤ (e.frame.number - due).toNat)
    (h2 : (e.frame.number - due).toNat ≤ 65520) :
    exec (.windowSweepStep j) s = .next (if st = .verifying then
      (s.movedOn j { e with swept := k :: e.swept }).reissueVerify k
      else (s.movedOn j { e with swept := k :: e.swept }).reissueRanging k) := by
  rw [sweep_eq hw, sweepMember_reissues (s := s.movedOn j _) hd h1 h2, ← hw.member]
  rfl

/-- The sweep counts a round for a RANGING member whose burst did not come (R117). -/
theorem sweepMember_noShow {e : Evaluation} (h : (s.term k).expectedBurst = some e.frame.number) (hk : k ∉ e.handed)
    (hst : (s.term k).state = .ranging) : s.sweepMember j k e = s.noShow j k := by
  simp only [State.sweepMember, h, hst, if_true]
  rw [if_neg (by rw [List.contains_iff_mem]; exact hk)]
  rfl

/-- Settles O32: by where the member's expected burst frame lies to the frame in evaluation. -/
theorem sweepJudgesAMember : Obligations.SweepJudgesAMember := by
  rintro j e m k s due n rfl rfl
  refine ⟨fun st hw h => ?_, fun hw hd h1 h2 => ?_, fun hw hd h1 h2 hq => ?_, fun hw hd h0 hk hr => ?_⟩
  · rw [sweep_eq hw]
    rcases h with h | ⟨hd, h⟩
    · rw [sweepMember_none (s := s.movedOn j _) h]
    · rw [sweepMember_leaves (s := s.movedOn j _) hd h]
  · rw [sweep_reissues hw hd h1 h2, if_neg (by decide)]
    rfl
  · obtain ⟨-, hj⟩ := belongs_facts hw.home
    rw [sweep_reissues hw hd h1 h2, if_pos rfl]
    exact congrArg _ (request_empty (T := { s.term k with expectedBurst := none }) hj hq)
  · obtain rfl := distance_eq_zero.1 h0
    rw [sweep_eq hw, sweepMember_noShow (s := s.movedOn j _) hd hk hw.member]
    refine congrArg Host.Outcome.next (if_neg ?_)
    rw [State.modTerm_term_same, State.modTerm, State.cfg, State.setTerm_sec, State.movedOn, State.setSec_sec_same]
    exact Nat.not_le.2 hr

/-- A sector's state takes another value: the progress counter returns to 0 and the sector is offered (R62). -/
theorem enterSector_eq {r : SectorRec} {st : SectorState} (hr : s.sec j = r) (h1 : r.state ≠ st) (h2 : r.state ≠ .disabled) :
    s.enterSector j st = (s.setSec j { r with state := st, progressCounter := 0 }).offerSector j := by
  subst hr
  have h : ¬((s.sec j).state = st ∨ (s.sec j).state = .disabled) := by tauto
  simp only [State.enterSector, State.modSec, SectorRec.enter, if_neg h]

/-- The return to a prior state that the sector is not in already (R56, R59). -/
theorem returnToPrior_eq {r : SectorRec} {w : WorkState} (hr : s.sec j = r) (hp : r.prior = some w) (h1 : r.state ≠ w.toSector)
    (h2 : r.state ≠ .disabled) :
    s.returnToPrior j = (s.setSec j { r with state := w.toSector, prior := none, progressCounter := 0 }).offerSector j := by
  subst hr
  unfold State.returnToPrior
  rw [hp]
  exact (enterSector_eq (s := s.setSec j _) (r := { s.sec j with prior := none }) (State.setSec_sec_same _ _ _) h1 h2).trans
    (congrArg (State.offerSector · j) (setSec_setSec _ _ _ _))

theorem working_eq {r : SectorRec} {w : WorkState} (h : r.state = w.toSector ∨ r.state = .blind ∧ r.prior = some w) :
    r.working = some w := by
  unfold SectorRec.working
  rcases h with h | ⟨h, hp⟩
  · rw [h]; cases w <;> rfl
  · rw [h]; exact hp

/-- A suspend of a served sector takes effect: its working state is kept as the prior state, and its reply is emitted (R58). -/
theorem suspendNow_eq {r : SectorRec} {w : WorkState} (hr : s.sec j = r)
    (h : r.state = w.toSector ∨ r.state = .blind ∧ r.prior = some w) (tag : BitVec 16) :
    s.suspendNow j tag = State.offerSector ((s.setSec j
      { r with
        state := .suspended, suspendPending := false, prior := some w, waitingBank := none, progressCounter := 0 }).emit
      (soleReply 0x24 tag 0x00 [])) j := by
  have hne : r.state ≠ .suspended ∧ r.state ≠ .disabled := by
    rcases h with h | ⟨h, -⟩ <;> rw [h]
    · cases w <;> decide
    · decide
  subst hr
  unfold State.suspendNow
  simp only [working_eq h, State.modSec]
  rw [reply_sole _ _ _ _ _ (by simp)]
  refine (enterSector_eq (s := State.emit (s.setSec j _) _)
    (r := { s.sec j with suspendPending := false, prior := some w, waitingBank := none })
    (State.setSec_sec_same _ _ _) hne.1 hne.2).trans (congrArg (State.offerSector · j) ?_)
  exact congrArg (State.emit · _) (setSec_setSec _ _ _ _)

/-- The completion of an evaluation: the number is written, the hold released, and what waits follows (R16). -/
theorem completion_eq {e : Evaluation} {r : SectorRec} (hr : s.sec j = r) (he : r.evaluation = some e)
    (hwalk : e.frame.bursts.length ≤ e.walked) (hswept : ∀ k ∈ r.window, k ∈ e.swept) :
    exec (.evaluationCompletion j) s = .next (((s.modBank e.held fun b => { b with holds := b.holds - 1 }).setSec j
      { r with lastEvaluated := if r.state = .blind then none else some e.frame.number, evaluation := none }).afterCompletion
      j e.bank) := by
  subst hr
  have hnext : nextMember (s.sec j).window e.swept = none :=
    List.find?_eq_none.2 fun k hk => by simp [hswept k hk]
  have hdone : s.sweepDone j e = true := by
    simp only [State.sweepDone, Evaluation.walkDone, hnext, hwalk, decide_true, Option.isNone_none, Bool.and_self]
  simp only [exec, execEvaluationCompletion, he, hdone, if_true]
  rfl

theorem afterCompletion_ends {r : SectorRec} (bank : IntakeBank) (hp : r.suspendPending = false) (hw : r.waitingBank = none) :
    (s.setSec j r).afterCompletion j bank = s.setSec j r := by
  simp only [State.afterCompletion, State.setSec_sec_same, hp, hw, Bool.false_eq_true, if_false]

/-- The waiting frame's evaluation begins in the bank that held it (R16). -/
theorem afterCompletion_begins {r : SectorRec} {w : BankedFrame} {i : Fin 2} (bank : IntakeBank) (hp : r.suspendPending = false)
    (hw : r.waitingBank = some w) (ha : s.ladder.active = some i) :
    (s.setSec j r).afterCompletion j bank = (s.modBank i fun b => { b with holds := b.holds + 1 }).setSec j
      { r with waitingBank := none, evaluation := some { bank := bank.other, frame := w, held := i } } := by
  have hnot : ¬r.suspendPending = true := by rw [hp]; decide
  unfold State.afterCompletion
  rw [State.setSec_sec_same, if_neg hnot]
  split
  · next x hx =>
    obtain rfl := Option.some.inj (hw.symm.trans hx)
    rw [modSec_setSec, begin_eq _ _ ha]
  · next hx => rw [hw] at hx; cases hx

/-- A pending suspend takes effect before the waiting frame, which its bank loses (R16, R58). -/
theorem afterCompletion_suspends {r : SectorRec} {w : WorkState} (bank : IntakeBank) (hp : r.suspendPending = true)
    (h : r.state = w.toSector ∨ r.state = .blind ∧ r.prior = some w) :
    (s.setSec j r).afterCompletion j bank = State.offerSector ((s.setSec j
      { r with
        state := .suspended, suspendPending := false, prior := some w, waitingBank := none, progressCounter := 0 }).emit
      (soleReply 0x24 r.suspendTag 0x00 [])) j := by
  unfold State.afterCompletion
  rw [State.setSec_sec_same, if_pos hp, suspendNow_eq (State.setSec_sec_same _ _ _) h, setSec_setSec]

/-- Settles O34: by what waits for the completion. -/
theorem evaluationCompletes : Obligations.EvaluationCompletes := by
  rintro j e s u r hr he hwalk hswept rfl
  rw [completion_eq hr he hwalk hswept]
  refine ⟨fun hp hw => congrArg Host.Outcome.next ?_, fun w i hp hw ha => congrArg Host.Outcome.next ?_,
    fun p hp hst => congrArg Host.Outcome.next ?_⟩
  · exact afterCompletion_ends e.bank hp hw
  · rw [afterCompletion_begins e.bank (by exact hp) (by exact hw) (by exact ha)]
    cases e.bank <;> rfl
  · exact afterCompletion_suspends e.bank hp hst

/-! ## Sectors are isolated (R17, R21, R44, R110, R146) -/

/-- A command that does the work of one sector, or nothing where it is not due. -/
theorem own_ite {p : Prop} [Decidable p] {u : State} (w : Works j s u)
    (h : (if p then .next u else .next s : Result) = .next t) :
    OwnOnly j s t := by
  split at h <;> cases h
  · exact w.own
  · exact .refl j s

theorem own_shiftMaturity (h : exec (.shiftMaturity j k) s = .next t) : OwnOnly j s t := by
  simp only [exec, execShiftMaturity] at h
  split at h
  · cases h; exact .refl j s
  · have w : Works j s (s.modSec j fun r => { r with maturityDue := r.maturityDue.eraseP fun p => p.2 == k }) :=
      Works.secAll .refl fun _ _ => .same _ _
    split at h <;> cases h
    · next hb => exact (w.trans (Works.mature .refl hb.2.1)).own
    · exact w.own

theorem own_slotFilling (hs : s.Homed) (h : exec (.slotFilling j) s = .next t) : OwnOnly j s t := by
  simp only [exec, execSlotFilling] at h
  split at h
  · cases h; exact .refl j s
  · split at h <;> cases h
    · exact (Works.fill .refl hs _ _).own.links rfl rfl rfl rfl rfl rfl
    · exact (OwnOnly.refl j s).links rfl rfl rfl rfl rfl rfl

theorem own_descriptorWalkStep (ht : s.TableAgrees) (h : exec (.descriptorWalkStep j) s = .next t) : OwnOnly j s t := by
  have w : Works j s (s.modEvaluation j fun e => { e with walked := e.walked + 1 }) := Works.modEvaluation .refl _ fun _ => rfl
  simp only [exec, execDescriptorWalkStep] at h
  split at h
  · cases h; exact .refl j s
  · split at h
    · cases h; exact .refl j s
    · split at h
      · cases h; exact w.own
      · next hr =>
        cases h
        exact (w.actOn (State.resolve_belongs ht (by simpa [State.resolve, State.modEvaluation] using hr)) _ _).own

theorem own_windowSweepStep (hs : s.Homed) (h : exec (.windowSweepStep j) s = .next t) : OwnOnly j s t := by
  have w : ∀ k, Works j s (s.modEvaluation j fun e => { e with swept := k :: e.swept }) :=
    fun _ => Works.modEvaluation .refl _ fun _ => rfl
  simp only [exec, execWindowSweepStep] at h
  split at h
  · cases h; exact .refl j s
  · split at h
    · split at h
      · cases h; exact .refl j s
      · next k hk =>
        cases h
        exact ((w k).sweepMember (hs j k (.inr (.inl (List.mem_of_find?_eq_some hk)))) _).own
    · cases h; exact .refl j s

theorem own_backoffExpiry (hs : s.Homed) (hk : s.belongs j k = true) (h : exec (.backoffExpiry k) s = .next t) :
    OwnOnly j s t := by
  rw [← State.sectorOf_of_belongs hk]
  exact own_ite (.takeScheduler .refl hs) h

/-- Settles O60: each event of a sector is work of that sector, or touches the links and its own record only. -/
theorem sectorsAreIsolated : Obligations.SectorsAreIsolated := by
  intro j c s t hs ht hc hx
  have hown : OwnOnly j s t := by
    rcases hc with hc | ⟨k, rfl⟩ | ⟨k, rfl, hk⟩
    · simp only [List.mem_cons, List.not_mem_nil, or_false] at hc
      rcases hc with rfl | rfl | rfl | rfl | rfl | rfl | rfl | rfl | rfl
      iterate 4 · exact own_ite (.takeController .refl hs) hx
      · exact own_ite (.takeScheduler .refl hs) hx
      · exact own_slotFilling hs hx
      · exact own_descriptorWalkStep ht hx
      · exact own_windowSweepStep hs hx
      · exact own_completion j hx
    · exact own_shiftMaturity hx
    · exact own_backoffExpiry hs hk hx
  exact ⟨hown.secs, hown.terms, hown.rest⟩

/-! ## Requests (R9, R42, R43, R57 to R59, R158) -/

/-- The results of READ FAULT LATCH are 7 bytes (11-4). -/
theorem latchResults_length (o : Option FaultRecord) : (latchResults o).length = 7 := by
  rcases o with _ | f
  · rfl
  · simp [latchResults, optByte_length, bytes16_length]

/-- Settles O39: by the value of the unlock byte. -/
theorem readFaultLatchShowsTheLatch : Obligations.ReadFaultLatchShowsTheLatch := by
  intro u rest r s shown hm hl hb hshown
  have hres : shown = latchResults s.latch := by
    rw [hshown]
    rcases s.latch with _ | ⟨kind, sector, frame, burst⟩
    · rfl
    · cases kind <;> cases burst <;> rfl
  have hserves : s.mode.serves .readFaultLatch = true := by
    revert hm; cases s.mode <;> simp [Mode.serves]
  have hlen : lengthAccepted .readFaultLatch r = true := by simp [lengthAccepted, takesLength, hl, hb]
  have hu : byteAt (parameters r) 0 = u := by simp [parameters, byteAt, hl, hb]
  have hlong : (latchResults s.latch).length ≤ 192 := by rw [latchResults_length]; omega
  simp only [exec, execReadFaultLatch, serve_ok hserves hlen, hu, hres]
  refine ⟨fun h0 => ?_, fun h1 => ?_, fun h0 h1 => ?_⟩
  · rw [if_pos h0, answered_ok _ _ _ hlong]; rfl
  · subst h1
    rw [if_neg (by decide), if_pos rfl, answered_ok _ _ _ hlong]; rfl
  · rw [if_neg h0, if_neg h1, answered_refuse]; rfl

/-- Settles O46: no refusal's test holds, and the sector record becomes the model's `enabled` or `disabled`. -/
theorem enableAndDisableSector : Obligations.EnableAndDisableSector := by
  rintro j r s x hm hr rfl
  obtain ⟨-, -, hsec⟩ := sector_params hr
  refine ⟨fun hd ha he => ?_, fun hd hp hheld => ?_⟩
  · have hidle : ¬(s.sec j).evaluation.isSome = true := by rw [he]; decide
    have hactive : ¬s.ladder.active.isNone = true := by rwa [Option.isNone_iff_eq_none]
    simp only [exec, execEnableSector]
    rw [sector_serve hm hr rfl]
    simp only [hsec]
    rw [if_neg (not_not.2 hd), if_neg hactive, if_neg hidle, answered_accept]
    rfl
  · have hnot : ¬(s.sec j).suspendPending = true := by rw [hp]; decide
    have hall : ¬((s.slotsOf j).all fun k => (s.term k).state == .held) = false := by
      rw [Bool.not_eq_false, List.all_eq_true]
      exact fun k hk => beq_iff_eq.2 (hheld k (mem_slotsOf.1 hk))
    simp only [exec, execDisableSector]
    rw [sector_serve hm hr rfl]
    simp only [hsec]
    rw [if_neg hd, if_neg hnot, if_neg hall, answered_accept]
    rfl

/-- A request served for which no reply is due yet leaves what its owning block made (R153). -/
theorem answered_none (f : RequestKind) (r : Request) (u : State) : answered f r (u, none) = u :=
  rfl

/-- Settles O47: SUSPEND by whether an evaluation is in flight, RESUME by the return to the prior state. -/
theorem suspendAndResumeSector : Obligations.SuspendAndResumeSector := by
  rintro j r s x w hm hr rfl
  obtain ⟨-, -, hsec⟩ := sector_params hr
  refine ⟨fun hs hp hst => ?_, fun hst hp => ?_⟩
  · have hserved : ¬(s.sec j).state.served = false := by
      rw [Bool.not_eq_false]
      exact (served_iff _).2 hs
    have hnot : ¬(s.sec j).suspendPending = true := by rw [hp]; decide
    simp only [exec, execSuspendSector]
    rw [sector_serve hm hr rfl]
    simp only [hsec]
    rw [if_neg hserved, if_neg hnot]
    refine ⟨fun he => ?_, fun he => ?_⟩
    · have hidle : ¬(s.sec j).evaluation.isSome = true := by rw [he]; decide
      rw [if_neg hidle, answered_none, suspendNow_eq rfl hst, offerSector_emit]
    · rw [if_pos (Option.isSome_iff_ne_none.2 he), answered_none]
      rfl
  · have h1 : (s.sec j).state ≠ w.toSector := by rw [hst]; cases w <;> decide
    have h2 : (s.sec j).state ≠ .disabled := by rw [hst]; decide
    simp only [exec, execResumeSector]
    rw [sector_serve hm hr rfl]
    simp only [hsec]
    rw [if_neg (not_not.2 hst), answered_accept, returnToPrior_eq (State.modSec_sec_same _ _ _) hp h1 h2, State.modSec,
      setSec_setSec]
    rfl

end Sys2Proof.Machine
end

section
/-!
The terminal table: what every step keeps of the terminals, the sectors and the notice queue, what reports, verification bursts and
maturing shifts do to one terminal, and the requests of the table. The proofs assemble the lemmas of the Laws files; what those lack
stands before its first use.
-/

namespace Sys2Proof.Machine

variable {s t u : State} {j : Sector} {k : Slot} {r : Request}

/-! ## What holds of a part at rest (R33, R38, R159) -/

/-- A sector record as device reset leaves it names no slot. -/
theorem names_default : ¬({} : SectorRec).Names k := by simp [SectorRec.Names]

theorem homed_rest (h : s.AllAtRest) : s.Homed := fun j _ hn => absurd (h.secs j ▸ hn) names_default

theorem slotsOf_rest (h : s.AllAtRest) (j : Sector) : s.slotsOf j = [] :=
  List.filter_eq_nil_iff.2 fun _ _ => by simp [State.belongs, h.terms]

theorem tableAgrees_rest (h : s.AllAtRest) : s.TableAgrees where
  empty k _ := by rw [h.terms]
  population j := by rw [slotsOf_rest h, h.secs]; rfl
  limit j := by rw [h.secs]; exact Nat.zero_le _
  paired j a k := by simp [h.secs, State.belongs, h.terms]
  once j := by rw [h.secs]; exact .nil

theorem noticesAgree_rest (h : s.AllAtRest) : s.NoticesAgree where
  once := by rw [h.notices]; exact .nil
  pending k := by simp [h.terms, h.notices]

theorem terminalsInRange_rest (h : s.AllAtRest) (k : Slot) : (s.term k).InRange := by
  rw [h.terms]; exact InRange.empty

/-- The default configuration is one SET SECTOR accepts (3-2, R39). -/
theorem accepted_default : ({} : SectorConfig).Accepted := ⟨by decide, by decide⟩

theorem sectorsInRange_rest (h : s.AllAtRest) (j : Sector) : (s.sec j).InRange := by
  rw [h.secs]
  exact ⟨accepted_default, Nat.zero_le _, Nat.zero_le _, Nat.zero_le _, Nat.zero_le _, .nil⟩

theorem membersAgree_rest (h : s.AllAtRest) : s.MembersAgree where
  queue j k := by simp [h.secs, h.terms]
  window j k := by simp [h.secs, h.terms]
  queueOnce j := by rw [h.secs]; exact .nil
  windowOnce j := by rw [h.secs]; exact .nil
  classes j := by rw [h.secs]; exact .nil

/-- Settles O5: the part after a power-up is at rest, and every invariant holds of a part at rest. -/
theorem invariantsHoldAtReset : Obligations.InvariantsHoldAtReset :=
  have h := State.reset_allAtRest
  ⟨h.atRest, homed_rest h, tableAgrees_rest h, noticesAgree_rest h, terminalsInRange_rest h, sectorsInRange_rest h,
    membersAgree_rest h, holdsAgree_rest h, rungsOnLadder_rest h⟩

/-! ## What every step keeps (R19, R20, R24, R26, R28, R35, R38, R159) -/

/-- A running part's commands leave it in RUNNING mode, where rest asks nothing, or reset it. -/
theorem step_atRest (ha : s.AtRest) (hh : s.Homed) (ht : s.TableAgrees) (hx : step s = .next t) : t.AtRest :=
  step_keeps State.AtRest (fun _ => State.AllAtRest.atRest) (fun _ _ h => h)
    (fun _ _ hm _ _ _ m hne => absurd (m.mode.trans hm) hne) ha hh ht ha hx

theorem step_homed (ha : s.AtRest) (hh : s.Homed) (ht : s.TableAgrees) (hx : step s = .next t) : t.Homed :=
  step_keeps State.Homed (fun _ => homed_rest) (fun _ _ h => h) (fun _ _ _ _ _ h m => homed_moves h m) ha hh ht hh hx

theorem step_tableAgrees (ha : s.AtRest) (hh : s.Homed) (ht : s.TableAgrees) (hx : step s = .next t) : t.TableAgrees :=
  step_keeps State.TableAgrees (fun _ => tableAgrees_rest)
    (fun _ _ h => ⟨h.empty, h.population, h.limit, h.paired, h.once⟩) (fun _ _ _ _ _ h m => tableAgrees_moves h m) ha hh ht ht hx

/-- Settles O55: each of the three is kept by every kind of move and holds of a part at rest. -/
theorem structureKept : Obligations.StructureKept := fun _ _ ha hh ht hx =>
  ⟨step_atRest ha hh ht hx, step_homed ha hh ht hx, step_tableAgrees ha hh ht hx⟩

theorem step_terminalsInRange (ha : s.AtRest) (hh : s.Homed) (ht : s.TableAgrees) (hx : step s = .next t)
    (hr : ∀ k, (s.term k).InRange) : ∀ k, (t.term k).InRange :=
  step_keeps (fun s => ∀ k, (s.term k).InRange) (fun _ => terminalsInRange_rest) (fun _ _ h => h)
    (fun _ _ _ _ _ h m => terminalsInRange_moves h m) ha hh ht hr hx

theorem step_sectorsInRange (ha : s.AtRest) (hh : s.Homed) (ht : s.TableAgrees) (hx : step s = .next t)
    (hr : ∀ j, (s.sec j).InRange) : ∀ j, (t.sec j).InRange :=
  step_keeps (fun s => ∀ j, (s.sec j).InRange) (fun _ => sectorsInRange_rest) (fun _ _ h => h)
    (fun _ _ _ _ _ h m => sectorsInRange_moves h m) ha hh ht hr hx

/-- Settles O56: terminal records and sector records apart, each under every kind of move. -/
theorem rangesKept : Obligations.RangesKept := fun _ _ ha hh ht hx =>
  ⟨step_terminalsInRange ha hh ht hx, step_sectorsInRange ha hh ht hx⟩

/-- Settles O57: offers, NOTICE frames and emptied records keep notice pending in step with the queue. -/
theorem noticesKept : Obligations.NoticesKept := fun _ _ ha hh ht hn hx =>
  step_keeps State.NoticesAgree (fun _ => noticesAgree_rest) (fun _ _ h => ⟨h.once, h.pending⟩)
    (fun _ _ _ _ _ h m => noticesAgree_moves h m) ha hh ht hn hx

/-! ## Device reset (R33, R38, R79, R160, R161) -/

/-- Settles O3: the defaults of the record types are the values the statement writes out. -/
theorem deviceResetEmptiesThePart : Obligations.DeviceResetEmptiesThePart := by
  refine ⟨fun cause s => ?_, fun s hc hr ht hp => ?_⟩
  · cases cause <;> rfl
  · simp only [exec, execDeviceReset, State.deviceReset, hc, hr, ht, hp]
    rfl

/-! ## Maturing shifts (R98, R102, R104) -/

section
variable {X : State} {T : Terminal} {b : LadderBank}

theorem goalTest_below (h : T.atGoal (X.cfg j) b = false) : (X.setTerm k T).goalTest j k b = X.setTerm k T := by
  have hcfg : (X.setTerm k T).cfg j = X.cfg j := rfl
  unfold State.goalTest
  rw [State.setTerm_term_same, hcfg, h, if_neg Bool.false_ne_true]

/-- At its goal a terminal without runs enters IN_SERVICE, without its restore rung (R104). -/
theorem goalTest_reached (h : T.atGoal (X.cfg j) b = true) (hmiss : T.missRun = 0) (hfloor : T.floorRun = 0) :
    (X.setTerm k T).goalTest j k b = (X.setTerm k { T with state := .inService, restoreRung := none }).offerTerminal k := by
  have hcfg : (X.setTerm k T).cfg j = X.cfg j := rfl
  have hclimbing : T.state = .climbing := by
    simp only [Terminal.atGoal, Bool.and_eq_true, beq_iff_eq] at h
    exact h.1
  have hservice : ({ T with restoreRung := none } : Terminal).serviceState = .inService :=
    if_neg (by simp [hmiss, hfloor])
  unfold State.goalTest State.enterService
  rw [State.setTerm_term_same, hcfg, h, if_pos rfl, modTerm_setTerm, State.setTerm_term_same, hservice,
    toState_set _ _ _ _ (by simp [hclimbing]) (by simp [hclimbing]), offer_set]

theorem noticedAs_atGoal (c : SectorConfig) : (noticedAs X k T).atGoal c b = T.atGoal c b := by
  unfold noticedAs
  split <;> rfl

theorem noticed_cfg : (noticed X k).cfg j = X.cfg j := congrArg SectorRec.config (noticed_sec X j k)

/-- Below its goal a terminal is left as the offer for its changed rung made it. -/
theorem offer_goalTest_below (h : T.atGoal (X.cfg j) b = false) :
    ((X.setTerm k T).offerTerminal k).goalTest j k b = (X.setTerm k T).offerTerminal k := by
  rw [offer_set, goalTest_below (by rw [noticed_cfg, noticedAs_atGoal, h])]

/-- A second offer of a terminal, whose record changed behind the first, offers nothing more. -/
theorem offer_once {F : Terminal → Terminal}
    (hF : ∀ t, F { t with noticePending := true } = { F t with noticePending := true }) :
    ((noticed X k).setTerm k (F (noticedAs X k T))).offerTerminal k = (X.setTerm k (F T)).offerTerminal k := by
  rw [offer_set_again, offer_set]
  unfold noticedAs
  split
  · rfl
  · rw [hF]

/-- The offer for a changed rung and the one for the state at the goal are one. -/
theorem offer_goalTest_reached (h : T.atGoal (X.cfg j) b = true) (hmiss : T.missRun = 0) (hfloor : T.floorRun = 0) :
    ((X.setTerm k T).offerTerminal k).goalTest j k b
      = (X.setTerm k { T with state := .inService, restoreRung := none }).offerTerminal k := by
  rw [offer_set, goalTest_reached (by rw [noticed_cfg, noticedAs_atGoal, h]) (by unfold noticedAs; split <;> exact hmiss)
    (by unfold noticedAs; split <;> exact hfloor)]
  exact offer_once (F := fun t => { t with state := .inService, restoreRung := none }) fun _ => rfl

end

theorem offerTerminal_activeBank : (s.offerTerminal k).activeBank = s.activeBank := by
  unfold State.offerTerminal
  split <;> rfl

/-- The maturity of a shift: the rung takes its bounded target, a change of it is offered, and the goal is tested (R102). -/
theorem mature_eq {p : Nat} {o : Option FrameNo} {b : LadderBank}
    (hp : (s.term k).pendingShift = some { target := p, effective := o }) (ha : s.activeBank = some b) (hu : u = s.setTerm k
      { s.term k with rung := min p b.top, pendingShift := none, climbDwell := 0 }) :
    s.mature j k = (if min p b.top = (s.term k).rung then u else u.offerTerminal k).goalTest j k b := by
  have htarget : s.boundRung (s.term k).shiftTarget = min p b.top := by
    simp only [State.boundRung, ha, Terminal.shiftTarget, hp]
  have hactive : (if min p b.top = (s.term k).rung then u else u.offerTerminal k).activeBank = some b := by
    have hua : u.activeBank = some b := by rw [hu]; exact ha
    split
    · exact hua
    · rw [offerTerminal_activeBank, hua]
  unfold State.mature
  simp only [htarget, ne_eq, ite_not, State.modTerm, ← hu, hactive]

/-- The maturity of a due shift, at the head of those to be examined (R102). -/
theorem shiftMaturity_due {n e : FrameNo} {p : Nat} {due : List (FrameNo × Slot)} {b : LadderBank}
    (hdue : (s.sec j).maturityDue = (n, k) :: due) (hs : (s.sec j).InService) (hb : s.belongs j k = true)
    (hp : (s.term k).pendingShift = some { target := p, effective := some e }) (hn : ¬65521 ≤ (n - e).toNat)
    (ha : s.activeBank = some b)
    (hu : u = (s.setSec j { s.sec j with maturityDue := due }).setTerm k
      { s.term k with rung := min p b.top, pendingShift := none, climbDwell := 0 }) :
    exec (.shiftMaturity j k) s = .next ((if min p b.top = (s.term k).rung then u else u.offerTerminal k).goalTest j k b) := by
  subst hu
  have hframe : maturityFrame (s.sec j).maturityDue k = some n := by simp [maturityFrame, hdue]
  have hmod : (s.modSec j fun r => { r with maturityDue := r.maturityDue.eraseP fun p => p.2 == k })
      = s.setSec j { s.sec j with maturityDue := due } := by simp [State.modSec, hdue]
  have hserved : ((s.setSec j { s.sec j with maturityDue := due }).sec j).state.served = true := by
    rw [State.setSec_sec_same]
    exact (served_iff _).2 hs
  have hmatures : (s.term k).matures n = true := by
    have hlate : shortlyBefore n e = false := decide_eq_false hn
    simp only [Terminal.matures, hp, hlate, Bool.not_false]
  simp only [exec, execShiftMaturity, hframe, hmod]
  rw [if_pos ⟨hserved, hb, hmatures⟩, mature_eq (s := s.setSec j { s.sec j with maturityDue := due }) hp ha rfl]
  rfl

/-- Settles O18: by whether the terminal is CLIMBING, and then by its goal. -/
theorem shiftMatures : Obligations.ShiftMatures := by
  intro j k n e p due b s u hdue hs hb hp hn ha hu
  rw [shiftMaturity_due hdue hs hb hp hn ha hu]
  have hcfg : (s.setSec j { s.sec j with maturityDue := due }).cfg j = (s.sec j).config := by
    rw [State.cfg, State.setSec_sec_same]
  subst hu
  refine ⟨fun hst => congrArg _ ?_, fun goal restore hst hres hg => ?_⟩
  · have hgoal : ({ s.term k with rung := min p b.top, pendingShift := none, climbDwell := 0 } : Terminal).atGoal
        ((s.setSec j { s.sec j with maturityDue := due }).cfg j) b = false := by simp [Terminal.atGoal, hst]
    split
    · exact goalTest_below hgoal
    · exact offer_goalTest_below hgoal
  · have hgoal : ({ s.term k with rung := min p b.top, pendingShift := none, climbDwell := 0 } : Terminal).atGoal
        ((s.setSec j { s.sec j with maturityDue := due }).cfg j) b = decide (goal ≤ min p b.top) := by
      rw [hcfg, Terminal.atGoal, climbBound_goal _ _ 0 hst hres hg, hst]
      rfl
    refine ⟨fun hlt => congrArg _ ?_, fun hle hmiss hfloor => congrArg _ ?_⟩
    · rw [decide_eq_false (Nat.not_le.2 hlt)] at hgoal
      split
      · exact goalTest_below hgoal
      · exact offer_goalTest_below hgoal
    · rw [decide_eq_true hle] at hgoal
      rw [State.setTerm_term_same, setTerm_setTerm]
      split
      · exact goalTest_reached hgoal hmiss hfloor
      · exact offer_goalTest_reached hgoal hmiss hfloor

/-! ## Received reports (R91, R93, R94, R97 to R101, R104) -/

section
variable {X : State} {R : SectorRec} {T : Terminal} {a b : LadderBank} {c : SectorConfig} {f : Nat}
  {corrects powers : List ControlEntry}

theorem belowDrop_eq (hf : T.filtered = some f) (hp : T.pendingShift = none) :
    belowDrop b T = decide (f < 4 * b.drop T.rung) := by
  simp only [belowDrop, Terminal.f, hf, Option.getD_some, (effectiveRung_none hp).1]

theorem onset_iff (hf : T.filtered = some f) (hp : T.pendingShift = none) :
    onset c b T = true ↔ ∃ p, prediction c f T.history = some p ∧ p < 4 * b.drop T.rung := by
  simp only [onset, Terminal.f, hf, Option.getD_some, (effectiveRung_none hp).1]
  cases prediction c f T.history <;> simp

/-- A report is below the drop threshold of its terminal's rung, or falling toward it, at a rung above 0 (R97). -/
def Terminal.Drops (c : SectorConfig) (b : LadderBank) (f : Nat) (t : Terminal) : Prop :=
  0 < t.rung ∧ (f < 4 * b.drop t.rung ∨ ∃ p, prediction c f t.history = some p ∧ p < 4 * b.drop t.rung)

theorem drops_iff (hf : T.filtered = some f) (hp : T.pendingShift = none) :
    (0 < T.rung ∧ (belowDrop b T || onset c b T) = true) ↔ T.Drops c b f := by
  rw [Bool.or_eq_true, onset_iff hf hp, belowDrop_eq hf hp, decide_eq_true_eq, Terminal.Drops]

/-- The climb condition of a terminal whose climb bound is `goal` (R99). -/
def Terminal.Climbs (b : LadderBank) (f goal : Nat) (t : Terminal) : Prop :=
  t.rung < b.top ∧ 4 * b.enter (t.rung + 1) ≤ f ∧ (∃ sl, slope t.history = some sl ∧ 0 ≤ sl) ∧ t.rung + 1 ≤ goal

theorem climbs_iff (hf : T.filtered = some f) (hp : T.pendingShift = none) :
    T.climbCondition c b = true ↔ T.Climbs b f (T.climbBound c b) := by
  simp only [Terminal.climbCondition, climbReady, Terminal.Climbs, Terminal.f, hf, Option.getD_some,
    (effectiveRung_none hp).1, Bool.and_eq_true, decide_eq_true_eq, and_assoc]
  cases slope T.history <;> simp

/-- The climb bound of a terminal in service is its climb cap (R98). -/
theorem service_bound {n : Nat} (hs : T.state ≠ .climbing) (hk : T.capKept = false) (h1 : n ≤ T.maxRung) (h2 : n ≤ b.top)
    (h3 : T.sticky.degraded = false ∨ n ≤ c.degradedCap) : n ≤ T.climbBound c b := by
  have hcap : n ≤ T.climbCap c b := by
    unfold Terminal.climbCap
    rw [hk, Bool.or_false]
    rcases h3 with h3 | h3
    · simp [h3, h1, h2]
    · dsimp only
      split <;> omega
  unfold Terminal.climbBound
  cases T.restoreRung with
  | none => exact hcap
  | some n' => simpa only [if_neg hs] using hcap

/-- A report that drops queues a SHIFT one rung down (R97, R101). -/
theorem decides_drop (hj : T.sector = j) (hf : T.filtered = some f) (hp : T.pendingShift = none) (ha : s.activeBank = some a)
    (hd : T.Drops R.config b f) (hk : Asked k corrects powers) :
    ((s.setSec j { R with controlQueue := corrects ++ powers }).setTerm k T).decideRung j k b =
      (s.setSec j { R with controlQueue := corrects ++ [{ slot := k, kind := .shift, cls := .b }] ++ powers }).setTerm k
        { T with
          climbDwell := 0, pendingShift := some { target := min (T.rung - 1) a.top }
          sticky := { T.sticky with onsetDrop := T.sticky.onsetDrop || decide (4 * b.drop T.rung ≤ f) } } := by
  have hd' := (drops_iff hf hp).2 hd
  have honset : (!belowDrop b T && onset R.config b T) = decide (4 * b.drop T.rung ≤ f) := by
    obtain ⟨-, hor⟩ := hd'
    rw [belowDrop_eq hf hp] at hor ⊢
    by_cases hlow : f < 4 * b.drop T.rung
    · simp [hlow]
    · rw [decide_eq_false hlow, Bool.false_or] at hor
      simp [hlow, hor, Nat.not_lt.1 hlow]
  rw [decide_drop (State.setSec_sec_same _ _ _) hj hp ha (by exact hd') rfl hk, setSec_setSec, honset]

/-- A report that climbs, with the dwell served, queues a SHIFT one rung up (R100, R101). -/
theorem decides_climb {goal : Nat} (hj : T.sector = j) (hf : T.filtered = some f) (hp : T.pendingShift = none)
    (ha : s.activeBank = some a) (hd : ¬T.Drops R.config b f) (hg : T.climbBound R.config b = goal) (hc : T.Climbs b f goal)
    (hw : T.governingDwell R.config ≤ T.climbDwell + 1) (hr : T.rung ≤ a.top) (hk : Asked k corrects powers) :
    ((s.setSec j { R with controlQueue := corrects ++ powers }).setTerm k T).decideRung j k b =
      (s.setSec j { R with controlQueue := corrects ++ powers ++ [{ slot := k, kind := .shift, cls := .d }] }).setTerm k
        { T with climbDwell := 0, pendingShift := some { target := min (T.rung + 1) a.top } } := by
  have hnd := mt (drops_iff hf hp).1 hd
  have hcond : T.climbCondition R.config b = true := (climbs_iff hf hp).2 (hg ▸ hc)
  rw [decide_climb (State.setSec_sec_same _ _ _) hj hp ha (by exact hnd) (by exact hcond) (by exact hw) hr rfl hk,
    setSec_setSec]

/-- A report that climbs before the dwell is served counts toward it (R100). -/
theorem decides_wait {goal : Nat} (hR : X.sec j = R) (hf : T.filtered = some f) (hp : T.pendingShift = none)
    (hd : ¬T.Drops R.config b f) (hg : T.climbBound R.config b = goal) (hc : T.Climbs b f goal)
    (hw : T.climbDwell + 1 < T.governingDwell R.config) :
    (X.setTerm k T).decideRung j k b = X.setTerm k { T with climbDwell := T.climbDwell + 1 } := by
  rw [decide_dwell hR hp (mt (drops_iff hf hp).1 hd) fun _ => hw, if_pos ((climbs_iff hf hp).2 (hg ▸ hc))]

/-- A report that neither drops nor climbs ends the climb dwell (R100). -/
theorem decides_stay {goal : Nat} (hR : X.sec j = R) (hf : T.filtered = some f) (hp : T.pendingShift = none)
    (hd : ¬T.Drops R.config b f) (hg : T.climbBound R.config b = goal) (hc : ¬T.Climbs b f goal) :
    (X.setTerm k T).decideRung j k b = X.setTerm k { T with climbDwell := 0 } := by
  have hnot : ¬T.climbCondition R.config b = true := by rw [climbs_iff hf hp, hg]; exact hc
  rw [decide_dwell hR hp (mt (drops_iff hf hp).1 hd) fun h => absurd h hnot, if_neg hnot]

/-- The runs of a report: below the drop threshold at rung 0 it counts the floor run (R94). -/
theorem countRuns_eq {floor : Nat} (hf : T.filtered = some f) (hp : T.pendingShift = none)
    (hfloor : floor = if T.rung = 0 ∧ f < 4 * b.drop 0 then T.floorRun + 1 else 0) :
    T.countRuns b = { T with missRun := 0, capKept := false, floorRun := floor } := by
  have hiff : (T.effectiveRung = 0 ∧ belowDrop b T = true) ↔ T.rung = 0 ∧ f < 4 * b.drop 0 := by
    rw [(effectiveRung_none hp).1, belowDrop_eq hf hp, decide_eq_true_eq]
    exact and_congr_right fun h => by rw [h]
  simp only [Terminal.countRuns, hiff, hfloor]

theorem afterRuns_steady (hs : T.state = .inService) (hm : T.missRun = 0) (hfl : T.floorRun = 0) (hp : T.pendingShift = none) :
    (X.setTerm k T).afterRuns j k b = (X.setTerm k T).decideRung j k b := by
  have hservice : T.serviceState = .inService := if_neg (by simp [hm, hfl])
  have hkeep : (X.setTerm k T).toState k .inService = X.setTerm k T :=
    if_pos (.inl (by rw [State.setTerm_term_same, hs]))
  simp only [State.afterRuns, State.setTerm_term_same, hs, hservice, hkeep, (effectiveRung_none hp).2,
    Bool.false_eq_true, if_false]

/-- An offer touches the notice pending of a record only. -/
theorem noticedAs_pending (X : State) (k : Slot) :
    ∃ v : Bool, ∀ T, noticedAs X k T = { T with noticePending := T.noticePending || v } := by
  unfold noticedAs
  split
  · exact ⟨false, fun T => by rw [Bool.or_false]⟩
  · exact ⟨true, fun T => by rw [Bool.or_true]⟩

/-- A report that counts the floor run makes the terminal FADING, and decides no shift (R93, R94). -/
theorem afterRuns_fades (hR : X.sec j = R) (hs : T.state = .inService) (hfl : 0 < T.floorRun) (hf : T.filtered = some f)
    (hp : T.pendingShift = none) (hd : ¬T.Drops R.config b f) (hc : ∀ goal, ¬T.Climbs b f goal) :
    (X.setTerm k T).afterRuns j k b = (X.setTerm k { T with state := .fading, climbDwell := 0 }).offerTerminal k := by
  have hservice : T.serviceState = .fading := if_pos (.inr hfl)
  have hann : (noticedAs X k { T with state := .fading }).announced = false := by
    unfold noticedAs
    split <;> exact (effectiveRung_none hp).2
  have hfade := toState_set X k T .fading (by simp [hs]) (by simp [hs])
  obtain ⟨v, hv⟩ := noticedAs_pending X k
  simp only [State.afterRuns, State.setTerm_term_same, hs, hservice, hfade, hann, Bool.false_eq_true, if_false]
  rw [offer_set, hv, hv, decides_stay ((noticed_sec _ _ _).trans hR) (by exact hf) (by exact hp) (by exact hd) rfl
    (by exact hc _)]

theorem afterRuns_climbing (hs : T.state = .climbing) (hp : T.pendingShift = none) :
    (X.setTerm k T).afterRuns j k b = ((X.setTerm k T).decideRung j k b).countClimb j k b := by
  simp only [State.afterRuns, State.setTerm_term_same, hs, (effectiveRung_none hp).2, Bool.false_eq_true, if_false]

/-- The count of a climb behind the rung decision: the goal, the phase reports and the timeout (R104). -/
theorem countClimb_set {goal floor : Nat} (hR : X.sec j = R) (hs : T.state = .climbing)
    (hg : T.climbBound R.config b = goal) (hm : T.missRun = 0) (hfl : T.floorRun = floor) :
    (goal ≤ T.rung → (X.setTerm k T).countClimb j k b = State.offerTerminal (X.setTerm k
        { T with state := if floor = 0 then .inService else .fading, restoreRung := none }) k)
      ∧ (T.rung < goal → T.phaseReports + 1 < R.config.climbTimeout →
        (X.setTerm k T).countClimb j k b = X.setTerm k { T with phaseReports := T.phaseReports + 1 })
      ∧ (T.rung < goal → R.config.climbTimeout ≤ T.phaseReports + 1 →
        (X.setTerm k T).countClimb j k b = State.offerTerminal (X.setTerm k
          { T with phaseReports := T.phaseReports + 1, state := if floor = 0 then .inService else .fading }) k) := by
  have hst : (if floor = 0 then TermState.inService else .fading)
      = if 0 < T.missRun ∨ 0 < T.floorRun then .fading else .inService := by
    rw [hm, hfl]
    rcases Nat.eq_zero_or_pos floor with rfl | h
    · rfl
    · rw [if_neg (by omega), if_pos (.inr h)]
  rw [climb_counted hR hs hg hst]
  refine ⟨fun h => if_pos h, fun h hlt => ?_, fun h hge => ?_⟩
  · rw [if_neg (by omega), if_neg (by omega)]
  · rw [if_neg (by omega), if_pos hge]

end

/-- Settles O26: the stages and runs of the report, then its rung decision, and in CLIMBING the count of the climb. -/
theorem reportDecidesTheRung : Obligations.ReportDecidesTheRung := by
  intro j e d k s c b a x f q corrects powers after hw hd hr hps hc hb ha hl hx hf htop hcor hpow hq he hafter
  obtain ⟨hxs, hxp, hxj⟩ := stages_keep c b d (s.term k)
  rw [← hx] at hxs hxp hxj
  rw [hps] at hxp
  rw [(belongs_facts hw.home).2] at hxj
  have hask : Asked k corrects powers := by
    refine ⟨?_, ?_⟩
    · rw [hcor]; split <;> simp
    · rw [hpow]; split <;> simp
  have hruns {floor} (hcar : (s.term k).state ∈ [TermState.inService, .fading, .ramping, .climbing])
      (hfloor : floor = if x.rung = 0 ∧ f < 4 * b.drop 0 then x.floorRun + 1 else 0) (hlt : floor < c.lossLimit) :
      exec (.descriptorWalkStep j) s = .next (((after (corrects ++ powers ++ q)).setTerm k
        { x with missRun := 0, capKept := false, floorRun := floor }).afterRuns j k b) := by
    have hcount := countRuns_eq hf hxp hfloor
    rw [report_runs hw hd hr (carrying_of hcar) hc hb hx hcor hpow hq he (by rw [hcount]; exact hlt), hcount, hafter]
  have hsteady (h : 4 * b.drop x.rung ≤ f) : 0 = if x.rung = 0 ∧ f < 4 * b.drop 0 then x.floorRun + 1 else 0 := by
    rw [if_neg]
    rintro ⟨h0, h1⟩
    rw [h0] at h
    omega
  obtain ⟨w, hwalked⟩ : ∃ w, w = { s.sec j with evaluation := some { e with walked := e.walked + 1 } } := ⟨_, rfl⟩
  obtain rfl : after = fun control => s.setSec j { w with controlQueue := control } := by
    funext control
    rw [hafter, hwalked]
  obtain rfl : c = w.config := by rw [hc, hwalked]
  refine ⟨fun hst => ⟨fun habove hpred hfull => ?_, fun hpos hq hfalls => ?_, fun hzero hbelow henter hlimit => ?_,
    fun sl habove hhorizon hroom henter hslope hrising hmax hcap hserved hq => ?_⟩,
    fun goal floor drops climbs y control hst hg hfloor hlt hdrops hclimbs hcases => ?_⟩
  · have hnd : ¬x.Drops w.config b f := by
      rintro ⟨-, h | ⟨p, h, -⟩⟩
      · omega
      · rw [hpred] at h; cases h
    have hnc (goal) : ¬x.Climbs b f goal := fun ⟨h, _⟩ => Nat.not_le.2 h hfull
    rw [hruns (floor := 0) (by simp [hst]) (hsteady habove) (by omega),
      afterRuns_steady (by exact hxs.trans hst) rfl rfl (by exact hxp),
      decides_stay (State.setSec_sec_same _ _ _) (by exact hf) (by exact hxp) (by exact hnd) rfl (by exact hnc _)]
  · subst hq
    rw [hruns (floor := 0) (by simp [hst]) (if_neg (by omega)).symm (by omega),
      afterRuns_steady (by exact hxs.trans hst) rfl rfl (by exact hxp), List.append_nil,
      decides_drop (by exact hxj) (by exact hf) (by exact hxp) ha (by exact ⟨hpos, hfalls⟩) hask]
  · have hfloor : x.floorRun + 1 = if x.rung = 0 ∧ f < 4 * b.drop 0 then x.floorRun + 1 else 0 :=
      (if_pos ⟨hzero, hbelow⟩).symm
    have hnd : ¬x.Drops w.config b f := fun ⟨h, _⟩ => by omega
    have hnc (goal) : ¬x.Climbs b f goal := fun ⟨_, h, _⟩ => by rw [hzero, Nat.zero_add] at h; omega
    rw [hruns (by simp [hst]) hfloor hlimit, afterRuns_fades (State.setSec_sec_same _ _ _) (by exact hxs.trans hst)
      (Nat.succ_pos _) (by exact hf) (by exact hxp) (by exact hnd) (by exact hnc)]
  · subst hq
    have hnd : ¬x.Drops w.config b f := by
      rintro ⟨-, h | ⟨p, h, -⟩⟩
      · omega
      · simp [prediction, hhorizon, hslope] at h
    have hbound : x.rung + 1 ≤ ({ x with missRun := 0, capKept := false, floorRun := 0 } : Terminal).climbBound
        w.config b := service_bound (by rw [hxs, hst]; decide) rfl hmax hroom hcap
    have hdwell : x.governingDwell w.config = w.config.climbDwell := if_neg (by rw [hxs, hst]; decide)
    rw [hruns (floor := 0) (by simp [hst]) (hsteady habove) (by omega),
      afterRuns_steady (by exact hxs.trans hst) rfl rfl (by exact hxp), List.append_nil,
      decides_climb (by exact hxj) (by exact hf) (by exact hxp) ha (by exact hnd) rfl
        (by exact ⟨hroom, henter, ⟨sl, hslope, hrising⟩, hbound⟩) (by exact hdwell.trans_le hserved)
        (by exact htop) hask]
  · have hclimbing : x.state = .climbing := hxs.trans hst
    have hdwell : x.governingDwell w.config = w.config.recoveryDwell := if_pos hclimbing
    have hbound : ({ x with missRun := 0, capKept := false, floorRun := floor } : Terminal).climbBound w.config b
        = goal := (climbing_bound (by exact hclimbing) rfl).trans hg.symm
    have hdrops' : drops ↔ x.Drops w.config b f := hdrops
    have hclimbs' : climbs ↔ x.Climbs b f goal := hclimbs
    have hdecided : ((s.setSec j { w with controlQueue := corrects ++ powers ++ q }).setTerm k
        { x with missRun := 0, capKept := false, floorRun := floor }).decideRung j k b
        = (s.setSec j { w with controlQueue := control }).setTerm k y := by
      rcases hcases with ⟨hnd, hnc, rfl, rfl⟩ | ⟨hnd, hc, hw, rfl, rfl⟩ | ⟨hnd, hc, hw, rfl, rfl, rfl⟩
        | ⟨hd, rfl, rfl, rfl⟩
      · rw [decides_stay (State.setSec_sec_same _ _ _) (by exact hf) (by exact hxp) (by exact mt hdrops'.2 hnd)
          (by exact hbound) (by exact mt hclimbs'.2 hnc)]
      · rw [decides_wait (State.setSec_sec_same _ _ _) (by exact hf) (by exact hxp) (by exact mt hdrops'.2 hnd)
          (by exact hbound) (by exact hclimbs'.1 hc) (by exact hw.trans_eq hdwell.symm)]
      · rw [List.append_nil, decides_climb (by exact hxj) (by exact hf) (by exact hxp) ha
          (by exact mt hdrops'.2 hnd) (by exact hbound) (by exact hclimbs'.1 hc) (by exact hdwell.trans_le hw)
          (by exact htop) hask]
      · rw [List.append_nil, decides_drop (by exact hxj) (by exact hf) (by exact hxp) ha (by exact hdrops'.1 hd) hask]
    obtain ⟨hys, hyr, hyp, hym, hyf, hyb⟩ : y.state = .climbing ∧ y.rung = x.rung ∧ y.phaseReports = x.phaseReports
        ∧ y.missRun = 0 ∧ y.floorRun = floor ∧ y.climbBound w.config b = goal := by
      rcases hcases with ⟨-, -, -, rfl⟩ | ⟨-, -, -, -, rfl⟩ | ⟨-, -, -, -, -, rfl⟩ | ⟨-, -, -, rfl⟩
      iterate 4 · exact ⟨hclimbing, rfl, rfl, rfl, rfl, (climbing_bound (by exact hclimbing) rfl).trans hg.symm⟩
    rw [hruns (by simp [hst]) hfloor hlt, afterRuns_climbing (by exact hclimbing) (by exact hxp), hdecided, ← hyr, ← hyp]
    obtain ⟨hreached, hcounted, htimeout⟩ := countClimb_set (State.setSec_sec_same s j
      { w with controlQueue := control }) hys hyb hym hyf
    exact ⟨fun h => congrArg _ (hreached h), fun h hlt => congrArg _ (hcounted h hlt),
      fun h hge => congrArg _ (htimeout h hge)⟩

/-! ## Verification bursts (R128 to R133) -/

section
variable {X : State} {R : SectorRec} {T : Terminal} {a : LadderBank}

/-- A terminal record with DEGRADED set. -/
def Terminal.markedDegraded (t : Terminal) : Terminal := { t with sticky := { t.sticky with degraded := true } }

theorem setDegraded_set : (X.setTerm k T).setDegraded k = if T.sticky.degraded = true then X.setTerm k T.markedDegraded
    else (noticed X k).setTerm k (noticedAs X k T.markedDegraded) := by
  unfold State.setDegraded
  rw [State.setTerm_term_same]
  split
  · next h =>
    have hsame : T.markedDegraded = T := by
      unfold Terminal.markedDegraded
      rw [← h]
    rw [hsame]
  · rw [modTerm_setTerm, offer_set]
    rfl

/-- What offers the terminal behind the setting of DEGRADED offers it once. -/
theorem setDegraded_then {C : State → State} {F : Terminal → Terminal} {R' : SectorRec}
    (hC : ∀ (Y : State) (T' : Terminal), T'.sector = T.sector → T'.state = T.state → T'.attemptCount = T.attemptCount →
      Y.activeBank = X.activeBank → C ((Y.setSec j R).setTerm k T') = ((Y.setSec j R').setTerm k (F T')).offerTerminal k)
    (hF : ∀ t, F { t with noticePending := true } = { F t with noticePending := true }) :
    C (((X.setSec j R).setTerm k T).setDegraded k) = ((X.setSec j R').setTerm k (F T.markedDegraded)).offerTerminal k := by
  rw [setDegraded_set]
  split
  · exact hC X _ rfl rfl rfl rfl
  · rw [noticed_setSec, hC (noticed X k) _ (by unfold noticedAs; split <;> rfl) (by unfold noticedAs; split <;> rfl)
      (by unfold noticedAs; split <;> rfl) (noticed_active X k), ← noticed_setSec]
    exact offer_once hF

/-- A verification pass takes the terminal out of the window into RAMPING and offers it (R132). -/
theorem verificationPass_set (hj : T.sector = j) (hs : T.state = .verifying) (ha : X.activeBank = some a) :
    ((X.setSec j R).setTerm k T).verificationPass k = ((X.setSec j (R.drop k)).setTerm k
      { T.passed (min T.maxRung a.top) with state := .ramping }).offerTerminal k := by
  have hactive : (X.setSec j (R.drop k)).activeBank = some a := ha
  unfold State.verificationPass
  dsimp only
  rw [leave_set hj, modTerm_setTerm, bound_active hactive, toState_set _ _ _ _ (by simp [Terminal.passed, Terminal.fresh, hs])
    (by simp [Terminal.passed, Terminal.fresh, hs]), offer_set]
  rfl

/-- A terminal record after the comparison of its verification burst (R129 to R131). -/
def Terminal.judged (c : SectorConfig) (seed : Nat) (d : Burst) (t : Terminal) : Terminal :=
  { stages1to3 c d t with expectedBurst := none, verification := t.verification.compared seed d.payload c }

theorem judged_eq {c : SectorConfig} {seed : Nat} {d : Burst} {t x : Terminal} {o : VerifyOutcome} {failed : List Nat}
    (hx : x = stages1to3 c d t) (hf : failed = failingBlocks seed d.payload c.verifyBlocks)
    (ho : outcomeOf c.verifyTolerance failed.length = o) : t.judged c seed d =
      { x with
        expectedBurst := none
        verification :=
          { x.verification with
            completed := true, outcome := o, failedBlocks := failed.length
            firstFault := failed.head?.map (faultOf seed d.payload) } } := by
  subst hx hf ho
  rfl

/-- What the comparison does, by its outcome (R131). -/
theorem compareVerify_set {seed : Nat} {d : Burst} {t : Terminal} (hX : X.sec j = R) (ht : X.term k = t)
    (hseed : seed = verifySeed k t.attemptCount t.verification.startFrame) (hT : t.judged R.config seed d = T) :
    (T.verification.outcome = .clean → X.compareVerify j k d =
        (X.setTerm k { T.keepCap with sticky := { T.sticky with degraded := false } }).verificationPass k)
      ∧ (T.verification.outcome = .degraded → X.compareVerify j k d = ((X.setTerm k T).setDegraded k).verificationPass k)
      ∧ (T.verification.outcome = .failed →
        X.compareVerify j k d = ((X.setTerm k T).setDegraded k).attemptFailure j k) := by
  have hcfg : X.cfg j = R.config := by rw [State.cfg, hX]
  have hmod : (X.modTerm k fun t => { stages1to3 R.config d t with
      expectedBurst := none, verification := t.verification.compared seed d.payload R.config }) = X.setTerm k T := by
    rw [← hT, ← ht]; rfl
  unfold State.compareVerify
  simp only [hcfg, ht, ← hseed, hmod, State.setTerm_term_same]
  refine ⟨?_, ?_, ?_⟩ <;> intro ho <;> simp only [ho, modTerm_setTerm]

theorem failingBlocks_pattern (seed n : Nat) (extra : List Byte) : failingBlocks seed (((List.range n).map fun i =>
    (List.range 16).map fun b => BitVec.ofNat 8 (seed + 29 * i + 7 * b)).flatten ++ extra) n = [] := by
  refine List.filter_eq_nil_iff.2 fun i hi => ?_
  have hblock := block_take seed ((List.range n).map (patternBlock seed)) (by simp [patternBlock]) i (patternBlock seed i) extra
    (by simp [List.getElem?_range (List.mem_range.1 hi)])
  have hpayload : ((List.range n).map (patternBlock seed)).flatten = ((List.range n).map fun i =>
      (List.range 16).map fun b => BitVec.ofNat 8 (seed + 29 * i + 7 * b)).flatten := rfl
  rw [hpayload] at hblock
  simp only [blockFails, hblock, bne_self_eq_false, Bool.false_eq_true, not_false_iff]

/-- A failed attempt below attempt_limit, of a terminal that is not the lead, offers the terminal (R119, R120). -/
theorem fail_offers {n : Nat} (hj : T.sector = j) (hl : R.lead ≠ some k) (hn : n = min (T.attemptCount + 1) 15)
    (hlt : n < R.config.attemptLimit) (hs : T.state = .verifying) :
    ((X.setSec j R).setTerm k T).attemptFailure j k = ((X.setSec j (R.drop k)).setTerm k
      { T with
        state := .deferred, attemptCount := n, expectedBurst := none
        backoff := min (R.config.backoffBase * 2 ^ (n - 1)) R.config.backoffCap + k.val % 8 }).offerTerminal k := by
  rw [fail_deferred hj hl hn hlt (by simp [hs]), offer_set]
  rfl

theorem setDegraded_pass (hj : T.sector = j) (hs : T.state = .verifying) (ha : X.activeBank = some a) :
    (((X.setSec j R).setTerm k T).setDegraded k).verificationPass k = ((X.setSec j (R.drop k)).setTerm k
      { T.markedDegraded.passed (min T.maxRung a.top) with state := .ramping }).offerTerminal k :=
  setDegraded_then (C := fun Y => Y.verificationPass k)
    (F := fun t => { t.passed (min t.maxRung a.top) with state := .ramping })
    (fun _ _ hT hst _ hY => verificationPass_set (hT.trans hj) (hst.trans hs) (hY.trans ha)) fun _ => rfl

theorem setDegraded_fail {n : Nat} (hj : T.sector = j) (hl : R.lead ≠ some k) (hn : n = min (T.attemptCount + 1) 15)
    (hlt : n < R.config.attemptLimit) (hs : T.state = .verifying) :
    (((X.setSec j R).setTerm k T).setDegraded k).attemptFailure j k = ((X.setSec j (R.drop k)).setTerm k
      { T.markedDegraded with
        state := .deferred, attemptCount := n, expectedBurst := none
        backoff := min (R.config.backoffBase * 2 ^ (n - 1)) R.config.backoffCap + k.val % 8 }).offerTerminal k :=
  setDegraded_then (C := fun Y => Y.attemptFailure j k)
    (F := fun t =>
      { t with
        state := .deferred, attemptCount := n, expectedBurst := none
        backoff := min (R.config.backoffBase * 2 ^ (n - 1)) R.config.backoffCap + k.val % 8 })
    (fun _ _ hT hst hc _ => fail_offers (hT.trans hj) hl (by rw [hc]; exact hn) hlt (hst.trans hs)) fun _ => rfl

end

/-- Settles O31: by the number of failed blocks, and for each outcome by the record it leaves. -/
theorem verificationIsCompared : Obligations.VerificationIsCompared := by
  intro j e m d k s r a seed x pass hw hd hr hst hexp hsec ha hlead hqueue hswept hm hseed hx hpass
  obtain ⟨-, hj⟩ := belongs_facts hw.home
  have hxj : x.sector = j := by rw [hx]; exact hj
  have hxs : x.state = .verifying := by rw [hx]; exact hst
  have hxa : x.attemptCount = (s.term k).attemptCount := by rw [hx]; rfl
  have hdrop : SectorRec.drop k { r with evaluation := some m }
      = { r with evaluation := some m, window := r.window.filter fun i => i != k } :=
    drop_eq hqueue rfl (by rw [hm, hswept]; rfl)
  have hexec : exec (.descriptorWalkStep j) s = .next ((s.setSec j { r with evaluation := some m }).compareVerify j k d) := by
    rw [verify_base hw hd hst hexp, hm, State.judgeVerify, if_pos hr, State.movedOn, hsec]
  rw [hexec]
  have hcompare {T : Terminal} (hT : (s.term k).judged r.config seed d = T) :=
    compareVerify_set (X := s.setSec j { r with evaluation := some m }) (d := d) (State.setSec_sec_same _ _ _) rfl hseed hT
  refine ⟨fun extra hpay => congrArg _ ?_, ?_⟩
  · have hfailed : [] = failingBlocks seed d.payload r.config.verifyBlocks := by
      rw [hpay, failingBlocks_pattern]
    obtain ⟨hclean, -, -⟩ := hcompare (judged_eq hx hfailed rfl)
    rw [hclean rfl, verificationPass_set (by exact hxj) (by exact hxs) ha, hdrop, hpass]
    rfl
  · intro failed hfailed
    refine ⟨fun h1 h2 => congrArg _ ?_, fun n hlt hn hlimit => congrArg _ ?_⟩
    · have ho : outcomeOf r.config.verifyTolerance failed.length = .degraded := by
        rw [outcomeOf, if_neg (by omega), if_pos h2]
      obtain ⟨-, hdegraded, -⟩ := hcompare (judged_eq hx hfailed ho)
      rw [hdegraded rfl, setDegraded_pass (by exact hxj) (by exact hxs) ha, hdrop, hpass]
      rfl
    · have ho : outcomeOf r.config.verifyTolerance failed.length = .failed := by
        rw [outcomeOf, if_neg (by omega), if_neg (by omega)]
      obtain ⟨-, -, hfail⟩ := hcompare (judged_eq hx hfailed ho)
      rw [hfail rfl, setDegraded_fail (n := n) (by exact hxj) (by exact hlead) (by rw [hxa]; exact hn)
        (by exact hlimit) (by exact hxs), hdrop]
      rfl

/-! ## Requests of the terminal table, and what the owning blocks refuse (R34 to R37, R155) -/

theorem slotAt_of {ps : List Byte} {i : Nat} (h : nat16 ps i = k.val) : slotAt ps i = some k := by
  simp [slotAt, h]

theorem slotAt_none {ps : List Byte} {i : Nat} (h : 320 ≤ nat16 ps i) : slotAt ps i = none :=
  dif_neg (Nat.not_lt.2 h)

theorem sectorAt_of {ps : List Byte} {i : Nat} (h : (byteAt ps i).toNat = j.val) : sectorAt ps i = some j := by
  simp [sectorAt, sectorOfByte, h]

theorem sectorAt_none {ps : List Byte} {i : Nat} (h : 12 ≤ (byteAt ps i).toNat) : sectorAt ps i = none :=
  dif_neg (Nat.not_lt.2 h)

/-- A request whose slot parameter is out of range is refused by its owning block (check 1 of its rule). -/
theorem bad_slot_refused {f : RequestKind} {body : List Byte → Answer} {hi lo : Byte} {rest : List Byte}
    (hm : s.mode = .running) (hl : r.length = 2) (hb : r.bytes = hi :: lo :: rest) (h : 320 ≤ 256 * hi.toNat + lo.toNat)
    (ht : takesLength f 2 = true) (hbody : ∀ ps, slotAt ps 0 = none → body ps = s.refuse .badParameter) :
    s.serve f r body = s.emit (soleReply (functionCode f) r.tag 0x03 []) := by
  have h2 : r.length.toNat = 2 := by rw [hl]; rfl
  rw [serve_run hm (by omega) (by rw [h2, hb]; simp) (by rw [h2]; exact ht), hbody _ (slot_bad hl hb h), answered_refuse]
  rfl

/-- A request whose sector parameter, its first byte, is out of range is refused by its owning block. -/
theorem bad_sector_refused {f : RequestKind} {body : List Byte → Answer} {b : Byte} {rest : List Byte} {n : Nat}
    (hm : s.mode = .running) (hl : r.length.toNat = n + 1) (hn : n < 64) (hlong : n + 1 ≤ r.bytes.length)
    (hb : r.bytes = b :: rest) (h : 12 ≤ b.toNat) (ht : takesLength f (n + 1) = true)
    (hbody : ∀ ps, sectorAt ps 0 = none → body ps = s.refuse .badParameter) :
    s.serve f r body = s.emit (soleReply (functionCode f) r.tag 0x03 []) := by
  have hp : parameters r = b :: rest.take n := by rw [parameters, hl, hb]; rfl
  rw [serve_run hm (by omega) (by omega) (by rw [hl]; exact ht), hbody _ (sector_bad hp h), answered_refuse]
  rfl

/-- The refusal of a request for one slot by its owning block. -/
theorem slot_refused {f : RequestKind} {body : List Byte → Answer} (st : Status) (hm : s.mode = .running) (hk : ForSlot r k)
    (ht : takesLength f 2 = true) (hbody : ∀ ps, slotAt ps 0 = some k → body ps = s.refuse st) :
    s.serve f r body = s.emit (soleReply (functionCode f) r.tag (statusCode st) []) := by
  obtain ⟨-, -, hslot⟩ := slot_params hk
  rw [slot_serve hm hk ht, hbody _ hslot, answered_refuse]

/-- The refusal of a request for one sector by its owning block. -/
theorem sector_refused {f : RequestKind} {body : List Byte → Answer} (st : Status) (hm : s.mode = .running)
    (hr : ForSector r j) (ht : takesLength f 1 = true) (hbody : ∀ ps, sectorAt ps 0 = some j → body ps = s.refuse st) :
    s.serve f r body = s.emit (soleReply (functionCode f) r.tag (statusCode st) []) := by
  obtain ⟨-, -, hsec⟩ := sector_params hr
  rw [sector_serve hm hr ht, hbody _ hsec, answered_refuse]

/-- The seven parameter bytes of PROVISION TERMINAL read back as what they carry. -/
theorem provisionParams_some {b0 b1 b2 b3 b4 b5 b6 : Byte} {a : BitVec 12} {p : Fin 4} (hk : k.val = 256 * b0.toNat + b1.toNat)
    (hj : j.val = b2.toNat) (ha : a.toNat = 256 * b3.toNat + b4.toNat) (h1 : 1 ≤ a.toNat) (h2 : a.toNat ≤ 4094)
    (hp : p.val = b5.toNat) (hm : b6.toNat ≤ 15) : provisionParams [b0, b1, b2, b3, b4, b5, b6]
      = some { slot := k, sector := j, address := a, priority := p, maxRung := b6.toNat } := by
  have hslot : slotAt [b0, b1, b2, b3, b4, b5, b6] 0 = some k := slotAt_of ((nat16_pair _ 0).trans hk.symm)
  have hsec : sectorAt [b0, b1, b2, b3, b4, b5, b6] 2 = some j := sectorAt_of hj.symm
  have haddr : nat16 [b0, b1, b2, b3, b4, b5, b6] 3 = a.toNat := (nat16_pair _ 3).trans ha.symm
  have hprio : nat8 [b0, b1, b2, b3, b4, b5, b6] 5 = p.val := hp.symm
  have hmax : nat8 [b0, b1, b2, b3, b4, b5, b6] 6 = b6.toNat := rfl
  simp only [provisionParams, hslot, hsec, haddr, hprio, hmax, h1, h2, hm, and_self, if_true, p.isLt, dif_pos,
    BitVec.ofNat_toNat, BitVec.setWidth_eq]

/-- A parameter of PROVISION TERMINAL out of its range leaves none (check 1 of R34). -/
theorem provisionParams_none {b0 b1 b2 b3 b4 b5 b6 : Byte} (h : 320 ≤ 256 * b0.toNat + b1.toNat ∨ 12 ≤ b2.toNat
      ∨ 256 * b3.toNat + b4.toNat = 0 ∨ 4095 ≤ 256 * b3.toNat + b4.toNat ∨ 4 ≤ b5.toNat ∨ 16 ≤ b6.toNat) :
    provisionParams [b0, b1, b2, b3, b4, b5, b6] = none := by
  have haddr : nat16 [b0, b1, b2, b3, b4, b5, b6] 3 = 256 * b3.toNat + b4.toNat := nat16_pair _ 3
  have hprio : nat8 [b0, b1, b2, b3, b4, b5, b6] 5 = b5.toNat := rfl
  have hmax : nat8 [b0, b1, b2, b3, b4, b5, b6] 6 = b6.toNat := rfl
  unfold provisionParams
  rcases h with h | h | h
  · have hslot : slotAt [b0, b1, b2, b3, b4, b5, b6] 0 = none := slotAt_none (by rw [nat16_pair]; exact h)
    rw [hslot]
  · have hsec : sectorAt [b0, b1, b2, b3, b4, b5, b6] 2 = none := sectorAt_none h
    rw [hsec]
    split
    · next h2 => cases h2
    · rfl
  · split
    · simp only [haddr, hprio, hmax]
      split
      · rw [dif_neg (by omega)]
      · rfl
    · rfl

/-- PROVISION TERMINAL with its seven bytes is taken to its owning block. -/
theorem provision_serve {body : List Byte → Answer} {b0 b1 b2 b3 b4 b5 b6 : Byte} {rest : List Byte} (hm : s.mode = .running)
    (hl : r.length = 7) (hb : r.bytes = b0 :: b1 :: b2 :: b3 :: b4 :: b5 :: b6 :: rest) :
    s.serve .provisionTerminal r body = answered .provisionTerminal r (body [b0, b1, b2, b3, b4, b5, b6]) := by
  have h7 : r.length.toNat = 7 := by rw [hl]; rfl
  have hp : parameters r = [b0, b1, b2, b3, b4, b5, b6] := by rw [parameters, h7, hb]; rfl
  rw [serve_run hm (by omega) (by rw [h7, hb]; simp) (by rw [h7]; rfl), hp]

/-- Settles O43: by the slot, then by whether it is EMPTY. -/
theorem clearHealthClearsStickyFields : Obligations.ClearHealthClearsStickyFields := by
  refine fun r s hm => ⟨fun hi lo rest hl hb h => congrArg _ (bad_slot_refused hm hl hb h rfl fun ps hps => ?_),
    fun k hk => ⟨fun he => congrArg _ (slot_refused .wrongState hm hk rfl fun ps hps => ?_), fun he => ?_⟩⟩
  · simp only [hps]
  · simp only [hps, he, if_true]
  · obtain ⟨-, -, hslot⟩ := slot_params hk
    simp only [exec, execClearHealth]
    rw [slot_serve hm hk rfl]
    simp only [hslot]
    rw [if_neg he, answered_accept]
    rfl

/-- The fields of READ TERMINAL's results at their offsets (11-4). -/
def terminalFields (k : Slot) (t : Terminal) : List (Nat × List Byte) :=
  [(0, bytesOf16 k.val), (2, [byteOf t.sector.val]), (3, bytes16 (t.linkAddress.setWidth 16)),
    (5, [byteOf t.priority.val]), (6, [byteOf t.maxRung]), (7, [termStateCode t.state]), (8, [byteOf t.rung]),
    (9, pendingShiftBytes t.pendingShift), (13, optByte (t.restoreRung.map byteOf)),
    (15, optWord (t.lossF.map (BitVec.ofNat 16))), (18, optWord (t.filtered.map (BitVec.ofNat 16))),
    (21, [byteOf t.history.length]), (22, bytesOf16 (t.history.getD 0 0)), (24, bytesOf16 (t.history.getD 1 0)),
    (26, bytesOf16 (t.history.getD 2 0)), (28, bytesOf16 (t.history.getD 3 0)), (30, bytesOf16 (t.history.getD 4 0)),
    (32, bytesOf16 (t.history.getD 5 0)), (34, bytesOf16 (t.history.getD 6 0)), (36, bytesOf16 (t.history.getD 7 0)),
    (38, [byteOf t.lastHeadroom]), (39, [signedByte t.power]), (40, optByte (t.pendingAdjust.map signedByte)),
    (42, [byteOf t.missRun]), (43, [byteOf t.floorRun]), (44, [byteOf t.climbDwell]), (45, [byteOf t.rampSettle]),
    (46, bytesOf16 t.phaseReports), (48, [byteOf t.attemptCount]), (49, [byteOf t.roundCount]),
    (50, optWord t.expectedBurst), (53, bytesOf16 t.backoff), (55, [yesNo t.probed]),
    (56, [yesNo t.verification.started]), (57, [yesNo t.verification.completed]),
    (58, [outcomeCode t.verification.outcome]), (59, bytes16 t.verification.startFrame),
    (61, [byteOf t.verification.failedBlocks]), (62, firstFaultBytes t.verification.firstFault),
    (68, [stickyByte t.sticky]), (69, [perReportByte t.perReport]), (70, [owedByte t.owed]), (71, [yesNo t.noticePending])]

theorem terminalFields_contiguous (k : Slot) (t : Terminal) : Contiguous 0 (terminalFields k t) := by
  simp [terminalFields, Contiguous, optByte_length, optWord_length, ps_length, ff_length, bytes16_length,
    bytesOf16_length]

theorem terminalResults_flatten (k : Slot) (t : Terminal) :
    terminalResults k t = ((terminalFields k t).map (·.2)).flatten := by
  delta terminalResults
  simp only [terminalFields, history_eq, slotBytes, List.map_cons, List.map_nil, List.flatten_cons,
    List.flatten_nil, List.append_assoc, List.cons_append, List.nil_append, List.append_nil]

theorem terminalResults_length (k : Slot) (t : Terminal) : (terminalResults k t).length = 72 := by
  rw [terminalResults_flatten]
  simp [terminalFields, ps_length, ff_length, optByte_length, optWord_length, bytes16_length, bytesOf16_length]

/-- Settles O42: the results are the fields of the list one behind the other. -/
theorem readTerminalShowsTheRecord : Obligations.ReadTerminalShowsTheRecord := by
  refine ⟨fun hi lo rest r s hm hl hb h => congrArg _ (bad_slot_refused hm hl hb h rfl fun ps hps => ?_),
    fun k r s t hm hk ht => ⟨terminalResults k t, ?_, terminalResults_length k t, fun field hf => ?_⟩⟩
  · simp only [hps]
  · obtain ⟨-, -, hslot⟩ := slot_params hk
    simp only [exec, execReadTerminal]
    rw [slot_serve hm hk rfl]
    simp only [hslot]
    rw [answered_ok _ _ _ (by rw [terminalResults_length]; omega), ht]
    rfl
  · refine fields_ok (terminalFields k t) _ 0 (terminalFields_contiguous k t) (terminalResults_flatten k t) field ?_
    unfold terminalFields
    generalize t.pendingShift = shift at hf ⊢
    generalize t.verification.firstFault = fault at hf ⊢
    rcases shift with _ | ⟨p, _ | e⟩ <;> cases fault <;> exact hf

/-- A two-byte field carries the number it was written for. -/
theorem bytes16_number (w : BitVec 16) : 256 * (w.extractLsb' 8 8).toNat + (w.extractLsb' 0 8).toNat = w.toNat :=
  (nat16_pair (bytes16 w ++ []) 0).symm.trans (congrArg BitVec.toNat (bytes16_word w []))

/-- Settles O40: no refusal's test holds, and the record written is the model's new record. -/
theorem provisionFillsTheSlot : Obligations.ProvisionFillsTheSlot := by
  intro k j a p m rest r s hm hl hb h1 h2 hmax he hpop hfree
  have hk := bytes16_number (BitVec.ofNat 16 k.val)
  have ha := bytes16_number (a.setWidth 16)
  rw [BitVec.toNat_ofNat] at hk
  rw [BitVec.toNat_setWidth] at ha
  have hj : (byteOf j.val).toNat = j.val := by simp [byteOf]; omega
  have hp : (byteOf p.val).toNat = p.val := by simp [byteOf]; omega
  have hrung : (byteOf m).toNat = m := by simp [byteOf]; omega
  have hparams := provisionParams_some (b6 := byteOf m) ((by omega : k.val = k.val % 2 ^ 16).trans hk.symm) hj.symm
    ((by omega : a.toNat = a.toNat % 2 ^ 16).trans ha.symm) h1 h2 hp.symm (by omega)
  have hnew : ¬(s.resolve j a).isSome = true := by
    rw [resolve_isSome]
    rintro ⟨i, hi⟩
    exact hfree _ hi rfl
  have hspace : ¬Config.populationLimit ≤ (s.sec j).population := Nat.not_le.2 (Nat.lt_succ_of_le hpop)
  simp only [exec, execProvisionTerminal]
  rw [provision_serve hm hl hb, hparams]
  dsimp only
  rw [if_neg (not_not.2 he), if_neg hspace, if_neg hnew, answered_accept, hrung]
  rfl

/-- Settles O54: every owning block looks at its parameters first, then at the states its request asks for. -/
theorem ownersRefuse : Obligations.OwnersRefuse := by
  intro r s refused hm href
  simp only [href]
  refine ⟨fun f hf hi lo rest hl hb h => ?_, fun f hf b rest hl hb h => ?_, fun b rest hl hlong hb h => ?_,
    fun b0 b1 b2 b3 b4 b5 b6 rest hl hb => ⟨fun h => ?_, fun k j a hk hj ha h1 h2 hp hmax => ?_⟩, fun k hk => ?_,
    fun j x hr hx => ?_⟩
  · simp only [List.mem_cons, List.not_mem_nil, or_false] at hf
    rcases hf with rfl | rfl | rfl | rfl | rfl
    iterate 5 · exact congrArg Host.Outcome.next (bad_slot_refused hm hl hb h rfl fun ps hps => by simp only [hps])
  · simp only [List.mem_cons, List.not_mem_nil, or_false] at hf
    have h1 : r.length.toNat = 0 + 1 := by rw [hl]; rfl
    have hlong : 0 + 1 ≤ r.bytes.length := by rw [hb]; simp
    rcases hf with rfl | rfl | rfl | rfl | rfl | rfl | rfl | rfl
    iterate 8 · exact congrArg _ (bad_sector_refused hm h1 (by omega) hlong hb h rfl fun ps hps => by simp only [hps])
  · have h34 : r.length.toNat = 33 + 1 := by rw [hl]; rfl
    exact congrArg Host.Outcome.next (bad_sector_refused hm h34 (by omega) hlong hb h rfl fun ps hps => by simp only [hps])
  · simp only [exec, execProvisionTerminal]
    rw [provision_serve hm hl hb, provisionParams_none h]
    exact congrArg Host.Outcome.next (answered_refuse _ _ _)
  · simp only [exec, execProvisionTerminal]
    rw [provision_serve hm hl hb, provisionParams_some (p := ⟨b5.toNat, by omega⟩) hk hj ha h1 h2 rfl hmax]
    dsimp only
    refine ⟨fun h => congrArg Host.Outcome.next ?_, fun he hpop hpaired => congrArg Host.Outcome.next ?_⟩
    · by_cases he : (s.term k).state = .empty
      · have hfull : Config.populationLimit ≤ (s.sec j).population := h.resolve_left (not_not.2 he)
        rw [if_neg (not_not.2 he), if_pos hfull]
        exact answered_refuse _ _ _
      · rw [if_pos he]
        exact answered_refuse _ _ _
    · have hspace : ¬Config.populationLimit ≤ (s.sec j).population := Nat.not_le.2 hpop
      rw [if_neg (not_not.2 he), if_neg hspace, if_pos ((resolve_isSome s j a).2 hpaired)]
      exact answered_refuse _ _ _
  · refine ⟨fun he => congrArg _ (slot_refused .wrongState hm hk rfl fun ps hps => ?_),
      fun h => congrArg _ (slot_refused .wrongState hm hk rfl fun ps hps => ?_)⟩
    · simp only [hps, he, if_true]
    · simp only [hps]
      by_cases hheld : (s.term k).state = .held
      · have hs : (s.sec (s.sectorOf k)).state.served = false :=
          Bool.eq_false_iff.2 fun hserved => h.resolve_left (not_not.2 hheld) ((served_iff _).1 hserved)
        rw [if_neg (not_not.2 hheld), if_pos hs]
      · rw [if_pos hheld]
  · subst hx
    have hidle : ¬(s.sec j).InService → (s.sec j).state.served = false := by
      rw [SectorRec.InService, ← served_iff, Bool.not_eq_true]
      exact id
    refine ⟨fun h => congrArg _ (sector_refused .wrongState hm hr rfl fun ps hps => ?_),
      fun hd ha he => congrArg _ (sector_refused .busy hm hr rfl fun ps hps => ?_),
      fun hd => congrArg _ (sector_refused .wrongState hm hr rfl fun ps hps => ?_),
      fun hd hp => congrArg _ (sector_refused .busy hm hr rfl fun ps hps => ?_),
      fun hd hp hne => congrArg _ (sector_refused .wrongState hm hr rfl fun ps hps => ?_),
      fun hs => ⟨congrArg _ (sector_refused .wrongState hm hr rfl fun ps hps => ?_),
        congrArg _ (sector_refused .wrongState hm hr rfl fun ps hps => ?_)⟩,
      fun hs hp => congrArg _ (sector_refused .busy hm hr rfl fun ps hps => ?_),
      fun hs => congrArg _ (sector_refused .wrongState hm hr rfl fun ps hps => ?_),
      fun hc hrec => congrArg _ (sector_refused .wrongState hm hr rfl fun ps hps => ?_)⟩ <;> simp only [hps]
    · by_cases hd : (s.sec j).state = .disabled
      · rw [if_neg (not_not.2 hd), if_pos (Option.isNone_iff_eq_none.2 (h.resolve_left (not_not.2 hd)))]
      · rw [if_pos hd]
    · rw [if_neg (not_not.2 hd), if_neg (fun h => ha (Option.isNone_iff_eq_none.1 h)),
        if_pos (Option.isSome_iff_ne_none.2 he)]
    · rw [if_pos hd]
    · rw [if_neg hd, if_pos hp]
    · obtain ⟨k, hk, hheld⟩ := hne
      have hall : ((s.slotsOf j).all fun k => (s.term k).state == .held) = false :=
        List.all_eq_false.2 ⟨k, mem_slotsOf.2 hk, by simpa using hheld⟩
      rw [if_neg hd, if_neg (by rw [hp]; decide), if_pos hall]
    · rw [if_pos (hidle hs)]
    · rw [if_pos (hidle hs)]
    · rw [if_neg (by rw [(served_iff _).2 hs]; decide), if_pos hp]
    · rw [if_pos hs]
    · rw [if_neg (by rintro (h | h); exacts [hc h, hrec h])]

/-- A sector record after the removal of one of its terminals, the lead choice apart (R35). -/
def SectorRec.vacated (k : Slot) (r : SectorRec) : SectorRec :=
  { r with
    queue := r.queue.filter fun i => i != k
    window := r.window.filter fun i => i != k
    controlQueue := r.controlQueue.filter fun e => e.slot != k
    addressMap := r.addressMap.filter fun p => p.2 != k
    population := r.population - 1
    evaluation := r.evaluation.map fun e =>
      { e with swept := e.swept.filter fun i => i != k, handed := e.handed.filter fun i => i != k } }

/-- The removal of a terminal up to the lead choice: where no other terminal of the sector owes a message, the discards run no
owed scan that adds an entry. -/
theorem removed2_eq (hb : s.belongs j k = true) (ho : ∀ i, s.belongs j i = true → i ≠ k → (s.term i).owed = {}) :
    removed2 s k = (s.setSec j ((s.sec j).vacated k)).setTerm k { noticePending := (s.term k).noticePending } := by
  obtain ⟨-, hj⟩ := belongs_facts hb
  have hT : (s.term k).abortExchange.sector = j := by rw [abort_eq]; exact hj
  have hn : (s.term k).abortExchange.noticePending = (s.term k).noticePending := by rw [abort_eq]
  have habort : s.modTerm k Terminal.abortExchange = (s.setSec j (s.sec j)).setTerm k (s.term k).abortExchange := by
    rw [setSec_same j _ rfl]; rfl
  have hsector : s.sectorOf k = j := hj
  unfold removed2 removed1
  rw [habort, leave_set hT, discard_gen (T := { (s.term k).abortExchange with expectedBurst := none }) hT ho, hsector,
    ← setTerm_setSec_comm, modSec_setSec, setTerm_setSec_comm, modTerm_setTerm, hn]
  simp only [SectorRec.vacated, SectorRec.drop, Evaluation.forget, without, Option.map_map, Function.comp_def]

/-- The lead choice behind a removal finds the terminals that remain as they were. -/
theorem removed2_leadDeparts {m : Slot} (hb : s.belongs j k = true)
    (ho : ∀ i, s.belongs j i = true → i ≠ k → (s.term i).owed = {}) (hn : s.NextLead j k m) :
    (removed2 s k).leadDeparts j = (s.setSec j { (s.sec j).vacated k with lead := some m, leadFailures := 0 }).setTerm k
          { noticePending := (s.term k).noticePending } := by
  have hrem := removed2_eq hb ho
  have hgone : (removed2 s k).belongs j k = false := by rw [hrem]; simp [State.belongs]
  have hothers (i) (hi : i ≠ k) : (removed2 s k).term i = s.term i := by
    rw [hrem, State.setTerm_term, if_neg hi.symm]; rfl
  have hsec : (removed2 s k).sec j = (s.sec j).vacated k := by rw [hrem, State.setTerm_sec, State.setSec_sec_same]
  rw [lead_next hothers (.inl hgone) hn, hsec, hrem, setTerm_setSec_comm, setSec_setSec]

/-- Settles O41: an EMPTY slot is passed over; else the offer stands behind the removal and, for a lead, behind the choice
among the terminals that remain. -/
theorem removeEmptiesTheSlot : Obligations.RemoveEmptiesTheSlot := by
  intro k j r s x hm hk
  obtain ⟨-, -, hslot⟩ := slot_params hk
  simp only [exec, execRemoveTerminal]
  rw [slot_serve hm hk rfl]
  simp only [hslot]
  refine ⟨fun he => ?_, fun hb ho hx => ?_⟩
  · rw [if_pos he, answered_accept]; rfl
  · obtain ⟨hne, hj⟩ := belongs_facts hb
    obtain rfl : x = (s.sec j).vacated k := hx
    rw [if_neg hne, answered_accept, remove_eq, show s.sectorOf k = j from hj]
    refine ⟨fun hl => ?_, fun m hl _ hn => ?_⟩
    · rw [if_neg (by simpa using hl), removed2_eq hb ho]; rfl
    · rw [if_pos (by simpa using hl), removed2_leadDeparts hb ho hn]; rfl

end Sys2Proof.Machine
end

section
/-!
The sectors: the reaction to a sector frame, the release walk, losses and the attempts of a terminal in re-entry, and the requests
that configure, read, reset and silence a sector and hold or release its terminals. The proofs assemble the lemmas of the Laws
files; what those lack stands before its first use.
-/

namespace Sys2Proof.Machine

section
variable {s t : State} {j : Sector} {k : Slot} {r : SectorRec}

/-! ## The reaction to a sector frame (R44, R49, R53 to R56, R62) -/

/-- In CLEAR and in BLIND the reaction does no state work (R44). -/
theorem stateWork_idle (h : (s.sec j).state = .clear ∨ (s.sec j).state = .blind) : s.stateWork j = s := by
  unfold State.stateWork
  rcases h with h | h <;> simp only [h]

/-- In CLEAR and in BLIND the reaction counts no progress (R44). -/
theorem progressStep_idle (h : (s.sec j).state = .clear ∨ (s.sec j).state = .blind) : s.progressStep j = s := by
  unfold State.progressStep
  rcases h with h | h <;> simp only [h]

theorem stateWork_outage (h : (s.sec j).state = .outage) : s.stateWork j = s.countProbe j := by
  unfold State.stateWork
  simp only [h]

/-- In OUTAGE and in RECOVERING the reaction counts its progress (R44, R62). -/
theorem progressStep_counts (h : (s.sec j).state = .outage ∨ (s.sec j).state = .recovering) :
    s.progressStep j = s.countProgress j := by
  unfold State.progressStep
  rcases h with h | h <;> simp only [h]

/-- The progress count: past progress_interval it returns to 0 and the sector is offered (R62). -/
theorem countProgress_eq (hr : s.sec j = r) :
    s.countProgress j = if r.config.progressInterval ≤ r.progressCounter then
        (s.setSec j { r with progressCounter := 0 }).offerSector j
      else s.setSec j { r with progressCounter := r.progressCounter + 1 } := by
  subst hr
  unfold State.countProgress
  simp only [Nat.add_le_add_iff_right]
  rfl

/-- A probe timer above 1 only counts down (R49). -/
theorem countProbe_counts (hr : s.sec j = r) (h : 2 ≤ r.probeTimer) :
    s.countProbe j = s.setSec j { r with probeTimer := r.probeTimer - 1 } := by
  subst hr
  unfold State.countProbe
  dsimp only
  rw [State.modSec, State.setSec_sec_same, if_neg (by dsimp only; omega)]

/-- A probe timer at 1 makes a probe and is reloaded (R49). -/
theorem countProbe_probes (hr : s.sec j = r) (h : r.probeTimer = 1) :
    s.countProbe j = ((s.setSec j { r with probeTimer := 0 }).admitLead j).modSec j
      fun r => { r with probeTimer := r.config.probeInterval } := by
  subst hr
  unfold State.countProbe
  dsimp only
  rw [State.modSec, State.setSec_sec_same, h, if_pos rfl]

/-- A probe of a QUIET lead admits it to the window and offers it (R49, R76). -/
theorem countProbe_admits (hr : s.sec j = r) (h : r.probeTimer = 1) (hl : r.lead = some k) (hk : (s.term k).state = .quiet) :
    s.countProbe j = State.offerTerminal ((s.setSec j
      { r with probeTimer := r.config.probeInterval, window := r.window ++ [k] }).setTerm k (admitted (s.term k))) k := by
  rw [countProbe_probes hr h, State.admitLead, State.setSec_sec_same]
  simp only [hl]
  rw [if_pos (by exact hk), admit_eq _ _ _ (by rw [State.setSec_term, hk]; decide) (by rw [State.setSec_term, hk]; decide),
    offerTerminal_modSec, State.setSec_sec_same, setSec_setSec, ← setTerm_setSec_comm, modSec_setSec]
  rfl

/-- A probe of a lead in the window leaves the lead there (R49). -/
theorem countProbe_leaves (hr : s.sec j = r) (h : r.probeTimer = 1) (hl : r.lead = some k) (hk : (s.term k).state = .ranging) :
    s.countProbe j = s.setSec j { r with probeTimer := r.config.probeInterval } := by
  rw [countProbe_probes hr h, State.admitLead, State.setSec_sec_same]
  simp only [hl]
  rw [if_neg (by rw [State.setSec_term, hk]; decide), modSec_setSec]

/-- The reaction of a sector that does not go BLIND at this frame (R44). -/
theorem reaction_works (hr : s.sec j = r) (hd : 0 < r.controllerDue) (hs : r.state.served = true) (hb : r.goesBlind = false) :
    exec (.sectorFrameReaction j) s = .next (((s.setSec j (counted r)).stateWork j).progressStep j) := by
  rw [sectorFrameReaction_eq hr hd hs, if_neg (by rw [hb]; decide)]

/-- The reaction of an OUTAGE sector at a frame without a probe counts its timer down and its progress (R44, R49, R62). -/
theorem reaction_outage_counts (hr : s.sec j = r) (hd : 0 < r.controllerDue) (ho : r.state = .outage)
    (hb : r.goesBlind = false) (hp : 2 ≤ r.probeTimer) : exec (.sectorFrameReaction j) s
      = .next ((s.setSec j { counted r with probeTimer := r.probeTimer - 1 }).countProgress j) := by
  have hst (x : SectorRec) (hx : x.state = .outage) : ((s.setSec j x).sec j).state = .outage := by
    rw [State.setSec_sec_same, hx]
  rw [reaction_works hr hd (by rw [ho]; rfl) hb, stateWork_outage (hst _ (by exact ho)),
    countProbe_counts (State.setSec_sec_same _ _ _) (by exact hp), setSec_setSec, progressStep_counts (.inl (hst _ (by exact ho)))]
  rfl

/-- PROGRESS_NOTICE takes the whole due reaction. -/
theorem progressNotice_eq (hd : 0 < (s.sec j).controllerDue) (h : s.progressReady j = true) :
    exec (.progressNotice j) s = exec (.sectorFrameReaction j) s := by
  simp only [exec, execProgressNotice, execSectorFrameReaction, if_pos h, if_pos hd]

/-- A progress item is due where the state work leaves the sector in OUTAGE or RECOVERING and its counter at progress_interval
or above (R62). -/
theorem progressReady_of {w : SectorRec} (hr : s.sec j = r) (hd : 0 < r.controllerDue) (hs : r.state.served = true)
    (hb : r.goesBlind = false) (hw : (s.stateWork j).sec j = w) (hst : w.state = .outage ∨ w.state = .recovering)
    (hp : w.config.progressInterval ≤ w.progressCounter) : s.progressReady j = true := by
  subst hr hw
  rcases hst with h | h <;> simp [State.progressReady, SectorRec.controllerReady, hd, hs, hb, h, hp]

/-- Settles O12: by the state of the sector, and in OUTAGE by whether the count gives a progress item. -/
theorem sectorFrameCounts : Obligations.SectorFrameCounts := by
  rintro j s r n hr rfl hd
  refine ⟨fun h => ?_, fun ho hb hp hc => ?_, fun ho hb hp hc => ?_⟩
  · have hserved : r.state.served = true := by rcases h with ⟨h, -⟩ | h <;> rw [h] <;> rfl
    have hstays : r.goesBlind = false := by
      rcases h with ⟨-, h⟩ | h
      · exact not_blind h
      · simp [SectorRec.goesBlind, h, SectorState.work]
    have hidle : ((s.setSec j (counted r)).sec j).state = .clear ∨ ((s.setSec j (counted r)).sec j).state = .blind := by
      rw [State.setSec_sec_same]
      exact h.imp_left And.left
    rw [reaction_works hr hd hserved hstays, stateWork_idle hidle, progressStep_idle hidle]
    rfl
  · rw [reaction_outage_counts hr hd ho (not_blind hb) hp, countProgress_eq (State.setSec_sec_same _ _ _),
      if_neg (by exact Nat.not_le.2 hc), setSec_setSec]
    rfl
  · have hready : s.progressReady j = true := by
      refine progressReady_of hr hd (by rw [ho]; rfl) (not_blind hb)
        (w := { r with probeTimer := r.probeTimer - 1 }) ?_ (.inl ho) hc
      rw [stateWork_outage (by rw [hr]; exact ho), countProbe_counts hr hp, State.setSec_sec_same]
    rw [progressNotice_eq (by rw [hr]; exact hd) hready]
    refine ⟨?_, rfl⟩
    rw [reaction_outage_counts hr hd ho (not_blind hb) hp, countProgress_eq (State.setSec_sec_same _ _ _),
      if_pos (by exact hc), setSec_setSec]
    rfl

/-- Settles O13: the reaction at the blind limit is the entry into BLIND alone. -/
theorem blindEntryKeepsTheWork : Obligations.BlindEntryKeepsTheWork := by
  rintro j s r w n hr rfl hd hst hl
  have hserved : r.state.served = true := by rw [hst]; cases w <;> rfl
  have hwork : r.state.work.isSome = true := by rw [hst]; cases w <;> rfl
  have hblind : r.goesBlind = true := by
    simp only [SectorRec.goesBlind, hwork, Bool.true_and, decide_eq_true_eq]
    exact hl
  have hentry : exec (.sectorFrameReaction j) s = exec (.blindEntry j) s := by
    simp only [exec, execBlindEntry, execSectorFrameReaction, hr, SectorRec.controllerReady, hd, hserved, hblind, decide_true,
      Bool.and_self, if_true]
  have hne : r.state ≠ .blind ∧ r.state ≠ .disabled := by rw [hst]; cases w <;> decide
  have hworking : (counted r).working = some w := working_eq (.inl hst)
  rw [← hentry]
  refine ⟨?_, rfl⟩
  rw [sectorFrameReaction_eq hr hd hserved, if_pos hblind, State.enterBlind, modSec_setSec,
    enterSector_eq (State.setSec_sec_same _ _ _) (by exact hne.1) (by exact hne.2), setSec_setSec, hworking]
  rfl

/-- Settles O14: by whether the lead is QUIET or still in the window, and by whether the count gives a progress item. -/
theorem probeAdmitsTheLead : Obligations.ProbeAdmitsTheLead := by
  rintro j k s r n progress item hr rfl hd ho hb hp hl hprogress hitem
  have hserved : r.state.served = true := by rw [ho]; rfl
  have hprobe : exec (.sectorFrameReaction j) s = exec (.probe j) s := by
    simp [exec, execProbe, execSectorFrameReaction, hr, SectorRec.probeReady, SectorRec.controllerReady, hd, not_blind hb,
      ho, hp, SectorState.served]
  have hcounts (Y : State) (w : SectorRec) (hY : Y.sec j = w) (hst : w.state = .outage) (hc : w.config = r.config)
      (hpc : w.progressCounter = r.progressCounter) :
      Y.progressStep j = item (Y.setSec j { w with progressCounter := progress }) := by
    rw [progressStep_counts (.inl (by rw [hY]; exact hst)), countProgress_eq hY, hitem, hprogress, hc, hpc]
    split <;> rfl
  have hwork : (s.setSec j (counted r)).stateWork j = (s.setSec j (counted r)).countProbe j :=
    stateWork_outage (by rw [State.setSec_sec_same]; exact ho)
  rw [← hprobe, reaction_works hr hd hserved (not_blind hb), hwork]
  refine ⟨fun hk => congrArg Host.Outcome.next ?_, fun hk => congrArg Host.Outcome.next ?_, rfl⟩
  · rw [countProbe_admits (State.setSec_sec_same _ _ _) (by exact hp) (by exact hl) hk, hcounts _ _
      (by rw [State.offerTerminal_sec, State.setTerm_sec, State.setSec_sec_same]) (by exact ho) (by rfl) (by rfl),
      offerTerminal_setSec,
      setTerm_setSec_comm, setSec_setSec, setSec_setSec]
    rfl
  · rw [countProbe_leaves (State.setSec_sec_same _ _ _) (by exact hp) (by exact hl) hk,
      hcounts _ _ (State.setSec_sec_same _ _ _) (by exact ho) (by rfl) (by rfl),
      setSec_setSec, setSec_setSec]
    rfl

end

section
variable {s t : State} {j : Sector} {k : Slot} {r : SectorRec}

theorem mem_offerSector {x : NoticeItem} : x ∈ (s.offerSector j).notices ↔ x ∈ s.notices ∨ x = .sector j := by
  rcases s.offerSector_cases j with ⟨h, he⟩ | ⟨h, he⟩
  · rw [he]
    exact ⟨.inl, fun hx => hx.elim id fun hx => hx ▸ h⟩
  · rw [he]
    exact List.mem_append.trans (or_congr_right List.mem_singleton)

/-- The progress count of a sector that stays RECOVERING (R44, R62). -/
theorem progressStep_recovering (hr : s.sec j = r) (h : r.state = .recovering) :
    (s.progressStep j).sec j =
        { r with progressCounter :=
            if r.config.progressInterval ≤ r.progressCounter then 0 else r.progressCounter + 1 }
      ∧ (r.config.progressInterval ≤ r.progressCounter → .sector j ∈ (s.progressStep j).notices) := by
  rw [progressStep_counts (.inr (by rw [hr]; exact h)), countProgress_eq hr]
  split
  · exact ⟨by rw [State.offerSector_sec, State.setSec_sec_same], fun _ => mem_offerSector.2 (.inr rfl)⟩
  · next hlow => exact ⟨State.setSec_sec_same _ _ _, fun hc => absurd hc hlow⟩

/-- Settles O15: the walk step moves its batch, and the progress count follows where the sector stays RECOVERING. -/
theorem releaseWalkMovesABatch : Obligations.ReleaseWalkMovesABatch := by
  rintro j s r c n batch ahead moved next hr hd hst rfl hb hc hbatch hahead hmoved h0 h1
  have hserved : r.state.served = true := by rw [hst]; rfl
  have hahead' : ahead = (s.slotsOf j).filter fun k => decide (c ≤ k) := by
    rw [hahead, State.slotsOf, allSlots, List.filter_filter]
    exact List.filter_congr fun k _ => Bool.and_comm _ _
  have hsec := State.setSec_sec_same s j (counted r)
  have hw : Walked j (s.setSec j (counted r)) ((s.setSec j (counted r)).stateWork j) moved next :=
    walked (by rw [hsec]; exact hst) (by rw [hsec]; exact hc) (by rw [hsec]; exact hbatch) hahead' hmoved h0 h1
  have hreaction := reaction_works hr hd hserved (not_blind hb)
  obtain ⟨⟨q, hq, hjoined, hperm⟩, hended, hsecs, hterm, hother, hnotices, haround, hout⟩ := hw
  rw [hsec] at hq hperm
  obtain ⟨-, -, hpsecs, hpterm, hpnotices, hparound, hpout⟩ := progress_facts ((s.setSec j (counted r)).stateWork j) j
  have hprogress : ((((s.setSec j (counted r)).stateWork j).progressStep j).sec j =
      { counted r with
        queue := q, state := if next = none then .clear else .recovering, releaseCursor := next
        progressCounter :=
          if next = none ∨ r.config.progressInterval ≤ r.progressCounter then 0 else r.progressCounter + 1 })
      ∧ (next = none ∨ r.config.progressInterval ≤ r.progressCounter →
        .sector j ∈ (((s.setSec j (counted r)).stateWork j).progressStep j).notices) := by
    cases next with
    | none =>
      rw [progressStep_idle (.inl (by rw [hq]; rfl))]
      exact ⟨hq, fun _ => hended rfl⟩
    | some k =>
      obtain ⟨hpsec, hpoffer⟩ := progressStep_recovering hq rfl
      refine ⟨hpsec.trans ?_, fun h => hpoffer (h.resolve_left (by simp))⟩
      simp [counted]
  obtain ⟨hpsec, hpoffer⟩ := hprogress
  have haround' : s.SameAround ((s.setSec j (counted r)).stateWork j) :=
    ⟨haround.1, haround.2, haround.3, haround.4, haround.5, haround.6, haround.7⟩
  refine ⟨_, hreaction, SameAround.trans haround' hparound,
    hpout.trans hout, fun i hi => ?_, fun k hk => (hpterm k).trans (hother k hk),
    fun k hk => ⟨(hpterm k).trans (hterm k hk), ?_, hpnotices _ (hnotices k hk)⟩, ?_, ?_, hpoffer, fun hne hp => ?_⟩
  · rw [hpsecs i hi, hsecs i hi, State.setSec_sec, if_neg hi.symm]
  · rw [hpsec]
    exact hjoined k hk
  · rw [hpsec]
    rfl
  · rw [hpsec]
    exact hperm
  · have hw' : Walked j s (s.stateWork j) moved next :=
      walked (by rw [hr]; exact hst) (by rw [hr]; exact hc) (by rw [hr]; exact hbatch) hahead' hmoved h0 h1
    obtain ⟨⟨q', hq', -, -⟩, -⟩ := hw'
    rw [hr, if_neg hne, if_neg hne] at hq'
    rw [progressNotice_eq (by rw [hr]; exact hd) (progressReady_of hr hd hserved (not_blind hb) hq' (.inr rfl) hp), hreaction]

end

section
variable {s t : State} {j : Sector} {k : Slot} {r : Request}

/-! ## The configuration and the readbacks of a sector (R39 to R41, R126) -/

/-- SET SECTOR with its 34 bytes is taken to its owning block. -/
theorem setSector_serve {body : List Byte → Answer} {c : SectorConfig} {rest : List Byte} (hm : s.mode = .running)
    (hl : r.length = 34) (hb : r.bytes = byteOf j.val :: c.wire ++ rest) :
    s.serve .setSector r body = answered .setSector r (body (byteOf j.val :: c.wire)) := by
  have h34 : r.length.toNat = 34 := by rw [hl]; rfl
  have hwire : (byteOf j.val :: c.wire).length = 34 := by rw [List.length_cons, wire_length]
  have hp : parameters r = byteOf j.val :: c.wire := by rw [parameters, h34, hb]; exact List.take_left' hwire
  rw [serve_run hm (by omega) (by rw [h34, hb, List.length_append]; omega) (by rw [h34]; rfl), hp]

/-- Settles O44: the configuration reads back as it was sent, and its ranges are those the model tests. -/
theorem setSectorReplacesTheConfiguration : Obligations.SetSectorReplacesTheConfiguration := by
  intro j c rest r s hm hl hb hf
  have hsec : sectorAt (byteOf j.val :: c.wire) 0 = some j := sectorOfByte_of j
  simp only [exec, execSetSector]
  rw [setSector_serve hm hl hb]
  simp only [hsec, configOf_wire (byteOf j.val) c hf]
  refine ⟨fun h => ?_, fun h => ?_⟩
  · have hmin : min (s.sec j).probeTimer c.probeInterval
        = if c.probeInterval < (s.sec j).probeTimer then c.probeInterval else (s.sec j).probeTimer := by
      split <;> omega
    rw [if_pos (by exact (right_iff_accepted c).1 h), answered_accept, State.modSec, SectorRec.configure, hmin]
    rfl
  · rw [if_neg (by exact mt (right_iff_accepted c).2 h), answered_refuse]
    rfl

theorem flatten_length {α : Type} (l : List α) (f : α → List Byte) (n : Nat) (h : ∀ x ∈ l, (f x).length = n) :
    (l.map f).flatten.length = n * l.length := by
  rw [List.length_flatten, List.map_map]
  exact sum_const l _ n h

/-- The reply of a request with up to 384 result bytes: one frame or two (R156). -/
theorem answered_sent {f : RequestKind} {results : List Byte} {sent : State} (hlen : results.length ≤ 384)
    (h1 : results.length ≤ 192 → sent = s.emit (soleReply (functionCode f) r.tag 0x00 results))
    (h2 : 192 < results.length → results.length ≤ 384 → sent =
      State.emit (s.emit ([0x93, 0x03, 0xFF, 0x00, 0x00, functionCode f] ++ bytes16 r.tag ++ [0x00, 0x00, 0x00, 192]
          ++ results.take 192))
        ([0x93, 0x03, 0xFF, 0x00, 0x00, functionCode f] ++ bytes16 r.tag
          ++ [0x00, 0x01, 0x01, byteOf (results.length - 192)] ++ results.drop 192)) :
    answered f r (s, some (.ok, results)) = sent := by
  by_cases h : results.length ≤ 192
  · rw [h1 h, answered_ok _ _ _ h]
  · rw [h2 (by omega) hlen]
    exact reply_two s (functionCode f) r.tag .ok results (by omega) hlen

/-- A prior state in the codes of the sector states (11-6, log entry 26). -/
theorem priorBytes_eq (p : Option WorkState) : priorBytes p = (match p with
    | none => ([0, 0] : List Byte)
    | some .clear => [1, 1]
    | some .outage => [1, 2]
    | some .recovering => [1, 3]) := by
  rcases p with _ | _ | _ | _ <;> rfl

theorem optWord_eq (o : Option FrameNo) : optWord o = (match o with
    | none => ([0, 0, 0] : List Byte)
    | some n => 1 :: bytes16 n) := by
  cases o <;> rfl

theorem optWord_slot (o : Option Slot) : optWord (o.map fun k => BitVec.ofNat 16 k.val) = (match o with
    | none => ([0, 0, 0] : List Byte)
    | some k => 1 :: bytesOf16 k.val) := by
  cases o <;> rfl

theorem priorBytes_length (p : Option WorkState) : (priorBytes p).length = 2 := optByte_length _

theorem sectorResults_length (s : State) (j : Sector) : (s.sectorResults j).length = 68 + 4 * (s.sec j).lossLog.length := by
  have hlog := flatten_length (s.sec j).lossLog (fun e => slotBytes e.slot ++ bytes16 e.frame) 4 fun _ _ => rfl
  simp only [State.sectorResults, List.length_append, List.length_cons, List.length_nil, List.length_map, hlog,
    priorBytes_length, optWord_length, bytesOf16_length, config_wire, wire_length, termStates]

theorem queueResults_length (s : State) (j : Sector) : (s.queueResults j).length =
    5 + 4 * (s.sec j).queue.length + 8 * (s.sec j).window.length + 5 * (s.slotsIn j .deferred).length := by
  have hqueue := flatten_length (s.sec j).queue (fun k =>
    slotBytes k ++ [byteOf (s.term k).priority.val, byteOf (s.term k).attemptCount]) 4 fun _ _ => rfl
  have hwindow := flatten_length (s.sec j).window (fun k =>
    slotBytes k ++ [termStateCode (s.term k).state, byteOf (s.term k).roundCount, byteOf (s.term k).attemptCount]
      ++ optWord (s.term k).expectedBurst) 8 fun _ _ => by rw [List.length_append, optWord_length]; rfl
  have hdeferred := flatten_length (s.slotsIn j .deferred) (fun k =>
    slotBytes k ++ [byteOf (s.term k).attemptCount] ++ bytesOf16 (s.term k).backoff) 5 fun _ _ => rfl
  simp only [State.queueResults, List.length_append, List.length_cons, List.length_nil, hqueue, hwindow, hdeferred]
  omega

/-- Settles O45: the results are the model's, and their length says how many frames carry them. -/
theorem sectorReadsShowTheSector : Obligations.SectorReadsShowTheSector := by
  rintro j r s x sent hm hr rfl hsent
  obtain ⟨-, -, hsec⟩ := sector_params hr
  refine ⟨fun results hres hlog => ?_, fun deferred results hdef hres => ?_⟩
  · have hmodel : s.sectorResults j = results := by
      rw [hres]
      simp only [State.sectorResults, config_wire, sector_count, priorBytes_eq, optWord_slot, optWord_eq (s.sec j).lastEvaluated,
        List.append_assoc, List.cons_append, List.nil_append] <;> rfl
    have hlength := sectorResults_length s j
    rw [hmodel] at hlength
    refine ⟨hlength, ?_⟩
    obtain ⟨h1, h2⟩ := hsent 0x21 results
    simp only [exec, execReadSector]
    rw [sector_serve hm hr rfl]
    simp only [hsec]
    rw [hmodel, answered_sent (f := .readSector) (by omega) h1 h2]
  · have hmodel : s.queueResults j = results := by
      rw [hres, hdef, ← slotsIn_eq]
      simp only [State.queueResults, optWord_eq] <;> rfl
    have hlength := queueResults_length s j
    rw [hmodel, slotsIn_eq, ← hdef] at hlength
    refine ⟨hlength, fun hlong => ?_⟩
    obtain ⟨h1, h2⟩ := hsent 0x42 results
    simp only [exec, execReadQueue]
    rw [sector_serve hm hr rfl]
    simp only [hsec]
    rw [hmodel, answered_sent (f := .readQueue) hlong h1 h2]

end

section
variable {s t : State} {j : Sector} {k : Slot} {r : Request}

/-! ## RESET SECTOR (R61) -/

/-- A sector record after RESET SECTOR, with its queue rebuilt (R61). -/
def SectorRec.restarted (queue : List Slot) (x : SectorRec) : SectorRec :=
  { x with
    state := .clear, prior := none, lossLog := [], lead := none, leadFailures := 0, probeTimer := 0
    releaseCursor := none, blindCounter := 0, progressCounter := 0, window := [], controlQueue := [], queue := queue
    evaluation := x.evaluation.map fun e => { e with swept := [] } }

theorem offerSector_around (s : State) (j : Sector) :
    s.SameAround (s.offerSector j) ∧ (s.offerSector j).controllerOut = s.controllerOut := by
  have h := s.offerSector_outside j
  exact ⟨⟨h.mode, h.startUp, h.ladder, h.latch, h.transit, h.radioOut, h.pending⟩, h.controllerOut⟩

theorem offerTerminal_around (s : State) (k : Slot) :
    s.SameAround (s.offerTerminal k) ∧ (s.offerTerminal k).controllerOut = s.controllerOut := by
  have h := s.offerTerminal_outside k
  exact ⟨⟨h.mode, h.startUp, h.ladder, h.latch, h.transit, h.radioOut, h.pending⟩, h.controllerOut⟩

theorem emit_around (s : State) (fr : Frame) : s.SameAround (s.emit fr) := ⟨rfl, rfl, rfl, rfl, rfl, rfl, rfl⟩

theorem setSec_around (s : State) (j : Sector) (x : SectorRec) : s.SameAround (s.setSec j x) :=
  ⟨rfl, rfl, rfl, rfl, rfl, rfl, rfl⟩

/-- An offer of a sector, if one is made, adds at most that sector to the notices. -/
theorem offered_unless {p : Prop} [Decidable p] {u v : State} (h : v = if p then u else u.offerSector j) :
    (∀ k, v.term k = u.term k) ∧ (∀ i, v.sec i = u.sec i) ∧ (∀ x ∈ u.notices, x ∈ v.notices)
      ∧ (¬p → .sector j ∈ v.notices) ∧ u.SameAround v ∧ v.controllerOut = u.controllerOut := by
  subst h
  split
  · next hp => exact ⟨fun _ => rfl, fun _ => rfl, fun _ hx => hx, fun hn => absurd hp hn, SameAround.refl u, rfl⟩
  · exact ⟨u.offerSector_term j, u.offerSector_sec j, fun _ hx => mem_offerSector.2 (.inl hx),
      fun _ => mem_offerSector.2 (.inr rfl), offerSector_around u j⟩

/-- RESET SECTOR takes its turn at each terminal that is not HELD, then the sector's record restarts; a sector that was not CLEAR
is offered (R61). -/
theorem resetSector_turns {moved : List Slot} (hs : (s.sec j).InService)
    (hmoved : moved = (s.slotsOf j).filter fun k => (s.term k).state != .held) :
    ∃ u, Turns j resetTo (fun t => t.state ≠ .waiting) (fun _ r => r) s u moved
      ∧ s.resetSector j = if (s.sec j).state = .clear then u.setSec j ((s.sec j).restarted (s.rebuiltQueue moved))
        else (u.setSec j ((s.sec j).restarted (s.rebuiltQueue moved))).offerSector j := by
  have hnodup : moved.Nodup := hmoved ▸ (slotsOf_nodup s j).filter _
  have hprov (k) (hk : k ∈ moved) : (s.term k).state ≠ .empty := by
    rw [hmoved, List.mem_filter, mem_slotsOf] at hk
    exact (belongs_facts hk.1).1
  obtain ⟨hturns, -⟩ := turns (j := j) (P := fun _ => True) (u := s) (pre := fun t => t.state ≠ .empty)
    (f := State.resetTerminal)
    (fun u k _ h => ⟨reset_turn u k h, trivial⟩) moved hnodup trivial hprov
  refine ⟨_, hturns, ?_⟩
  generalize hu : moved.foldl State.resetTerminal s = u at hturns
  have hsec : u.sec j = s.sec j := hturns.same.trans (foldl_id _ _)
  have hclass (k) : u.classOfSlot k = s.classOfSlot k := by
    unfold State.classOfSlot
    by_cases hk : k ∈ moved
    · obtain ⟨hoffered, hplain⟩ := hturns.term k hk
      by_cases hw : (s.term k).state = .waiting
      · rw [hplain (not_not.2 hw)]; rfl
      · rw [hoffered hw]
        unfold Terminal.offered
        split <;> rfl
    · rw [hturns.other k hk]
  have hqueue : u.rebuiltQueue moved = s.rebuiltQueue moved := by
    rw [State.rebuiltQueue, funext hclass]
    rfl
  unfold State.resetSector
  dsimp only
  rw [← hmoved, hu, State.modSec, hsec, hqueue]
  split
  · next hc =>
    unfold State.enterSector
    rw [if_pos (.inl (by rw [State.setSec_sec_same]; exact hc)), SectorRec.restarted, ← hc]
  · next hc =>
    rw [enterSector_eq (State.setSec_sec_same _ _ _) (by exact hc) (by exact hs.1), setSec_setSec]
    rfl

/-- Settles O48: each terminal's turn, then the record of the sector. -/
theorem resetSectorRestartsReEntry : Obligations.ResetSectorRestartsReEntry := by
  intro j r s moved hm hr hs hmoved
  obtain ⟨-, -, hsec⟩ := sector_params hr
  have hmoved' : moved = (s.slotsOf j).filter fun k => (s.term k).state != .held := by
    rw [hmoved, State.slotsOf, allSlots, List.filter_filter]
    exact List.filter_congr fun k _ => Bool.and_comm _ _
  obtain ⟨u, hturns, hreset⟩ := resetSector_turns hs hmoved'
  have hexec : exec (.resetSector r) s = .next ((s.resetSector j).emit (soleReply 0x26 r.tag 0x00 [])) := by
    simp only [exec, execResetSector]
    rw [sector_serve hm hr rfl]
    simp only [hsec]
    rw [if_neg (by rw [(served_iff _).2 hs]; decide), answered_accept]
    rfl
  generalize s.resetSector j = v at hreset hexec
  obtain ⟨hterm, hsecs, hkept, hoffer, haround, hout⟩ := offered_unless hreset
  refine ⟨_, hexec, SameAround.trans hturns.around.1 (SameAround.trans (setSec_around u j _)
      (SameAround.trans haround (emit_around _ _))), ?_, fun i hi => ?_, fun k hk => ?_, ?_,
    fun k hk => ?_, fun k hk hw => hkept _ ((hturns.notices _).2 (.inr ⟨k, hk, hw, rfl⟩)), hoffer⟩
  · rw [State.emit_controllerOut, hout, State.setSec_controllerOut, hturns.around.2]
  · rw [State.emit_sec, hsecs, State.setSec_sec, if_neg hi.symm, hturns.sec i hi]
  · rw [State.emit_term, hterm, State.setSec_term, hturns.other k hk]
  · rw [State.emit_sec, hsecs, State.setSec_sec_same, State.rebuiltQueue, rebuilt]
    rfl
  · rw [State.emit_term, hterm, State.setSec_term]
    obtain ⟨hoffered, hplain⟩ := hturns.term k hk
    by_cases hw : (s.term k).state = .waiting
    · rw [hplain (not_not.2 hw), resetTo, hw]
      simp
    · rw [hoffered hw, resetTo, Terminal.offered]
      by_cases hn : NoticeItem.terminal k ∈ s.notices <;> simp [hw, hn]

end

section
variable {s t : State} {j : Sector} {k : Slot} {r : Request}

/-! ## FORCE OUTAGE (R47, R48, R60) -/

/-- A silenced record whose terminal owed nothing (R47). -/
theorem silent_owing_nothing {t : Terminal} (h : t.owed = {}) : ({ silent t with probed := false } : Terminal) =
    { t with
      state := .quiet, expectedBurst := none, backoff := 0, roundCount := 0, filtered := none, history := [], power := 0
      pendingAdjust := none, probed := false
      verification :=
        if t.state = .verifying ∧ t.verification.started = true ∧ t.verification.completed = false
            ∧ t.verification.outcome = .none then { t.verification with outcome := .aborted }
        else t.verification } := by
  simp only [silent, h]

/-- Settles O49: FORCE OUTAGE is the declaration of an outage and its reply. -/
theorem forceOutageSilencesTheSector : Obligations.ForceOutageSilencesTheSector := by
  intro j r s moved quiet hm hr hst howed hmoved hquiet
  obtain ⟨-, -, hsec⟩ := sector_params hr
  have hexec : exec (.forceOutage r) s = .next ((s.declareOutage j).emit (soleReply 0x27 r.tag 0x00 [])) := by
    simp only [exec, execForceOutage]
    rw [sector_serve hm hr rfl]
    simp only [hsec]
    rw [if_pos hst, answered_accept]
    rfl
  have hown (k) (hk : k ∈ moved) : s.belongs j k = true := by
    rw [hmoved, List.mem_filter, Bool.and_eq_true] at hk
    exact hk.2.1
  have hdeclared := declared hst howed hmoved hquiet
  generalize s.declareOutage j = v at hexec hdeclared
  obtain ⟨⟨haround, hout⟩, hsecs, houtside, hstill, hsilenced, -, hoffers, lead, hlead, hlast⟩ := hdeclared
  refine ⟨_, hexec, SameAround.trans haround (emit_around _ _), ?_, hsecs, houtside, hstill, fun k hk => ?_, hoffers.1,
    hoffers.2, lead, hlead, hlast⟩
  · rw [State.emit_controllerOut, hout]
  · rw [State.emit_term, hsilenced k hk, silent_owing_nothing (howed k (hown k hk))]

/-! ## Placing a terminal (R45, R108) -/

/-- `Y` is `s` with new records of a sector and a terminal, and an offer of the terminal. -/
structure Placed (s : State) (j : Sector) (k : Slot) (R : SectorRec) (T : Terminal) (Y : State) : Prop where
  around : s.SameAround Y
  out : Y.controllerOut = s.controllerOut
  sec : Y.sec j = R
  secs : ∀ i, i ≠ j → Y.sec i = s.sec i
  self : Y.term k = Terminal.offered s.notices k T
  other : ∀ i, i ≠ k → Y.term i = s.term i
  notices : ∀ x, x ∈ Y.notices ↔ x ∈ s.notices ∨ x = .terminal k

theorem placed (s : State) (j : Sector) (k : Slot) (R : SectorRec) (T : Terminal) :
    Placed s j k R T (State.offerTerminal ((s.setSec j R).setTerm k T) k) := by
  obtain ⟨haround, hout⟩ := offerTerminal_around ((s.setSec j R).setTerm k T) k
  have hset : s.SameAround ((s.setSec j R).setTerm k T) := ⟨rfl, rfl, rfl, rfl, rfl, rfl, rfl⟩
  refine ⟨SameAround.trans hset haround, hout, ?_, fun i hi => ?_, ?_, fun i hi => ?_, fun x => ?_⟩
  · rw [State.offerTerminal_sec, State.setTerm_sec, State.setSec_sec_same]
  · rw [State.offerTerminal_sec, State.setTerm_sec, State.setSec_sec, if_neg hi.symm]
  · rw [offer_term_same, State.setTerm_term_same]
    rfl
  · rw [offer_term_other _ hi, State.setTerm_term, if_neg hi.symm, State.setSec_term]
  · rw [offer_mem]
    rfl

/-- A new record that keeps its terminal in the sector leaves the sector its terminals. -/
theorem Placed.belongs {R : SectorRec} {T : Terminal} {Y : State} (h : Placed s j k R T Y) (hb : s.belongs j k = true)
    (hj : T.sector = j) (hne : T.state ≠ .empty) (i : Slot) : Y.belongs j i = s.belongs j i := by
  by_cases hi : i = k
  · subst hi
    rw [hb, State.belongs_iff, h.self]
    unfold Terminal.offered
    split <;> exact ⟨hne, hj⟩
  · unfold State.belongs
    rw [h.other i hi]

/-- A new sector record behind a placement is part of the placement. -/
theorem setSec_placed (s : State) (j : Sector) (k : Slot) (Q R : SectorRec) (T : Terminal) :
    (State.offerTerminal ((s.setSec j Q).setTerm k T) k).setSec j R = State.offerTerminal ((s.setSec j R).setTerm k T) k := by
  rw [offerTerminal_setSec, setTerm_setSec_comm, setSec_setSec]

/-- A terminal that becomes WAITING joins the queue at the tail of its class and is offered (R29, R108). -/
theorem becomeWaiting_set {X : State} {R : SectorRec} {T : Terminal} (hj : T.sector = j) (hp : T.priority = (X.term k).priority)
    (h1 : T.state ≠ .waiting) (h2 : T.state ≠ .empty) :
    ((X.setSec j R).setTerm k T).becomeWaiting k = State.offerTerminal ((X.setSec j
      { R with queue := insertByClass X.classOfSlot k R.queue }).setTerm k { T with state := .waiting }) k := by
  have hsector : ((X.setSec j R).setTerm k T).sectorOf k = j := by rw [State.sectorOf, State.setTerm_term_same, hj]
  have hclass : ((X.setSec j R).setTerm k T).classOfSlot = X.classOfSlot := by
    funext i
    unfold State.classOfSlot
    rw [State.setTerm_term]
    split
    · next hi => rw [hp, hi]
    · rfl
  rw [State.becomeWaiting, State.joinQueue, hsector, hclass, setSec_setTerm, modSec_setSec, ← setSec_setTerm,
    toState_set _ _ _ _ h1 h2, ← offer_set]

/-- The place of a slot that joins behind its own and the lower classes (R108). -/
theorem insertByClass_between {front back : List Slot} (h1 : ∀ i ∈ front, (s.term i).priority ≤ (s.term k).priority)
    (h2 : ∀ i ∈ back, (s.term k).priority < (s.term i).priority) :
    insertByClass s.classOfSlot k (front ++ back) = front ++ k :: back :=
  insert_split (cls := s.classOfSlot) h1 h2

/-! ## HOLD TERMINAL and RELEASE TERMINAL (R123, R125) -/

/-- A terminal record after HOLD TERMINAL, the offer apart (R123). -/
def Terminal.heldBack (t : Terminal) : Terminal :=
  { t with
    state := .held
    expectedBurst := none
    pendingShift :=
      if t.state = .inService ∨ t.state = .fading ∨ t.state = .ramping ∨ t.state = .climbing then none else t.pendingShift
    owed := {}
    verification :=
      if t.state = .verifying ∧ t.verification.started = true ∧ t.verification.completed = false
          ∧ t.verification.outcome = .none then { t.verification with outcome := .aborted }
      else t.verification }

theorem carrying_iff (st : TermState) :
    st.carrying = true ↔ st = .inService ∨ st = .fading ∨ st = .ramping ∨ st = .climbing := by
  cases st <;> decide

/-- The record HOLD TERMINAL leaves before the discards (R123, steps 1 to 3). -/
theorem heldBack_of (t : Terminal) : ∃ x : Terminal,
    (if ({ t.abortExchange with expectedBurst := none } : Terminal).state.carrying = true then
        { t.abortExchange with expectedBurst := none, pendingShift := none }
      else { t.abortExchange with expectedBurst := none }) = x
      ∧ x.sector = t.sector ∧ x.state = t.state ∧ { x with owed := {}, state := .held } = t.heldBack := by
  refine ⟨_, rfl, ?_⟩
  rw [abort_eq, Terminal.heldBack]
  by_cases hc : t.state.carrying = true
  · rw [if_pos hc, if_pos ((carrying_iff _).1 hc)]
    exact ⟨rfl, rfl, rfl⟩
  · rw [if_neg hc, if_neg (mt (carrying_iff _).2 hc)]
    exact ⟨rfl, rfl, rfl⟩

/-- The hold of a terminal up to the lead choice: where no other terminal of the sector owes a message, the discards run no owed
scan that adds an entry (R123, R145). -/
theorem hold_eq (hb : s.belongs j k = true) (hh : (s.term k).state ≠ .held)
    (ho : ∀ i, s.belongs j i = true → i ≠ k → (s.term i).owed = {}) :
    s.hold k = if s.isOutageLead j k then
        (State.offerTerminal ((s.setSec j (dropped k (s.sec j))).setTerm k (s.term k).heldBack) k).leadDeparts j
      else State.offerTerminal ((s.setSec j (dropped k (s.sec j))).setTerm k (s.term k).heldBack) k := by
  obtain ⟨hne, hj⟩ := belongs_facts hb
  have habort : s.modTerm k Terminal.abortExchange = (s.setSec j (s.sec j)).setTerm k (s.term k).abortExchange := by
    rw [setSec_same j _ rfl]; rfl
  have hT : (s.term k).abortExchange.sector = j := by rw [abort_eq]; exact hj
  have hsector : s.sectorOf k = j := hj
  obtain ⟨x, hx, hxj, hxs, hheld⟩ := heldBack_of (s.term k)
  unfold State.hold
  dsimp only
  rw [hsector, habort, leave_set hT, modTerm_setTerm, hx, discard_gen (hxj.trans hj) ho,
    toState_set _ _ _ _ (by exact hxs.trans_ne hh) (by exact hxs.trans_ne hne), hheld, ← offer_set]
  simp only [dropped, SectorRec.drop, without]
  rfl

/-- The lead choice behind a hold finds the other terminals as they were (R52, R123). -/
theorem hold_leadDeparts {m : Slot} (hn : s.NextLead j k m) :
    (State.offerTerminal ((s.setSec j (dropped k (s.sec j))).setTerm k (s.term k).heldBack) k).leadDeparts j =
      State.offerTerminal ((s.setSec j { dropped k (s.sec j) with lead := some m, leadFailures := 0 }).setTerm k
        (s.term k).heldBack) k := by
  have hp := placed s j k (dropped k (s.sec j)) (s.term k).heldBack
  have hheld : (State.term (State.offerTerminal ((s.setSec j (dropped k (s.sec j))).setTerm k (s.term k).heldBack) k) k).state
      ≠ .quiet := by
    rw [hp.self, Terminal.offered]
    split <;> simp [Terminal.heldBack]
  rw [lead_next hp.other (.inr hheld) hn, hp.sec, setSec_placed]

/-- RELEASE TERMINAL: the record is cleared, and the working state of the sector says where the terminal goes (R125). -/
theorem releaseTerminal_eq (hb : s.belongs j k = true) (hh : (s.term k).state = .held) :
    ((s.sec j).working = some .outage → s.releaseTerminal k =
        State.offerTerminal (s.setTerm k { (s.term k).released with state := .quiet }) k)
      ∧ ((s.sec j).working ≠ some .outage → s.releaseTerminal k = State.offerTerminal ((s.setSec j
        { s.sec j with queue := insertByClass s.classOfSlot k (s.sec j).queue }).setTerm k
          { (s.term k).released with state := .waiting }) k) := by
  obtain ⟨-, hj⟩ := belongs_facts hb
  have hstate : (s.term k).released.state = .held := hh
  have hsector : (s.modTerm k Terminal.released).sectorOf k = j := by rw [State.sectorOf, State.modTerm_term_same]; exact hj
  unfold State.releaseTerminal
  dsimp only
  rw [hsector]
  refine ⟨fun hw => ?_, fun hw => ?_⟩
  · rw [if_pos (by exact hw), State.modTerm, toState_set _ _ _ _ (by simp [hstate]) (by simp [hstate]), ← offer_set]
  · have hset : s.modTerm k Terminal.released = (s.setSec j (s.sec j)).setTerm k (s.term k).released := by
      rw [setSec_same j _ rfl]; rfl
    rw [if_neg (by exact hw), hset, becomeWaiting_set (by exact hj) (by rfl) (by simp [hstate]) (by simp [hstate])]

/-- Settles O53: the hold by whether the terminal is the lead of an OUTAGE, the release by the working state of its sector. -/
theorem holdAndReleaseTerminal : Obligations.HoldAndReleaseTerminal := by
  intro k j r s x u hm hk hb
  obtain ⟨-, -, hslot⟩ := slot_params hk
  obtain ⟨hne, hj⟩ := belongs_facts hb
  simp only [exec, execHoldTerminal, execReleaseTerminal]
  rw [slot_serve hm hk rfl, slot_serve hm hk rfl]
  simp only [hslot]
  refine ⟨fun hh => ?_, fun hh ho hx hu => ?_, fun hh hs hu => ?_⟩
  · rw [if_neg hne, if_pos hh, answered_accept]
    rfl
  · obtain rfl : x = dropped k (s.sec j) := hx
    obtain rfl : u = (s.term k).heldBack := hu
    rw [if_neg hne, if_neg hh, answered_accept, hold_eq hb hh ho]
    refine ⟨fun hl => ?_, fun m hl hst hn => ?_⟩
    · rw [if_neg (by simp [State.isOutageLead, hl])]
      rfl
    · rw [if_pos (by simp [State.isOutageLead, hl, outage_working hst]), hold_leadDeparts hn]
      rfl
  · obtain rfl : u = (s.term k).released := hu
    obtain ⟨hquiet, hwaiting⟩ := releaseTerminal_eq hb hh
    have hserved : ¬(s.sec (s.sectorOf k)).state.served = false := by
      rw [show s.sectorOf k = j from hj, Bool.not_eq_false]
      exact (served_iff _).2 hs
    rw [if_neg (not_not.2 hh), if_neg hserved, answered_accept]
    refine ⟨fun hw => ?_, fun front back hw hq hfront hback => ?_⟩
    · rw [hquiet hw]
      rfl
    · rw [hwaiting hw, hq, insertByClass_between (fun i hi => (hfront i hi).2) fun i hi => (hback i hi).2]
      rfl

end

section
variable {s t X : State} {j : Sector} {k : Slot} {r R : SectorRec} {T : Terminal}

/-! ## Ranging bursts (R50, R113 to R117) -/

/-- A counted round: below ranging_rounds the terminal waits for its next grant, at ranging_rounds the attempt fails (R116,
R117). -/
theorem countRound_set : (X.setTerm k T).countRound j k = if (X.cfg j).rangingRounds ≤ T.roundCount + 1 then
      (X.setTerm k { T with roundCount := T.roundCount + 1, expectedBurst := none }).attemptFailure j k
    else X.setTerm k { T with roundCount := T.roundCount + 1, expectedBurst := none } := by
  have hcfg (T' : Terminal) : (X.setTerm k T').cfg j = X.cfg j := rfl
  unfold State.countRound
  simp only [modTerm_setTerm, hcfg, State.setTerm_term_same]

/-- The record of a first ranging sample (R63, R66, R68). -/
theorem stages1to3_first {c : SectorConfig} {d : Burst} (hf : T.filtered = none) (hh : T.history = []) : stages1to3 c d T =
    { T with
      filtered := some (4 * min d.snr.toNat 200), history := [4 * min d.snr.toNat 200]
      lastHeadroom := min d.headroom.toNat 40 } := by
  simp only [stages1to3, stage23, stage1, hf, hh]
  rfl

/-- The state behind a ranging success, the recovery of the sector apart (R115). -/
theorem rangingSuccess_set {d : Burst} (hX : X.sec j = R) (hj : (X.term k).sector = j) (hst : (X.term k).state = .ranging)
    (hq : R.controlQueue = []) {x : Terminal} (hx : { stages1to3 R.config d (X.term k) with expectedBurst := none } = x) :
    X.rangingSuccess j k d = if X.isOutageLead j k then
        (State.offerTerminal ((X.setSec j { R with controlQueue := [{ slot := k, kind := .verify, cls := .a }] }).setTerm k
          { x with state := .verifying }) k).recover j
      else State.offerTerminal ((X.setSec j { R with controlQueue := [{ slot := k, kind := .verify, cls := .a }] }).setTerm k
        { x with state := .verifying }) k := by
  have hxj : x.sector = j := hx ▸ hj
  have hxs : x.state = .ranging := hx ▸ hst
  have hset : (X.modTerm k fun t => { stages1to3 (X.cfg j) d t with expectedBurst := none }) = X.setTerm k x := by
    rw [State.modTerm, State.cfg, hX, hx]
  have hpending : (noticedAs X k { x with state := .verifying }).sector = j := by unfold noticedAs; split <;> exact hxj
  have hself : noticed X k = (noticed X k).setSec j R := (setSec_same j R (by rw [noticed_sec, hX])).symm
  have hrequest : ((X.setTerm k x).toState k .verifying).request k .verify = State.offerTerminal ((X.setSec j
      { R with controlQueue := [{ slot := k, kind := .verify, cls := .a }] }).setTerm k { x with state := .verifying }) k := by
    rw [toState_set _ _ _ _ (by simp [hxs]) (by simp [hxs]), hself, request_empty hpending hq, ← noticed_setSec, offer_set]
    rfl
  unfold State.rangingSuccess
  dsimp only
  rw [hset, hrequest]

/-- The recovery of an OUTAGE sector behind the ranging success of its lead (R50). -/
theorem recover_offered (hb : s.belongs j k = true) (hj : T.sector = j) (hne : T.state ≠ .empty) (ho : R.state = .outage) :
    (State.offerTerminal ((s.setSec j R).setTerm k T) k).recover j = State.offerSector (State.offerTerminal ((s.setSec j
      { R with
        state := .recovering, progressCounter := 0, lossLog := [], releaseCursor := (s.slotsOf j).head?, lead := none
        leadFailures := 0, probeTimer := 0 }).setTerm k T) k) j := by
  have hp := placed s j k R T
  have hslots : (State.offerTerminal ((s.setSec j R).setTerm k T) k).slotsOf j = s.slotsOf j :=
    List.filter_congr fun i _ => hp.belongs hb hj hne i
  rw [recover_eq hp.sec ho, State.lowestSlot, hslots, setSec_placed]

/-- Settles O30: by whether the burst was received and passes the test, and for a success by whether it is the lead's. -/
theorem rangingIsJudged : Obligations.RangingIsJudged := by
  rintro j e m d k s r b n hw hd hst hexp hr rfl hm rfl
  obtain ⟨-, hj⟩ := belongs_facts hw.home
  obtain ⟨R, hR⟩ : ∃ R, R = { r with evaluation := some m } := ⟨_, rfl⟩
  have hexec : exec (.descriptorWalkStep j) s = .next ((s.setSec j R).judgeRanging j k (s.bank e.held) d) := by
    rw [ranging_base hw hd hst hexp, ← hm, State.movedOn, hr, hR]
  have hsec : (s.setSec j R).sec j = R := State.setSec_sec_same s j R
  have hcfg : (s.setSec j R).cfg j = r.config := by rw [State.cfg, hsec, hR]
  have hself : s.setSec j R = (s.setSec j R).setTerm k (s.term k) := (set_same k _ rfl).symm
  rw [hexec, State.judgeRanging, hcfg]
  refine ⟨fun hrec htiming hdrop hq hf hh => ?_,
    fun hround => ⟨fun hrec => congrArg _ ?_, fun hrec hfail hq => congrArg _ ?_⟩⟩
  · have hpass : rangingPasses r.config (s.bank e.held) d = true := by
      simp only [rangingPasses, Bool.and_eq_true, decide_eq_true_eq]
      exact ⟨htiming, hdrop⟩
    have hsuccess := rangingSuccess_set (d := d) hsec (by exact hj) (by exact hst) (by rw [hR]; exact hq)
      (by rw [stages1to3_first (T := (s.setSec j R).term k) hf hh])
    rw [if_pos hrec, if_pos hpass, hsuccess, setSec_setSec]
    refine ⟨fun hl => ?_, fun hl ho => ?_⟩
    · rw [if_neg (by simp [State.isOutageLead, hR, hl]), hR]
      rfl
    · rw [if_pos (by simp [State.isOutageLead, hR, hl, SectorRec.working, ho]),
        recover_offered hw.home (by exact hj) (by simp) (by rw [hR]; exact ho), hR]
      rfl
  · rw [if_neg (by rw [hrec]; decide), State.noShow, hself, countRound_set, if_neg (by rw [hcfg]; omega), hR, hm,
      State.movedOn, hr]
  · have hfails : rangingPasses r.config (s.bank e.held) d = false := by
      rw [← Bool.not_eq_true]
      simp only [rangingPasses, Bool.and_eq_true, decide_eq_true_eq, not_and_or, not_le]
      exact hfail
    have hset : (s.setSec j R).modTerm k (stagesOfRound ((s.setSec j R).cfg j) (s.bank e.held) d)
        = (s.setSec j R).setTerm k (stagesOfRound r.config (s.bank e.held) d (s.term k)) := by
      rw [State.modTerm, hcfg]
      rfl
    rw [if_pos hrec, if_neg (by rw [hfails]; decide)]
    unfold State.unsuccessfulRound
    dsimp only
    rw [hset, request_empty (by exact hj) (by rw [hR]; exact hq), countRound_set, if_neg, hR]
    · rfl
    · rw [State.cfg, State.setSec_sec_same, hR]
      exact Nat.not_le.2 hround

end

section
variable {s t X : State} {j : Sector} {k : Slot} {r R : SectorRec} {T x : Terminal}

/-! ## Failed attempts (R48, R51, R113, R117, R119, R120, R134) -/

/-- The sweep ends the exchange of a VERIFYING member whose burst did not come (R134). -/
theorem sweepMember_missing {e : Evaluation} (h : (s.term k).expectedBurst = some e.frame.number) (hk : k ∉ e.handed)
    (hst : (s.term k).state = .verifying) : s.sweepMember j k e = s.missingBurst j k := by
  simp only [State.sweepMember, h, hst, if_true]
  rw [if_neg (by rw [List.contains_iff_mem]; exact hk)]
  rfl

/-- The two ways the sweep ends an attempt: the last no-show and the missing verification burst leave the record `x`. -/
def AttemptEnds (s : State) (j : Sector) (e : Evaluation) (k : Slot) (rounds : Nat) (x : Terminal) : Prop :=
  s.SweepsTo j e k .ranging ∧ rounds ≤ (s.term k).roundCount + 1
      ∧ x = { s.term k with roundCount := (s.term k).roundCount + 1, expectedBurst := none }
    ∨ s.SweepsTo j e k .verifying
      ∧ x = { s.term k with
          expectedBurst := none
          verification := { (s.term k).verification with completed := false, outcome := .aborted } }

/-- The sweep step that ends an attempt is the failure of the attempt. -/
theorem attempt_ends {e : Evaluation} (hr : s.sec j = r) (hexp : (s.term k).expectedBurst = some e.frame.number)
    (hk : k ∉ e.handed) (h : AttemptEnds s j e k r.config.rangingRounds x) :
    exec (.windowSweepStep j) s = .next (((s.setSec j { r with evaluation := some { e with swept := k :: e.swept } }).setTerm k
      x).attemptFailure j k) := by
  have hmoved : s.movedOn j { e with swept := k :: e.swept }
      = s.setSec j { r with evaluation := some { e with swept := k :: e.swept } } := by rw [State.movedOn, hr]
  rcases h with ⟨hw, hrounds, rfl⟩ | ⟨hw, rfl⟩
  · rw [sweep_eq hw, sweepMember_noShow (s := s.movedOn j _) hexp hk hw.member, hmoved, State.noShow]
    have hself := set_same (s := s.setSec j { r with evaluation := some { e with swept := k :: e.swept } }) k (s.term k) rfl
    rw [← hself, countRound_set, if_pos (by rw [State.cfg, State.setSec_sec_same]; exact hrounds), hself]
  · rw [sweep_eq hw, sweepMember_missing (s := s.movedOn j _) hexp hk hw.member, hmoved]
    rfl

/-- What the record at the end of an attempt keeps, and the evaluation in flight. -/
theorem AttemptEnds.facts {e : Evaluation} {n : Nat} (h : AttemptEnds s j e k n x) :
    s.belongs j k = true ∧ x.sector = j ∧ (x.state = .ranging ∨ x.state = .verifying)
      ∧ x.attemptCount = (s.term k).attemptCount ∧ x.leadRank = (s.term k).leadRank
      ∧ x.expectedBurst = none ∧ (s.sec j).evaluation = some e ∧ k ∉ e.swept := by
  rcases h with ⟨⟨hflight, -, hturn, hhome, hmember⟩, -, rfl⟩ | ⟨⟨hflight, -, hturn, hhome, hmember⟩, rfl⟩
  · obtain ⟨-, -, -, -, hk⟩ := hturn
    exact ⟨hhome, (belongs_facts hhome).2, .inl hmember, rfl, rfl, rfl, hflight, hk⟩
  · obtain ⟨-, -, -, -, hk⟩ := hturn
    exact ⟨hhome, (belongs_facts hhome).2, .inr hmember, rfl, rfl, rfl, hflight, hk⟩

/-- A member that leaves the window is forgotten by the sweep that has just taken it (R113). -/
theorem drop_swept {e : Evaluation} (he : r.evaluation = some e) (hq : k ∉ r.queue) (hk : k ∉ e.swept) :
    SectorRec.drop k { r with evaluation := some { e with swept := k :: e.swept } }
      = { r with window := r.window.filter fun i => i != k } := by
  have hwithout (l : List Slot) (hl : k ∉ l) : without k l = l :=
    List.filter_eq_self.2 fun i hi => by
      simpa using fun h : i = k => hl (h ▸ hi)
  have hcons : without k (k :: e.swept) = e.swept := by
    rw [without, List.filter_cons_of_neg (by simp)]
    exact hwithout _ hk
  simp only [SectorRec.drop, Option.map_some, Evaluation.forget, hcons, hwithout _ hq, ← he]
  rfl

/-- The choice behind the rotation of a lead, where every other QUIET terminal is marked: the marks of the sector are cleared,
and the best of them all is the lead, the failed one among them (R48, R51). -/
theorem rotation_again {m : Slot} (hb : s.belongs j k = true) (hj : T.sector = j) (hq : T.state = .quiet)
    (hp : T.probed = true) (hrank : T.leadRank = (s.term k).leadRank)
    (hmarked : ∀ i, s.belongs j i = true → i ≠ k → (s.term i).state = .quiet → (s.term i).probed = true)
    (hm : m = k ∨ s.belongs j m = true ∧ (s.term m).state = .quiet)
    (hbest : ∀ i, i = k ∨ s.belongs j i = true ∧ (s.term i).state = .quiet → i ≠ m →
      (s.term i).leadRank < (s.term m).leadRank ∨ (s.term i).leadRank = (s.term m).leadRank ∧ m < i) :
    ∃ t, (State.offerTerminal ((s.setSec j R).setTerm k T) k).leadChoice j = t ∧ s.SameAround t
      ∧ t.controllerOut = s.controllerOut ∧ (∀ i, i ≠ j → t.sec i = s.sec i) ∧ t.sec j = { R with lead := some m }
      ∧ t.term k = Terminal.offered s.notices k { T with probed := false } ∧ .terminal k ∈ t.notices
      ∧ ∀ i, i ≠ k → t.term i = if s.belongs j i = true then { s.term i with probed := false } else s.term i := by
  have hplaced := placed s j k R T
  have hagain (R') := setSec_placed s j k R R' T
  generalize State.offerTerminal ((s.setSec j R).setTerm k T) k = Y at hplaced hagain
  obtain ⟨v, hv⟩ := offered_eq s.notices k T
  have hself : Y.term k = { T with noticePending := v } := hplaced.self.trans hv
  have hother := hplaced.other
  have hbelongs := hplaced.belongs hb hj (by rw [hq]; decide)
  have hranks (i) : (Y.term i).leadRank = (s.term i).leadRank := by
    by_cases hi : i = k
    · subst hi
      rw [hself, ← hrank]
      rfl
    · rw [hother i hi]
  have hquiet (i) (h1 : Y.belongs j i = true) (h2 : (Y.term i).state = .quiet) :
      i = k ∨ s.belongs j i = true ∧ (s.term i).state = .quiet := by
    by_cases hi : i = k
    · exact .inl hi
    · rw [hbelongs] at h1
      rw [hother i hi] at h2
      exact .inr ⟨h1, h2⟩
  have hkquiet : (Y.term k).state = .quiet ∧ (Y.term k).probed = true := by
    rw [hself]
    exact ⟨hq, hp⟩
  obtain ⟨ts, hchoice, hterms⟩ := lead_again (Y := Y) (j := j) (m := m) (by
      rw [hbelongs]
      by_cases hi : m = k
      · subst hi
        exact ⟨hb, hkquiet.1⟩
      · rw [hother m hi]
        exact hm.resolve_left hi)
    (fun i h1 h2 => by
      by_cases hi : i = k
      · subst hi
        exact hkquiet.2
      · rw [hother i hi]
        rw [hbelongs] at h1
        rw [hother i hi] at h2
        exact hmarked i h1 hi h2)
    (fun i h1 h2 hne => by
      rw [hranks, hranks]
      exact hbest i (hquiet i h1 h2) hne)
  have haround := hplaced.around
  rw [hplaced.sec] at hchoice
  refine ⟨_, hchoice, ⟨haround.1, haround.2, haround.3, haround.4, haround.5, haround.6, haround.7⟩, hplaced.out,
    fun i hi => Eq.trans ?_ (hplaced.secs i hi), State.setSec_sec_same Y j _, (hterms k).trans ?_,
    (hplaced.notices _).2 (.inr rfl), fun i hi => (hterms i).trans ?_⟩
  · exact (State.setSec_sec Y j i _).trans (if_neg hi.symm)
  · rw [hbelongs, if_pos hb, hplaced.self]
    unfold Terminal.offered
    split <;> rfl
  · rw [hbelongs, hother i hi]

/-- Settles O33: by whether the terminal is the lead of the sector, and then by its counts. -/
theorem attemptFailureEndsTheAttempt : Obligations.AttemptFailureEndsTheAttempt := by
  intro j e k s r n x quiet hr hexp hhanded hqueue hn hends hquiet
  have hends : AttemptEnds s j e k r.config.rangingRounds x := hends
  obtain ⟨hb, hj, hst, hcount, hrank, hnone, hflight, hswept⟩ := hends.facts
  rw [hr] at hflight
  have hexec := attempt_ends hr hexp hhanded hends
  have hdrop := drop_swept hflight hqueue hswept
  obtain ⟨R, hR⟩ : ∃ R, R = { r with evaluation := some { e with swept := k :: e.swept } } := ⟨_, rfl⟩
  rw [← hR] at hexec hdrop
  have hne : x.state ≠ .deferred ∧ x.state ≠ .held ∧ x.state ≠ .quiet ∧ x.state ≠ .empty := by
    rcases hst with h | h <;> rw [h] <;> decide
  obtain ⟨hdeferred, hheld, hnquiet, hempty⟩ := hne
  rw [← hcount] at hn
  clear hends hcount
  obtain ⟨y, rfl⟩ : ∃ y, x = { y with expectedBurst := none } := ⟨x, by rw [← hnone]⟩
  have hrotates (hl : r.lead = some k) (ho : r.state = .outage) (hcq : ∀ i ∈ r.controlQueue, i.slot ≠ k)
      (hge : r.config.probeRotate ≤ r.leadFailures + 1) :
      ((s.setSec j R).setTerm k { y with expectedBurst := none }).attemptFailure j k = State.leadChoice (State.offerTerminal
        ((s.setSec j { r with window := r.window.filter fun i => i != k, leadFailures := 0 }).setTerm k
          { quiet with probed := true }) k) j := by
    rw [fail_rotates hj (by rw [hR]; exact hl) (by rw [hR]; exact ho) (by rw [hR]; exact hge) ⟨hnquiet, hempty⟩
      (by rw [hR]; exact hcq), hdrop, offer_set, noticed_setSec, hquiet]
    rfl
  rw [hexec]
  refine ⟨fun hl hlt => congrArg _ ?_, fun hl hge hcq => congrArg _ ?_, fun hl ho hcq => ⟨fun hlt => congrArg _ ?_,
    fun m hge hnext => congrArg _ ?_, fun m hge hmarked hm hbest => ?_⟩⟩
  · rw [fail_deferred hj (by rw [hR]; exact hl) hn (by rw [hR]; exact hlt) ⟨hdeferred, hempty⟩, hdrop, offer_set, hR]
    rfl
  · rw [fail_held hj (by rw [hR]; exact hl) hn (by rw [hR]; exact hge) ⟨hheld, hempty⟩ (by rw [hR]; exact hcq), hdrop,
      offer_set]
    rfl
  · rw [fail_lead hj (by rw [hR]; exact hl) (by rw [hR]; exact ho) (by rw [hR]; exact hlt) ⟨hnquiet, hempty⟩
      (by rw [hR]; exact hcq), hdrop, offer_set, hquiet, hR]
    rfl
  · rw [hrotates hl ho hcq hge]
    have hp := placed s j k { r with window := r.window.filter fun i => i != k, leadFailures := 0 } { quiet with probed := true }
    have hprobed : (Terminal.offered s.notices k { quiet with probed := true }).probed = true := by
      unfold Terminal.offered
      split <;> rfl
    rw [lead_chosen hp.other (.inr (.inr (by rw [hp.self, hprobed]))) hnext, hp.sec, setSec_placed]
  · have hqj : quiet.sector = j := by rw [hquiet]; exact hj
    have hqs : quiet.state = .quiet := by rw [hquiet]
    have hqrank : quiet.leadRank = (s.term k).leadRank := by rw [hquiet]; exact hrank
    obtain ⟨t, hchoice, hfacts⟩ := rotation_again (R := { r with window := r.window.filter fun i => i != k, leadFailures := 0 })
      (T := { quiet with probed := true }) hb hqj hqs rfl hqrank hmarked hm hbest
    exact ⟨t, congrArg _ ((hrotates hl ho hcq hge).trans hchoice), hfacts⟩

end

section
variable {s t X : State} {j : Sector} {k : Slot} {r R : SectorRec} {T : Terminal} {a : LadderBank} {w : WorkState}

/-! ## Losses (R45 to R48, R92, R95, R96) -/

/-- A terminal record after the declaration of its loss, its place apart: `top` is the top rung of the active ladder (R95, R96). -/
def Terminal.written (top : Nat) (t : Terminal) : Terminal := { t.lost (min t.rung top) with owed := {} }

/-- A miss that reaches loss_limit declares the loss of its terminal (R92, R95, R96). -/
theorem miss_loses {n : FrameNo} (hj : (s.term k).sector = j) (hl : R.config.lossLimit ≤ (s.term k).missRun + 1)
    (ha : s.activeBank = some a) (hcq : ∀ x ∈ R.controlQueue, x.slot ≠ k) :
    (s.setSec j R).miss j k n = ((s.setSec j R).setTerm k ((s.term k).written a.top)).placeLoss j k n := by
  have hmiss : (s.setSec j R).modTerm k (fun t => { t with missRun := t.missRun + 1, climbDwell := 0 })
      = (s.setSec j R).setTerm k { s.term k with missRun := (s.term k).missRun + 1, climbDwell := 0 } := rfl
  have hlimit : ((s.setSec j R).cfg j).lossLimit ≤ (s.term k).missRun + 1 := by
    rw [State.cfg, State.setSec_sec_same]
    exact hl
  have hcfg (T : Terminal) : ((s.setSec j R).setTerm k T).cfg j = (s.setSec j R).cfg j := rfl
  have hactive : (s.setSec j R).activeBank = some a := ha
  unfold State.miss
  dsimp only
  rw [hmiss, hcfg, State.setTerm_term_same, if_pos hlimit]
  unfold State.declareLoss
  dsimp only
  rw [modTerm_setTerm, bound_active hactive, discard_set (by
    rw [show (Terminal.lost _ { s.term k with missRun := (s.term k).missRun + 1, climbDwell := 0 }).sector = j from hj,
      State.setSec_sec_same]
    exact hcq)]
  rfl

/-- The loss log after the append of an entry (R46). -/
theorem appendLoss_eq {e : LossEntry} {window : Nat} {log kept : List LossEntry}
    (hk : kept = log.filter fun x => decide ((e.frame - x.frame).toNat < window)) :
    appendLoss window e log = (if 64 ≤ kept.length then kept.drop 1 else kept) ++ [e] := by
  subst hk
  rfl

/-- A lost terminal is placed by the working state and its entry joins the log; the outage test follows (R45). -/
theorem placeLoss_set {n : FrameNo} {log : List LossEntry} {front back : List Slot} (hj : T.sector = j)
    (hp : T.priority = (s.term k).priority) (hs : T.state.carrying = true) (hw : R.working = some w)
    (hlog : appendLoss R.config.outageWindow { slot := k, frame := n } R.lossLog = log)
    (hq : insertByClass s.classOfSlot k R.queue = front ++ k :: back) :
    ((s.setSec j R).setTerm k T).placeLoss j k n = State.outageTest (if w = .outage then
        State.offerTerminal ((s.setSec j { R with lossLog := log }).setTerm k { T with state := .quiet }) k
      else State.offerTerminal ((s.setSec j { R with lossLog := log, queue := front ++ k :: back }).setTerm k
        { T with state := .waiting }) k) j := by
  have hne : T.state ≠ .quiet ∧ T.state ≠ .waiting ∧ T.state ≠ .empty := by
    revert hs
    cases T.state <;> simp [TermState.carrying]
  obtain ⟨hquiet, hwaiting, hempty⟩ := hne
  have hsec : ((s.setSec j R).setTerm k T).sec j = R := State.setSec_sec_same s j R
  unfold State.placeLoss
  dsimp only
  rw [hsec, hw]
  by_cases ho : w = .outage
  · rw [if_pos (congrArg some ho), if_pos ho, toState_set _ _ _ _ hquiet hempty, ← offer_set, offerTerminal_modSec,
      setSec_setTerm, modSec_setSec, hlog]
    rfl
  · rw [if_neg (by simpa using ho), if_neg ho, becomeWaiting_set hj hp hwaiting hempty, offerTerminal_modSec, setSec_setTerm,
      modSec_setSec, hq, hlog]
    rfl

/-- No outage to declare (R47). -/
theorem outageTest_passes (hr : s.sec j = r)
    (h : r.lossLog.length < r.config.outageCount ∨ r.state ≠ .clear ∧ r.state ≠ .recovering) : s.outageTest j = s := by
  subst hr
  refine if_neg ?_
  rintro ⟨hst, hcount⟩
  rcases h with h | ⟨h1, h2⟩
  · exact absurd hcount (Nat.not_le.2 h)
  · exact hst.elim h1 h2

theorem offered_congr {p q : List NoticeItem} (h : .terminal k ∈ p ↔ .terminal k ∈ q) :
    Terminal.offered p k T = Terminal.offered q k T := by
  simp only [Terminal.offered, h]

/-- A terminal that is silenced behind its own offer, and was not VERIFYING, is offered once (R47, R167). -/
theorem silent_offered {p q : List NoticeItem} (hp : .terminal k ∈ p) (hT : T.state = .waiting) :
    Terminal.offered p k { silent (Terminal.offered q k T) with probed := false } = Terminal.offered q k
      { T with
        state := .quiet, expectedBurst := none, backoff := 0, roundCount := 0, filtered := none, history := [], power := 0
        pendingAdjust := none, owed := {}, probed := false } := by
  have hverifying : ¬T.state = .verifying := by rw [hT]; decide
  rw [Terminal.offered, if_pos hp]
  unfold Terminal.offered
  split <;> simp only [silent, hverifying, false_and, if_false]

/-- The declaration behind a loss: the lost terminal, WAITING, is one of the terminals it silences (R47). -/
theorem declared_behind_loss {Z : State} {moved quiet : List Slot} (hb : s.belongs j k = true) (hj : T.sector = j)
    (hT : T.state = .waiting) (hown : T.owed = {}) (hZ : Placed s j k R T Z)
    (hst : R.state = .clear ∨ R.state = .recovering)
    (howed : ∀ i, s.belongs j i = true → i ≠ k → (s.term i).owed = {})
    (hmoved : moved = (List.finRange 320).filter fun i =>
      s.belongs j i && (i == k || [.waiting, .deferred, .ranging, .verifying].contains (s.term i).state))
    (hquiet : quiet = (List.finRange 320).filter fun i => i ∈ moved || (s.belongs j i && (s.term i).state == .quiet)) :
    Declared j Z (Z.declareOutage j) moved quiet := by
  obtain ⟨v, hv⟩ := offered_eq s.notices k T
  have hself : Z.term k = { T with noticePending := v } := hZ.self.trans hv
  have hother := hZ.other
  have hbelongs := hZ.belongs hb hj (by rw [hT]; decide)
  have hk : k ∈ moved := by
    rw [hmoved, List.mem_filter]
    exact ⟨List.mem_finRange k, by simp [hb]⟩
  refine declared (by rw [hZ.sec]; exact hst) (fun i hi => ?_) (hmoved.trans (List.filter_congr fun i _ => ?_))
    (hquiet.trans (List.filter_congr fun i _ => ?_)) <;> by_cases hik : i = k
  · subst hik
    rw [hself]
    exact hown
  · rw [hbelongs] at hi
    rw [hother i hik, howed i hi hik]
  · subst hik
    rw [hbelongs, hself]
    simp [hT]
  · rw [hbelongs, hother i hik, beq_eq_false_iff_ne.2 hik, Bool.false_or]
  · subst hik
    simp [hk]
  · rw [hbelongs, hother i hik]

/-- The terminals behind the declaration: those outside the sector and those it does not move keep their places, and the lost one is
silenced with the others (R47). -/
theorem terms_behind_loss {Z u : State} {moved quiet : List Slot} (hd : Declared j Z u moved quiet) (hZ : Placed s j k R T Z)
    (hb : s.belongs j k = true) (hj : T.sector = j) (hT : T.state = .waiting)
    (howed : ∀ i, s.belongs j i = true → i ≠ k → (s.term i).owed = {}) (hk : k ∈ moved)
    (hmoved : ∀ i ∈ moved, s.belongs j i = true) :
    (∀ i, s.belongs j i = false → u.term i = s.term i)
      ∧ (∀ i, s.belongs j i = true → i ∉ moved → u.term i = { s.term i with probed := false })
      ∧ u.term k = Terminal.offered s.notices k
        { T with
          state := .quiet, expectedBurst := none, backoff := 0, roundCount := 0, filtered := none, history := [], power := 0
          pendingAdjust := none, owed := {}, probed := false }
      ∧ ∀ i ∈ moved, i ≠ k → u.term i = Terminal.offered s.notices i
        { s.term i with
          state := .quiet, expectedBurst := none, backoff := 0, roundCount := 0, filtered := none, history := [], power := 0
          pendingAdjust := none, probed := false
          verification :=
            if (s.term i).state = .verifying ∧ (s.term i).verification.started = true
                ∧ (s.term i).verification.completed = false ∧ (s.term i).verification.outcome = .none then
              { (s.term i).verification with outcome := .aborted }
            else (s.term i).verification } := by
  have hbelongs := hZ.belongs hb hj (by rw [hT]; decide)
  refine ⟨fun i hi => ?_, fun i hi hni => ?_, ?_, fun i hi hik => ?_⟩
  · have hik : i ≠ k := fun h => by rw [h, hb] at hi; cases hi
    rw [hd.outside i ((hbelongs i).trans hi), hZ.other i hik]
  · have hik : i ≠ k := fun h => hni (h ▸ hk)
    rw [hd.still i ((hbelongs i).trans hi) hni, hZ.other i hik]
  · rw [hd.silenced k hk, hZ.self, silent_offered ((hZ.notices _).2 (.inr rfl)) hT]
  · rw [hd.silenced i hi, hZ.other i hik, silent_owing_nothing (howed i (hmoved i hi) hik)]
    exact offered_congr ((hZ.notices _).trans (or_iff_left (by simpa using hik)))

/-- Settles O29: the loss and its place, and then by whether the log brings an outage. -/
theorem lossClearsAndPlaces : Obligations.LossClearsAndPlaces := by
  intro j e d k s r a w kept log lost front back hw hd hrec hst hr hl ha hwork hcq hfront hback hqueue hkept hlog hlost
  obtain ⟨-, hj⟩ := belongs_facts hw.home
  obtain rfl : lost = (s.term k).written a.top := hlost
  obtain ⟨R, hR⟩ : ∃ R, R = { r with evaluation := some { e with walked := e.walked + 1 } } := ⟨_, rfl⟩
  have hcar := carrying_of hst
  have hexec : exec (.descriptorWalkStep j) s = .next (State.outageTest (if w = .outage then
      State.offerTerminal ((s.setSec j { R with lossLog := log }).setTerm k { (s.term k).written a.top with state := .quiet }) k
    else State.offerTerminal ((s.setSec j { R with lossLog := log, queue := front ++ k :: back }).setTerm k
      { (s.term k).written a.top with state := .waiting }) k) j) := by
    have hplace := placeLoss_set (s := s) (j := j) (k := k) (R := R) (T := (s.term k).written a.top) (w := w)
      (n := e.frame.number) (log := log) (front := front) (back := back) hj rfl hcar (by rw [hR]; exact hwork)
      (by rw [hR]; exact (appendLoss_eq hkept).trans hlog.symm)
      (by rw [hR]; exact (congrArg _ hqueue).trans (insertByClass_between hfront hback))
    rw [miss_base hw hd hrec hcar, State.movedOn, hr, ← hR]
    exact congrArg _ ((miss_loses hj (by rw [hR]; exact hl) ha (by rw [hR]; exact hcq)).trans hplace)
  rw [hexec]
  have hpasses (R' : SectorRec) (T' : Terminal) (h1 : R'.lossLog = log) (h2 : R'.config = r.config) (h3 : R'.state = r.state)
      (h : log.length < r.config.outageCount ∨ r.state ≠ .clear ∧ r.state ≠ .recovering) :
      (State.offerTerminal ((s.setSec j R').setTerm k T') k).outageTest j = State.offerTerminal ((s.setSec j R').setTerm k T') k :=
    outageTest_passes (by rw [State.offerTerminal_sec, State.setTerm_sec, State.setSec_sec_same]) (by rw [h1, h2, h3]; exact h)
  refine ⟨fun hno h => ?_, fun ho h => ?_, fun moved quiet rank hcount hstate howed hmoved hquiet hrank => ?_⟩
  · rw [if_neg hno, hpasses _ _ rfl (by rw [hR]) (by rw [hR]) h, hR]
  · rw [if_pos ho, hpasses _ _ rfl (by rw [hR]) (by rw [hR]) h, hR]
  · have hno : w ≠ .outage := by
      rintro rfl
      rcases hstate with h | h <;> rw [SectorRec.working, h] at hwork <;> cases hwork
    rw [if_neg hno]
    have hZ := placed s j k { R with lossLog := log, queue := front ++ k :: back }
      { (s.term k).written a.top with state := .waiting }
    generalize State.offerTerminal ((s.setSec j { R with lossLog := log, queue := front ++ k :: back }).setTerm k
      { (s.term k).written a.top with state := .waiting }) k = Z at hZ
    have hZst : (Z.sec j).state = .clear ∨ (Z.sec j).state = .recovering := by
      rw [hZ.sec, hR]
      exact hstate
    have hcount' : (Z.cfg j).outageCount ≤ (Z.sec j).lossLog.length := by
      rw [State.cfg, hZ.sec, hR]
      exact hcount
    have hdeclared := declared_behind_loss (quiet := quiet) hw.home (by exact hj) rfl rfl hZ (by rw [hR]; exact hstate) howed
      hmoved hquiet
    rw [State.outageTest, if_pos ⟨hZst, hcount'⟩]
    generalize Z.declareOutage j = t at hdeclared
    have hkm : k ∈ moved := by
      rw [hmoved, List.mem_filter]
      exact ⟨List.mem_finRange k, by simp [hw.home]⟩
    have hkq : k ∈ quiet := by
      rw [hquiet, List.mem_filter]
      exact ⟨List.mem_finRange k, by simp [hkm]⟩
    have hmb (i) (hi : i ∈ moved) : s.belongs j i = true := by
      rw [hmoved, List.mem_filter, Bool.and_eq_true] at hi
      exact hi.2.1
    have hZrank (i) : (Z.term i).leadRank = rank i := by
      rw [hrank]
      split
      · next hi => rw [hi, hZ.self]; unfold Terminal.offered; split <;> rfl
      · next hi => rw [hZ.other i hi]
    obtain ⟨houtside, hstill, hself, hothers⟩ := terms_behind_loss hdeclared hZ hw.home (by exact hj) rfl howed hkm hmb
    obtain ⟨⟨haround, hout⟩, hsecs, -, -, -, -, hoffers, lead, hlead, hlast⟩ := hdeclared
    obtain ⟨m, hmq, rfl, hbest⟩ := hlead.resolve_left fun h => List.ne_nil_of_mem hkq h.1
    have hfilter : (front ++ k :: back).filter (fun i => !moved.contains i) = r.queue.filter fun i => !moved.contains i := by
      rw [hqueue, List.filter_append, List.filter_append, List.filter_cons_of_neg (by simp [hkm])]
    refine ⟨t, m, rfl, SameAround.trans hZ.around haround, hout.trans hZ.out, fun i hi => (hsecs i hi).trans (hZ.secs i hi),
      houtside, hstill, hself, hothers, hoffers.1, hoffers.2, hmq, fun i hi hne => ?_, ?_⟩
    · have := hbest i hi hne
      rw [hZrank, hZrank] at this
      exact this
    · rw [hlast, if_neg (List.ne_nil_of_mem hkq), if_neg (List.ne_nil_of_mem hkq), hZ.sec, hR]
      dsimp only
      rw [hfilter]
      rfl

end

end Sys2Proof.Machine
end

section
/-!
The link-quality arithmetic, stage by stage, the ramp that reports count, and the admissions of the re-entry scheduler. The proofs
assemble the lemmas of the Laws files; what those lack stands before its first use.
-/

namespace Sys2Proof.Machine

/-! ## Filter and history (R65, R66, R68) -/

/-- A floor division by a power of 2 stays between 0 and its dividend: this is why the filter never passes its sample. -/
theorem floor_between (d : Int) (k : Nat) :
    0 ≤ d ∧ 0 ≤ d.fdiv (2 ^ k) ∧ d.fdiv (2 ^ k) ≤ d ∨ d < 0 ∧ d ≤ d.fdiv (2 ^ k) ∧ d.fdiv (2 ^ k) < 0 := by
  have hpos : (0 : Int) < 2 ^ k := by positivity
  rw [Int.fdiv_eq_ediv_of_nonneg _ hpos.le]
  rcases le_or_gt 0 d with h | h
  · exact .inl ⟨h, Int.ediv_nonneg h hpos.le, Int.ediv_le_self _ h⟩
  · exact .inr ⟨h, (Int.le_ediv_iff_mul_le hpos).2 (by nlinarith), Int.ediv_neg_of_neg_of_pos h hpos⟩

theorem floor_eq_zero_iff (d : Int) (k : Nat) : d.fdiv (2 ^ k) = 0 ↔ 0 ≤ d ∧ d < 2 ^ k := by
  have hpos : (0 : Int) < 2 ^ k := by positivity
  rw [Int.fdiv_eq_ediv_of_nonneg _ hpos.le, Int.ediv_eq_iff_of_pos hpos]
  simp

theorem filterStep_none (k s : Nat) : filterStep k none s = 4 * s := rfl

/-- A present F steps by the floor; the new F is no negative number, so its truncation to one loses nothing (R66). -/
theorem filterStep_some (k f s : Nat) :
    (filterStep k (some f) s : Int) = f + Int.fdiv ((4 * s : Int) - f) (2 ^ k) := by
  have hbetween := floor_between ((4 * s : Int) - f) k
  rw [Int.fdiv_eq_ediv_of_nonneg _ (by positivity)] at hbetween ⊢
  simp only [filterStep]
  omega

theorem historyStep_eq (h : List Nat) (f : Nat) :
    historyStep h f = if h.length < 8 then h ++ [f] else h.drop 1 ++ [f] := by
  simp only [historyStep, Config.historyLimit, List.length_append, List.length_singleton]
  by_cases hshort : h.length < 8
  · rw [if_neg (by omega), if_pos hshort]
  · rw [if_pos (by omega), if_neg hshort, List.drop_append_of_le_length (by omega)]

@[simp] theorem stages1to3_lastHeadroom (c : SectorConfig) (d : Burst) (t : Terminal) :
    (stages1to3 c d t).lastHeadroom = min d.headroom.toNat 40 := rfl

@[simp] theorem stages1to3_filtered (c : SectorConfig) (d : Burst) (t : Terminal) :
    (stages1to3 c d t).filtered = some (filterStep c.filterShift t.filtered d.sample) := rfl

@[simp] theorem stages1to3_history (c : SectorConfig) (d : Burst) (t : Terminal) :
    (stages1to3 c d t).history = historyStep t.history (filterStep c.filterShift t.filtered d.sample) := rfl

/-- Settles O35: by whether F is absent, and for a present one by the side of the sample it is on. -/
theorem filterFollowsTheSample : Obligations.FilterFollowsTheSample := by
  rintro c d t u x k hx rfl rfl
  have hx' : x = 4 * d.sample := hx
  refine ⟨stages1to3_lastHeadroom c d t, fun g hg => ?_, fun habsent => ?_, fun f hf hle => ?_⟩
  · rw [stages1to3_filtered, Option.some_inj] at hg
    rw [stages1to3_history, hg, historyStep_eq]
  · rw [stages1to3_filtered, habsent, filterStep_none, hx']
  · obtain ⟨g, hg⟩ : ∃ g, filterStep c.filterShift (some f) d.sample = g := ⟨_, rfl⟩
    have hstep : (g : Int) = f + Int.fdiv ((x : Int) - f) (2 ^ c.filterShift) := by
      rw [← hg, filterStep_some, hx']
      push_cast
      rfl
    have hbetween : f ≤ g ∧ g ≤ x ∨ x ≤ g ∧ g ≤ f := by
      have hfloor := floor_between ((x : Int) - f) c.filterShift
      omega
    have hrest : g = f ↔ f ≤ x ∧ x < f + 2 ^ c.filterShift := by
      have hzero := floor_eq_zero_iff ((x : Int) - f) c.filterShift
      have hcast : ((2 ^ c.filterShift : Nat) : Int) = 2 ^ c.filterShift := by push_cast; rfl
      omega
    refine ⟨g, by rw [stages1to3_filtered, hf, hg], hstep, ?_, hbetween, hrest, fun hunfiltered => ?_⟩
    · have hsample := d.sample_le
      omega
    · rw [hunfiltered, pow_zero, Int.fdiv_one] at hstep
      omega

/-! ## Slope and prediction (R69, R70) -/

theorem slope_none {h : List Nat} (hl : h.length ≠ 8) : slope h = none := if_neg hl

theorem slope_full (h0 h1 h2 h3 h4 h5 h6 h7 : Nat) :
    slope [h0, h1, h2, h3, h4, h5, h6, h7]
      = some (Int.tdiv (-7 * h0 - 5 * h1 - 3 * h2 - h3 + h4 + 3 * h5 + 5 * h6 + 7 * h7) 84) := by
  have hsum : weightedSum [h0, h1, h2, h3, h4, h5, h6, h7]
      = -7 * h0 - 5 * h1 - 3 * h2 - h3 + h4 + 3 * h5 + 5 * h6 + 7 * h7 := by
    simp only [weightedSum, slopeWeights, List.zipWith_cons_cons, List.zipWith_nil_left, List.sum_cons, List.sum_nil]
    ring
  rw [← hsum]
  exact if_pos rfl

/-- A weighted sum of at most 16 · 800 on either side gives a slope of at most 152. -/
theorem tdiv_84_between {n : Int} (hlo : -12800 ≤ n) (hhi : n ≤ 12800) : -152 ≤ n.tdiv 84 ∧ n.tdiv 84 ≤ 152 := by
  have habs : (n.tdiv 84).natAbs = n.natAbs / 84 := Int.natAbs_tdiv n 84
  omega

theorem prediction_none {c : SectorConfig} {h : List Nat} (f : Nat) (hn : slope h = none ∨ c.fadeHorizon = 0) :
    prediction c f h = none := by
  unfold prediction
  rcases hn with hn | hn
  · rw [hn]
  · cases slope h <;> simp [hn]

theorem prediction_some {c : SectorConfig} {h : List Nat} {sl : Int} (f : Nat) (hs : slope h = some sl)
    (hc : 0 < c.fadeHorizon) : prediction c f h = some (f + c.fadeHorizon * sl) := by
  simp only [prediction, hs, if_neg hc.ne']

/-- Settles O36: the slope of the 8 entries, its bounds by those of the weighted sum, and the prediction by whether there is a
slope and a horizon. -/
theorem slopeAndPrediction : Obligations.SlopeAndPrediction := by
  refine ⟨fun h => slope_none, fun h0 h1 h2 h3 h4 h5 h6 h7 => ⟨_, slope_full .., rfl, fun hle => ?_⟩,
    fun c f h => ⟨prediction_none f, fun sl => prediction_some f⟩⟩
  simp only [List.forall_mem_cons] at hle
  exact tdiv_84_between (by omega) (by omega)

/-! ## Power and timing (R72, R73, R74) -/

/-- Rounding half away from zero is the only whole number within half an eighth that goes outward at a tie (R73). -/
theorem roundEighth_eq {e q : Int} (hnear : (8 * q - e).natAbs ≤ 4)
    (htie : (8 * q - e).natAbs = 4 → e.natAbs < (8 * q).natAbs) : roundEighth e = q := by
  unfold roundEighth
  split <;> omega

theorem limitedStep_eq {c : SectorConfig} {b : LadderBank} {t : Terminal} {e q : Int} (he : powerError c b t = e)
    (hnear : (8 * q - e).natAbs ≤ 4) (htie : (8 * q - e).natAbs = 4 → e.natAbs < (8 * q).natAbs) :
    limitedStep c b t = max (-(c.maxStep : Int)) (min c.maxStep q) := by
  rw [limitedStep, he, roundEighth_eq hnear htie, clamp]

theorem cutStep_eq (h : Nat) (step : Int) : cutStep h step = min step h := by
  unfold cutStep
  split <;> omega

theorem settled_iff {c : SectorConfig} {b : LadderBank} {t : Terminal} {e : Int} (he : powerError c b t = e) :
    settled c b t = true ↔ e.natAbs < c.deadband := by
  rw [settled, he, decide_eq_true_eq]

/-- A settled report leaves P and sets no CEILING (R72). -/
theorem power_settled {c : SectorConfig} {b : LadderBank} {t : Terminal} (h : Nat) (hs : settled c b t = true) :
    newPower c b h t = t.power ∧ ceilingCut c b h t = false := by
  simp [newPower, ceilingCut, hs]

/-- Outside the deadband P takes the step, cut to the headroom and kept in its range; CEILING tells that either reduced a
positive step (R73). -/
theorem power_stepped {c : SectorConfig} {b : LadderBank} {t : Terminal} {l : Int} (h : Nat) (hs : settled c b t = false)
    (hl : limitedStep c b t = l) :
    newPower c b h t = max (-40) (min 40 (t.power + min l h))
      ∧ ceilingCut c b h t = decide (0 < l ∧ ((h : Int) < l ∨ 40 < t.power + min l h)) := by
  have hcut : min l (h : Int) < l ↔ (h : Int) < l := by omega
  simp [newPower, ceilingCut, hs, hl, cutStep_eq, hcut, clamp]

/-- Settles O37: by whether the report is settled; the rounding by its characterisation. -/
theorem powerAndTimingSteps : Obligations.PowerAndTimingSteps := by
  rintro c b d t u e q l p h rfl hh he hnear htie rfl hp
  have herror : powerError c b t = e := he.symm
  have hlimited := limitedStep_eq herror hnear htie
  have hhead : d.clampedHeadroom = h := hh.symm
  have hcut : max (h : Int) 0 = h := by omega
  rw [hcut] at hp
  subst hp
  refine ⟨fun hin => ?_, fun hout => ?_, ?_, rfl, ?_⟩
  · obtain ⟨hpower, hceiling⟩ := power_settled h ((settled_iff herror).2 hin)
    simp only [stage8, stage7, hhead, hpower, hceiling, Bool.or_false, and_self]
  · have hs : settled c b t = false := by
      rw [← Bool.not_eq_true, settled_iff herror]
      omega
    obtain ⟨hpower, hceiling⟩ := power_stepped h hs hlimited
    simp only [stage8, stage7, hhead, hpower, hceiling, and_self]
  · simp only [stage8, stage7, hhead]
    rfl
  · simp only [stage8, stage7, timingOut, decide_eq_true_eq]
    rfl

/-! ## The ramp (R91, R98, R103, R104) -/

section
variable {X : State} {j : Sector} {k : Slot} {R : SectorRec} {T : Terminal} {b : LadderBank}

/-- The runs of a report at or above the drop threshold: both end (R94). -/
theorem countRuns_clear (hp : T.pendingShift = none) (habove : 4 * b.drop T.rung ≤ T.f) :
    T.countRuns b = { T with missRun := 0, capKept := false, floorRun := 0 } := by
  have hnot : belowDrop b T = false := by
    rw [belowDrop, (effectiveRung_none hp).1, decide_eq_false (Nat.not_lt.2 habove)]
  simp [Terminal.countRuns, hnot]

theorem afterRuns_ramping (hs : T.state = .ramping) : (X.setTerm k T).afterRuns j k b = (X.setTerm k T).countRamp j k b := by
  simp only [State.afterRuns, State.setTerm_term_same, hs]

/-- A RAMPING record as it enters CLIMBING, before its goal is tested (R103). -/
def Terminal.rampEnded (unsettled : Bool) (t : Terminal) : Terminal :=
  { t with
    state := .climbing, phaseReports := 0, rampSettle := 0, climbDwell := 0
    sticky := { t.sticky with rampUnsettled := t.sticky.rampUnsettled || unsettled } }

/-- The entry of a RAMPING terminal without runs into CLIMBING, and on into service at its goal: one offer (R103, R104). -/
theorem enterClimbing_set {goal : Nat} {unsettled : Bool} (hR : X.sec j = R) (hs : T.state = .ramping) (hm : T.missRun = 0)
    (hfl : T.floorRun = 0) (hg : (T.rampEnded unsettled).climbBound R.config b = goal) :
    (X.setTerm k T).enterClimbing j k b unsettled = State.offerTerminal (X.setTerm k
      { T.rampEnded unsettled with
        state := if goal ≤ T.rung then .inService else .climbing
        restoreRung := if goal ≤ T.rung then none else T.restoreRung }) k := by
  have hentered : (X.setTerm k T).enterClimbing j k b unsettled
      = ((X.setTerm k (T.rampEnded unsettled)).offerTerminal k).goalTest j k b := by
    unfold State.enterClimbing
    dsimp only
    rw [modTerm_setTerm, toState_set _ _ _ _ (by simp [hs]) (by simp [hs]), offer_set]
    rfl
  have hat : (T.rampEnded unsettled).atGoal (X.cfg j) b = decide (goal ≤ T.rung) := by
    rw [Terminal.atGoal, State.cfg, hR, hg]
    rfl
  rw [hentered]
  by_cases hreached : goal ≤ T.rung
  · rw [if_pos hreached, if_pos hreached,
      offer_goalTest_reached (by rw [hat, decide_eq_true hreached]) (by exact hm) (by exact hfl)]
  · rw [if_neg hreached, if_neg hreached, offer_goalTest_below (by rw [hat, decide_eq_false hreached])]
    rfl

/-- The count of a ramp: ramp_settle is tested before ramp_limit, so that a ramp that ends at both is settled (R103). -/
theorem countRamp_set {settle reports : Nat} (hR : X.sec j = R)
    (hsettle : settle = if settled R.config b T then T.rampSettle + 1 else 0) (hreports : reports = T.phaseReports + 1) :
    (settle < R.config.rampSettle → reports < R.config.rampLimit →
      (X.setTerm k T).countRamp j k b = X.setTerm k { T with rampSettle := settle, phaseReports := reports })
    ∧ (R.config.rampSettle ≤ settle ∨ R.config.rampLimit ≤ reports →
      (X.setTerm k T).countRamp j k b = (X.setTerm k { T with rampSettle := settle, phaseReports := reports }).enterClimbing
        j k b (decide (settle < R.config.rampSettle))) := by
  have hcfg (t : Terminal) : (X.setTerm k t).cfg j = R.config := by rw [State.cfg, State.setTerm_sec, hR]
  subst hsettle hreports
  unfold State.countRamp
  simp only [hcfg, modTerm_setTerm, State.setTerm_term_same]
  refine ⟨fun hunsettled hgoes => ?_, fun hends => ?_⟩
  · rw [if_neg (Nat.not_le.2 hunsettled), if_neg (Nat.not_le.2 hgoes)]
  · by_cases hsettled : R.config.rampSettle ≤ if settled R.config b T then T.rampSettle + 1 else 0
    · rw [if_pos hsettled, decide_eq_false (Nat.not_lt.2 hsettled)]
    · rw [if_neg hsettled, if_pos (hends.resolve_left hsettled), decide_eq_true (Nat.not_le.1 hsettled)]

end

/-- Settles O27: the stages and runs of the report, the count of the ramp, and at its end the entry into CLIMBING. -/
theorem rampEndsInClimbing : Obligations.RampEndsInClimbing := by
  intro j e d k s u c b x settle reports goal q corrects powers hw hd hr hst hc hb hl hps hx habove hcor hpow hq he hu hsettle
    hreports hgoal
  obtain ⟨hxs, hxp, -⟩ := stages_keep c b d (s.term k)
  rw [← hx] at hxs hxp
  obtain ⟨T, hT⟩ : ∃ T, T = { x with missRun := 0, capKept := false, floorRun := 0 } := ⟨_, rfl⟩
  have hcount : x.countRuns b = T := (countRuns_clear (hxp.trans hps) habove).trans hT.symm
  have hramping : T.state = .ramping := by rw [hT]; exact hxs.trans hst
  have hruns : exec (.descriptorWalkStep j) s = .next ((u.setTerm k T).countRamp j k b) := by
    rw [report_runs hw hd hr (carrying_of (by simp [hst])) hc hb hx hcor hpow hq he (by rw [hcount, hT]; exact hl), hcount,
      afterRuns_ramping hramping, hu]
  obtain rfl : c = (u.sec j).config := by rw [hu, State.setSec_sec_same, hc]
  have hcounted : settle = if settled (u.sec j).config b T then T.rampSettle + 1 else 0 := by
    simp only [hsettle, hT, settled_iff rfl]
    rfl
  obtain ⟨hcounts, hends⟩ := countRamp_set (k := k) rfl hcounted (reports := reports) (by rw [hreports, hT])
  have hbound (v : Bool) : (T.rampEnded v).climbBound (u.sec j).config b = goal := by
    rw [climbing_bound rfl (by rw [hT]; rfl), hgoal, hT]
    rfl
  rw [hruns]
  refine ⟨fun hunsettled hgoes => ?_, fun hended => ?_⟩
  · rw [hcounts hunsettled hgoes, hT]
  · rw [hends hended, enterClimbing_set rfl (by exact hramping) (by rw [hT]) (by rw [hT]) (by exact hbound _), hT]
    rfl

/-! ## Admission (R109, R110, R111) -/

section
variable {s : State} {j : Sector} {k : Slot} {r : SectorRec}

/-- A sector without DEFERRED terminals counts no backoff: in CLEAR and RECOVERING its due reaction is the admission (R110). -/
theorem schedulerReaction_admits (hr : s.sec j = r) (hd : 0 < r.schedulerDue) (hst : r.state = .clear ∨ r.state = .recovering)
    (hnone : ∀ k, s.belongs j k = true → (s.term k).state ≠ .deferred) :
    exec (.reEntrySchedulerReaction j) s
      = .next ((s.setSec j { r with schedulerDue := r.schedulerDue - 1 }).admission j) := by
  have hserved : r.state.served = true := by rcases hst with h | h <;> rw [h] <;> rfl
  have hnobackoff : (s.setSec j { r with schedulerDue := r.schedulerDue - 1 }).slotsIn j .deferred = [] := by
    rw [List.eq_nil_iff_forall_not_mem]
    intro k hk
    obtain ⟨hhome, hdeferred⟩ := mem_slotsIn.1 hk
    exact hnone k hhome hdeferred
  subst hr
  simp only [exec, execReEntrySchedulerReaction, if_pos hd, State.takeScheduler, State.modSec, State.setSec_sec_same, hserved,
    if_true, State.schedulerReaction, hnobackoff, List.foldl_nil, ite_self, if_pos hst]

/-- Where notice pending tells the members of the queue, an offered record shows yes in either case (R28). -/
theorem offered_of_agree (ha : s.NoticesAgree) {t : Terminal} (ht : t.noticePending = (s.term k).noticePending) :
    Terminal.offered s.notices k t = { t with noticePending := true } := by
  unfold Terminal.offered
  split
  · next hmem => rw [← (ha.pending k).2 hmem, ← ht]
  · rfl

end

/-- Settles O16: with no backoff to count the reaction is the admission of as many heads as the window has room for, each WAITING
and each once in the queue. -/
theorem admissionFillsTheWindow : Obligations.AdmissionFillsTheWindow := by
  rintro j s r taken hmembers hnotices hr hd hst hnone rfl
  have hwaiting (k) (hk : k ∈ r.queue) : (s.term k).state = .waiting := ((hmembers.queue j k).1 (hr ▸ hk)).1
  have honce : r.queue.Nodup := hr ▸ hmembers.queueOnce j
  obtain ⟨hsec, hother, haround, hout, hkept, htaken, hoffers⟩ := admitHeads_fact j (r.config.windowSize - r.window.length)
    (s.setSec j { r with schedulerDue := r.schedulerDue - 1 }) _ (State.setSec_sec_same _ _ _) honce hwaiting _ rfl
  have hadmits : (s.setSec j { r with schedulerDue := r.schedulerDue - 1 }).admission j
      = State.admitHeads j (r.config.windowSize - r.window.length)
        (s.setSec j { r with schedulerDue := r.schedulerDue - 1 }) := by
    rw [State.admission, State.cfg, State.setSec_sec_same]
  refine ⟨_, (schedulerReaction_admits hr hd hst hnone).trans (congrArg _ hadmits),
    SameAround.trans (setSec_around s j _) haround, hout, fun i hi => ?_, hsec, hkept, fun k hk => ?_, hoffers⟩
  · rw [hother i hi, State.setSec_sec, if_neg hi.symm]
  · exact (htaken k hk).trans (offered_of_agree hnotices rfl)

end Sys2Proof.Machine
end

section
/-!
The ladder store: the requests that load, activate and show its banks. The proofs assemble the lemmas of the Laws files; what those
lack stands before its first use.
-/

namespace Sys2Proof.Machine

variable {s : State} {r : Request}

/-! ## LOAD LADDER BLOCK and READ LADDER (R79, R82, R90) -/

theorem blockAt_of {ps : List Byte} (h : nat8 ps 0 < 3) : blockAt ps = some ⟨nat8 ps 0, h⟩ :=
  dif_pos h

theorem blockAt_none {ps : List Byte} (h : 3 ≤ nat8 ps 0) : blockAt ps = none :=
  dif_neg (Nat.not_lt.2 h)

theorem bankAt_of {ps : List Byte} {n : Fin 2} (h : nat8 ps 0 = n.val) : bankAt ps = some n :=
  (dif_pos (h ▸ n.isLt)).trans (congrArg some (Fin.ext h))

theorem bankAt_none {ps : List Byte} (h : 2 ≤ nat8 ps 0) : bankAt ps = none :=
  dif_neg (Nat.not_lt.2 h)

/-- LOAD LADDER BLOCK with its 33 bytes is taken to its owning block. -/
theorem loadLadderBlock_serve {body : List Byte → Answer} {i : Byte} {bs rest : List Byte} (hm : s.mode = .running)
    (hl : r.length = 33) (hb : r.bytes = i :: bs ++ rest) (hbs : bs.length = 32) :
    s.serve .loadLadderBlock r body = answered .loadLadderBlock r (body (i :: bs)) := by
  have h33 : r.length.toNat = 33 := by rw [hl]; rfl
  have hlong : (i :: bs).length = 33 := by rw [List.length_cons, hbs]
  have hp : parameters r = i :: bs := by rw [parameters, h33, hb]; exact List.take_left' hlong
  rw [serve_run hm (by omega) (by rw [h33, hb, List.length_append]; omega) (by rw [h33]; rfl), hp]

/-- READ LADDER with its one byte is taken to its owning block. -/
theorem readLadder_serve {body : List Byte → Answer} {i : Byte} {rest : List Byte} (hm : s.mode = .running) (hl : r.length = 1)
    (hb : r.bytes = i :: rest) : s.serve .readLadder r body = answered .readLadder r (body [i]) := by
  have h1 : r.length.toNat = 1 := by rw [hl]; rfl
  have hp : parameters r = [i] := by rw [parameters, h1, hb]; rfl
  rw [serve_run hm (by omega) (by rw [h1, hb]; simp) (by rw [h1]; rfl), hp]

/-- A block loaded into a standby bank without holds replaces its bytes and is staged (R82). -/
theorem loadBlock_eq {n : Fin 2} (hn : s.ladder.standby = n) (hh : (s.bank n).holds = 0) (i : Fin 3) (bs : List Byte) :
    s.loadBlock i bs =
      { s with ladder :=
        { active := s.ladder.active
          staged := s.ladder.staged.set i.val true
          banks := s.ladder.banks.set n.val
            { holds := 0
              bytes := Vector.ofFn fun x : Fin 96 =>
                if x.val / 32 = i.val then bs.getD (x.val % 32) 0 else (s.bank n).bytes[x.val] } } } := by
  simp only [State.loadBlock, State.modBank, LadderBank.writeBlock, hn, hh]

/-- Settles O50: by whether the block index is in range, and then by whether the standby bank is held. -/
theorem loadLadderBlockStagesABlock : Obligations.LoadLadderBlockStagesABlock := by
  intro i bs rest n r s hm hl hb hbs hnone hactive
  have hn : s.ladder.standby = n := standby_eq hnone hactive
  simp only [exec, execLoadLadderBlock]
  rw [loadLadderBlock_serve hm hl hb hbs]
  refine ⟨fun hi hh => ?_, fun hi hh => ?_, fun hi => ?_⟩
  · have hfree : ¬0 < (s.bank s.ladder.standby).holds := by rw [hn, hh]; decide
    simp only [blockAt_of (ps := i :: bs) hi]
    rw [if_neg hfree, answered_accept, loadBlock_eq hn hh]
    rfl
  · simp only [blockAt_of (ps := i :: bs) hi]
    rw [if_pos (by rw [hn]; exact hh), answered_refuse]
    rfl
  · simp only [blockAt_none (ps := i :: bs) hi]
    rw [answered_refuse]
    rfl

/-- The staged-block set as one byte: the sum of the staged blocks' bits (11-4). -/
theorem setByte_staged (v : Vector Bool 3) :
    setByte v.toList = (if v[0] then 1 else 0 : Nat) + (if v[1] then 2 else 0 : Nat) + (if v[2] then 4 else 0) := by
  have hbits : ∀ x y z : Bool,
      setByte [x, y, z] = (if x then 1 else 0 : Nat) + (if y then 2 else 0 : Nat) + (if z then 4 else 0) := by decide
  obtain ⟨⟨l⟩, hl⟩ := v
  obtain ⟨x, y, z, rfl⟩ := List.length_eq_three.1 hl
  exact hbits x y z

/-- The results of READ LADDER are 100 bytes (11-4). -/
theorem ladderResults_length (s : State) (n : Fin 2) : (s.ladderResults n).length = 100 := by
  simp [State.ladderResults, LadderBank.contents, optByte_length]

/-- Settles O52: by whether the bank number is in range; the results are the model's, 100 bytes in one frame. -/
theorem readLadderShowsABank : Obligations.ReadLadderShowsABank := by
  intro i rest r s hm hl hb
  simp only [exec, execReadLadder]
  rw [readLadder_serve hm hl hb]
  refine ⟨fun n hn => ?_, fun hi => ?_⟩
  · simp only [bankAt_of (ps := [i]) hn]
    rw [answered_ok _ _ _ (by rw [ladderResults_length]; decide), State.ladderResults, setByte_staged]
    cases s.ladder.active <;> rfl
  · simp only [bankAt_none (ps := [i]) hi]
    rw [answered_refuse]
    rfl

/-! ## ACTIVATE LADDER (R85 to R88) -/

/-- ACTIVATE LADDER, which has no parameters, is taken to its owning block. -/
theorem activateLadder_serve {body : List Byte → Answer} (hm : s.mode = .running) (hl : r.length = 0) :
    s.serve .activateLadder r body = answered .activateLadder r (body []) := by
  have h0 : r.length.toNat = 0 := by rw [hl]; rfl
  have hp : parameters r = [] := by rw [parameters, h0]; rfl
  rw [serve_run hm (by omega) (by omega) (by rw [h0]; rfl), hp]

/-- A standby image that a check rejects leaves everything as it is and is answered with the reason (R85). -/
theorem activate_rejected {n : Fin 2} {reason : List Byte} (hm : s.mode = .running) (hl : r.length = 0)
    (hn : s.ladder.standby = n) (hrej : rejection (s.bank n) s.ladder.staged = some reason) (hshort : reason.length ≤ 192) :
    exec (.activateLadder r) s = .next (s.emit (soleReply 0x31 r.tag 0x08 reason)) := by
  simp only [exec, execActivateLadder]
  rw [activateLadder_serve hm hl]
  simp only [hn, hrej]
  exact congrArg Host.Outcome.next (reply_sole s _ _ _ _ hshort)

/-- A standby image that passes every check is activated, and answered with its bank and its version (R86). -/
theorem activate_accepted {n : Fin 2} (hm : s.mode = .running) (hl : r.length = 0) (hn : s.ladder.standby = n)
    (hrej : rejection (s.bank n) s.ladder.staged = none) :
    exec (.activateLadder r) s
      = .next (s.activate.emit (soleReply 0x31 r.tag 0x00 [byteOf n.val, (s.bank n).byte 6, (s.bank n).byte 7])) := by
  have hversion : bytes16 (s.bank n).version = [(s.bank n).byte 6, (s.bank n).byte 7] := bytes16_split _ _
  simp only [exec, execActivateLadder]
  rw [activateLadder_serve hm hl]
  simp only [hn, hrej, hversion]
  rw [answered_ok _ _ _ (by simp)]
  rfl

/-- Where a record is announced anew at an activation: its terminal carries, has no shift pending, and its clamped rung is lower or
has another profile code than its former rung had (R88). -/
theorem reannounced_iff (old : Option LadderBank) (new : LadderBank) (t : Terminal) :
    (needsAnnouncement old new t (t.clampRungs new.top) && (t.clampRungs new.top).pendingShift.isNone) = true ↔
      (t.state = .inService ∨ t.state = .fading ∨ t.state = .ramping ∨ t.state = .climbing) ∧ t.pendingShift = none
        ∧ ((t.clampRungs new.top).rung < t.rung
          ∨ ∃ b, old = some b ∧ new.code (t.clampRungs new.top).rung ≠ b.code t.rung) := by
  have hcarry : (t.clampRungs new.top).state.carrying = true ↔ _ := carrying_iff t.state
  have hshift : (t.clampRungs new.top).pendingShift.isNone = true ↔ t.pendingShift = none := by
    simp [Terminal.clampRungs]
  unfold needsAnnouncement
  rw [Bool.and_eq_true, Bool.and_eq_true, hcarry, hshift, Bool.or_eq_true, decide_eq_true_iff, and_assoc,
    and_comm (b := t.pendingShift = none)]
  cases old <;> simp

/-- The activation changes the ladder store and, slot by slot, what R87 and R88 do to the records. -/
theorem activated_of_standby {n : Fin 2} (hn : s.ladder.standby = n) :
    ActivatedAll s.activeBank (s.bank n)
      { s with ladder := { s.ladder with active := some n, staged := Vector.replicate 3 false } } s.activate allSlots := by
  subst hn
  exact activated_all _ _ _ _ (List.nodup_finRange _)

/-- Settles O51: by the first check that fails; where none fails, each record's clamp and re-announcement come from the
activation's turn at its slot. -/
theorem activateLadderChecksAndClamps : Obligations.ActivateLadderChecksAndClamps := by
  rintro n r s b hm hl hnone hactive rfl
  have hn : s.ladder.standby = n := standby_eq hnone hactive
  obtain ⟨hfirst, hrung, hpass⟩ := rejection_cases (s.bank n) s.ladder.staged
  refine ⟨fun reason h1 h5 hbefore hfails => ?_, fun m hbefore hm' hwrong hright => ?_, fun hall => ?_⟩
  · exact activate_rejected hm hl hn (hfirst reason h1 h5 hbefore hfails) (by simp)
  · exact activate_rejected hm hl hn (hrung m hbefore hm' hwrong hright) (by simp)
  · have h := activated_of_standby hn
    obtain ⟨ts, ss, hform⟩ := h.form
    refine ⟨_, activate_accepted hm hl hn (hpass hall), ?_⟩
    simp only [State.emit_term, State.emit_sec]
    refine ⟨?_, ?_, ?_, ?_, ?_, ?_, ?_, ?_, ?_, h.sec, fun k => ⟨h.empty k (List.mem_finRange k), ?_⟩⟩
    iterate 9 · rw [hform]; rfl
    rintro clamped hne rfl
    have hiff := reannounced_iff s.activeBank (s.bank n) (s.term k)
    refine ⟨fun hann => ?_, fun hann => ?_⟩
    · rcases h.ann k (List.mem_finRange k) hne (hiff.2 hann) with ⟨hterm, hqueued⟩ | hterm
      · exact ⟨by rw [hterm]; rfl, .inl ((queuedFor_iff _ _ _).1 hqueued)⟩
      · exact ⟨by rw [hterm]; rfl, .inr (by rw [hterm]; rfl)⟩
    · exact h.plain k (List.mem_finRange k) hne (Bool.eq_false_iff.2 (mt hiff.1 hann))

end Sys2Proof.Machine
end

section
/-!
The misses of a terminal that stays in service: what a miss that is no loss counts, and the downshift the first one of a run
decides. The proofs assemble the lemmas of the Laws files; what those lack stands before its first use.
-/

namespace Sys2Proof.Machine

/-! ## Misses that are no loss (R92, R93, R101) -/

section
variable {s X : State} {j : Sector} {k : Slot} {R : SectorRec} {T : Terminal} {a : LadderBank} {n : FrameNo}

/-- A terminal record with a miss counted (R92). -/
def Terminal.missed (t : Terminal) : Terminal := { t with missRun := t.missRun + 1, climbDwell := 0 }

/-- What a counted miss decides: the first of a run, at an effective rung above 0 and with no shift announced, one rung down
(R92, R101). -/
def State.missDecision (s : State) (k : Slot) : State :=
  if (s.term k).missRun = 1 ∧ (s.term k).announced = false ∧ 0 < (s.term k).effectiveRung then
    s.shiftTo k ((s.term k).effectiveRung - 1)
  else s

/-- A miss below loss_limit is counted, makes an IN_SERVICE terminal FADING, and comes to its decision (R92, R93). -/
theorem miss_counts (hl : (s.term k).missRun + 1 < R.config.lossLimit) :
    (s.setSec j R).miss j k n = (if (s.term k).state = .inService then
        ((s.setSec j R).setTerm k (s.term k).missed).toState k .fading
      else (s.setSec j R).setTerm k (s.term k).missed).missDecision k := by
  have hmiss : (s.setSec j R).modTerm k (fun t => { t with missRun := t.missRun + 1, climbDwell := 0 })
      = (s.setSec j R).setTerm k (s.term k).missed := rfl
  have hstate : (s.term k).missed.state = (s.term k).state := rfl
  have hbelow : ¬R.config.lossLimit ≤ (s.term k).missed.missRun := Nat.not_le.2 hl
  unfold State.miss
  simp only [hmiss, State.cfg, State.setTerm_sec, State.setSec_sec_same, State.setTerm_term_same, hstate, if_neg hbelow]
  rfl

/-- A miss of an IN_SERVICE terminal that is no loss: the offer of its FADING stands before the decision (R93). -/
theorem miss_fades (hl : (s.term k).missRun + 1 < R.config.lossLimit) (hs : (s.term k).state = .inService) :
    (s.setSec j R).miss j k n =
      (((s.setSec j R).setTerm k { (s.term k).missed with state := .fading }).offerTerminal k).missDecision k := by
  have hmissed : (s.term k).missed.state = .inService := hs
  rw [miss_counts hl, if_pos hs, toState_set _ _ _ _ (by simp [hmissed]) (by simp [hmissed]), offer_set]

/-- A later miss of a run decides nothing (R101). -/
theorem missDecision_later (h : T.missRun ≠ 1) : (X.setTerm k T).missDecision k = X.setTerm k T :=
  if_neg fun ⟨hfirst, _, _⟩ => h (by rwa [State.setTerm_term_same] at hfirst)

/-- A miss at effective rung 0 decides nothing, behind the offer of its terminal too (R101). -/
theorem missDecision_floor (h : T.effectiveRung = 0) :
    ((X.setTerm k T).offerTerminal k).missDecision k = (X.setTerm k T).offerTerminal k := by
  obtain ⟨v, hv⟩ := noticedAs_pending X k
  refine if_neg fun ⟨_, _, hrung⟩ => Nat.ne_of_gt hrung ?_
  rw [offer_set, State.setTerm_term_same, hv]
  exact h

/-- The first miss of a run, with no shift pending, at a rung above 0, into an empty control queue: a SHIFT in class b one
rung down (R92, R101). -/
theorem missDecision_shifts (hj : T.sector = j) (hq : R.controlQueue = []) (hp : T.pendingShift = none) (hm : T.missRun = 1)
    (hr : 0 < T.rung) (ha : X.activeBank = some a) :
    ((X.setSec j R).setTerm k T).missDecision k =
      (X.setSec j { R with controlQueue := [{ slot := k, kind := .shift, cls := .b }] }).setTerm k
        { T with pendingShift := some { target := min (T.rung - 1) a.top } } := by
  obtain ⟨heff, hann⟩ := effectiveRung_none hp
  have hdown : min (T.rung - 1) a.top < T.rung := by omega
  have hclass : ({ T with pendingShift := some { target := min (T.rung - 1) a.top } } : Terminal).classOf .shift = .b :=
    if_pos hdown
  simp only [State.missDecision, State.setTerm_term_same, heff]
  rw [if_pos ⟨hm, hann, hr⟩, State.shiftTo, bound_active (by exact ha), modTerm_setTerm,
    request_empty (by exact hj) hq, hclass]

/-- The decision of a miss behind the offer of its terminal is the decision before it: an offer touches the notices and the
notice pending only. -/
theorem missDecision_behind_offer (hj : T.sector = j) (hq : R.controlQueue = []) (hp : T.pendingShift = none)
    (hm : T.missRun = 1) (hr : 0 < T.rung) (ha : X.activeBank = some a) :
    (((X.setSec j R).setTerm k T).offerTerminal k).missDecision k =
      State.offerTerminal ((X.setSec j { R with controlQueue := [{ slot := k, kind := .shift, cls := .b }] }).setTerm k
        { T with pendingShift := some { target := min (T.rung - 1) a.top } }) k := by
  obtain ⟨v, hv⟩ := noticedAs_pending X k
  simp only [offer_set, noticed_setSec, noticedAs_setSec, hv]
  exact missDecision_shifts hj hq hp hm hr ((noticed_active X k).trans ha)

end

/-- Settles O28: by whether the terminal is IN_SERVICE, and for one that is by whether the miss decides a downshift. -/
theorem missCountsAndFades : Obligations.MissCountsAndFades := by
  intro j e d k s a hw hd hr hl ha
  obtain ⟨-, hj⟩ := belongs_facts hw.home
  have hwalk (hst : (s.term k).state ∈ [.inService, .fading, .ramping, .climbing]) :
      exec (.descriptorWalkStep j) s = .next ((s.setSec j
        { s.sec j with evaluation := some { e with walked := e.walked + 1 } }).miss j k e.frame.number) :=
    miss_base hw hd hr (carrying_of hst)
  refine ⟨fun hs hp hrung => ?_, fun hst hrun => ?_, fun hs hrun hp hrung hq => ?_⟩
  · have hfloor : ({ (s.term k).missed with state := .fading } : Terminal).effectiveRung = 0 :=
      (effectiveRung_none hp).1.trans hrung
    rw [hwalk (by simp [hs]), miss_fades (by exact hl) hs, missDecision_floor hfloor]
    rfl
  · have hservice : (s.term k).state ≠ .inService := fun h => by simp [h] at hst
    have hlater : (s.term k).missed.missRun ≠ 1 := Nat.ne_of_gt (Nat.succ_lt_succ hrun)
    rw [hwalk (List.mem_cons_of_mem _ hst), miss_counts (by exact hl), if_neg hservice, missDecision_later hlater]
    rfl
  · have hfirst : (s.term k).missed.missRun = 1 := congrArg (· + 1) hrun
    have hmissed : (s.term k).missed = { s.term k with missRun := 1, climbDwell := 0 } := by rw [Terminal.missed, hrun]
    rw [hwalk (by simp [hs]), miss_fades (by exact hl) hs,
      missDecision_behind_offer (by exact hj) (by exact hq) (by exact hp) (by exact hfirst) (by exact hrung) ha, hmissed]

end Sys2Proof.Machine
end

section
/-!
Re-entry: what every step keeps of the queues and windows, the count of the backoffs, and the filling of a frame with grants and
queued messages. The proofs assemble the lemmas of the Laws files; what those lack stands before its first use.
-/

namespace Sys2Proof.Machine

/-! ## What every step keeps of the queues and windows (R108) -/

/-- Settles O58: every kind of move keeps the agreement, and it holds of a part at rest. -/
theorem membersKept : Obligations.MembersKept := fun _ _ ha hh ht hm hx =>
  step_keeps State.MembersAgree (fun _ => membersAgree_rest)
    (fun _ _ h => ⟨h.queue, h.window, h.queueOnce, h.windowOnce, h.classes⟩)
    (fun _ _ _ _ _ h m => membersAgree_moves h m) ha hh ht hm hx

/-! ## The backoff count (R110, R112) -/

section
variable {s : State} {j : Sector} {k : Slot}

/-- A full window admits no terminal (R109). -/
theorem admission_full (h : (s.cfg j).windowSize ≤ (s.sec j).window.length) : s.admission j = s := by
  rw [State.admission, Nat.sub_eq_zero_of_le h, State.admitHeads]

/-- Each DEFERRED terminal of a sector has one turn of the backoff count. -/
theorem countBackoffs_turns (s : State) (j : Sector) : ManyTurns j countedDown (fun t => t.backoff ≤ 1) s
    ((s.slotsIn j .deferred).foldl State.countBackoff s) (s.slotsIn j .deferred) := by
  refine manyTurns (pre := fun t => t.state = .deferred ∧ t.sector = j) (fun u k h => down_one u k h) _
    ((slotsOf_nodup s j).filter _) fun k hk => ?_
  obtain ⟨hhome, hdeferred⟩ := mem_slotsIn.1 hk
  exact ⟨hdeferred, (belongs_facts hhome).2⟩

/-- The sector works, and a frame brings it no admission: it is in OUTAGE, or its window is full (R109, R110). -/
def SectorRec.AdmitsNone (r : SectorRec) : Prop :=
  r.state = .outage ∨ (r.state = .clear ∨ r.state = .recovering) ∧ r.config.windowSize ≤ r.window.length

theorem SectorRec.AdmitsNone.works {r : SectorRec} (h : r.AdmitsNone) : r.state.work.isSome = true ∧ r.state.served = true := by
  rcases h with h | ⟨h | h, -⟩ <;> rw [h] <;> exact ⟨rfl, rfl⟩

/-- Where nothing is admitted the reaction of a working sector is its backoff count (R110). -/
theorem schedulerReaction_counts (h : (s.sec j).AdmitsNone) :
    s.schedulerReaction j = (s.slotsIn j .deferred).foldl State.countBackoff s := by
  obtain ⟨q, hsec, -, -⟩ := (countBackoffs_turns s j).same
  rw [State.schedulerReaction, if_pos h.works.1, hsec]
  rcases h with h | ⟨-, hfull⟩
  · rw [if_neg (by rw [h]; decide)]
  · rw [admission_full (by rw [State.cfg, hsec]; exact hfull), ite_self]

/-- The state with the oldest due reaction of the scheduler taken. -/
def State.reactionTaken (s : State) (j : Sector) : State :=
  s.modSec j fun r => { r with schedulerDue := r.schedulerDue - 1 }

theorem reactionTaken_sec (s : State) (j : Sector) :
    (s.reactionTaken j).sec j = { s.sec j with schedulerDue := (s.sec j).schedulerDue - 1 } :=
  State.modSec_sec_same s j _

/-- Where nothing is admitted a reaction of the scheduler is one turn of the backoff count for each DEFERRED terminal (R110). -/
theorem takeScheduler_turns (h : (s.sec j).AdmitsNone) : ManyTurns j countedDown (fun t => t.backoff ≤ 1) (s.reactionTaken j)
    (s.takeScheduler j) (s.slotsIn j .deferred) := by
  have hnone : ((s.reactionTaken j).sec j).AdmitsNone := by rw [reactionTaken_sec]; exact h
  have htaken : s.takeScheduler j = (s.reactionTaken j).schedulerReaction j := if_pos hnone.works.2
  rw [htaken, schedulerReaction_counts hnone]
  exact countBackoffs_turns _ j

/-- BACKOFF_EXPIRY takes the whole due reaction where it ends a backoff of a working sector. -/
theorem backoffExpiry_eq (hd : 0 < (s.sec j).schedulerDue) (hw : (s.sec j).state.work.isSome = true)
    (hb : s.belongs j k = true) (hk : (s.term k).state = .deferred) (h1 : (s.term k).backoff = 1) :
    exec (.backoffExpiry k) s = .next (s.takeScheduler j) := by
  have hj : s.sectorOf k = j := State.sectorOf_of_belongs hb
  have hready : s.expiryReady k = true := by simp [State.expiryReady, hj, hd, hw, hk, h1]
  simp only [exec, execBackoffExpiry, if_pos hready, hj]

end

/-- Settles O17: where nothing is admitted the reaction is one turn for each DEFERRED terminal, and no other has one. -/
theorem backoffsCountDown : Obligations.BackoffsCountDown := by
  intro j k s hd hst hb hk h1
  have hnone : (s.sec j).AdmitsNone := hst
  obtain ⟨hterm, hother, hnotices, hsecs, ⟨q, hsec, -, hjoined⟩, haround, hout⟩ := takeScheduler_turns hnone
  rw [reactionTaken_sec] at hsec
  refine ⟨_, backoffExpiry_eq hd hnone.works.1 hb hk h1, if_pos hd, SameAround.trans (setSec_around s j _) haround, hout,
    fun i hi => (hsecs i hi).trans (State.modSec_sec_other _ hi.symm), by rw [hsec], by rw [hsec], fun i => ?_⟩
  split
  · next hdeferred =>
    have hi := mem_slotsIn.2 hdeferred
    obtain ⟨hexpires, hcounts⟩ := hterm i hi
    refine ⟨fun h => ?_, fun h => ⟨?_, ?_, ?_⟩⟩
    · have hlater : ¬(s.term i).backoff ≤ 1 := Nat.not_le.2 h
      exact (hcounts hlater).trans (if_neg hlater)
    · refine (hexpires (Nat.le_of_eq h)).trans (congrArg _ ?_)
      simp [countedDown, h, State.reactionTaken]
    · rw [hsec]
      exact hjoined i hi (Nat.le_of_eq h)
    · exact (hnotices _).2 (.inr ⟨i, hi, Nat.le_of_eq h, rfl⟩)
  · next hstill => exact hother i fun hi => hstill (mem_slotsIn.1 hi)

/-! ## The filling of a frame (R113, R127, R144, R146, R147, R149, R150, R172) -/

section
variable {s : State} {j : Sector} {k i : Slot} {n : FrameNo} {c : SectorConfig} {x : ControlEntry} {f g : Slot → Terminal}
  {kind : MsgKind} {cls : MsgClass}

/-- The terminal records after the insertion of one entry (R149). -/
def insertedAt (c : SectorConfig) (n : FrameNo) (x : ControlEntry) (f : Slot → Terminal) (k : Slot) : Terminal :=
  if k = x.slot then inserted c n x.kind (f k) else f k

/-- A terminal record with an owed kind taken back (R144). -/
def Terminal.takenBack (kind : MsgKind) (t : Terminal) : Terminal := { t with owed := t.owed.put kind false }

/-- The terminal records after an owed kind of one slot is taken back (R144). -/
def takenBackAt (i : Slot) (kind : MsgKind) (f : Slot → Terminal) (k : Slot) : Terminal :=
  if k = i then (f k).takenBack kind else f k

/-- The terminal records after the grants of a frame (R113, R146). -/
def grantedAt (c : SectorConfig) (n : FrameNo) (granted : List Slot) (f : Slot → Terminal) (k : Slot) : Terminal :=
  if k ∈ granted then { f k with expectedBurst := some (later n c.grantLead) } else f k

/-- Two records of one terminal that owe the same kinds, a SHIFT in the same class. -/
structure Terminal.OwesAs (u t : Terminal) : Prop where
  owed : u.owed = t.owed
  shiftClass : u.shiftClass = t.shiftClass
  state : u.state = t.state
  sector : u.sector = t.sector

theorem Terminal.OwesAs.refl (t : Terminal) : t.OwesAs t := ⟨rfl, rfl, rfl, rfl⟩

/-- What a scan takes of a terminal, and its class, is settled by what it owes and by the class of its SHIFT (R144). -/
theorem Terminal.OwesAs.choice {t u : Terminal} (h : u.OwesAs t) :
    u.owedChoice = t.owedChoice ∧ ∀ kind, u.classOf kind = t.classOf kind := by
  refine ⟨by simp only [Terminal.owedChoice, h.owed, h.shiftClass], fun kind => ?_⟩
  cases kind <;> simp only [Terminal.classOf, h.shiftClass]

/-- An insertion keeps what its terminal owes: an announced shift keeps its target, and so its class (R142, R149). -/
theorem inserted_owes (c n kind) (t : Terminal) : (inserted c n kind t).OwesAs t := by
  obtain ⟨howed, hstate, hsector⟩ := inserted_keeps c n kind t
  refine ⟨howed, ?_, hstate, hsector⟩
  unfold Terminal.shiftClass inserted
  cases kind <;> cases t.pendingShift <;> rfl

theorem insertedAt_owes (c n x f k) : (insertedAt c n x f k).OwesAs (f k) := by
  unfold insertedAt
  split
  · exact inserted_owes c n x.kind (f k)
  · exact .refl _

theorem grantedAt_owes (c n granted f k) : (grantedAt c n granted f k).OwesAs (f k) := by
  unfold grantedAt
  split
  · exact ⟨rfl, rfl, rfl, rfl⟩
  · exact .refl _

/-- An insertion and a taking back write different fields. -/
theorem inserted_takenBack (c n kind kind') (t : Terminal) :
    inserted c n kind (t.takenBack kind') = (inserted c n kind t).takenBack kind' := by
  cases kind <;> rfl

theorem takenBackAt_insertedAt (c n x f i kind) :
    takenBackAt i kind (insertedAt c n x f) = insertedAt c n x (takenBackAt i kind f) := by
  funext k
  simp only [takenBackAt, insertedAt, apply_ite (inserted c n x.kind), apply_ite (Terminal.takenBack kind), inserted_takenBack]
  split <;> rfl

/-- No message reads the expected burst frame or the owed kinds of its terminal (11-2). -/
theorem message_unread (s : State) (j q) (f : Slot → Terminal) (n) {k : Slot} (kind)
    (h : ∃ b o, g k = { f k with expectedBurst := b, owed := o }) :
    (s.filled j q g).message j n k kind = (s.filled j q f).message j n k kind := by
  obtain ⟨b, o, hg⟩ := h
  cases kind <;> (simp only [State.message, State.filled_term, State.filled_cfg, State.filled_activeBank, hg]; rfl)

/-- A terminal's SHIFT is of class B exactly when a pending shift of it goes down (R142). -/
theorem shiftClass_eq (t : Terminal) :
    ((∃ p, t.pendingShift = some p ∧ p.target < t.rung) → t.shiftClass = .b)
      ∧ ((¬∃ p, t.pendingShift = some p ∧ p.target < t.rung) → t.shiftClass = .d) := by
  unfold Terminal.shiftClass
  refine ⟨fun ⟨p, hp, hdown⟩ => ?_, fun h => ?_⟩
  · rw [hp]
    exact if_pos hdown
  · split
    · next p hp => exact if_neg fun hdown => h ⟨p, hp, hdown⟩
    · rfl

/-- A record of owed kinds in which none is marked is the empty one. -/
theorem owes_nothing {o : OwedKinds} (h : o.any = false) : o = {} := by
  rcases o with ⟨correct, verify, power, shift⟩
  simp only [OwedKinds.any, Bool.or_eq_false_iff] at h
  obtain ⟨⟨⟨rfl, rfl⟩, rfl⟩, rfl⟩ := h
  rfl

theorem owes_any {o : OwedKinds} (h : o ≠ {}) : o.any = true :=
  Bool.eq_true_of_not_eq_false fun hn => h (owes_nothing hn)

/-- A terminal that owes: its scan takes the first owed kind in the order of R144, into that kind's class. -/
theorem owedChoice_of {t : Terminal} (ho : t.owed ≠ {}) (h : (kind, cls) = (if t.owed.correct then (.correct, .a)
    else if t.owed.verify then (.verify, .a)
    else if t.owed.shift ∧ ∃ p, t.pendingShift = some p ∧ p.target < t.rung then (.shift, .b)
    else if t.owed.power then (.power, .c)
    else (.shift, .d))) : t.owedChoice = kind ∧ t.classOf kind = cls := by
  obtain ⟨hb, hd⟩ := shiftClass_eq t
  split_ifs at h with h1 h2 h3 h4 <;> obtain ⟨rfl, rfl⟩ := Prod.mk.inj h
  · simp [Terminal.owedChoice, Terminal.classOf, h1]
  · simp [Terminal.owedChoice, Terminal.classOf, h1, h2]
  · simp [Terminal.owedChoice, Terminal.classOf, h1, h2, h3.1, hb h3.2]
  · have hup : ¬((t.owed.shift && t.shiftClass == .b) = true) := fun hx => by
      rw [Bool.and_eq_true] at hx
      refine h3 ⟨hx.1, ?_⟩
      by_contra hn
      rw [hd hn] at hx
      exact absurd hx.2 (by decide)
    refine ⟨?_, rfl⟩
    simp only [Terminal.owedChoice, h1, h2, h4, if_neg hup, if_true, Bool.false_eq_true, if_false]
  · have hshift : t.owed.shift = true := by
      simpa [OwedKinds.any, h1, h2, h4] using owes_any ho
    have hclass := hd fun hx => h3 ⟨hshift, hx⟩
    simp [Terminal.owedChoice, Terminal.classOf, h1, h2, h4, hclass]

/-- What a terminal owes behind the taking of one kind (R144). -/
theorem put_false (o : OwedKinds) (kind : MsgKind) :
    ({ correct := o.correct && kind ≠ .correct, verify := o.verify && kind ≠ .verify
       power := o.power && kind ≠ .power, shift := o.shift && kind ≠ .shift } : OwedKinds) = o.put kind false := by
  cases kind <;> simp [OwedKinds.put]

/-- A queue pass of a sector that owes: the first departure has the owed kind of the lowest slot that owes join its class, and
behind it the pass is one of a sector that owes nothing, or is at its end (R144, R147). -/
theorem queuePass_takes {m : Nat} {front back line : List ControlEntry}
    (hf : ∀ k, (f k).state = (s.term k).state ∧ (f k).sector = (s.term k).sector) (hl : (front ++ back).length < 48)
    (hi : s.belongs j i = true) (ho : (f i).owed ≠ {}) (hlow : ∀ l, l < i → s.belongs j l = true → (f l).owed = {})
    (hchoice : (f i).owedChoice = kind ∧ (f i).classOf kind = cls)
    (hno : ∀ e ∈ front ++ back, ¬(e.slot = i ∧ e.kind = kind))
    (h1 : ∀ e ∈ front, e.cls.rank ≤ cls.rank) (h2 : ∀ e ∈ back, cls.rank < e.cls.rank)
    (hline : line = front ++ { slot := i, kind := kind, cls := cls } :: back)
    (hrest : m = 0 ∨ ∀ k, s.belongs j k = true → (takenBackAt i kind f k).owed = {})
    (hn : ((x :: line.take m).map fun e => (e.slot, e.kind)).Nodup) :
    State.queuePass j n (m + 1) (s.filled j (x :: (front ++ back)) f)
      = (s.filled j (line.drop m) fun k => sent (s.cfg j) n (x :: line.take m) k (takenBackAt i kind f k),
        (x :: line.take m).map fun e => (s.filled j (x :: (front ++ back)) f).message j n e.slot e.kind) := by
  have howes (k) := insertedAt_owes (s.cfg j) n x f k
  obtain ⟨hkind, hcls⟩ := (howes i).choice
  have hscan : (s.filled j (front ++ back) (insertedAt (s.cfg j) n x f)).owedScan j
      = s.filled j line (takenBackAt i kind (insertedAt (s.cfg j) n x f)) := by
    rw [hline]
    exact owedScan_takes s j (fun k => ⟨(howes k).state.trans (hf k).1, (howes k).sector.trans (hf k).2⟩) hl hi
      (owes_any (by rw [(howes i).owed]; exact ho)) (fun l hl hb => (howes l).owed.trans (hlow l hl hb))
      (hkind.trans hchoice.1) ((hcls kind).trans hchoice.2) hno h1 h2
  have hleft : (((s.filled j (x :: (front ++ back)) f).modSec j fun r => { r with controlQueue := front ++ back }).modTerm x.slot
      (inserted ((s.filled j (x :: (front ++ back)) f).cfg j) n x.kind))
        = s.filled j (front ++ back) (insertedAt (s.cfg j) n x f) := by
    rw [State.filled_setQueue, State.filled_cfg, State.filled_modTerm]
    rfl
  obtain ⟨hx, hn⟩ := List.nodup_cons.1 hn
  have hquiet := queuePass_quiet s j n m line (insertedAt (s.cfg j) n x (takenBackAt i kind f)) (fun k => ?_)
    (hrest.imp_right fun h k hk => (insertedAt_owes _ _ _ _ k).owed.trans (h k hk)) hn
  · unfold State.queuePass
    rw [State.filled_sec]
    dsimp only
    rw [hleft, hscan, takenBackAt_insertedAt, hquiet, List.map_cons]
    simp only [sent_cons]
    refine Prod.ext rfl (congrArg (_ :: ·) (List.map_congr_left fun e he => ?_))
    have hother : ¬(e.slot = x.slot ∧ e.kind = x.kind) := fun h => hx (List.mem_map.2 ⟨e, he, by rw [h.1, h.2]⟩)
    calc (s.filled j line (insertedAt (s.cfg j) n x (takenBackAt i kind f))).message j n e.slot e.kind
        = (s.filled j line (takenBackAt i kind f)).message j n e.slot e.kind := message_inserted s j line _ n hother
      _ = (s.filled j line f).message j n e.slot e.kind := message_unread s j line f n e.kind (by
          unfold takenBackAt
          split <;> exact ⟨_, _, rfl⟩)
      _ = _ := message_filled _ _ _ _ _ _ _ _
  · have hlater := insertedAt_owes (s.cfg j) n x (takenBackAt i kind f) k
    rw [hlater.state, hlater.sector, takenBackAt]
    split <;> exact hf k

/-- The entries of a terminal and a kind among those that leave. -/
theorem queuedFor_pairs (l : List ControlEntry) (k : Slot) (kind : MsgKind) :
    queuedFor l k kind = true ↔ (k, kind) ∈ l.map fun e => (e.slot, e.kind) := by
  simp [queuedFor_iff]

/-- The messages of a queue pass are those of the records before the grants. -/
theorem message_granted (s : State) (j q c n granted k kind) :
    (s.filled j q (grantedAt c n granted s.term)).message j n k kind = s.message j n k kind := by
  calc (s.filled j q (grantedAt c n granted s.term)).message j n k kind
      = (s.filled j q s.term).message j n k kind := message_unread s j q s.term n kind (by
        unfold grantedAt
        split <;> exact ⟨_, _, rfl⟩)
    _ = (s.filled j (s.sec j).controlQueue s.term).message j n k kind := message_filled _ _ _ _ _ _ _ _
    _ = s.message j n k kind := by rw [State.filled_self]

/-- A SHIFT names the profile code of the pending target in the active bank, and its effective frame (R149). -/
theorem message_shift {b : LadderBank} {p : PendingShift} (hb : s.activeBank = some b) (hp : (s.term k).pendingShift = some p) :
    s.message j n k .shift = [0x05] ++ bytes16 ((s.term k).linkAddress.setWidth 16) ++ [b.code p.target]
      ++ bytes16 (n + BitVec.ofNat 16 (s.sec j).config.shiftDelay) ++ [0, 0] := by
  simp only [State.message, shiftMessage, hb, Terminal.shiftTarget, hp]
  rfl

/-- What the grants and the insertions of one filling write in a terminal record (R113, R127, R149). -/
theorem sent_granted (c n granted f) (l : List ControlEntry) (k : Slot) (o : OwedKinds) :
    sent c n l k { grantedAt c n granted f k with owed := o } =
      { f k with
        expectedBurst := if k ∈ granted ∨ (k, .verify) ∈ l.map (fun e => (e.slot, e.kind)) then some (later n c.grantLead)
          else (f k).expectedBurst
        pendingAdjust := if (k, .correct) ∈ l.map (fun e => (e.slot, e.kind)) then none else (f k).pendingAdjust
        verification := if (k, .verify) ∈ l.map (fun e => (e.slot, e.kind))
          then { started := true, completed := false, outcome := .none, startFrame := n } else (f k).verification
        pendingShift := if (k, .shift) ∈ l.map (fun e => (e.slot, e.kind))
          then (f k).pendingShift.map fun p => { p with effective := some (later n c.shiftDelay) } else (f k).pendingShift
        owed := o } := by
  simp only [sent, queuedFor_pairs, grantedAt]
  by_cases hg : k ∈ granted <;> simp [hg]

/-- The queue pass behind the grants, where nothing is owed that it could take back. -/
theorem queuePass_granted_quiet {m : Nat} {line : List ControlEntry} {granted : List Slot} {owed : Slot → OwedKinds}
    (ho : ∀ k, owed k = (s.term k).owed) (hquiet : m = 0 ∨ ∀ i, s.belongs j i = true → owed i = {})
    (hout : ((line.take m).map fun e => (e.slot, e.kind)).Nodup) :
    State.queuePass j n m (s.filled j line (grantedAt (s.cfg j) n granted s.term))
      = (s.filled j (line.drop m) fun k =>
          sent (s.cfg j) n (line.take m) k { grantedAt (s.cfg j) n granted s.term k with owed := owed k },
        (line.take m).map fun e => s.message j n e.slot e.kind) := by
  have howes (k) := grantedAt_owes (s.cfg j) n granted s.term k
  have hsame (k) : ({ grantedAt (s.cfg j) n granted s.term k with owed := owed k } : Terminal)
      = grantedAt (s.cfg j) n granted s.term k := by
    rw [ho k, ← (howes k).owed]
  simp only [hsame, ← message_granted s j line (s.cfg j) n granted]
  exact queuePass_quiet s j n m line _ (fun k => ⟨(howes k).state, (howes k).sector⟩)
    (hquiet.imp_right fun h k hk => (howes k).owed.trans ((ho k).symm.trans (h k hk))) hout

/-- The queue pass behind the grants, where the first departure has an owed kind taken back. -/
theorem queuePass_granted_takes {m : Nat} {front back line : List ControlEntry} {granted : List Slot} {owed : Slot → OwedKinds}
    (hl : (x :: (front ++ back)).length ≤ 48) (hi : s.belongs j i = true) (hoi : (s.term i).owed ≠ {})
    (hlow : ∀ l, l < i → s.belongs j l = true → (s.term l).owed = {})
    (hchoice : (s.term i).owedChoice = kind ∧ (s.term i).classOf kind = cls)
    (hno : ∀ e ∈ front ++ back, ¬(e.slot = i ∧ e.kind = kind))
    (h1 : ∀ e ∈ front, e.cls.rank ≤ cls.rank) (h2 : ∀ e ∈ back, cls.rank < e.cls.rank)
    (hline : line = front ++ { slot := i, kind := kind, cls := cls } :: back)
    (ho : ∀ k, owed k = if k = i then (s.term k).owed.put kind false else (s.term k).owed)
    (hrest : m = 0 ∨ ∀ k, s.belongs j k = true → owed k = {})
    (hout : ((x :: line.take m).map fun e => (e.slot, e.kind)).Nodup) :
    State.queuePass j n (m + 1) (s.filled j (x :: (front ++ back)) (grantedAt (s.cfg j) n granted s.term))
      = (s.filled j (line.drop m) fun k =>
          sent (s.cfg j) n (x :: line.take m) k { grantedAt (s.cfg j) n granted s.term k with owed := owed k },
        (x :: line.take m).map fun e => s.message j n e.slot e.kind) := by
  have howes (k) := grantedAt_owes (s.cfg j) n granted s.term k
  have htaken (k) : ({ grantedAt (s.cfg j) n granted s.term k with owed := owed k } : Terminal)
      = takenBackAt i kind (grantedAt (s.cfg j) n granted s.term) k := by
    rw [ho k, ← (howes k).owed, takenBackAt]
    split <;> rfl
  obtain ⟨hkind, hcls⟩ := (howes i).choice
  simp only [htaken, ← message_granted s j (x :: (front ++ back)) (s.cfg j) n granted]
  exact queuePass_takes (fun k => ⟨(howes k).state, (howes k).sector⟩) (Nat.lt_of_succ_le hl) hi
    (by rw [(howes i).owed]; exact hoi) (fun l hl hb => (howes l).owed.trans (hlow l hl hb))
    ⟨hkind.trans hchoice.1, (hcls kind).trans hchoice.2⟩ hno h1 h2 hline
    (hrest.imp_right fun h k hk => by rw [← htaken k]; exact h k hk) hout

/-- The window members the grant pass serves (R146). -/
theorem toGrant_eq (s : State) (j : Sector) :
    s.toGrant j = (s.sec j).window.filter fun k => (s.term k).state = .ranging ∧ (s.term k).expectedBurst = none :=
  List.filter_congr fun k _ => by rw [Bool.eq_iff_iff]; simp

/-- The filling of a frame is its grants, and the queue pass behind them in the slots that remain (R146, R150). -/
theorem fill_eq {free : Nat} {granted : List Slot} (hg : granted = (if (s.sec j).state = .blind then []
    else ((s.sec j).window.filter fun k => (s.term k).state = .ranging ∧ (s.term k).expectedBurst = none).take free))
    {u : State} {ms : List (List Byte)} (hq : State.queuePass j n (free - granted.length)
      (s.filled j (s.sec j).controlQueue (grantedAt (s.cfg j) n granted s.term)) = (u, ms)) :
    s.fill j n free = (u, granted.map (fun k => grantMessage (s.cfg j) (s.term k)) ++ ms) := by
  have hgrants : s.grantAll j n granted = s.filled j (s.sec j).controlQueue (grantedAt (s.cfg j) n granted s.term) := by
    have h := grantAll_filled s j n granted s.term (s.sec j).controlQueue
    rwa [State.filled_self] at h
  rw [State.fill, toGrant_eq, ← hg, hgrants, hq]

theorem filled_links (s : State) (j q f) : (s.filled j q f).transit = s.transit ∧ (s.filled j q f).radioOut = s.radioOut := by
  unfold State.filled
  generalize Vector.ofFn f = v
  exact ⟨rfl, rfl⟩

/-- The oldest frame between the links, filled, leaves alone (R4, R146). -/
theorem slotFilling_eq {fr : Frame} {rest : List Transit} {q : List ControlEntry} {ms : List (List Byte)}
    (ht : s.transit = { frame := fr, fill := some j } :: rest) (hrest : ∀ x, rest.head? = some x → x.fill ≠ none)
    (hs : (s.sec j).InService) (hfill : s.fill j (frameNumber fr) (freeSlots fr) = (s.filled j q f, ms)) :
    exec (.slotFilling j) s = .next { s.filled j q f with
      transit := rest, radioOut := s.radioOut ++ [writeSlots fr (freeSlots fr) ms] } := by
  have hunfilled : s.unfilled j = some fr := by simp [State.unfilled, ht]
  have hserved : (s.sec j).state.served = true := (served_iff _).2 hs
  obtain ⟨htransit, hradio⟩ := filled_links s j q f
  have holdest : fillOldest j (writeSlots fr (freeSlots fr) ms) (s.filled j q f).transit
      = { frame := writeSlots fr (freeSlots fr) ms, fill := none } :: rest := by
    rw [htransit, ht]
    exact if_pos rfl
  simp only [exec, execSlotFilling, hunfilled, hserved, if_true, hfill, holdest]
  rw [release_one (rest := rest) rfl hrest, hradio]

end

/-- Settles O19: the grants, then the queue pass by whether its first departure has an owed kind taken back. -/
theorem fillingGrantsAndInserts : Obligations.FillingGrantsAndInserts := by
  rintro j fr rest s c m n granted line owed out message messages ht hrest hs hc rfl hgranted hm hline rfl hout hmessage rfl
  obtain rfl : c = freeSlots fr := hc
  have hpass : State.queuePass j (word16 fr 3) m
      (s.filled j (s.sec j).controlQueue (grantedAt (s.cfg j) (word16 fr 3) granted s.term))
        = (s.filled j (line.drop m) fun k => sent (s.cfg j) (word16 fr 3) (line.take m) k
            { grantedAt (s.cfg j) (word16 fr 3) granted s.term k with owed := owed k },
          (line.take m).map fun e => s.message j (word16 fr 3) e.slot e.kind) := by
    rcases hline with ⟨rfl, ho, hquiet⟩ |
      ⟨x, front, back, i, kind, cls, hq, hl, h1, hi, hoi, hlow, hchoice, hno, hfront, hback, rfl, ho, hrest⟩
    · exact queuePass_granted_quiet ho hquiet hout
    · obtain ⟨m, rfl⟩ := Nat.exists_eq_add_of_le' h1
      rw [hq] at hl ⊢
      exact queuePass_granted_takes hl hi hoi hlow (owedChoice_of hoi hchoice) hno hfront hback rfl
        (fun k => by rw [ho k, put_false]) (hrest.imp_left Nat.succ.inj) hout
  have hmessages : (line.take m).map (fun e => s.message j (word16 fr 3) e.slot e.kind) = (line.take m).map message := by
    refine List.map_congr_left fun e he => ?_
    have hbytes := hmessage e he
    rcases e with ⟨k, kind, cls⟩
    cases kind with
    | correct => exact hbytes.symm
    | verify => exact hbytes.symm
    | power => exact hbytes.symm
    | shift =>
      obtain ⟨b, p, hb, hp, hbytes⟩ := hbytes
      exact (message_shift hb hp).trans hbytes.symm
  have hlengths : ∀ x ∈ granted.map (fun k => grantMessage (s.cfg j) (s.term k)) ++ (line.take m).map message,
      x.length = 8 := by
    intro x hx
    rw [← hmessages, List.mem_append, List.mem_map, List.mem_map] at hx
    rcases hx with ⟨k, -, rfl⟩ | ⟨e, -, rfl⟩
    · rfl
    · exact message_length s j _ e.slot e.kind
  rw [hmessages] at hpass
  subst hm
  rw [slotFilling_eq ht hrest hs (fill_eq hgranted hpass),
    writeSlots_messages (free := freeSlots fr) fr (Nat.min_le_right _ _) hlengths]
  simp only [sent_granted]
  rfl

end Sys2Proof.Machine
end

section
/-!
Verification: the expected pattern, the blocks that fail, and the record of the comparison. The proof assembles the lemmas of the
Laws files; what those lack stands before its first use.
-/

namespace Sys2Proof.Machine

/-! ## The failed blocks and the first fault (R128 to R131) -/

section
variable {seed i j : Nat} {payload : List Byte} {b : Byte}

/-- The pattern byte with its sum reduced mod 256, as R128 writes it. -/
theorem patternByte_mod (seed i j : Nat) : BitVec.ofNat 8 ((seed + 29 * i + 7 * j) % 256) = patternByte seed i j :=
  ofNat_mod _

/-- The failing blocks are the one ascending list of the expected blocks that fail (R129). -/
theorem eq_failingBlocks {failed : List Nat} {n : Nat} (hsorted : failed.Pairwise (· < ·))
    (hmem : ∀ i, i ∈ failed ↔ i < n ∧ blockFails seed payload i = true) : failed = failingBlocks seed payload n :=
  sorted_unique hsorted (List.pairwise_lt_range.filter _) fun i => by
    rw [hmem, failingBlocks, List.mem_filter, List.mem_range]

theorem receivedBlock_missing (h : payload.length < 16 * (i + 1)) : receivedBlock payload i = none :=
  if_neg (Nat.not_le.2 h)

theorem receivedBlock_whole (h : 16 * (i + 1) ≤ payload.length) :
    receivedBlock payload i = some ((payload.drop (16 * i)).take 16) :=
  if_pos h

/-- A byte of a received block is the payload's byte 16 times the block's number further on (R129). -/
theorem byteAt_block (hj : j < 16) (hb : payload[16 * i + j]? = some b) :
    byteAt ((payload.drop (16 * i)).take 16) j = b := by
  rw [byteAt, List.getD_eq_getElem?_getD, List.getElem?_take_of_lt hj, List.getElem?_drop, hb, Option.getD_some]

/-- The fault offset is the offset that differs behind offsets that all agree (R130). -/
theorem faultOffset_eq {bs : List Byte} (hj : j < 16) (hdiffers : byteAt bs j ≠ patternByte seed i j)
    (hagree : ∀ m, m < j → byteAt bs m = patternByte seed i m) : faultOffset seed bs i = j := by
  have hfind : (List.range 16).find? (fun m => byteAt bs m != patternByte seed i m) = some j :=
    List.find?_range_eq_some.2 ⟨bne_iff_ne.2 hdiffers, List.mem_range.2 hj, fun m hm => by simp [hagree m hm]⟩
  rw [faultOffset, hfind, Option.getD_some]

/-- The fault of a missing block stands at offset 0 and has no received byte (R130). -/
theorem faultOf_missing (h : payload.length < 16 * (i + 1)) : faultOf seed payload i =
    { block := i, offset := 0, expected := patternByte seed i 0, received := none } := by
  rw [faultOf, receivedBlock_missing h]

/-- The fault of a block that is there stands at the first byte that differs (R130). -/
theorem faultOf_differs (h : 16 * (i + 1) ≤ payload.length) (hj : j < 16) (hb : payload[16 * i + j]? = some b)
    (hdiffers : b ≠ patternByte seed i j) (hagree : ∀ m, m < j → payload[16 * i + m]? = some (patternByte seed i m)) :
    faultOf seed payload i = { block := i, offset := j, expected := patternByte seed i j, received := some b } := by
  have hbyte := byteAt_block hj hb
  have hoffset : faultOffset seed ((payload.drop (16 * i)).take 16) i = j :=
    faultOffset_eq hj (hbyte.trans_ne hdiffers) fun m hm => byteAt_block (hm.trans hj) (hagree m hm)
  simp only [faultOf, receivedBlock_whole h, hoffset, hbyte]

end

/-- Settles O38: the list of the statement is the model's list of failing blocks, and its head gives the first fault. -/
theorem comparisonCountsFailedBlocks : Obligations.ComparisonCountsFailedBlocks := by
  rintro v w seed payload c fails failed rfl hfails hsorted hmem
  obtain rfl : failed = failingBlocks seed payload c.verifyBlocks :=
    eq_failingBlocks hsorted fun i => by rw [hmem, hfails, fails_iff]
  have hfirst : (v.compared seed payload c).firstFault
      = (failingBlocks seed payload c.verifyBlocks).head?.map (faultOf seed payload) := rfl
  refine ⟨rfl, rfl, rfl, rfl, rfl, fun hnone => ?_, fun i rest hcons hmissing => ?_,
    fun i rest j b hcons hwhole hj hb hdiffers hagree => ?_⟩
  · rw [hfirst, hnone]; rfl
  · rw [hfirst, hcons, List.head?_cons, Option.map_some, faultOf_missing hmissing, ← patternByte_mod]
    rfl
  · simp only [patternByte_mod] at hdiffers hagree ⊢
    rw [hfirst, hcons, List.head?_cons, Option.map_some, faultOf_differs hwhole hj hb hdiffers hagree]

end Sys2Proof.Machine
end

section
/-!
The machine and its management unit: the commands that wait, the start-up check, and the requests every mode serves or refuses.
The proofs assemble the lemmas of the Laws files; what those lack stands before its first use.
-/

namespace Sys2Proof.Machine

variable {s t : State} {f : RequestKind} {r : Request} {k : Nat} {failing : Option WordRead}

/-! ## The start-up check (R161, R162, R164) -/

theorem rest_of_starting (ha : s.AtRest) (hm : s.mode = .starting) : s.AllAtRest :=
  s.allAtRest ha (by rw [hm]; decide)

/-- A test of a part at rest changes the start-up record only: the memory it clears is clear. -/
theorem regionTested_rest (h : s.AllAtRest) :
    s.regionTested k failing = { s with startUp := s.startUp.tested k (failingRead failing) } :=
  zero_rest (s := { s with startUp := s.startUp.tested k (failingRead failing) }) (h.congr rfl rfl rfl rfl rfl) k

/-- What the end of a region's test writes in the start-up record (R161, R162). -/
theorem tested_eq (u : StartUpRecord) (k : Nat) (failing : Option WordRead) :
    u.tested k failing =
      { u with
        progress := u.progress ||| BitVec.twoPow 16 k
        failure := if failing.isSome then u.failure ||| BitVec.twoPow 16 k else u.failure
        firstFailure := match failing with
          | none => u.firstFailure
          | some w => some (u.firstFailure.getD
              { region := k, offset := w.offset, expected := patternWord w.pattern, value := w.value }) } := by
  cases failing <;> rfl

/-- A word within the 48 of a ladder bank, or any word of another region, is one the test reads (10-4, R161). -/
theorem inRegion_of_bound (h : ∀ w, failing = some w → k = 10 ∨ k = 11 → w.offset.toNat < 48) :
    inRegion k failing = true := by
  unfold inRegion regionWords
  by_cases hk : k = 10 ∨ k = 11
  · cases failing with
    | none => rfl
    | some w => rw [if_pos hk]; exact decide_eq_true (h w rfl hk)
  · cases failing <;> rw [if_neg hk]

/-- The test of the next region ends (R161). -/
theorem regionTestEnd_tests (hm : s.mode = .starting) (hk : k < 12) (hu : s.startUp.region = some k)
    (hi : inRegion k failing = true) : exec (.regionTestEnd failing) s = .next (s.regionTested k failing) := by
  simp only [exec, execRegionTestEnd, hm, hu]
  exact if_pos ⟨hk, hi⟩

/-- Behind regions 0 to 11 comes region 12 (R161). -/
theorem region_last {u : StartUpRecord} (h : u.progress = 0x0FFF) : u.region = some 12 :=
  find_region (by decide) (by rw [h]; decide) (by rw [h]; decide)

/-- The check ends with the test of region 12 (R162). -/
theorem startupCheckEnd_ends (hm : s.mode = .starting) (hu : s.startUp.region = some 12) :
    exec (.startupCheckEnd failing) s = .next (s.regionTested 12 failing).endCheck := by
  simp only [exec, execStartupCheckEnd, hm, hu, if_true]

/-- The end of the check, with the READY item written out (R162, R164). -/
theorem endCheck_eq :
    s.endCheck =
      { s with
        mode := if s.startUp.failure = 0 then .running else .bypass
        startUp := { s.startUp with passed := some (s.startUp.failure == 0) }
        controllerOut := s.controllerOut ++
          [[0x93, 0x04, 0xFF, 0x00, 0x00, 0x01] ++ [0x03] ++ bytes16 s.startUp.progress ++ bytes16 s.startUp.failure
            ++ [if s.startUp.failure = 0 then 1 else 0, causeCode s.startUp.cause] ++ [0x31, 0x40, 0x01]] } := by
  by_cases h0 : s.startUp.failure = 0
  · simp only [State.endCheck, h0, if_true]
    rfl
  · have hfailed : (s.startUp.failure == 0) = false := beq_eq_false_iff_ne.2 h0
    simp only [State.endCheck, hfailed, h0, if_false, Bool.false_eq_true]
    rfl

/-- Settles O6: the part is at rest, so a test writes the start-up record only; the end of the check adds the mode and READY. -/
theorem startUpCheckRecordsItsRegions : Obligations.StartUpCheckRecordsItsRegions := by
  refine ⟨fun failing k s ha hm hk hbefore hnext hw hwords => ?_, fun failing s ha hm hp hw word hword => ?_⟩
  · have hregion : s.startUp.region = some k := find_region (by omega) hbefore hnext
    rw [regionTestEnd_tests hm hk hregion (inRegion_of_bound hwords), regionTested_rest (rest_of_starting ha hm),
      failing_wf hw]
    exact congrArg (fun u => Host.Outcome.next { s with startUp := u }) (tested_eq _ _ _)
  · subst hword
    have hbit : BitVec.twoPow 16 12 = 0x1000 := by decide
    have hprogress : s.startUp.progress ||| 0x1000 = 0x1FFF := by rw [hp]; decide
    rw [startupCheckEnd_ends hm (region_last hp), regionTested_rest (rest_of_starting ha hm), failing_wf hw, tested_eq,
      hbit, hprogress]
    exact congrArg Host.Outcome.next endCheck_eq

/-! ## The commands that wait (R152) -/

/-- Settles O1: both clauses are the branches of `step`. -/
theorem stepRunsFrontCommand : Obligations.StepRunsFrontCommand :=
  ⟨fun _ _ => rfl, fun s h => by unfold step; rw [h]⟩

theorem unknownFunction_pending {code : Byte} (hx : exec (.unknownFunction code r) s = .next t) : t.pending = s.pending := by
  simp only [exec, execUnknownFunction] at hx
  split at hx <;> cases hx <;> rfl

theorem pending_of_moves (h : Moves s t ∨ ∃ cause, t = s.deviceReset cause) : t.pending = s.pending := by
  rcases h with m | ⟨cause, rfl⟩
  · exact m.pend
  · rfl

theorem request_pending (f : RequestKind) (r : Request) (hx : exec (commandOf f r) s = .next t) : t.pending = s.pending :=
  pending_of_moves (Moves.takeRequest (functionCode f) r ((takeRequest_functionCode f r s).trans hx))

theorem regionTestEnd_pending (ha : s.AtRest) (hx : exec (.regionTestEnd failing) s = .next t) : t.pending = s.pending := by
  simp only [exec, execRegionTestEnd] at hx
  split at hx
  · cases hx; rfl
  · cases hx; rfl
  · next hm =>
    split at hx
    · cases hx; rfl
    · split at hx <;> cases hx
      · rw [regionTested_rest (rest_of_starting ha hm)]
      · rfl

theorem startupCheckEnd_pending (ha : s.AtRest) (hx : exec (.startupCheckEnd failing) s = .next t) :
    t.pending = s.pending := by
  simp only [exec, execStartupCheckEnd] at hx
  split at hx
  · cases hx; rfl
  · cases hx; rfl
  · next hm =>
    split at hx <;> cases hx
    · rw [endCheck_pend, regionTested_rest (rest_of_starting ha hm)]
    · rfl

/-- Settles O2: the start-up check writes its record, and every other command is a chain of moves or a reset, in every mode. -/
theorem execKeepsQueue : Obligations.ExecKeepsQueue := by
  intro c s t ha hh ht hx
  cases c with
  | deviceReset cause => cases hx; rfl
  | startupCheckEnd o => exact startupCheckEnd_pending ha hx
  | regionTestEnd o => exact regionTestEnd_pending ha hx
  | downstreamFrame fr => exact pending_of_moves (Moves.downstreamFrame fr hx)
  | sectorFrameReaction j => exact (Moves.sectorFrameReaction hh j hx).pend
  | blindEntry j => exact (Moves.blindEntry hh j hx).pend
  | probe j => exact (Moves.probe hh j hx).pend
  | progressNotice j => exact (Moves.progressNotice hh j hx).pend
  | reEntrySchedulerReaction j => exact (Moves.reEntrySchedulerReaction hh j hx).pend
  | backoffExpiry k => exact (Moves.backoffExpiry hh k hx).pend
  | shiftMaturity j k => exact (Moves.shiftMaturity j k hx).pend
  | slotFilling j => exact (Moves.slotFilling hh j hx).pend
  | upstreamFrame fr b => exact (Moves.upstreamFrame fr b hx).pend
  | descriptorWalkStep j => exact (Moves.descriptorWalkStep ht j hx).pend
  | windowSweepStep j => exact (Moves.windowSweepStep hh j hx).pend
  | evaluationCompletion j => exact (Moves.evaluationCompletion j hx).pend
  | unknownFunction code r => exact unknownFunction_pending hx
  | echo r => exact request_pending .echo r hx
  | readStartup r => exact request_pending .readStartup r hx
  | restart r => exact request_pending .restart r hx
  | readFaultLatch r => exact request_pending .readFaultLatch r hx
  | provisionTerminal r => exact request_pending .provisionTerminal r hx
  | removeTerminal r => exact request_pending .removeTerminal r hx
  | readTerminal r => exact request_pending .readTerminal r hx
  | clearHealth r => exact request_pending .clearHealth r hx
  | setSector r => exact request_pending .setSector r hx
  | readSector r => exact request_pending .readSector r hx
  | enableSector r => exact request_pending .enableSector r hx
  | disableSector r => exact request_pending .disableSector r hx
  | suspendSector r => exact request_pending .suspendSector r hx
  | resumeSector r => exact request_pending .resumeSector r hx
  | resetSector r => exact request_pending .resetSector r hx
  | forceOutage r => exact request_pending .forceOutage r hx
  | loadLadderBlock r => exact request_pending .loadLadderBlock r hx
  | activateLadder r => exact request_pending .activateLadder r hx
  | readLadder r => exact request_pending .readLadder r hx
  | holdTerminal r => exact request_pending .holdTerminal r hx
  | releaseTerminal r => exact request_pending .releaseTerminal r hx
  | readQueue r => exact request_pending .readQueue r hx

/-! ## The common checks (R154, R159) -/

/-- Every request command is its request served by an owning block. -/
theorem request_served (f : RequestKind) (r : Request) (s : State) :
    ∃ body, exec (commandOf f r) s = .next (s.serve f r body) := by
  cases f <;> exact ⟨_, rfl⟩

/-- A request that fails a common check is answered with its status, and nothing else changes (R154). -/
theorem request_refused {st : Status} (h : s.commonCheck f r = some st) :
    exec (commandOf f r) s = .next (s.emit (soleReply (functionCode f) r.tag (statusCode st) [])) := by
  obtain ⟨body, hx⟩ := request_served f r s
  rw [hx, serve_bad h]

theorem commonCheck_unserved (h : s.mode.serves f = false) : s.commonCheck f r = s.mode.refusal := by
  simp only [State.commonCheck, h, Bool.false_eq_true, if_false]

theorem starting_serves (h1 : f ≠ .echo) (h2 : f ≠ .readStartup) (h3 : f ≠ .restart) : Mode.starting.serves f = false := by
  simp [Mode.serves, h1, h2, h3]

theorem bypass_serves (h1 : f ≠ .echo) (h2 : f ≠ .readStartup) (h3 : f ≠ .restart) (h4 : f ≠ .readFaultLatch) :
    Mode.bypass.serves f = false := by
  simp [Mode.serves, h1, h2, h3, h4]

/-- RUNNING mode serves every request, every mode ECHO, READ STARTUP and RESTART, and BYPASS mode READ FAULT LATCH (R159). -/
theorem serves_of {m : Mode}
    (h : m = .running ∨ f = .echo ∨ f = .readStartup ∨ f = .restart ∨ (m = .bypass ∧ f = .readFaultLatch)) :
    m.serves f = true := by
  rcases h with rfl | rfl | rfl | rfl | ⟨rfl, rfl⟩
  · rfl
  iterate 3 · cases m <;> rfl
  · rfl

theorem commonCheck_badLength (hs : s.mode.serves f = true)
    (hl : 64 < r.length.toNat ∨ r.bytes.length < r.length.toNat ∨ takesLength f r.length.toNat = false) :
    s.commonCheck f r = some .badLength := by
  have hno : lengthAccepted f r = false := by
    rcases hl with h | h | h <;> simp [lengthAccepted, h]
  simp only [State.commonCheck, hs, hno, if_true, Bool.false_eq_true, if_false]

/-- Settles O9: by the first common check that fails, and for an unknown code by the mode. -/
theorem commonChecksRefuse : Obligations.CommonChecksRefuse := by
  refine ⟨fun f r s hm h1 h2 h3 => ?_, fun f r s hm h1 h2 h3 h4 => ?_, fun f r s hserved hl => ?_, fun code r s hc => ?_⟩
  · exact request_refused (st := .starting)
      (by rw [commonCheck_unserved (by rw [hm]; exact starting_serves h1 h2 h3), hm]; rfl)
  · exact request_refused (st := .bypassed)
      (by rw [commonCheck_unserved (by rw [hm]; exact bypass_serves h1 h2 h3 h4), hm]; rfl)
  · exact request_refused (commonCheck_badLength (serves_of hserved) hl)
  · simp only [exec, execUnknownFunction, unknown_code hc]
    rw [reply_sole _ _ _ _ _ (Nat.zero_le _)]
    cases s.mode <;> rfl

/-! ## Requests every mode serves (R157, R165, R166) -/

/-- Settles O7: ECHO is served in every mode, and its parameters are its results. -/
theorem echoReturnsItsBytes : Obligations.EchoReturnsItsBytes := by
  intro r s hl hb
  have hserves : s.mode.serves .echo = true := serves_of (.inr (.inl rfl))
  have hlen : lengthAccepted .echo r = true := by simp [lengthAccepted, takesLength, hl, hb]
  have hshort : (parameters r).length ≤ 192 := by
    rw [parameters, List.length_take]
    omega
  simp only [exec, execEcho, serve_ok hserves hlen]
  rw [answered_ok _ _ _ hshort]
  rfl

/-- A request that takes no parameters and declares none has the length it takes. -/
theorem lengthAccepted_none (hr : r.length = 0) (ht : takesLength f 0 = true) : lengthAccepted f r = true := by
  simp [lengthAccepted, hr, ht]

/-- The results of READ STARTUP are 19 bytes (11-4). -/
theorem startupResults_length (s : State) : s.startupResults.length = 19 := by
  simp only [State.startupResults]
  cases s.startUp.firstFailure <;> simp [bytes16_length, optByte_length]

/-- The part identifier and the revision code end the results (R164, R165). -/
theorem part_bytes (l : List Byte) :
    l ++ bytes16 Config.partIdentifier ++ [Config.revisionCode] = l ++ [0x31, 0x40, 0x01] :=
  List.append_assoc ..

/-- Passed is shown absent, present and no, or present and yes (11-4). -/
theorem passed_bytes (passed : Option Bool) :
    optByte (passed.map yesNo) = match passed with
      | none => [0, 0]
      | some false => [1, 0]
      | some true => [1, 1] := by
  rcases passed with _ | _ | _ <;> rfl

/-- Settles O8: READ STARTUP is served in every mode, and its results are the start-up record field by field. -/
theorem readStartupShowsTheRecord : Obligations.ReadStartupShowsTheRecord := by
  intro r s hr
  have hserves : s.mode.serves .readStartup = true := serves_of (.inr (.inr (.inl rfl)))
  simp only [exec, execReadStartup, serve_ok hserves (lengthAccepted_none hr rfl)]
  rw [answered_ok _ _ _ (by rw [startupResults_length]; decide)]
  unfold State.startupResults
  simp only [part_bytes, passed_bytes]
  rfl

/-- Settles O4: RESTART is served in every mode; without a parameter it resets the part, with one it fails the length check. -/
theorem restartResetsThePart : Obligations.RestartResetsThePart := by
  have hserves (s : State) : s.mode.serves .restart = true := serves_of (.inr (.inr (.inr (.inl rfl))))
  refine ⟨fun r s hr => ⟨s.deviceReset .line, rfl, ?_⟩, fun r s hr => ?_⟩
  · simp only [exec, execRestart, serve_ok (hserves s) (lengthAccepted_none hr rfl), answered_none]
    rfl
  · have hlen : takesLength .restart r.length.toNat = false :=
      decide_eq_false fun h => hr (BitVec.eq_of_toNat_eq h)
    exact request_refused (f := .restart) (commonCheck_badLength (hserves s) (.inr (.inr hlen)))

end Sys2Proof.Machine
end
